-- ==== Sys2Proof/Word.lean ====
section
/-! DEFINITION. The word types of the Dorafen 240. A limb and a register word are both 32 bits (spec 00, 10). -/

namespace Sys2Proof

/-- One whole word of the host bus (R157). -/
abbrev Word := BitVec 32

/-- One limb of a magnitude, the unit in which values are held (R1). -/
abbrev Limb := BitVec 32

/-- A word offset within the register window, as on A5-A0 (R157, R158). -/
abbrev Offset := BitVec 6

/-- A 6-bit slot field, 0 to 63, of which 0 to 47 name a slot (R3). -/
abbrev SlotField := BitVec 6

end Sys2Proof
end

