-- ==== Sys2Proof/Config.lean ====
section
/-! DEFINITION. The fixed sizes of the Dorafen 240. The spec leaves no result, flag or register undefined, so there is
no free value here (INVENTORY.md, "What the manual leaves open"). -/

namespace Sys2Proof.Config

/-- Slots of the Slot Table (R3). -/
abbrev slotCount : Nat := 48

/-- Pages of the Page Pool (R8). -/
abbrev pageCount : Nat := 256

/-- Limbs of a page (R8). -/
abbrev pageLimbs : Nat := 16

/-- The longest value a slot can hold, in limbs (R1). -/
abbrev maxSlotLimbs : Nat := 512

/-- The longest modulus a modular kind accepts, in limbs (R45). -/
abbrev maxModulusLimbs : Nat := 256

/-- Context records of the Context Table (R113). -/
abbrev contextCount : Nat := 4

/-- Operand windows (R143). -/
abbrev windowCount : Nat := 2

/-- Credits of the part (R29). -/
abbrev creditCount : Nat := 16

/-- The largest pool reserve (R14). -/
abbrev maxReserve : Nat := 64

/-- Entries of the Normal Queue (R31). -/
abbrev normalQueueSize : Nat := 12

/-- Entries of the Urgent Queue (R31). -/
abbrev urgentQueueSize : Nat := 4

/-- The largest shift count POST accepts (R26). -/
abbrev maxShift : Nat := 16384

/-- Where steps done stops counting (R65). -/
abbrev maxStepsDone : Nat := 65535

/-- The largest window index, reached only by a data access that steps past 511 (R148). -/
abbrev maxIndex : Nat := 512

/-- CLK periods of one timebase period, for a divider (R90). -/
def timebasePeriod (tbdiv : BitVec 8) : Nat := 16 * (tbdiv.toNat + 1)

end Sys2Proof.Config
end

