-- ==== Sys2Proof/Syntax.lean ====
section
/-! DEFINITION. The commands of the Dorafen 240: one constructor for each row of spec/opcode_table.json, with its operands.
The command KINDS (COPY to FREE) are not commands of this list: they are data that a POST takes from the staging words. -/

namespace Sys2Proof

/-- The sign of a value (R1). -/
inductive Sign where
  | pos
  | neg
  deriving DecidableEq, Repr

/-- The two queues of the Command Intake (R31). -/
inductive QueueId where
  | normal
  | urgent
  deriving DecidableEq, Repr

/-- The level of an input pin. -/
inductive PinLevel where
  | low
  | high
  deriving DecidableEq, Repr

/-- A window number, 0 or 1 (R143). -/
abbrev WindowId := Fin Config.windowCount

/-- The commands that the block takes: host accesses, the reset pin, and the events its own blocks raise. -/
inductive Instr where
  /-- HARDWARE_RESET: RESET_N is driven to a level (R156). -/
  | hardwareReset (resetN : PinLevel)
  /-- SOFT_RESET: a DEVCTL write with bit 0 set (R161). -/
  | softReset
  /-- FLUSH_N: the DEVCTL request for NQ (R34). -/
  | flushN
  /-- FLUSH_U: the DEVCTL request for UQ (R34). -/
  | flushU
  /-- CLEAR_LATCH_N: the DEVCTL request for the NQ latch (R36). -/
  | clearLatchN
  /-- CLEAR_LATCH_U: the DEVCTL request for the UQ latch (R36). -/
  | clearLatchU
  /-- POST: a write to POST, whose data is ignored (R25). -/
  | post (data : Word)
  /-- CQPOP: a write to CQPOP, whose data is ignored (R136). -/
  | cqpop (data : Word)
  /-- INTSTAT_WRITE: a write-one-to-clear of INTSTAT (R138). -/
  | intstatWrite (data : Word)
  /-- INTEN_WRITE: a write to INTEN (R139). -/
  | intenWrite (data : Word)
  /-- TBDIV_WRITE: a write to TBDIV (R90). -/
  | tbdivWrite (data : Word)
  /-- HOLDLIM_WRITE: a write to HOLDLIM (R91). -/
  | holdlimWrite (data : Word)
  /-- POOLRES_WRITE: a write to POOLRES (R14). -/
  | poolresWrite (data : Word)
  /-- REGISTER_WRITE: a write of a word at an offset of the register window (R157, R158). -/
  | registerWrite (offset : Offset) (data : Word)
  /-- PARK: the CTXREQ request, with its target (R121). -/
  | park (target : BitVec 3)
  /-- RESUME: the CTXREQ request, with its target (R123). -/
  | resume (target : BitVec 3)
  /-- ABORT: the CTXREQ request, with its target (R124). -/
  | abort (target : BitVec 3)
  /-- ABORT_URGENT: the CTXREQ request, whose target is ignored (R126). -/
  | abortUrgent (target : BitVec 3)
  /-- SET_PROTECT: the SLOTATTR request on the slot SLOTSEL names (R16). -/
  | setProtect
  /-- CLEAR_PROTECT: the SLOTATTR request on the slot SLOTSEL names (R17). -/
  | clearProtect
  /-- OPEN_READ: the window request (R146). -/
  | openRead (w : WindowId) (slot : SlotField)
  /-- OPEN_WRITE: the window request, with the declared length and sign (R147). -/
  | openWrite (w : WindowId) (slot : SlotField) (length : BitVec 10) (sign : Sign)
  /-- SEEK: the window request (R148). -/
  | seek (w : WindowId) (index : BitVec 10)
  /-- CLOSE: the window request (R152, R153). -/
  | close (w : WindowId)
  /-- CANCEL: the window request (R153). -/
  | cancel (w : WindowId)
  /-- WINDOW_DATA_WRITE: a write to WINnDATA (R149). -/
  | windowDataWrite (w : WindowId) (data : Word)
  /-- WINDOW_DATA_READ: a read of WINnDATA (R150). -/
  | windowDataRead (w : WindowId)
  /-- WINSTAT_WRITE: a write to WINnSTAT, whose data is ignored (R151). -/
  | winstatWrite (w : WindowId) (data : Word)
  /-- TIMEBASE_EVENT: the periodic event of the timebase (R90, R92). -/
  | timebaseEvent
  /-- HOLD_EXPIRY: the expiry of one queue's hold timer (R93). -/
  | holdExpiry (queue : QueueId)
  /-- SELECTION: the Arbiter chooses the Core's next work (R97). -/
  | selection
  /-- STEP_BEGIN: the Core begins its owner's next step (R67, R69). -/
  | stepBegin
  /-- STEP_END: the running step ends (R65). -/
  | stepEnd
  deriving DecidableEq, Repr

end Sys2Proof
end

