-- ==== Sys2Proof/WellFormed.lean ====
section
/-! DEFINITION. What is checked of a command as it is written: a REGISTER_WRITE names a register with no behaviour of its own,
as its row of the table says. (A write to any other offset is the command of that offset's row. The model still carries
such a REGISTER_WRITE to its owner: log entry 14.) Every other operand has exactly the width of its field, so all its values are
well formed. -/

namespace Sys2Proof

/-- The offsets a write to which has a behaviour of its own, and so a row of its own: DEVCTL, INTSTAT, INTEN, TBDIV, HOLDLIM,
POOLRES, POST, CQPOP, CTXREQ, SLOTATTR and the windows' CTL, DATA and STAT (register map of R158). -/
def offsetHasOwnRow (offset : Offset) : Bool :=
  offset.toNat ∈ [0x00, 0x02, 0x03, 0x04, 0x05, 0x07, 0x0C, 0x12, 0x14, 0x1F, 0x20, 0x21, 0x22, 0x24, 0x25, 0x26]

/-- A command is well formed. -/
def Instr.wellFormed : Instr → Bool
  | .registerWrite offset _ => !offsetHasOwnRow offset
  | .hardwareReset _ => true
  | .softReset => true
  | .flushN => true
  | .flushU => true
  | .clearLatchN => true
  | .clearLatchU => true
  | .post _ => true
  | .cqpop _ => true
  | .intstatWrite _ => true
  | .intenWrite _ => true
  | .tbdivWrite _ => true
  | .holdlimWrite _ => true
  | .poolresWrite _ => true
  | .park _ => true
  | .resume _ => true
  | .abort _ => true
  | .abortUrgent _ => true
  | .setProtect => true
  | .clearProtect => true
  | .openRead _ _ => true
  | .openWrite _ _ _ _ => true
  | .seek _ _ => true
  | .close _ => true
  | .cancel _ => true
  | .windowDataWrite _ _ => true
  | .windowDataRead _ => true
  | .winstatWrite _ _ => true
  | .timebaseEvent => true
  | .holdExpiry _ => true
  | .selection => true
  | .stepBegin => true
  | .stepEnd => true

end Sys2Proof
end

