-- ==== Sys2Proof/Machine/State.lean ====
section
/-! DEFINITION. The state of the Dorafen 240 as plain data: every register, queue, list, record and pin the spec gives it, and the
queue of the commands that wait. INVENTORY.md, "State", names the rule of each field. -/

namespace Sys2Proof.Machine

/-! ### Names of the manual -/

/-- The fifteen command kinds (R22, R163). -/
inductive Kind where
  | copy
  | seti
  | add
  | sub
  | shl
  | shr
  | mul
  | divmod
  | modmul
  | modexp
  | modinv
  | gcd
  | cmp
  | bitlen
  | free
  deriving DecidableEq, Repr

/-- What happens to a command at the head while its queue's fault latch is set (R22, R37). -/
inductive Policy where
  | run
  | skip
  deriving DecidableEq, Repr

/-- A command that has started: the one in a context, or the one in the U record (R96). The same names code the Core owner. -/
inductive Runner where
  | ctx (n : Fin Config.contextCount)
  | urgent
  deriving DecidableEq, Repr

/-- A lock holder: C0 to C3 and U, or WIN0 and WIN1 (R81). -/
inductive Holder where
  | run (r : Runner)
  | win (w : WindowId)
  deriving DecidableEq, Repr

/-- The five states of a context; the U record uses `free` for empty and `active` for executing (R114, R115, R129). -/
inductive CtxState where
  | free
  | active
  | resumable
  | parked
  | spaceWait
  deriving DecidableEq, Repr

/-- The three states of a window (R143). -/
inductive WindowState where
  | closed
  | openRead
  | openWrite
  deriving DecidableEq, Repr

/-- The last result of a window (R143). -/
inductive WindowResult where
  | ok
  | refusedState
  | badSlot
  | badLength
  | refusedLocked
  | refusedProtected
  | refusedSpace
  deriving DecidableEq, Repr

/-- LASTRES (R27). -/
inductive PostResult where
  | none
  | accepted
  | badKind
  | badSlot
  | badForm
  | noCredit
  | queueFull
  deriving DecidableEq, Repr

/-- The CTXREQ result (R120). -/
inductive CtxResult where
  | none
  | ok
  | pending
  | refusedState
  | badTarget
  deriving DecidableEq, Repr

/-- The SLOTATTR result (R17). -/
inductive AttrResult where
  | none
  | ok
  | slotBusy
  | badSlot
  deriving DecidableEq, Repr

/-- The twelve completion statuses (R132). -/
inductive Status where
  | done
  | slotProtected
  | divZero
  | badModulus
  | negExponent
  | oversize
  | notInvertible
  | noSpace
  | aborted
  | held
  | skipped
  | flushed
  deriving DecidableEq, Repr

/-- The relation field of a completion record (R58, R131). -/
inductive Relation where
  | none
  | lt
  | eq
  | gt
  deriving DecidableEq, Repr

/-- The six flags of INTSTAT (R137). -/
inductive IntFlag where
  | notify
  | space
  | park
  | held
  | latch
  | winerr
  deriving DecidableEq, Repr

/-! ### Records -/

/-- A page number, 0 to 255 (R8). -/
abbrev PageId := Fin Config.pageCount

/-- The number of one of the 48 slots (R3). -/
abbrev SlotId := Fin Config.slotCount

/-- The number of one of the four contexts (R113). -/
abbrev CtxId := Fin Config.contextCount

/-- The limbs of the page pool: (16 * page + position, limb) pairs in the canonical form of `Memory.wf`. -/
abbrev Memory := List (Nat × Limb)

/-- A slot record (R4). The readers are kept without repeats in the order C0 to C3, U, WIN0, WIN1. -/
structure Slot where
  sign : Sign
  length : Nat
  pages : List PageId
  protect : Bool
  writer : Option Holder
  readers : List Holder
  deriving DecidableEq, Repr

/-- A command record (R22). -/
structure CommandRecord where
  kind : Kind
  queue : QueueId
  policy : Policy
  notify : Bool
  tag : BitVec 16
  d : SlotField
  d2 : SlotField
  a : SlotField
  b : SlotField
  m : SlotField
  imm : Word
  deriving DecidableEq, Repr

/-- A working value: its page list and its length in limbs (R63). -/
structure WorkingValue where
  pages : List PageId
  length : Nat
  deriving DecidableEq, Repr

/-- Which magnitude an ADD or SUB computes (R64). -/
inductive AddForm where
  /-- |a| + |b| -/
  | sum
  /-- |a| less |b|, |a| being the larger or equal -/
  | aLessB
  /-- |b| less |a|, |b| being the larger -/
  | bLessA
  deriving DecidableEq, Repr

/-- The step carry of ADD and SUB: the decision of step 0, the sign of the result, and the carry or borrow (R64). -/
structure StepCarry where
  form : AddForm
  sign : Sign
  carry : Bool
  deriving DecidableEq, Repr

/-- A context record, and the U record, which has the same fields (R113, R114). `checksMade` is the model's own
place for what R69 implies (log entry 13). -/
structure Record where
  state : CtxState
  command : Option CommandRecord
  nextStep : Nat
  stepsDone : Nat
  stepTotal : Nat
  carry : Option StepCarry
  wv0 : WorkingValue
  wv1 : WorkingValue
  wv2 : WorkingValue
  pagesWanted : Nat
  parkPending : Bool
  abortPending : Bool
  checksMade : Bool
  deriving DecidableEq, Repr

/-- A completion record (R131). -/
structure CompletionRecord where
  tag : BitVec 16
  kind : Kind
  queue : QueueId
  status : Status
  holder : Option Runner
  sign : Sign
  zero : Bool
  relation : Relation
  count : Nat
  stepsDone : Nat
  deriving DecidableEq, Repr

/-- A hold timer (R92). `expiring` is a timer whose count reached its limit at the last timebase event and whose expiry event
is still to be taken (log entry 5). -/
inductive HoldTimer where
  | stopped
  | running (count : Nat)
  | expiring
  deriving DecidableEq, Repr

/-- One queue of the Command Intake with what the Intake keeps beside it (R31, R36, R88, R91, R92). -/
structure IntakeQueue where
  entries : List CommandRecord
  latch : Bool
  blocked : Bool
  timer : HoldTimer
  limit : BitVec 16
  deriving DecidableEq, Repr

/-- A window record (R143). -/
structure Window where
  state : WindowState
  slot : SlotId
  index : Nat
  declLength : Nat
  declSign : Sign
  staging : List PageId
  overrun : Bool
  pastEnd : Bool
  lastResult : WindowResult
  deriving DecidableEq, Repr

/-- The whole machine. -/
structure State where
  /-- The level of RESET_N (R156). -/
  resetN : PinLevel
  /-- D31-D0 as the part last drove it in a WINDOW_DATA_READ (R150, log entry 10). -/
  dataOut : Word
  /-- SUBW0 to SUBW3 (R24). -/
  subw : Vector Word 4
  /-- TBDIV (R90, R159). -/
  tbdiv : BitVec 8
  /-- CLK periods to the next timebase event (R90, log entry 11). -/
  timebaseLeft : Nat
  /-- INTEN (R139). -/
  inten : BitVec 6
  /-- The Slot Table (R3, R4). -/
  slots : Vector Slot Config.slotCount
  /-- The limbs of the pages (R8). -/
  mem : Memory
  /-- The free list, head first (R9). -/
  freeList : List PageId
  /-- The pool reserve (R11, R14). -/
  reserve : Nat
  /-- SLOTSEL (R18). -/
  slotsel : SlotField
  /-- The SLOTATTR result (R17). -/
  slotattr : AttrResult
  /-- The Normal Queue (R31). -/
  nq : IntakeQueue
  /-- The Urgent Queue (R31). -/
  uq : IntakeQueue
  /-- The free credit count (R29). -/
  credits : Nat
  /-- LASTRES (R27). -/
  lastres : PostResult
  /-- The Core owner; `none` is IDLE (R96). -/
  owner : Option Runner
  /-- The preemption-pending indicator (R102). -/
  preemptPending : Bool
  /-- A step of the owner has begun and not ended (R65). -/
  stepRunning : Bool
  /-- The four context records (R113). -/
  contexts : Vector Record Config.contextCount
  /-- The U record (R114). -/
  urec : Record
  /-- The resume list, head first (R117). -/
  resumeList : List CtxId
  /-- The CTXREQ result (R120). -/
  ctxreq : CtxResult
  /-- CTXSEL (R128). -/
  ctxsel : BitVec 3
  /-- The Completion Queue, oldest first (R133). -/
  cq : List CompletionRecord
  /-- INTSTAT (R137). -/
  intstat : BitVec 6
  /-- The two window records (R143). -/
  windows : Vector Window Config.windowCount
  /-- The commands that wait, first in, first out. The model's own. -/
  pending : List Instr
  deriving DecidableEq, Repr

/-- The reasons a step can stop the machine: the spec gives none (INVENTORY.md, "Faults"). -/
inductive Fault where
  deriving DecidableEq, Repr

/-- The reasons the model can refuse a command. -/
inductive Refusal where
  /-- Raised by an arm of `exec` whose command has no meaning yet; no arm uses it. Safe: nothing is proved of a step that does
  not come about. -/
  | notModelled (mnemonic : String)
  deriving DecidableEq, Repr

/-! ### The reset values -/

/-- A slot after a hardware reset (R20). -/
def Slot.empty : Slot :=
  { sign := .pos, length := 0, pages := [], protect := false, writer := none, readers := [] }

/-- An empty working value (R63, R80). -/
def WorkingValue.empty : WorkingValue := { pages := [], length := 0 }

/-- A FREE context, and an empty U record (R113, R114). -/
def Record.free : Record :=
  { state := .free, command := none, nextStep := 0, stepsDone := 0, stepTotal := 0, carry := none,
    wv0 := .empty, wv1 := .empty, wv2 := .empty, pagesWanted := 0, parkPending := false, abortPending := false,
    checksMade := false }

/-- A queue after a hardware reset (R39, R91, R112). -/
def IntakeQueue.empty : IntakeQueue :=
  { entries := [], latch := false, blocked := false, timer := .stopped, limit := 0 }

/-- A window after either reset (R155). -/
def Window.closed : Window :=
  { state := .closed, slot := 0, index := 0, declLength := 0, declSign := .pos, staging := [], overrun := false,
    pastEnd := false, lastResult := .ok }

/-- The machine right after a hardware reset has ended (R20, R39, R80, R87, R112, R130, R141, R155, R159).
`dataOut`, `timebaseLeft` and the limbs are the model's choice (log entries 10, 11, 7). -/
def State.reset : State :=
  { resetN := .high
    dataOut := 0
    subw := Vector.replicate 4 0
    tbdiv := 0
    timebaseLeft := Config.timebasePeriod 0
    inten := 0
    slots := Vector.replicate Config.slotCount Slot.empty
    mem := []
    freeList := List.finRange Config.pageCount
    reserve := 0
    slotsel := 0
    slotattr := .none
    nq := .empty
    uq := .empty
    credits := Config.creditCount
    lastres := .none
    owner := none
    preemptPending := false
    stepRunning := false
    contexts := Vector.replicate Config.contextCount Record.free
    urec := Record.free
    resumeList := []
    ctxreq := .none
    ctxsel := 0
    cq := []
    intstat := 0
    windows := Vector.replicate Config.windowCount Window.closed
    pending := [] }

end Sys2Proof.Machine
end

