-- ==== Sys2Proof/Machine/Ops.lean ====
section
/-! DEFINITION. The named operations over the limb memory, page lists, the page pool, slots, locks, records, queues and windows.
Every change of one of these goes through an operation of this file or of Flags.lean. -/

namespace Sys2Proof.Machine

/-! ### The limb memory -/

/-- The limb at an address; an address that is not listed reads as 0 (log entry 7). -/
def Memory.read : Memory → Nat → Limb
  | [], _ => 0
  | (b, w) :: rest, a => if a = b then w else Memory.read rest a

/-- Store a limb at an address, keeping the canonical form: 0 is stored by removing the entry. -/
def Memory.write : Memory → Nat → Limb → Memory
  | [], a, v => if v = 0 then [] else [(a, v)]
  | (b, w) :: rest, a, v =>
    if a < b then (if v = 0 then (b, w) :: rest else (a, v) :: (b, w) :: rest)
    else if a = b then (if v = 0 then rest else (a, v) :: rest)
    else (b, w) :: Memory.write rest a v

/-- The limbs of the pages of a list become zero (R10). -/
def Memory.zeroPages (ps : List PageId) (m : Memory) : Memory :=
  m.filter fun cell => !ps.any fun p => p.val = cell.1 / Config.pageLimbs

/-- The canonical form: addresses of the pool, strictly rising, and no entry equal to what an unlisted address reads as. -/
abbrev Memory.wf (m : Memory) : Prop :=
  m.Pairwise (fun x y => x.1 < y.1) ∧ ∀ cell ∈ m, cell.2 ≠ 0 ∧ cell.1 < Config.pageCount * Config.pageLimbs

/-! ### Page lists and the values they hold -/

/-- pg(n): the pages needed to hold n limbs (00, Conventions). -/
def pg (n : Nat) : Nat := (n + 15) / 16

/-- The address of limb k of a page list: entry k / 16, position k mod 16 (R5). -/
def limbAddress (pages : List PageId) (k : Nat) : Option Nat :=
  pages[k / Config.pageLimbs]?.map fun p => Config.pageLimbs * p.val + k % Config.pageLimbs

/-- Limb k of a page list; beyond the list it reads as zero (R5, R63). -/
def limbAt (mem : Memory) (pages : List PageId) (k : Nat) : Limb :=
  match limbAddress pages k with
  | some a => mem.read a
  | none => 0

/-- Store limb k of a page list. -/
def setLimbAt (mem : Memory) (pages : List PageId) (k : Nat) (v : Limb) : Memory :=
  match limbAddress pages k with
  | some a => mem.write a v
  | none => mem

/-- The number that a limb sequence holds, least significant limb first (R1). -/
def natOfLimbs : List Limb → Nat
  | [] => 0
  | w :: rest => w.toNat + 2 ^ 32 * natOfLimbs rest

/-- The magnitude of the first n limbs of a page list (R1, R5). -/
def magnitude (mem : Memory) (pages : List PageId) (n : Nat) : Nat :=
  natOfLimbs ((List.range n).map (limbAt mem pages))

/-- Limb k of a number. -/
def limbOfNat (x k : Nat) : Limb := BitVec.ofNat 32 (x / 2 ^ (32 * k))

/-- Store limbs lo to lo + count - 1 of the number x at the same positions of a page list. -/
def putLimbs (mem : Memory) (pages : List PageId) (x lo : Nat) : Nat → Memory
  | 0 => mem
  | n + 1 => setLimbAt (putLimbs mem pages x lo n) pages (lo + n) (limbOfNat x (lo + n))

/-- The length left when zero limbs are removed from the most significant end of the first n limbs (R2). -/
def trimmedLength (mem : Memory) (pages : List PageId) : Nat → Nat
  | 0 => 0
  | n + 1 => if limbAt mem pages n = 0 then trimmedLength mem pages n else n + 1

/-- The sign of a normalized value: a value of length 0 takes POS (R2). -/
def normalSign (sign : Sign) (length : Nat) : Sign := if length = 0 then .pos else sign

/-- bl(x): the bit length of a magnitude, 0 for 0 (R1). -/
def bitLength (x : Nat) : Nat := if x = 0 then 0 else x.log2 + 1

/-- The limbs that a magnitude needs, 0 for 0 (R1, R2). -/
def limbCount (x : Nat) : Nat := (bitLength x + 31) / 32

/-! ### Reading and replacing the parts of the state -/

/-- The slot that a 6-bit slot field names, when it names one (R3). -/
def slotNumber (f : SlotField) : Option SlotId :=
  if h : f.toNat < Config.slotCount then some ⟨f.toNat, h⟩ else none

/-- The context that a 3-bit target or record number names, when it names one (R120, R128). -/
def contextNumber (t : BitVec 3) : Option CtxId :=
  if h : t.toNat < Config.contextCount then some ⟨t.toNat, h⟩ else none

def State.slot (s : State) (i : SlotId) : Slot := s.slots[i]

def State.setSlot (s : State) (i : SlotId) (v : Slot) : State := { s with slots := s.slots.set i v }

/-- The record of a started command: its context's, or the U record (R113, R114). -/
def State.record (s : State) : Runner → Record
  | .ctx n => s.contexts[n]
  | .urgent => s.urec

def State.setRecord (s : State) (r : Runner) (v : Record) : State :=
  match r with
  | .ctx n => { s with contexts := s.contexts.set n v }
  | .urgent => { s with urec := v }

def State.queue (s : State) : QueueId → IntakeQueue
  | .normal => s.nq
  | .urgent => s.uq

def State.setQueue (s : State) (q : QueueId) (v : IntakeQueue) : State :=
  match q with
  | .normal => { s with nq := v }
  | .urgent => { s with uq := v }

def State.window (s : State) (w : WindowId) : Window := s.windows[w]

def State.setWindow (s : State) (w : WindowId) (v : Window) : State := { s with windows := s.windows.set w v }

/-- Apply a function to every entry of a table. -/
def mapVector {α : Type} {n : Nat} (f : α → α) (v : Vector α n) : Vector α n :=
  ⟨(v.toList.map f).toArray, by simp⟩

/-- The pages in a record's three working values, WV0 then WV1 then WV2, each in list order (R79). -/
def Record.workPages (j : Record) : List PageId := j.wv0.pages ++ j.wv1.pages ++ j.wv2.pages

/-! ### The page pool -/

/-- The free count (R9). -/
def State.freeCount (s : State) : Nat := s.freeList.length

/-- Whether an acquisition is granted (R10, R11): the urgent command's without the reserve, every other above it, and a demand
of 0 always. -/
def acquisitionGranted (h : Holder) (demand : Nat) (s : State) : Bool :=
  demand = 0 || (if h = .run .urgent then demand ≤ s.freeCount else demand + s.reserve ≤ s.freeCount)

/-- The pages a granted acquisition hands over: the first of the free list, in its order (R10). -/
def State.nextPages (s : State) (demand : Nat) : List PageId := s.freeList.take demand

/-- A granted acquisition: the first pages leave the free list and their limbs become zero (R10). -/
def State.takePages (s : State) (demand : Nat) : State :=
  { s with freeList := s.freeList.drop demand, mem := s.mem.zeroPages (s.nextPages demand) }

/-- The wake test of one context (R119). -/
def State.wakes (s : State) (n : CtxId) : Bool :=
  (s.record (.ctx n)).state = .spaceWait && (s.record (.ctx n)).pagesWanted + s.reserve ≤ s.freeCount

/-- A context that passes the wake test becomes RESUMABLE at the tail of the resume list (R119). -/
def State.wakeContext (s : State) (n : CtxId) : State :=
  if s.wakes n then
    { s.setRecord (.ctx n) { s.record (.ctx n) with state := .resumable, pagesWanted := 0 } with
      resumeList := s.resumeList ++ [n] }
  else s

/-- The wake event: every context that waits for pages is tested, in ascending number (R119). -/
def State.wake (s : State) : State := (List.finRange Config.contextCount).foldl State.wakeContext s

/-- A release: the pages join the tail of the free list in the order given, and the Context Table is notified (R13). -/
def State.release (s : State) (ps : List PageId) : State := { s with freeList := s.freeList ++ ps }.wake

/-! ### Installing a value -/

/-- A slot after the install of a value that a page list holds: its sign, trimmed length and first pages (R6, R2). -/
def Slot.installed (old : Slot) (mem : Memory) (sign : Sign) (pages : List PageId) (n : Nat) : Slot :=
  let len := trimmedLength mem pages n
  { old with sign := normalSign sign len, length := len, pages := pages.take (pg len) }

/-- What the install of R6 gives back: the slot's old pages, then the pages the new value does not need. -/
def Slot.givenBack (old : Slot) (mem : Memory) (pages : List PageId) (n : Nat) : List PageId :=
  old.pages ++ pages.drop (pg (trimmedLength mem pages n))

/-! ### The lock table -/

/-- The seven holders, in the order of SLOTINFO1's bits (R163). -/
def Holder.all : List Holder :=
  [.run (.ctx 0), .run (.ctx 1), .run (.ctx 2), .run (.ctx 3), .run .urgent, .win 0, .win 1]

/-- A set of readers with one more holder; each holder appears once (R81). -/
def addReader (h : Holder) (rs : List Holder) : List Holder := Holder.all.filter fun x => x = h || x ∈ rs

/-- A set of readers without a holder. -/
def dropReader (h : Holder) (rs : List Holder) : List Holder := rs.filter fun x => x ≠ h

/-- A slot after a holder has taken its write lock. -/
def Slot.lockWrite (h : Holder) (v : Slot) : Slot := { v with writer := some h }

/-- A slot after a holder has taken its read lock. -/
def Slot.lockRead (h : Holder) (v : Slot) : Slot := { v with readers := addReader h v.readers }

/-- A slot after a holder's locks on it are released (R84). -/
def Slot.unlock (h : Holder) (v : Slot) : Slot :=
  { v with writer := if v.writer = some h then none else v.writer, readers := dropReader h v.readers }

/-- Change the slot that a slot field names; a field that names no slot changes nothing (log entry 16). -/
def State.updateSlot (s : State) (g : Slot → Slot) (f : SlotField) : State :=
  match slotNumber f with
  | some i => s.setSlot i (g (s.slot i))
  | none => s

/-- Take the write lock on each destination and a read lock on each source (R83). -/
def State.takeLocks (s : State) (h : Holder) (dests sources : List SlotField) : State :=
  sources.foldl (fun t f => t.updateSlot (Slot.lockRead h) f)
    (dests.foldl (fun t f => t.updateSlot (Slot.lockWrite h) f) s)

/-- Every lock of a holder is released (R84). -/
def State.releaseLocks (s : State) (h : Holder) : State := { s with slots := mapVector (Slot.unlock h) s.slots }

/-- Every lock of every holder is cleared (R87). -/
def State.clearLocks (s : State) : State :=
  { s with slots := mapVector (fun v => { v with writer := none, readers := [] }) s.slots }

/-! ### Commands and the reset pin -/

/-- An event that the part takes only after a hardware reset has ended: while RESET_N is low nothing changes (R156). -/
def whenLive (f : State → State) (s : State) : Host.Outcome State Fault Refusal :=
  if s.resetN = .low then .next s else .next (f s)

end Sys2Proof.Machine
end

