-- ==== Sys2Proof/Machine/Operands.lean ====
section
/-! DEFINITION. Every operand form: the bit fields of the words the host writes, the codes of kinds, the command record taken from the
staging words, the slot fields each kind uses, and the values that a command reads from its slots. -/

namespace Sys2Proof.Machine

/-! ### Bit fields of a written word -/

/-- The field of `width` bits of a word that begins at bit `lo` (R163). -/
def wordField (x : Word) (lo width : Nat) : BitVec width := x.extractLsb' lo width

/-- One bit of a word. -/
def wordBit (x : Word) (i : Nat) : Bool := x.getLsbD i

/-- A sign bit: 0 POS, 1 NEG (R163). -/
def signOfBit (b : Bool) : Sign := if b then .neg else .pos

/-- The bit of a sign (R163). -/
def signCode : Sign → Nat
  | .pos => 0
  | .neg => 1

/-! ### Kinds and records -/

/-- The code of a kind (R163). -/
def Kind.code : Kind → Nat
  | .copy => 1
  | .seti => 2
  | .add => 3
  | .sub => 4
  | .shl => 5
  | .shr => 6
  | .mul => 7
  | .divmod => 8
  | .modmul => 9
  | .modexp => 10
  | .modinv => 11
  | .gcd => 12
  | .cmp => 13
  | .bitlen => 14
  | .free => 15

/-- The kind that a kind code names; codes 0 and 16 to 31 name none (R163). -/
def kindOfCode (code : BitVec 5) : Option Kind :=
  match code.toNat with
  | 1 => some .copy
  | 2 => some .seti
  | 3 => some .add
  | 4 => some .sub
  | 5 => some .shl
  | 6 => some .shr
  | 7 => some .mul
  | 8 => some .divmod
  | 9 => some .modmul
  | 10 => some .modexp
  | 11 => some .modinv
  | 12 => some .gcd
  | 13 => some .cmp
  | 14 => some .bitlen
  | 15 => some .free
  | _ => none

/-- The record that the staging words hold, when their kind code names a kind (R22, R163). -/
def recordOfWords (w0 w1 w2 w3 : Word) : Option CommandRecord :=
  (kindOfCode (wordField w0 0 5)).map fun kind =>
    { kind := kind
      queue := if wordBit w0 8 then .urgent else .normal
      policy := if wordBit w0 9 then .skip else .run
      notify := wordBit w0 10
      tag := wordField w0 16 16
      d := wordField w1 0 6
      d2 := wordField w1 8 6
      a := wordField w1 16 6
      b := wordField w1 24 6
      m := wordField w2 0 6
      imm := w3 }

/-- The record staged in SUBW0 to SUBW3 (R24, R25). -/
def State.stagedRecord (s : State) : Option CommandRecord :=
  recordOfWords s.subw[0] s.subw[1] s.subw[2] s.subw[3]

/-- The destinations of a command, in the order they are installed (R23). -/
def CommandRecord.dests (c : CommandRecord) : List SlotField :=
  match c.kind with
  | .copy | .seti | .add | .sub | .shl | .shr | .mul => [c.d]
  | .divmod => [c.d, c.d2]
  | .modmul | .modexp | .modinv | .gcd => [c.d]
  | .cmp | .bitlen => []
  | .free => [c.d]

/-- The sources of a command (R23). -/
def CommandRecord.sources (c : CommandRecord) : List SlotField :=
  match c.kind with
  | .copy => [c.a]
  | .seti => []
  | .add | .sub => [c.a, c.b]
  | .shl | .shr => [c.a]
  | .mul | .divmod => [c.a, c.b]
  | .modmul | .modexp => [c.a, c.b, c.m]
  | .modinv => [c.a, c.m]
  | .gcd | .cmp => [c.a, c.b]
  | .bitlen => [c.a]
  | .free => []

/-- The unsigned shift count of SHL and SHR (R22). -/
def CommandRecord.shift (c : CommandRecord) : Nat := c.imm.toNat

/-! ### Values -/

/-- A signed value with its length in limbs (R1). -/
structure Value where
  sign : Sign
  length : Nat
  mag : Nat
  deriving DecidableEq, Repr

/-- The value as an integer (R1). -/
def Value.toInt (v : Value) : Int :=
  match v.sign with
  | .pos => (v.mag : Int)
  | .neg => -(v.mag : Int)

/-- The value in a slot, read through its page list (R4, R5). -/
def State.slotValue (s : State) (i : SlotId) : Value :=
  { sign := (s.slot i).sign, length := (s.slot i).length, mag := magnitude s.mem (s.slot i).pages (s.slot i).length }

/-- The value in the slot that a field names; a field that names no slot reads as zero (log entry 16). -/
def State.value (s : State) (f : SlotField) : Value :=
  match slotNumber f with
  | some i => s.slotValue i
  | none => { sign := .pos, length := 0, mag := 0 }

/-- Whether the slot that a field names is protected (R15). -/
def State.isProtected (s : State) (f : SlotField) : Bool :=
  match slotNumber f with
  | some i => (s.slot i).protect
  | none => false

/-! ### The startability test -/

/-- A slot carries no lock (R82, R85). -/
def Slot.unlocked (v : Slot) : Bool := v.writer = none && v.readers = []

/-- A test on the slot that a field names; a field that names no slot passes (log entry 16). -/
def State.slotPasses (s : State) (test : Slot → Bool) (f : SlotField) : Bool :=
  match slotNumber f with
  | some i => test (s.slot i)
  | none => true

/-- The test of R82: each destination has no writer and no readers, each source has no writer. -/
def State.startable (s : State) (c : CommandRecord) : Bool :=
  c.dests.all (s.slotPasses Slot.unlocked) && c.sources.all (s.slotPasses fun v => v.writer = none)

/-- The head of a queue (R31). -/
def State.head (s : State) (q : QueueId) : Option CommandRecord := (s.queue q).entries.head?

/-- The head of a queue is present and startable (R82, R97). -/
def State.headStartable (s : State) (q : QueueId) : Bool := (s.head q).any s.startable

end Sys2Proof.Machine
end

