-- ==== Sys2Proof/Machine/Arith.lean ====
section
/-! DEFINITION. The arithmetic of the Core: the step total of each kind (R66), the pages each step declares (R68), the checks of step 0
(R43), the work of each step on the working values (R73 to R76), and which step is the last (R65, R76). -/

namespace Sys2Proof.Machine

/-! ### Step totals, demands and checks -/

/-- The step total, fixed when the command starts; 0 for GCD and MODINV (R66). -/
def State.stepTotalOf (s : State) (c : CommandRecord) : Nat :=
  let la := (s.value c.a).length
  let lb := (s.value c.b).length
  let lm := (s.value c.m).length
  match c.kind with
  | .copy => 1 + pg la
  | .seti => 1
  | .add | .sub => 1 + pg (max la lb + 1)
  | .shl => if 0 < la then 1 + pg (la + (c.shift + 31) / 32) else 1
  | .shr => 1 + pg (la - c.shift / 32)
  | .mul => if 0 < la ∧ 0 < lb then 1 + la else 1
  | .divmod => if lb ≤ la then 1 + (la - lb + 1) else 1
  | .modmul => lm + 4
  | .modexp => 2 + bitLength (s.value c.b).mag
  | .modinv | .gcd => 0
  | .cmp | .bitlen | .free => 1

/-- The pages that a step declares for WV0, WV1 and WV2 (R68). A working value for which a step declares nothing, or which is
held, stands here with 0: it adds nothing to the demand either way (R67). -/
def State.declaredPages (s : State) (c : CommandRecord) (step : Nat) : Nat × Nat × Nat :=
  let la := (s.value c.a).length
  let lb := (s.value c.b).length
  let lm := (s.value c.m).length
  match c.kind with
  | .copy => (step, 0, 0)
  | .seti => if c.imm = 0 then (0, 0, 0) else (1, 0, 0)
  | .add | .sub | .shl | .shr => (step, 0, 0)
  | .mul => if step = 0 then (0, 0, 0) else (pg (lb + step), 0, 0)
  | .divmod => if step = 0 then (0, if 0 < la then pg (la + 1) else 0, 0) else (pg step, 0, 0)
  | .modmul | .modexp => if step = 0 then (pg lm, pg lm, pg (2 * lm + 1)) else (0, 0, 0)
  | .modinv => if step = 0 then (pg (lm + 1), pg (lm + 1), pg (lm + 1)) else (0, 0, 0)
  | .gcd => if step = 0 then (pg (max la lb + 1), pg (max la lb + 1), pg (max la lb + 1)) else (0, 0, 0)
  | .cmp | .bitlen | .free => (0, 0, 0)

/-- What each working value lacks of the pages a step declares (R67). -/
def State.lackingPages (s : State) (c : CommandRecord) (j : Record) : Nat × Nat × Nat :=
  let want := s.declaredPages c j.nextStep
  (want.1 - j.wv0.pages.length, want.2.1 - j.wv1.pages.length, want.2.2 - j.wv2.pages.length)

/-- The demand of a record's next step (R67). -/
def State.demandOf (s : State) (c : CommandRecord) (j : Record) : Nat :=
  let lack := s.lackingPages c j
  lack.1 + lack.2.1 + lack.2.2

/-- The modular kinds' checks: the modulus, its length, and MODEXP's exponent (R43 rows 3 to 5, R45). -/
def modulusFault (m : Value) (exponent : Option Value) : Option Status :=
  if m.length = 0 ∨ m.sign = .neg then some .badModulus
  else if Config.maxModulusLimbs < m.length then some .oversize
  else if exponent.any (fun e => e.sign = .neg) then some .negExponent
  else none

/-- The first check of R43 that a command fails, in the table's order. -/
def State.stepZeroFault (s : State) (c : CommandRecord) : Option Status :=
  if c.dests.any s.isProtected then some .slotProtected
  else
    let a := s.value c.a
    let b := s.value c.b
    let m := s.value c.m
    match c.kind with
    | .divmod => if b.mag = 0 then some .divZero else none
    | .modmul => modulusFault m none
    | .modexp => modulusFault m (some b)
    | .modinv => modulusFault m none
    | .mul => if 0 < a.length ∧ 0 < b.length ∧ Config.maxSlotLimbs < a.length + b.length - 1 then some .oversize else none
    | .shl => if 0 < a.length ∧ Config.maxSlotLimbs < a.length + c.shift / 32 then some .oversize else none
    | .copy | .seti | .add | .sub | .shr | .gcd | .cmp | .bitlen | .free => none

/-! ### Working values -/

/-- The three working values (R63). -/
inductive Wv where
  | wv0
  | wv1
  | wv2
  deriving DecidableEq, Repr

def Record.wv (j : Record) : Wv → WorkingValue
  | .wv0 => j.wv0
  | .wv1 => j.wv1
  | .wv2 => j.wv2

def Record.setWv (j : Record) (i : Wv) (v : WorkingValue) : Record :=
  match i with
  | .wv0 => { j with wv0 := v }
  | .wv1 => { j with wv1 := v }
  | .wv2 => { j with wv2 := v }

/-- What the work of a step changes: the limb memory and the record of the command. -/
structure Work where
  mem : Memory
  job : Record
  deriving DecidableEq, Repr

/-- The magnitude a working value holds; positions at or beyond its length read as zero (R63). -/
def Work.mag (w : Work) (i : Wv) : Nat := magnitude w.mem (w.job.wv i).pages (w.job.wv i).length

/-- Fill limbs lo to hi - 1 of a working value from the number x, and set its length to hi. -/
def Work.fill (w : Work) (i : Wv) (x lo hi : Nat) : Work :=
  { mem := putLimbs w.mem (w.job.wv i).pages x lo (hi - lo)
    job := w.job.setWv i { w.job.wv i with length := hi } }

/-- Set a working value to the number x with a length in limbs. -/
def Work.setMag (w : Work) (i : Wv) (x len : Nat) : Work := w.fill i x 0 len

/-! ### The work of each kind -/

/-- The number of the limbs of x from position lo on, `count` of them. -/
def limbSlice (x lo count : Nat) : Nat := x / 2 ^ (32 * lo) % 2 ^ (32 * count)

/-- Later steps of COPY, SHL and SHR: positions 16(i - 1) to 16i - 1 of the result, up to its length (R73). -/
def Work.fillPage (w : Work) (x step len : Nat) : Work := w.fill .wv0 x (16 * (step - 1)) (min (16 * step) len)

/-- The sign b takes part with in an ADD or a SUB (R48). -/
def flipSign : Sign → Sign
  | .pos => .neg
  | .neg => .pos

/-- Step 0 of ADD and SUB: the magnitudes are added, or the smaller is taken from the larger, whose sign the result takes; the
carry starts at 0 (R48, R73). `b` stands with the sign it takes part with. -/
def addDecision (a b : Value) : StepCarry :=
  if a.sign = b.sign then { form := .sum, sign := a.sign, carry := false }
  else if b.mag ≤ a.mag then { form := .aLessB, sign := a.sign, carry := false }
  else { form := .bLessA, sign := b.sign, carry := false }

/-- The limbs and the outgoing carry or borrow of one page of an ADD or SUB (R73): x and y are the slices of |a| and |b|. -/
def addSlice (k : StepCarry) (x y count : Nat) : Nat × Bool :=
  let base := 2 ^ (32 * count)
  let cin := if k.carry then 1 else 0
  match k.form with
  | .sum => ((x + y + cin) % base, base ≤ x + y + cin)
  | .aLessB => ((x + base - y - cin) % base, x < y + cin)
  | .bLessA => ((y + base - x - cin) % base, y < x + cin)

/-- A later step of ADD or SUB (R73). -/
def Work.addStep (w : Work) (a b : Value) (step : Nat) : Work :=
  match w.job.carry with
  | none => w
  | some k =>
    let lo := 16 * (step - 1)
    let hi := min (16 * step) (max a.length b.length + 1)
    let r := addSlice k (limbSlice a.mag lo (hi - lo)) (limbSlice b.mag lo (hi - lo)) (hi - lo)
    let w' := w.fill .wv0 (r.1 * 2 ^ (32 * lo)) lo hi
    { w' with job := { w'.job with carry := some { k with carry := r.2 } } }

/-- Later step i of MUL: |b| times limb i - 1 of |a|, placed at limb position i - 1, is added into WV0 (R74). -/
def Work.mulStep (w : Work) (a b : Value) (step : Nat) : Work :=
  w.setMag .wv0 (w.mag .wv0 + b.mag * (limbOfNat a.mag (step - 1)).toNat * 2 ^ (32 * (step - 1))) (b.length + step)

/-- Later step i of DIVMOD finds limb la - lb + 1 - i of |q| (R74). -/
def Work.divStep (w : Work) (a b : Value) (step : Nat) : Work :=
  let divisor := b.mag * 2 ^ (32 * (a.length - b.length + 1 - step))
  let digit := w.mag .wv1 / divisor
  (w.setMag .wv1 (w.mag .wv1 - digit * divisor) (a.length + 1)).setMag .wv0 (w.mag .wv0 * 2 ^ 32 + digit) step

/-- x mod m, in 0 to m - 1 (R53). -/
def reduce (x : Int) (m : Nat) : Nat := (x % (m : Int)).toNat

/-- The steps of MODMUL after step 0 (R75). -/
def Work.modmulStep (w : Work) (a b m : Value) (step : Nat) : Work :=
  if step = 1 then w.setMag .wv0 (reduce a.toInt m.mag) m.length
  else if step = 2 then w.setMag .wv1 (reduce b.toInt m.mag) m.length
  else if step = m.length + 3 then w.setMag .wv0 (w.mag .wv2 % m.mag) m.length
  else
    w.setMag .wv2 (w.mag .wv2 + w.mag .wv0 * (limbOfNat (w.mag .wv1) (step - 3)).toNat * 2 ^ (32 * (step - 3)))
      (2 * m.length + 1)

/-- WV0 becomes WV0 times y, reduced, the product being formed in WV2 (R75). -/
def Work.mulReduce (w : Work) (y : Nat) (m : Value) : Work :=
  let w' := w.setMag .wv2 (w.mag .wv0 * y) (2 * m.length + 1)
  w'.setMag .wv0 (w'.mag .wv2 % m.mag) m.length

/-- The steps of MODEXP after step 0: step 1 + j takes bit bl(e) - j of the exponent (R75). -/
def Work.modexpStep (w : Work) (a e m : Value) (step : Nat) : Work :=
  if step = 1 then (w.setMag .wv1 (reduce a.toInt m.mag) m.length).setMag .wv0 (1 % m.mag) m.length
  else
    let squared := w.mulReduce (w.mag .wv0) m
    if e.mag.testBit (bitLength e.mag - (step - 1)) then squared.mulReduce (squared.mag .wv1) m else squared

/-- The steps of GCD (R76). -/
def Work.gcdStep (w : Work) (a b : Value) (step : Nat) : Work :=
  let len := max a.length b.length + 1
  if step = 0 then ((w.setMag .wv0 a.mag len).setMag .wv1 b.mag len).setMag .wv2 0 len
  else
    let y := w.mag .wv1
    let w' := w.setMag .wv2 (w.mag .wv0 % y) len
    (w'.setMag .wv0 y len).setMag .wv1 (w'.mag .wv2) len

/-- MODINV's search: the pair (x, y) and the magnitudes of the coefficients of x and y (R76). -/
structure Search where
  x : Nat
  y : Nat
  cx : Nat
  cy : Nat
  deriving DecidableEq, Repr

/-- One iteration: the pair (x, y) becomes (y, x mod y), and the coefficients follow (R76). Their signs alternate, so their
magnitudes add. -/
def Search.next (z : Search) : Search := { x := z.y, y := z.x % z.y, cx := z.cy, cy := z.cx + z.x / z.y * z.cy }

/-- The coefficient of x with its sign at the end of a step: 0 at step 1, and from then on positive after an even step and
negative after an odd one (R76). -/
def Search.coefficient (z : Search) (step : Nat) : Int := if step % 2 = 0 then z.cx else -z.cx

/-- The pair and the coefficients as the three working values hold them: the coefficient of x in WV0, x in WV1, and in WV2 y, in
as many limbs as x needs, with the coefficient of y in the limbs above (R76, log entry 8). -/
def Work.search (w : Work) : Search :=
  let place := 2 ^ (32 * limbCount (w.mag .wv1))
  { x := w.mag .wv1, y := w.mag .wv2 % place, cx := w.mag .wv0, cy := w.mag .wv2 / place }

/-- Lay the pair and the coefficients into the three working values (R76, log entry 8). -/
def Work.setSearch (w : Work) (m : Value) (z : Search) : Work :=
  ((w.setMag .wv0 z.cx m.length).setMag .wv1 z.x m.length).setMag .wv2 (z.y + z.cy * 2 ^ (32 * limbCount z.x)) (m.length + 1)

/-- The end of a step of the search: at the end of the search, when the divisor is 1, WV0 holds the inverse reduced into
0 to m - 1 (R76). -/
def Work.recordSearch (w : Work) (m : Value) (z : Search) (step : Nat) : Work :=
  let w' := w.setSearch m z
  if z.y = 0 ∧ z.x = 1 then w'.setMag .wv0 (reduce (z.coefficient step) m.mag) m.length else w'

/-- The steps of MODINV after step 0 (R76). -/
def Work.modinvStep (w : Work) (a m : Value) (step : Nat) : Work :=
  if step = 1 then w.recordSearch m { x := m.mag, y := reduce a.toInt m.mag, cx := 0, cy := 1 } step
  else w.recordSearch m w.search.next step

/-- The work of a record's next step, when that step has begun (R73 to R76). -/
def State.stepWork (s : State) (c : CommandRecord) (j : Record) : Work :=
  let w : Work := { mem := s.mem, job := j }
  let i := j.nextStep
  let a := s.value c.a
  let b := s.value c.b
  let m := s.value c.m
  match c.kind with
  | .copy => if i = 0 then w else w.fillPage a.mag i a.length
  | .seti => if c.imm = 0 then w else w.setMag .wv0 c.imm.toInt.natAbs 1
  | .add => if i = 0 then { w with job := { j with carry := some (addDecision a b) } } else w.addStep a b i
  | .sub =>
    if i = 0 then { w with job := { j with carry := some (addDecision a { b with sign := flipSign b.sign }) } }
    else w.addStep a b i
  | .shl => if i = 0 then w else w.fillPage (a.mag * 2 ^ c.shift) i (a.length + (c.shift + 31) / 32)
  | .shr => if i = 0 then w else w.fillPage (a.mag / 2 ^ c.shift) i (a.length - c.shift / 32)
  | .mul => if i = 0 then w else w.mulStep a b i
  | .divmod =>
    if i = 0 then (if 0 < a.length then w.setMag .wv1 a.mag (a.length + 1) else w) else w.divStep a b i
  | .modmul => if i = 0 then w else w.modmulStep a b m i
  | .modexp => if i = 0 then w else w.modexpStep a b m i
  | .modinv => if i = 0 then w else w.modinvStep a m i
  | .gcd => w.gcdStep a b i
  | .cmp | .bitlen | .free => w

/-- Whether the step that has just ended was the last: by the step total, or for GCD and MODINV from the values (R65, R76). -/
def Work.lastStep (w : Work) (kind : Kind) (step : Nat) : Bool :=
  match kind with
  | .gcd => w.mag .wv1 = 0
  | .modinv => step ≠ 0 && w.search.y = 0
  | .copy | .seti | .add | .sub | .shl | .shr | .mul | .divmod | .modmul | .modexp | .cmp | .bitlen | .free => step + 1 = w.job.stepTotal

/-! ### Results -/

/-- The sign of a product or quotient (R51, R52). -/
def productSign (a b : Value) : Sign := if a.sign = b.sign then .pos else .neg

/-- The sign of the result in WV0; a result of length 0 takes POS at the install (R47 to R57, R77). -/
def State.resultSign (s : State) (c : CommandRecord) (j : Record) : Sign :=
  match c.kind with
  | .copy => (s.value c.a).sign
  | .seti => signOfBit c.imm.msb
  | .add | .sub => (j.carry.map StepCarry.sign).getD .pos
  | .shl | .shr => (s.value c.a).sign
  | .mul | .divmod => productSign (s.value c.a) (s.value c.b)
  | .modmul | .modexp | .modinv | .gcd | .cmp | .bitlen | .free => .pos

/-- Whether a kind's result is checked for length at commit (R61). -/
def Kind.checkedAtCommit : Kind → Bool
  | .add | .sub | .shl | .mul => true
  | .copy | .seti | .shr | .divmod | .modmul | .modexp | .modinv | .gcd | .cmp | .bitlen | .free => false

/-- CMP's relation of two signed values (R58). -/
def compareValues (a b : Value) : Relation :=
  if a.toInt < b.toInt then .lt else if a.toInt = b.toInt then .eq else .gt

/-- The fault that ends a command at its last step: OVERSIZE at commit, or NOT_INVERTIBLE (R61, R77). -/
def Work.endFault (w : Work) (kind : Kind) : Option Status :=
  if kind.checkedAtCommit && Config.maxSlotLimbs < trimmedLength w.mem w.job.wv0.pages w.job.wv0.length then some .oversize
  else if kind = .modinv && w.search.x ≠ 1 then some .notInvertible
  else none

end Sys2Proof.Machine
end

