-- ==== Sys2Proof/Machine/Flags.lean ====
section
/-! DEFINITION. Every flag and indicator: the INTSTAT flags and ATTN_N, the blocked indicators with the hold timers they start and stop,
the preemption-pending indicator, the fault latches, and the posting of completion records that sets them, with the skip test that
follows. -/

namespace Sys2Proof.Machine

/-! ### INTSTAT and ATTN_N -/

/-- The bit of a flag in INTSTAT and INTEN (R163). -/
def IntFlag.mask : IntFlag → BitVec 6
  | .notify => 0x01
  | .space => 0x02
  | .park => 0x04
  | .held => 0x08
  | .latch => 0x10
  | .winerr => 0x20

/-- A flag of INTSTAT is set (R137). -/
def State.flag (s : State) (f : IntFlag) : Bool := s.intstat &&& f.mask ≠ 0

/-- Set a flag; a flag already set stays set (R137). -/
def State.raise (s : State) (f : IntFlag) : State := { s with intstat := s.intstat ||| f.mask }

/-- Set a flag when a condition holds. -/
def State.raiseIf (s : State) (cond : Bool) (f : IntFlag) : State := if cond then s.raise f else s

/-- ATTN_N is asserted: some flag is set and enabled (R140). -/
def State.attnAsserted (s : State) : Bool := s.intstat &&& s.inten ≠ 0

/-- The level of the ATTN_N pin, active low (R140). -/
def State.attnN (s : State) : PinLevel := if s.attnAsserted then .low else .high

/-! ### Preemption pending -/

/-- The condition of R102: a normal command owns the Core and the UQ head is startable. -/
def State.preemptDue (s : State) : Bool :=
  match s.owner with
  | some (.ctx _) => s.headStartable .urgent
  | some .urgent => false
  | none => false

/-- The Arbiter recomputes the preemption-pending indicator (R102). -/
def State.refreshPreempt (s : State) : State := { s with preemptPending := s.preemptDue }

/-! ### Blocked indicators and hold timers -/

/-- The head of a queue is present and fails the test of R82 (R88). -/
def State.headBlocked (s : State) (q : QueueId) : Bool := (s.head q).any fun c => !s.startable c

/-- A hold timer when a head becomes blocked: it starts at 0 if the limit is nonzero (R92). -/
def startedTimer (limit : BitVec 16) : HoldTimer := if limit = 0 then .stopped else .running 0

/-- The blocked test of one queue, with the start or stop of its hold timer (R89, R92). -/
def State.blockedTest (s : State) (q : QueueId) : State :=
  let k := s.queue q
  if s.headBlocked q then
    s.setQueue q { k with blocked := true, timer := if k.blocked then k.timer else startedTimer k.limit }
  else s.setQueue q { k with blocked := false, timer := .stopped }

/-- The head has left its queue: the timer stops and the indicator is cleared (R89). -/
def State.headGone (s : State) (q : QueueId) : State :=
  s.setQueue q { s.queue q with blocked := false, timer := .stopped }

/-- The notices of a lock release or a lock taking: both heads are tested and the preemption indicator recomputed
(R84, R89, R102). -/
def State.locksChanged (s : State) : State := ((s.blockedTest .normal).blockedTest .urgent).refreshPreempt

/-! ### Completion records -/

/-- The summary of a result (R62). -/
structure Summary where
  sign : Sign
  zero : Bool
  relation : Relation
  count : Nat
  deriving DecidableEq, Repr

/-- The summary of every record that is not DONE (R62). -/
def Summary.none : Summary := { sign := .pos, zero := false, relation := .none, count := 0 }

/-- Whether a status sets its queue's fault latch (R35). -/
def Status.setsLatch : Status → Bool
  | .done => false
  | .slotProtected => true
  | .divZero => true
  | .badModulus => true
  | .negExponent => true
  | .oversize => true
  | .notInvertible => true
  | .noSpace => true
  | .aborted => true
  | .held => true
  | .skipped => false
  | .flushed => false

/-- The record of a command that started (R131, R132). -/
def startedRecord (c : CommandRecord) (r : Runner) (status : Status) (sum : Summary) (stepsDone : Nat) : CompletionRecord :=
  { tag := c.tag, kind := c.kind, queue := c.queue, status := status, holder := some r, sign := sum.sign, zero := sum.zero,
    relation := sum.relation, count := sum.count, stepsDone := stepsDone }

/-- The record of a command that never started: holder NONE, steps done 0 (R32, R132). -/
def unstartedRecord (status : Status) (c : CommandRecord) : CompletionRecord :=
  { tag := c.tag, kind := c.kind, queue := c.queue, status := status, holder := none, sign := .pos, zero := false,
    relation := .none, count := 0, stepsDone := 0 }

/-- Records join the tail of the Completion Queue, with NOTIFY set when one of their commands asks for it (R133). -/
def State.appendRecords (s : State) (rs : List CompletionRecord) (notify : Bool) : State :=
  { s with cq := s.cq ++ rs }.raiseIf notify .notify

/-- The entries a skip cascade removes: the SKIP commands from the head onward, when the latch is set (R37). -/
def IntakeQueue.skipped (k : IntakeQueue) : List CommandRecord :=
  if k.latch then k.entries.takeWhile fun c => c.policy = .skip else []

/-- The skip test at a queue's head, cascade included; a new head is tested for a lock conflict (R33, R37). -/
def State.skipTest (s : State) (q : QueueId) : State :=
  let k := s.queue q
  if k.skipped = [] then s
  else
    (((s.setQueue q { k with entries := k.entries.drop k.skipped.length }).appendRecords
      (k.skipped.map (unstartedRecord .skipped)) (k.skipped.any fun c => c.notify)).headGone q).blockedTest q

/-- A command has become the head of its queue: the skip test, then the blocked test (R33). -/
def State.newHead (s : State) (q : QueueId) : State := ((s.headGone q).skipTest q).blockedTest q

/-- The head of a queue is removed (R32). -/
def State.dropHead (s : State) (q : QueueId) : State :=
  s.setQueue q { s.queue q with entries := (s.queue q).entries.tail }

/-- A latch-setting record has been posted: the latch and INTSTAT.LATCH are set, and the head is skip-tested (R35). -/
def State.setLatch (s : State) (q : QueueId) : State :=
  ((s.setQueue q { s.queue q with latch := true }).raise .latch).skipTest q

/-- The posting of one completion record (R133, R35). -/
def State.postRecord (s : State) (rec : CompletionRecord) (notify : Bool) : State :=
  if rec.status.setsLatch then (s.appendRecords [rec] notify).setLatch rec.queue else s.appendRecords [rec] notify

end Sys2Proof.Machine
end

