-- ==== Sys2Proof/Machine/Engine.lean ====
section
/-! DEFINITION. What the Arbiter, the Core and the Context Table do with a started command: starting it, suspending it, and every end of
it (R99 to R110, R118, R122, R125). -/

namespace Sys2Proof.Machine

/-! ### Starting -/

/-- The record a start fills in (R99, R113). -/
def Record.started (c : CommandRecord) (stepTotal : Nat) : Record :=
  { Record.free with state := .active, command := some c, stepTotal := stepTotal }

/-- The lowest-numbered FREE context (R97, R99). -/
def State.freeContext (s : State) : Option CtxId :=
  (List.finRange Config.contextCount).find? fun n => (s.record (.ctx n)).state = .free

/-- One start, normal or urgent: the locks are taken, the head leaves its queue, the record is filled, the Core has its owner, and
the head behind is tested against the locks just taken (R99, R100, R33, R89, R102). -/
def State.start (s : State) (q : QueueId) (r : Runner) (c : CommandRecord) : State :=
  let locked := s.takeLocks (.run r) c.dests c.sources
  let placed := (locked.dropHead q).setRecord r (Record.started c (s.stepTotalOf c))
  (({ placed with owner := some r, stepRunning := false } : State).newHead q).locksChanged

/-- The Arbiter resumes a context: it leaves the resume list and is ACTIVE (R101). -/
def State.resumeContext (s : State) (n : CtxId) : State :=
  { s.setRecord (.ctx n) { s.record (.ctx n) with state := .active } with
    resumeList := s.resumeList.filter (· ≠ n), owner := some (.ctx n), stepRunning := false }.refreshPreempt

/-! ### Suspending -/

/-- The Core falls free (R96). -/
def State.coreFree (s : State) : State := { s with owner := none, stepRunning := false }.refreshPreempt

/-- A context becomes PARKED, wherever it stood (R105, R107, R122). -/
def State.parkContext (s : State) (n : CtxId) : State :=
  { s.setRecord (.ctx n) { s.record (.ctx n) with state := .parked, pagesWanted := 0, parkPending := false } with
    resumeList := s.resumeList.filter (· ≠ n) }.raise .park

/-- A context whose acquisition was refused enters SPACE_WAIT, and its wake test is made at once (R108, R118). The test of item 3
stands here as the rule gives it; after a refusal it finds the pool as the refusal left it (log entry 21). -/
def State.enterSpaceWait (s : State) (n : CtxId) (demand : Nat) : State :=
  ((s.setRecord (.ctx n) { s.record (.ctx n) with state := .spaceWait, pagesWanted := demand }).raise .space).wakeContext n

/-- A preempted context becomes RESUMABLE at the head of the resume list (R103). -/
def State.preempted (s : State) (n : CtxId) : State :=
  { s.setRecord (.ctx n) { s.record (.ctx n) with state := .resumable } with resumeList := n :: s.resumeList }

/-! ### Ending -/

/-- The parts every end of a command shares, in their order: the pages it gives back, its locks, its record (R110 items 1 to 4,
R125 items 2 to 5). The command's record is cleared with the pages it gives back, so that the wake event of the release does
not test it (R125). -/
def State.endCommand (s : State) (r : Runner) (gone : List PageId) (rec : CompletionRecord) (notify : Bool) : State :=
  ((((s.setRecord r Record.free).release gone).releaseLocks (.run r)).locksChanged.postRecord rec notify).refreshPreempt

/-- An end that installs nothing: every working page is given back (R79). -/
def State.endUninstalled (s : State) (r : Runner) (c : CommandRecord) (status : Status) : State :=
  s.endCommand r (s.record r).workPages (startedRecord c r status .none (s.record r).stepsDone) c.notify

/-- An end on the Core: the Core falls free after it (R110 item 5). -/
def State.coreEndUninstalled (s : State) (r : Runner) (c : CommandRecord) (status : Status) : State :=
  (s.endUninstalled r c status).coreFree

/-- Install a working value into the slot that a field names; the pages given back come with the state (R6, R78). A field that
names no slot receives nothing and all the pages are given back (log entry 16). -/
def State.installInto (s : State) (f : SlotField) (sign : Sign) (pages : List PageId) (n : Nat) : State × List PageId :=
  match slotNumber f with
  | some i => (s.setSlot i ((s.slot i).installed s.mem sign pages n), (s.slot i).givenBack s.mem pages n)
  | none => (s, pages)

/-- The summary of a DONE record with a destination: what the slot named by D holds (R62). -/
def State.destinationSummary (s : State) (f : SlotField) : Summary :=
  let v := s.value f
  { sign := v.sign, zero := v.length = 0, relation := .none, count := v.length }

/-- The slot that a field names becomes zero; its pages are given back (R7). -/
def State.freeSlot (s : State) (f : SlotField) : State × List PageId :=
  match slotNumber f with
  | some i => (s.setSlot i { s.slot i with sign := .pos, length := 0, pages := [] }, (s.slot i).pages)
  | none => (s, [])

/-- What the commit of a kind changes: nothing, the slot a FREE empties, one destination, or DIVMOD's two (R77, R78). -/
inductive CommitForm where
  | nothing
  | freed
  | one
  | two
  deriving DecidableEq, Repr

/-- The commit of each kind (R78). -/
def Kind.commitForm : Kind → CommitForm
  | .cmp | .bitlen => .nothing
  | .free => .freed
  | .divmod => .two
  | .copy | .seti | .add | .sub | .shl | .shr | .mul | .modmul | .modexp | .modinv | .gcd => .one

/-- The commit's changes of slots, with the pages it gives back, in the order of R78. -/
def State.commitSlots (s : State) (c : CommandRecord) (j : Record) : State × List PageId :=
  match c.kind.commitForm with
  | .nothing => (s, j.workPages)
  | .freed =>
    let emptied := s.freeSlot c.d
    (emptied.1, emptied.2 ++ j.workPages)
  | .one =>
    let first := s.installInto c.d (s.resultSign c j) j.wv0.pages j.wv0.length
    (first.1, first.2 ++ j.wv1.pages ++ j.wv2.pages)
  | .two =>
    let first := s.installInto c.d (s.resultSign c j) j.wv0.pages j.wv0.length
    let second := first.1.installInto c.d2 (s.value c.a).sign j.wv1.pages j.wv1.length
    (second.1, first.2 ++ second.2 ++ j.wv2.pages)

/-- The summary of a DONE record: of the slot named by D after the commit, or CMP's relation, or BITLEN's bit length (R62). -/
def State.doneSummary (before after : State) (c : CommandRecord) : Summary :=
  match c.kind with
  | .cmp => { Summary.none with relation := compareValues (before.value c.a) (before.value c.b) }
  | .bitlen => { Summary.none with count := bitLength (before.value c.a).mag }
  | .copy | .seti | .add | .sub | .shl | .shr | .mul | .divmod | .modmul | .modexp | .modinv | .gcd | .free =>
    after.destinationSummary c.d

/-- The end of a command's last step: a fault found there, or the commit with DONE (R77, R78, R110). -/
def State.finish (s : State) (r : Runner) (c : CommandRecord) (w : Work) : State :=
  match w.endFault c.kind with
  | some status => s.coreEndUninstalled r c status
  | none =>
    let committed := s.commitSlots c w.job
    (committed.1.endCommand r committed.2
      (startedRecord c r .done (s.doneSummary committed.1 c) w.job.stepsDone) c.notify).coreFree

/-! ### Acquisitions -/

/-- A refused acquisition: a pending abort ends the command, a pending park parks the context; otherwise the context enters
SPACE_WAIT or the urgent command ends with NO_SPACE (R107, R108, R109). At a boundary no request is still pending here, since
the boundary takes them first (R107). R118 lets a release or a reserve write be taken between the refusal and the entry into
SPACE_WAIT; that the model makes the two one event, with nothing between, is its own choice (log entry 21). -/
def State.shortfall (s : State) (r : Runner) (c : CommandRecord) (demand : Nat) : State :=
  let j := s.record r
  if j.abortPending then s.coreEndUninstalled r c .aborted
  else
    match r with
    | .urgent => s.coreEndUninstalled .urgent c .noSpace
    | .ctx n => if j.parkPending then (s.parkContext n).coreFree else (s.enterSpaceWait n demand).coreFree

/-- A record whose working values have received the pages of a granted acquisition: WV0, then WV1, then WV2, in free-list order
(R10, R67). -/
def Record.withPages (j : Record) (lack : Nat × Nat × Nat) (ps : List PageId) : Record :=
  { j with
    wv0 := { j.wv0 with pages := j.wv0.pages ++ ps.take lack.1 }
    wv1 := { j.wv1 with pages := j.wv1.pages ++ (ps.drop lack.1).take lack.2.1 }
    wv2 := { j.wv2 with pages := j.wv2.pages ++ (ps.drop (lack.1 + lack.2.1)).take lack.2.2 } }

/-- The acquisition at the beginning of a record's next step (R67, R10, R11). -/
def State.acquireStep (s : State) (r : Runner) (c : CommandRecord) : State :=
  let j := s.record r
  let demand := s.demandOf c j
  if acquisitionGranted (.run r) demand s then
    { (s.takePages demand).setRecord r (j.withPages (s.lackingPages c j) (s.nextPages demand)) with stepRunning := true }
  else s.shortfall r c demand

/-! ### Step boundaries -/

/-- A boundary of a normal command: abort, then park, then the recheck of the UQ head; when none is taken the next step begins
with its acquisition, in the same event (R105, R103, R107; log entry 4). -/
def State.normalBoundary (s : State) (n : CtxId) (c : CommandRecord) : State :=
  let j := s.record (.ctx n)
  if j.abortPending then s.coreEndUninstalled (.ctx n) c .aborted
  else if j.parkPending then (s.parkContext n).coreFree
  else
    match s.head .urgent with
    | some u => if s.startable u then (s.preempted n).start .urgent .urgent u else s.acquireStep (.ctx n) c
    | none => s.acquireStep (.ctx n) c

/-- A boundary of the urgent command: a pending abort and nothing else; otherwise the next step begins with its acquisition
(R106). -/
def State.urgentBoundary (s : State) (c : CommandRecord) : State :=
  if s.urec.abortPending then s.coreEndUninstalled .urgent c .aborted else s.acquireStep .urgent c

/-- A step boundary (R105, R106). -/
def State.boundary (s : State) (r : Runner) (c : CommandRecord) : State :=
  match r with
  | .ctx n => s.normalBoundary n c
  | .urgent => s.urgentBoundary c

/-- The steps done after one more step: they stay at 65,535 (R65). -/
def countStep (n : Nat) : Nat := min (n + 1) Config.maxStepsDone

/-- The beginning of the owner's next step: at step 0 the checks of R43, made once, then the acquisition (R69). -/
def State.beginStep (s : State) (r : Runner) (c : CommandRecord) : State :=
  let j := s.record r
  if j.nextStep = 0 && !j.checksMade then
    match s.stepZeroFault c with
    | some status => (s.setRecord r { j with stepsDone := 1 }).coreEndUninstalled r c status
    | none => (s.setRecord r { j with checksMade := true }).acquireStep r c
  else s.acquireStep r c

/-- The end of the running step: its work is on the working values, steps done and next step advance, and either the command ends
or the boundary is taken (R65, R77, R105, R106). -/
def State.endStep (s : State) (r : Runner) (c : CommandRecord) : State :=
  let step := (s.record r).nextStep
  let w := s.stepWork c (s.record r)
  let j := { w.job with nextStep := step + 1, stepsDone := countStep (s.record r).stepsDone }
  let worked := { s.setRecord r j with mem := w.mem, stepRunning := false }
  if w.lastStep c.kind step then worked.finish r c { w with job := j } else worked.boundary r c

end Sys2Proof.Machine
end

