-- ==== Sys2Proof/Machine/Arbiter.lean ====
section
/-! DEFINITION. The events of the Arbiter and the Core: SELECTION, STEP_BEGIN, STEP_END (R97, R67, R65). -/

namespace Sys2Proof.Machine

/-- The NQ head's part of a selection: it starts in the lowest-numbered FREE context when it is startable (R97 item 3, R99). -/
def State.selectNormal (s : State) : State :=
  match s.head .normal, s.freeContext with
  | some c, some n => if s.startable c then s.start .normal (.ctx n) c else s
  | _, _ => s

/-- The resume list's part of a selection (R97 item 2, R101). -/
def State.selectResume (s : State) : State :=
  match s.resumeList with
  | n :: _ => s.resumeContext n
  | [] => s.selectNormal

/-- The choice of the Core's next work, when the Core is free (R97). -/
def State.selectWork (s : State) : State :=
  match s.head .urgent with
  | some u => if s.startable u then s.start .urgent .urgent u else s.selectResume
  | none => s.selectResume

/-- A selection; while the Core is busy a notice only updates the preemption-pending indicator (R97). -/
def State.select (s : State) : State :=
  match s.owner with
  | none => s.selectWork
  | some _ => s.refreshPreempt

/-- SELECTION (R97). -/
def execSelection (s : State) : Host.Outcome State Fault Refusal := whenLive State.select s

/-- The owner of the Core with the command its record holds, when there is one. -/
def State.ownedCommand (s : State) : Option (Runner × CommandRecord) :=
  match s.owner with
  | none => none
  | some r => (s.record r).command.map fun c => (r, c)

/-- The Core begins its owner's next step, when no step is running: step 0 after a start, or the next step after a resume, each
an event of its own (R67, R69, R99, R101; log entries 3 and 4). -/
def State.coreBegin (s : State) : State :=
  match s.ownedCommand with
  | none => s
  | some (r, c) => if s.stepRunning then s else s.beginStep r c

/-- STEP_BEGIN (R67, R69). -/
def execStepBegin (s : State) : Host.Outcome State Fault Refusal := whenLive State.coreBegin s

/-- The running step ends (R65; log entry 3). -/
def State.coreEnd (s : State) : State :=
  match s.ownedCommand with
  | none => s
  | some (r, c) => if s.stepRunning then s.endStep r c else s

/-- STEP_END (R65). -/
def execStepEnd (s : State) : Host.Outcome State Fault Refusal := whenLive State.coreEnd s

end Sys2Proof.Machine
end

