-- ==== Sys2Proof/Machine/Completion.lean ====
section
/-! DEFINITION. The commands of the Completion Queue and the interrupt registers: CQPOP, INTSTAT_WRITE, INTEN_WRITE. -/

namespace Sys2Proof.Machine

/-- A pop removes the oldest record, if there is one, and returns its credit (R136, R30). -/
def State.pop (s : State) : State :=
  match s.cq with
  | [] => s
  | _ :: rest => { s with cq := rest, credits := s.credits + 1 }

/-- CQPOP; the data written is ignored (R136). -/
def execCqpop (_data : Word) (s : State) : Host.Outcome State Fault Refusal := whenLive State.pop s

/-- The write-one-to-clear of INTSTAT (R138). -/
def State.writeIntstat (s : State) (data : Word) : State := { s with intstat := s.intstat &&& ~~~ wordField data 0 6 }

/-- INTSTAT_WRITE (R138). -/
def execIntstatWrite (data : Word) (s : State) : Host.Outcome State Fault Refusal :=
  whenLive (fun t => t.writeIntstat data) s

/-- The write of the six enables (R139). -/
def State.writeInten (s : State) (data : Word) : State := { s with inten := wordField data 0 6 }

/-- INTEN_WRITE (R139). -/
def execIntenWrite (data : Word) (s : State) : Host.Outcome State Fault Refusal := whenLive (fun t => t.writeInten data) s

end Sys2Proof.Machine
end

