-- ==== Sys2Proof/Machine/Contexts.lean ====
section
/-! DEFINITION. The host's context requests, written through CTXREQ: PARK, RESUME, ABORT, ABORT_URGENT (R120 to R126). -/

namespace Sys2Proof.Machine

/-- A request that names a context by its target; a target above 3 is BAD_TARGET (R120). -/
def State.onTarget (s : State) (target : BitVec 3) (f : CtxId → State) : State :=
  match contextNumber target with
  | none => { s with ctxreq := .badTarget }
  | some n => f n

/-- PARK on a context, by its state (R121, R122). -/
def State.park (s : State) (n : CtxId) : State :=
  match (s.record (.ctx n)).state with
  | .active => { s.setRecord (.ctx n) { s.record (.ctx n) with parkPending := true } with ctxreq := .pending }
  | .resumable | .spaceWait => { s.parkContext n with ctxreq := .ok }
  | .parked | .free => { s with ctxreq := .refusedState }

/-- PARK (R120, R121). -/
def execPark (target : BitVec 3) (s : State) : Host.Outcome State Fault Refusal :=
  whenLive (fun t => t.onTarget target t.park) s

/-- RESUME on a context: a PARKED one becomes RESUMABLE at the tail of the resume list (R123). -/
def State.resume (s : State) (n : CtxId) : State :=
  match (s.record (.ctx n)).state with
  | .parked =>
    { s.setRecord (.ctx n) { s.record (.ctx n) with state := .resumable } with
      resumeList := s.resumeList ++ [n], ctxreq := .ok }
  | .active | .resumable | .spaceWait | .free => { s with ctxreq := .refusedState }

/-- RESUME (R120, R123). -/
def execResume (target : BitVec 3) (s : State) : Host.Outcome State Fault Refusal :=
  whenLive (fun t => t.onTarget target t.resume) s

/-- The abort of a suspended context, taken at once (R125). -/
def State.abortSuspended (s : State) (n : CtxId) : State :=
  let unlisted := { s with resumeList := s.resumeList.filter (· ≠ n) }
  match (s.record (.ctx n)).command with
  | some c => unlisted.endUninstalled (.ctx n) c .aborted
  | none => unlisted.setRecord (.ctx n) Record.free

/-- ABORT on a context, by its state (R124, R125). -/
def State.abort (s : State) (n : CtxId) : State :=
  match (s.record (.ctx n)).state with
  | .active => { s.setRecord (.ctx n) { s.record (.ctx n) with abortPending := true } with ctxreq := .pending }
  | .resumable | .parked | .spaceWait => { s.abortSuspended n with ctxreq := .ok }
  | .free => { s with ctxreq := .refusedState }

/-- ABORT (R120, R124). -/
def execAbort (target : BitVec 3) (s : State) : Host.Outcome State Fault Refusal :=
  whenLive (fun t => t.onTarget target t.abort) s

/-- ABORT_URGENT on the U record (R126). -/
def State.abortUrgent (s : State) : State :=
  if s.urec.state = .active then { s with urec := { s.urec with abortPending := true }, ctxreq := .pending }
  else { s with ctxreq := .refusedState }

/-- ABORT_URGENT; the target field is ignored (R120, R126). -/
def execAbortUrgent (_target : BitVec 3) (s : State) : Host.Outcome State Fault Refusal := whenLive State.abortUrgent s

end Sys2Proof.Machine
end

