-- ==== Sys2Proof/Machine/Intake.lean ====
section
/-! DEFINITION. The commands of the Command Intake: FLUSH_N, FLUSH_U, CLEAR_LATCH_N, CLEAR_LATCH_U, POST, HOLDLIM_WRITE, TIMEBASE_EVENT
and HOLD_EXPIRY, with TBDIV_WRITE, which restarts the timebase, and the CLK period that an idle step is. -/

namespace Sys2Proof.Machine

/-! ### Flushing and clearing -/

/-- The flush of a queue: every waiting command is removed, head first, with a FLUSHED record; the timer stops (R34). -/
def State.flush (s : State) (q : QueueId) : State :=
  let k := s.queue q
  (((s.setQueue q { k with entries := [] }).appendRecords (k.entries.map (unstartedRecord .flushed))
    (k.entries.any fun c => c.notify)).headGone q).refreshPreempt

/-- FLUSH_N (R34). -/
def execFlushN (s : State) : Host.Outcome State Fault Refusal := whenLive (fun t => t.flush .normal) s

/-- FLUSH_U (R34). -/
def execFlushU (s : State) : Host.Outcome State Fault Refusal := whenLive (fun t => t.flush .urgent) s

/-- The clear of a queue's fault latch; no queued command is tested or moved (R36). -/
def State.clearLatch (s : State) (q : QueueId) : State := s.setQueue q { s.queue q with latch := false }

/-- CLEAR_LATCH_N (R36). -/
def execClearLatchN (s : State) : Host.Outcome State Fault Refusal := whenLive (fun t => t.clearLatch .normal) s

/-- CLEAR_LATCH_U (R36). -/
def execClearLatchU (s : State) : Host.Outcome State Fault Refusal := whenLive (fun t => t.clearLatch .urgent) s

/-! ### Posting -/

/-- The entries a queue holds at most (R31). -/
def queueSize : QueueId → Nat
  | .normal => Config.normalQueueSize
  | .urgent => Config.urgentQueueSize

/-- A slot field that a command's kind uses names no slot (R26 check 2). -/
def CommandRecord.badSlot (c : CommandRecord) : Bool :=
  (c.dests ++ c.sources).any fun f => slotNumber f = none

/-- DIVMOD with D equal to D2, or a shift count above 16384 (R26 check 3). -/
def CommandRecord.badForm (c : CommandRecord) : Bool :=
  match c.kind with
  | .divmod => c.d = c.d2
  | .shl | .shr => Config.maxShift < c.shift
  | .copy | .seti | .add | .sub | .mul | .modmul | .modexp | .modinv | .gcd | .cmp | .bitlen | .free => false

/-- The checks of R26 on the staged record, in order. -/
def State.judge (s : State) (staged : Option CommandRecord) : PostResult :=
  match staged with
  | none => .badKind
  | some c =>
    if c.badSlot then .badSlot
    else if c.badForm then .badForm
    else if s.credits = 0 then .noCredit
    else if queueSize c.queue ≤ (s.queue c.queue).entries.length then .queueFull
    else .accepted

/-- An accepted record: it takes a credit and joins the tail of its queue; in an empty queue it is the new head at once
(R25, R33). -/
def State.accept (s : State) (c : CommandRecord) : State :=
  let k := s.queue c.queue
  let t := { s with credits := s.credits - 1, lastres := .accepted }.setQueue c.queue { k with entries := k.entries ++ [c] }
  if k.entries = [] then (t.newHead c.queue).refreshPreempt else t

/-- A POST: accepted, or refused with only LASTRES changed (R25). -/
def State.post (s : State) : State :=
  match s.judge s.stagedRecord, s.stagedRecord with
  | .accepted, some c => s.accept c
  | result, _ => { s with lastres := result }

/-- POST; the data written is ignored (R25). -/
def execPost (_data : Word) (s : State) : Host.Outcome State Fault Refusal := whenLive State.post s

/-! ### Hold limits, the timebase and expiry -/

/-- One queue's timer answers to a written limit (R91). -/
def IntakeQueue.writeLimit (k : IntakeQueue) (limit : BitVec 16) : IntakeQueue :=
  if limit = k.limit then k
  else if limit = 0 then { k with limit := limit, timer := .stopped }
  else if k.limit = 0 ∧ k.blocked then { k with limit := limit, timer := .running 0 }
  else { k with limit := limit }

/-- The HOLDLIM write hands both limits to the Intake (R91, R159). -/
def State.writeHoldlim (s : State) (data : Word) : State :=
  { s with nq := s.nq.writeLimit (wordField data 0 16), uq := s.uq.writeLimit (wordField data 16 16) }

/-- HOLDLIM_WRITE (R91). -/
def execHoldlimWrite (data : Word) (s : State) : Host.Outcome State Fault Refusal :=
  whenLive (fun t => t.writeHoldlim data) s

/-- A TBDIV write sets the divider and restarts the timebase; no count changes (R90, R159). -/
def State.writeTbdiv (s : State) (data : Word) : State :=
  { s with tbdiv := wordField data 0 8, timebaseLeft := Config.timebasePeriod (wordField data 0 8) }

/-- TBDIV_WRITE (R90). -/
def execTbdivWrite (data : Word) (s : State) : Host.Outcome State Fault Refusal := whenLive (fun t => t.writeTbdiv data) s

/-- One queue's timer counts a timebase event; at its limit it is to expire (R92, log entry 5). -/
def IntakeQueue.countTimebase (k : IntakeQueue) : IntakeQueue :=
  match k.timer with
  | .stopped => k
  | .running n => { k with timer := if k.limit.toNat ≤ n + 1 then .expiring else .running (n + 1) }
  | .expiring => k

/-- A timebase event: each running timer counts, and the next event is one period away (R90, R92). -/
def State.timebase (s : State) : State :=
  { s with nq := s.nq.countTimebase, uq := s.uq.countTimebase, timebaseLeft := Config.timebasePeriod s.tbdiv }

/-- TIMEBASE_EVENT (R90, R92). -/
def execTimebaseEvent (s : State) : Host.Outcome State Fault Refusal := whenLive State.timebase s

/-- One CLK period in which nothing is commanded: the timebase comes nearer, and its event is taken when it is due
(R90, log entry 2). -/
def State.clockTick (s : State) : State :=
  if s.resetN = .low then s
  else if s.timebaseLeft ≤ 1 then s.timebase
  else { s with timebaseLeft := s.timebaseLeft - 1 }

/-- The expiry of a queue's hold timer: the head is HELD, and the head behind it is tested (R93). A timer that is not to
expire changes nothing (log entries 3 and 5). -/
def State.expire (s : State) (q : QueueId) : State :=
  match (s.queue q).timer, s.head q with
  | .expiring, some c =>
    (((((s.dropHead q).headGone q).postRecord (unstartedRecord .held c) c.notify).raise .held).newHead q).refreshPreempt
  | _, _ => s

/-- HOLD_EXPIRY (R93). -/
def execHoldExpiry (queue : QueueId) (s : State) : Host.Outcome State Fault Refusal := whenLive (fun t => t.expire queue) s

end Sys2Proof.Machine
end

