-- ==== Sys2Proof/Machine/Resets.lean ====
section
/-! DEFINITION. The two resets: HARDWARE_RESET (R156) and SOFT_RESET (R161). -/

namespace Sys2Proof.Machine

/-- Every block at its hardware reset values, with RESET_N at a level; the commands that wait stay (R156, log entry 12). -/
def State.hardwareResetValues (s : State) (level : PinLevel) : State :=
  { State.reset with resetN := level, pending := s.pending }

/-- HARDWARE_RESET. RESET_N low holds every block at its hardware reset values; when it rises the part begins taking accesses and
the timebase runs. A level that RESET_N already has changes nothing but what the low level holds (R156). -/
def execHardwareReset (resetN : PinLevel) (s : State) : Host.Outcome State Fault Refusal :=
  match resetN with
  | .low => .next (s.hardwareResetValues .low)
  | .high => if s.resetN = .low then .next (s.hardwareResetValues .high) else .next s

/-- The pages a soft reset releases, in its order: contexts 0 to 3, the U record, window 0 and window 1 staging (R21). -/
def State.softResetPages (s : State) : List PageId :=
  (s.record (.ctx 0)).workPages ++ (s.record (.ctx 1)).workPages ++ (s.record (.ctx 2)).workPages ++
    (s.record (.ctx 3)).workPages ++ s.urec.workPages ++ (s.window 0).staging ++ (s.window 1).staging

/-- A queue after a soft reset: emptied, its latch clear and its timer stopped, its limit kept (R40, R91). -/
def IntakeQueue.softReset (k : IntakeQueue) : IntakeQueue := { IntakeQueue.empty with limit := k.limit }

/-- The soft reset of the whole part (R161): R21, R40, R80, R87, R112, R130, R142, R155. -/
def State.softReset (s : State) : State :=
  { s.clearLocks with
    freeList := s.freeList ++ s.softResetPages
    slotattr := .none
    nq := s.nq.softReset
    uq := s.uq.softReset
    credits := Config.creditCount
    lastres := .none
    owner := none
    preemptPending := false
    stepRunning := false
    contexts := Vector.replicate Config.contextCount Record.free
    urec := Record.free
    resumeList := []
    ctxreq := .none
    cq := []
    intstat := 0
    windows := Vector.replicate Config.windowCount Window.closed }

/-- SOFT_RESET (R161). -/
def execSoftReset (s : State) : Host.Outcome State Fault Refusal := whenLive State.softReset s

end Sys2Proof.Machine
end

