-- ==== Sys2Proof/Machine/Store.lean ====
section
/-! DEFINITION. The commands of the Operand Store: POOLRES_WRITE, SET_PROTECT, CLEAR_PROTECT. -/

namespace Sys2Proof.Machine

/-- The reserve that a written number gives: above 64 it is 64 (R14). -/
def reserveOf (written : BitVec 7) : Nat := min written.toNat Config.maxReserve

/-- The write of the pool reserve, with the notice that follows (R14, R119). -/
def State.writePoolres (s : State) (data : Word) : State := { s with reserve := reserveOf (wordField data 0 7) }.wake

/-- POOLRES_WRITE (R14). -/
def execPoolresWrite (data : Word) (s : State) : Host.Outcome State Fault Refusal :=
  whenLive (fun t => t.writePoolres data) s

/-- The set-protect request on the slot SLOTSEL names (R16). -/
def State.setProtect (s : State) : State :=
  match slotNumber s.slotsel with
  | none => { s with slotattr := .badSlot }
  | some i =>
    if (s.slot i).writer ≠ none then { s with slotattr := .slotBusy }
    else { s.setSlot i { s.slot i with protect := true } with slotattr := .ok }

/-- SET_PROTECT (R16). -/
def execSetProtect (s : State) : Host.Outcome State Fault Refusal := whenLive State.setProtect s

/-- The clear-protect request on the slot SLOTSEL names, whatever locks it carries (R17). -/
def State.clearProtect (s : State) : State :=
  match slotNumber s.slotsel with
  | none => { s with slotattr := .badSlot }
  | some i => { s.setSlot i { s.slot i with protect := false } with slotattr := .ok }

/-- CLEAR_PROTECT (R17). -/
def execClearProtect (s : State) : Host.Outcome State Fault Refusal := whenLive State.clearProtect s

end Sys2Proof.Machine
end

