-- ==== Sys2Proof/Machine/Windows.lean ====
section
/-! DEFINITION. The commands of the two operand windows: OPEN_READ, OPEN_WRITE, SEEK, CLOSE, CANCEL, WINDOW_DATA_WRITE,
WINDOW_DATA_READ, WINSTAT_WRITE (R143 to R153). -/

namespace Sys2Proof.Machine

/-- A refused request changes the last result and sets WINERR (R144). -/
def State.refuseWindow (s : State) (w : WindowId) (result : WindowResult) : State :=
  (s.setWindow w { s.window w with lastResult := result }).raise .winerr

/-- A window record after its session has ended: the CLOSED values, with the sticky flags kept (R151, R152 item 4). -/
def Window.ended (v : Window) : Window := { Window.closed with overrun := v.overrun, pastEnd := v.pastEnd }

/-! ### Opening -/

/-- The tests of R145 on an OPEN_READ; the slot is what the open acts on when none fails. -/
def State.openReadTest (s : State) (w : WindowId) (slot : SlotField) : Except WindowResult SlotId :=
  if (s.window w).state ≠ .closed then .error .refusedState
  else
    match slotNumber slot with
    | none => .error .badSlot
    | some i => if (s.slot i).writer ≠ none then .error .refusedLocked else .ok i

/-- OPEN_READ: a read lock, and the session at index 0 (R146). -/
def State.openRead (s : State) (w : WindowId) (slot : SlotField) : State :=
  match s.openReadTest w slot with
  | .error result => s.refuseWindow w result
  | .ok i =>
    ((s.setSlot i ((s.slot i).lockRead (.win w))).setWindow w
      { s.window w with
        state := .openRead, slot := i, index := 0, declLength := 0, declSign := .pos, staging := []
        lastResult := .ok }).locksChanged

/-- OPEN_READ (R146). -/
def execOpenRead (w : WindowId) (slot : SlotField) (s : State) : Host.Outcome State Fault Refusal :=
  whenLive (fun t => t.openRead w slot) s

/-- The tests of R145 on an OPEN_WRITE. -/
def State.openWriteTest (s : State) (w : WindowId) (slot : SlotField) (length : Nat) : Except WindowResult SlotId :=
  if (s.window w).state ≠ .closed then .error .refusedState
  else
    match slotNumber slot with
    | none => .error .badSlot
    | some i =>
      if Config.maxSlotLimbs < length then .error .badLength
      else if !(s.slot i).unlocked then .error .refusedLocked
      else if (s.slot i).protect then .error .refusedProtected
      else if !acquisitionGranted (.win w) (pg length) s then .error .refusedSpace
      else .ok i

/-- OPEN_WRITE: the staging pages, the write lock, and the session at index 0 (R147). -/
def State.openWrite (s : State) (w : WindowId) (slot : SlotField) (length : Nat) (sign : Sign) : State :=
  match s.openWriteTest w slot length with
  | .error result => s.refuseWindow w result
  | .ok i =>
    (((s.takePages (pg length)).setSlot i ((s.slot i).lockWrite (.win w))).setWindow w
      { s.window w with
        state := .openWrite, slot := i, index := 0, declLength := length, declSign := sign
        staging := s.nextPages (pg length), lastResult := .ok }).locksChanged

/-- OPEN_WRITE (R147). -/
def execOpenWrite (w : WindowId) (slot : SlotField) (length : BitVec 10) (sign : Sign) (s : State) :
    Host.Outcome State Fault Refusal :=
  whenLive (fun t => t.openWrite w slot length.toNat sign) s

/-! ### Moving through the session -/

/-- SEEK in an open window, for an index of 0 to 511 (R148). -/
def State.seek (s : State) (w : WindowId) (index : Nat) : State :=
  match (s.window w).state with
  | .closed => s.refuseWindow w .refusedState
  | .openRead | .openWrite =>
    if Config.maxIndex ≤ index then s.refuseWindow w .badLength
    else s.setWindow w { s.window w with index := index, lastResult := .ok }

/-- SEEK (R148). -/
def execSeek (w : WindowId) (index : BitVec 10) (s : State) : Host.Outcome State Fault Refusal :=
  whenLive (fun t => t.seek w index.toNat) s

/-- A write to WINnDATA (R149). -/
def State.windowWrite (s : State) (w : WindowId) (data : Word) : State :=
  let v := s.window w
  match v.state with
  | .openWrite =>
    if v.index < v.declLength then
      { s with mem := setLimbAt s.mem v.staging v.index data }.setWindow w { v with index := v.index + 1 }
    else (s.setWindow w { v with overrun := true }).raise .winerr
  | .openRead | .closed => s

/-- WINDOW_DATA_WRITE (R149). -/
def execWindowDataWrite (w : WindowId) (data : Word) (s : State) : Host.Outcome State Fault Refusal :=
  whenLive (fun t => t.windowWrite w data) s

/-- The word that a read of WINnDATA returns (R150). -/
def State.windowWord (s : State) (w : WindowId) : Word :=
  let v := s.window w
  match v.state with
  | .openRead => if v.index < (s.slot v.slot).length then limbAt s.mem (s.slot v.slot).pages v.index else 0
  | .openWrite | .closed => 0

/-- A read of WINnDATA: the word on the data lines, and in OPEN_READ the step of the index (R150). -/
def State.windowRead (s : State) (w : WindowId) : State :=
  let v := s.window w
  let t := { s with dataOut := s.windowWord w }
  match v.state with
  | .openRead =>
    t.setWindow w
      { v with index := min (v.index + 1) Config.maxIndex
               pastEnd := v.pastEnd || (s.slot v.slot).length ≤ v.index }
  | .openWrite | .closed => t

/-- WINDOW_DATA_READ (R150). While RESET_N is low a read access returns 0 (R156). -/
def execWindowDataRead (w : WindowId) (s : State) : Host.Outcome State Fault Refusal :=
  if s.resetN = .low then .next { s with dataOut := 0 } else .next (s.windowRead w)

/-- A write to WINnSTAT clears both sticky flags (R151). -/
def State.writeWinstat (s : State) (w : WindowId) : State :=
  s.setWindow w { s.window w with overrun := false, pastEnd := false }

/-- WINSTAT_WRITE; the data written is ignored (R151). -/
def execWinstatWrite (w : WindowId) (_data : Word) (s : State) : Host.Outcome State Fault Refusal :=
  whenLive (fun t => t.writeWinstat w) s

/-! ### Ending the session -/

/-- The last parts of every session's end: the window's lock, with its notices, and the CLOSED record (R152, R153). -/
def State.endSession (s : State) (w : WindowId) : State :=
  (s.releaseLocks (.win w)).setWindow w (s.window w).ended |>.locksChanged

/-- CLOSE: a write session installs its normalized staged value; a read session ends (R152, R153). -/
def State.closeWindow (s : State) (w : WindowId) : State :=
  let v := s.window w
  match v.state with
  | .closed => s.refuseWindow w .refusedState
  | .openRead => s.endSession w
  | .openWrite =>
    let old := s.slot v.slot
    ((s.setSlot v.slot (old.installed s.mem v.declSign v.staging v.declLength)).release
      (old.givenBack s.mem v.staging v.declLength)).endSession w

/-- CLOSE (R152, R153). -/
def execClose (w : WindowId) (s : State) : Host.Outcome State Fault Refusal := whenLive (fun t => t.closeWindow w) s

/-- CANCEL: the session ends without an install (R153). -/
def State.cancelWindow (s : State) (w : WindowId) : State :=
  let v := s.window w
  match v.state with
  | .closed => s.refuseWindow w .refusedState
  | .openRead => s.endSession w
  | .openWrite => (s.release v.staging).endSession w

/-- CANCEL (R153). -/
def execCancel (w : WindowId) (s : State) : Host.Outcome State Fault Refusal := whenLive (fun t => t.cancelWindow w) s

end Sys2Proof.Machine
end

