-- ==== Sys2Proof/Machine/Bus.lean ====
section
/-! DEFINITION. The Bus Interface: REGISTER_WRITE, which carries a written word to the register at its offset (R157, R158); what a host
access is as commands of the table (R157, R160, R164); and what a read of each register returns (R158, R163). -/

namespace Sys2Proof.Machine

/-! ### Writes -/

/-- The staging words after a write of one of them (R24). -/
def State.writeSubw (s : State) (k : Fin 4) (data : Word) : State := { s with subw := s.subw.set k data }

/-- The requests of a DEVCTL write with bit 0 clear, each its own event, in their order (R160). -/
def State.writeDevctl (s : State) (data : Word) : State :=
  if wordBit data 0 then s.softReset
  else
    let s1 := if wordBit data 1 then s.flush .normal else s
    let s2 := if wordBit data 2 then s1.flush .urgent else s1
    let s3 := if wordBit data 3 then s2.clearLatch .normal else s2
    if wordBit data 4 then s3.clearLatch .urgent else s3

/-- A CTXREQ write; a code that names no request is ignored (R120, R163). -/
def State.writeCtxreq (s : State) (data : Word) : State :=
  let target := wordField data 8 3
  match (wordField data 0 3).toNat with
  | 1 => s.onTarget target s.park
  | 2 => s.onTarget target s.resume
  | 3 => s.onTarget target s.abort
  | 4 => s.abortUrgent
  | _ => s

/-- A SLOTATTR write; one that carries neither request, or both, is ignored (R17, R163). -/
def State.writeSlotattr (s : State) (data : Word) : State :=
  match wordBit data 0, wordBit data 1 with
  | true, false => s.setProtect
  | false, true => s.clearProtect
  | true, true => s
  | false, false => s

/-- A WINnCTL write; a code that names no request is ignored (R144, R163). -/
def State.writeWinctl (s : State) (w : WindowId) (data : Word) : State :=
  let slot := wordField data 8 6
  let number := (wordField data 16 10).toNat
  match (wordField data 0 3).toNat with
  | 1 => s.openRead w slot
  | 2 => s.openWrite w slot number (signOfBit (wordBit data 15))
  | 3 => s.seek w number
  | 4 => s.closeWindow w
  | 5 => s.cancelWindow w
  | _ => s

/-- A host write of a word at an offset: it goes to the register there. The staging words, SLOTSEL and CTXSEL store it; read-only
and undefined offsets ignore it; every other offset takes the command of its own row (R158). -/
def State.busWrite (s : State) (offset : Offset) (data : Word) : State :=
  match offset.toNat with
  | 0x00 => s.writeDevctl data
  | 0x02 => s.writeIntstat data
  | 0x03 => s.writeInten data
  | 0x04 => s.writeTbdiv data
  | 0x05 => s.writeHoldlim data
  | 0x07 => s.writePoolres data
  | 0x08 => s.writeSubw 0 data
  | 0x09 => s.writeSubw 1 data
  | 0x0A => s.writeSubw 2 data
  | 0x0B => s.writeSubw 3 data
  | 0x0C => s.post
  | 0x12 => s.pop
  | 0x14 => s.writeCtxreq data
  | 0x15 => { s with ctxsel := wordField data 0 3 }
  | 0x1C => { s with slotsel := wordField data 0 6 }
  | 0x1F => s.writeSlotattr data
  | 0x20 => s.writeWinctl 0 data
  | 0x21 => s.windowWrite 0 data
  | 0x22 => s.writeWinstat 0
  | 0x24 => s.writeWinctl 1 data
  | 0x25 => s.windowWrite 1 data
  | 0x26 => s.writeWinstat 1
  | _ => s

/-- REGISTER_WRITE (R157, R158; log entry 14). -/
def execRegisterWrite (offset : Offset) (data : Word) (s : State) : Host.Outcome State Fault Refusal :=
  whenLive (fun t => t.busWrite offset data) s

/-- The commands of the table that one host write is, in the order they are taken (R157, R160, R164). A write that a register
ignores, or that only stores a word, is the REGISTER_WRITE of its offset. -/
def commandsOfWrite (offset : Offset) (data : Word) : List Instr :=
  let target := wordField data 8 3
  let winctl (w : WindowId) : List Instr :=
    match (wordField data 0 3).toNat with
    | 1 => [.openRead w (wordField data 8 6)]
    | 2 => [.openWrite w (wordField data 8 6) (wordField data 16 10) (signOfBit (wordBit data 15))]
    | 3 => [.seek w (wordField data 16 10)]
    | 4 => [.close w]
    | 5 => [.cancel w]
    | _ => []
  match offset.toNat with
  | 0x00 =>
    if wordBit data 0 then [.softReset]
    else
      (if wordBit data 1 then [.flushN] else []) ++ (if wordBit data 2 then [.flushU] else []) ++
        (if wordBit data 3 then [.clearLatchN] else []) ++ (if wordBit data 4 then [.clearLatchU] else [])
  | 0x02 => [.intstatWrite data]
  | 0x03 => [.intenWrite data]
  | 0x04 => [.tbdivWrite data]
  | 0x05 => [.holdlimWrite data]
  | 0x07 => [.poolresWrite data]
  | 0x0C => [.post data]
  | 0x12 => [.cqpop data]
  | 0x14 =>
    match (wordField data 0 3).toNat with
    | 1 => [.park target]
    | 2 => [.resume target]
    | 3 => [.abort target]
    | 4 => [.abortUrgent target]
    | _ => []
  | 0x1F =>
    match wordBit data 0, wordBit data 1 with
    | true, false => [.setProtect]
    | false, true => [.clearProtect]
    | true, true => []
    | false, false => []
  | 0x20 => winctl 0
  | 0x21 => [.windowDataWrite 0 data]
  | 0x22 => [.winstatWrite 0 data]
  | 0x24 => winctl 1
  | 0x25 => [.windowDataWrite 1 data]
  | 0x26 => [.winstatWrite 1 data]
  | _ => [.registerWrite offset data]

/-- The offset of a window's WINnCTL; its WINnDATA and WINnSTAT follow it (R158). -/
def windowOffset (w : WindowId) : Offset := if w = 0 then 0x20 else 0x24

/-- The write that spells a command of the host, with every field at its place and 0 elsewhere (R163). -/
def hostWrite (c : Instr) : Option (Offset × Word) :=
  match c with
  | .softReset => some (0x00, 0x01)
  | .flushN => some (0x00, 0x02)
  | .flushU => some (0x00, 0x04)
  | .clearLatchN => some (0x00, 0x08)
  | .clearLatchU => some (0x00, 0x10)
  | .intstatWrite data => some (0x02, data)
  | .intenWrite data => some (0x03, data)
  | .tbdivWrite data => some (0x04, data)
  | .holdlimWrite data => some (0x05, data)
  | .poolresWrite data => some (0x07, data)
  | .post data => some (0x0C, data)
  | .cqpop data => some (0x12, data)
  | .registerWrite offset data => some (offset, data)
  | .park target => some (0x14, 0#21 ++ target ++ 0#5 ++ 1#3)
  | .resume target => some (0x14, 0#21 ++ target ++ 0#5 ++ 2#3)
  | .abort target => some (0x14, 0#21 ++ target ++ 0#5 ++ 3#3)
  | .abortUrgent target => some (0x14, 0#21 ++ target ++ 0#5 ++ 4#3)
  | .setProtect => some (0x1F, 0x01)
  | .clearProtect => some (0x1F, 0x02)
  | .openRead w slot => some (windowOffset w, 0#18 ++ slot ++ 0#5 ++ 1#3)
  | .openWrite w slot length sign =>
    some (windowOffset w, 0#6 ++ length ++ (if sign = .neg then 1#1 else 0#1) ++ 0#1 ++ slot ++ 0#5 ++ 2#3)
  | .seek w index => some (windowOffset w, 0#6 ++ index ++ 0#13 ++ 3#3)
  | .close w => some (windowOffset w, 0x04)
  | .cancel w => some (windowOffset w, 0x05)
  | .windowDataWrite w data => some (windowOffset w + 1, data)
  | .winstatWrite w data => some (windowOffset w + 2, data)
  | .hardwareReset _ => none
  | .windowDataRead _ => none
  | .timebaseEvent => none
  | .holdExpiry _ => none
  | .selection => none
  | .stepBegin => none
  | .stepEnd => none

/-- What an access is: a read, a write, or neither (R157). -/
inductive Access where
  | read
  | write
  | neither
  deriving DecidableEq, Repr

/-- What the levels of CS_N, RD_N and WR_N make of an access. With both strobes low it is neither, as it is without a strobe or
without CS_N (R157). -/
def accessOf (csN rdN wrN : PinLevel) : Access :=
  match csN, rdN, wrN with
  | .low, .low, .high => .read
  | .low, .high, .low => .write
  | .low, .low, .low => .neither
  | .low, .high, .high => .neither
  | .high, _, _ => .neither

/-- The commands that an access is, with its offset and, for a write, the word on D31-D0. Of the reads, only those of WINnDATA
are commands; an access that is neither has no effect (R157, R158). -/
def hostAccess (csN rdN wrN : PinLevel) (offset : Offset) (data : Word) : List Instr :=
  match accessOf csN rdN wrN with
  | .read =>
    if offset.toNat = 0x21 then [.windowDataRead 0] else if offset.toNat = 0x25 then [.windowDataRead 1] else []
  | .write => commandsOfWrite offset data
  | .neither => []

/-! ### Reads -/

/-- A field of a read word: `width` bits from bit `lo` on (R163). -/
def readField (lo width value : Nat) : Word := (BitVec.ofNat width value).setWidth 32 <<< lo

/-- An indicator as a number: set reads 1 (R163). -/
def ofFlag (b : Bool) : Nat := if b then 1 else 0

/-- A holder, or none (R163). -/
def holderCode : Option Holder → Nat
  | none => 0
  | some (.run (.ctx n)) => n.val + 1
  | some (.run .urgent) => 5
  | some (.win w) => w.val + 6

/-- The Core owner, or the holder of a completion record (R163). -/
def runnerCode (r : Option Runner) : Nat := holderCode (r.map Holder.run)

/-- The status codes (R163). -/
def Status.code : Status → Nat
  | .done => 1
  | .slotProtected => 2
  | .divZero => 3
  | .badModulus => 4
  | .negExponent => 5
  | .oversize => 6
  | .notInvertible => 7
  | .noSpace => 8
  | .aborted => 9
  | .held => 10
  | .skipped => 11
  | .flushed => 12

/-- The relation codes (R163). -/
def Relation.code : Relation → Nat
  | .none => 0
  | .lt => 1
  | .eq => 2
  | .gt => 3

/-- The context state codes (R163). -/
def CtxState.code : CtxState → Nat
  | .free => 0
  | .active => 1
  | .resumable => 2
  | .parked => 3
  | .spaceWait => 4

/-- The LASTRES codes (R163). -/
def PostResult.code : PostResult → Nat
  | .none => 0
  | .accepted => 1
  | .badKind => 2
  | .badSlot => 3
  | .badForm => 4
  | .noCredit => 5
  | .queueFull => 6

/-- The CTXREQ result codes (R163). -/
def CtxResult.code : CtxResult → Nat
  | .none => 0
  | .ok => 1
  | .pending => 2
  | .refusedState => 3
  | .badTarget => 4

/-- The SLOTATTR result codes (R163). -/
def AttrResult.code : AttrResult → Nat
  | .none => 0
  | .ok => 1
  | .slotBusy => 2
  | .badSlot => 3

/-- The window state codes (R163). -/
def WindowState.code : WindowState → Nat
  | .closed => 0
  | .openRead => 1
  | .openWrite => 2

/-- The window result codes (R163). -/
def WindowResult.code : WindowResult → Nat
  | .ok => 0
  | .refusedState => 1
  | .badSlot => 2
  | .badLength => 3
  | .refusedLocked => 4
  | .refusedProtected => 5
  | .refusedSpace => 6

/-- The NQ head is present, is not blocked, and no context is FREE (R111). -/
def State.headWaitsForContext (s : State) : Bool :=
  (s.head .normal).isSome && !s.nq.blocked && s.freeContext.isNone

/-- The ENGSTAT step: the owner's next step, 0 while IDLE (R111). -/
def State.engineStep (s : State) : Nat :=
  match s.owner with
  | none => 0
  | some r => (s.record r).nextStep

/-- ENGSTAT (R111, R163). -/
def State.readEngstat (s : State) : Word :=
  readField 0 3 (runnerCode s.owner) ||| readField 4 1 (ofFlag s.preemptPending) ||| readField 5 1 (ofFlag s.uq.blocked) |||
    readField 6 1 (ofFlag s.nq.blocked) ||| readField 7 1 (ofFlag s.headWaitsForContext) ||| readField 16 16 s.engineStep

/-- POST as read: LASTRES, free credits, NQ count, UQ count (R27, R163). -/
def State.readPost (s : State) : Word :=
  readField 0 3 s.lastres.code ||| readField 8 5 s.credits ||| readField 16 4 s.nq.entries.length ||| readField 24 3 s.uq.entries.length

/-- CQHEAD0 of a record (R163). -/
def CompletionRecord.word0 (r : CompletionRecord) : Word :=
  readField 0 16 r.tag.toNat ||| readField 16 5 r.kind.code ||| readField 21 1 (ofFlag (r.queue = .urgent)) ||| readField 22 2 r.relation.code |||
    readField 24 4 r.status.code ||| readField 28 3 (runnerCode r.holder) ||| readField 31 1 (signCode r.sign)

/-- CQHEAD1 of a record (R163). -/
def CompletionRecord.word1 (r : CompletionRecord) : Word :=
  readField 0 16 r.stepsDone ||| readField 16 15 r.count ||| readField 31 1 (ofFlag r.zero)

/-- The record CTXSEL selects: contexts 0 to 3, the U record as 4; above 4 none, which reads as FREE (R128, R129). -/
def State.selectedRecord (s : State) : Record :=
  match contextNumber s.ctxsel with
  | some n => s.record (.ctx n)
  | none => if s.ctxsel = 4 then s.urec else Record.free

/-- The resume-list position of the selected context, when it is on the list (R129). -/
def State.selectedPosition (s : State) : Option Nat :=
  (contextNumber s.ctxsel).bind fun n => if n ∈ s.resumeList then some (s.resumeList.idxOf n) else none

/-- CTXINFO0 (R129, R163). -/
def State.readCtxinfo0 (s : State) : Word :=
  let j := s.selectedRecord
  readField 0 3 j.state.code ||| readField 4 2 (s.selectedPosition.getD 0) ||| readField 6 1 (ofFlag s.selectedPosition.isSome) |||
    readField 8 1 (ofFlag j.parkPending) ||| readField 9 1 (ofFlag j.abortPending) |||
    readField 10 5 ((j.command.map fun c => c.kind.code).getD 0) ||| readField 16 16 ((j.command.map fun c => c.tag.toNat).getD 0)

/-- CTXINFO1 (R129, R163). -/
def State.readCtxinfo1 (s : State) : Word :=
  readField 0 16 s.selectedRecord.stepsDone ||| readField 16 16 s.selectedRecord.stepTotal

/-- CTXINFO2 (R129, R163). -/
def State.readCtxinfo2 (s : State) : Word :=
  readField 0 7 s.selectedRecord.workPages.length ||| readField 16 7 s.selectedRecord.pagesWanted

/-- The slot that SLOTSEL selects; a number of 48 to 63 reads as an empty slot (R18, R19). -/
def State.selectedSlot (s : State) : Slot :=
  match slotNumber s.slotsel with
  | some i => s.slot i
  | none => Slot.empty

/-- SLOTINFO0 (R19, R163). -/
def State.readSlotinfo0 (s : State) : Word :=
  let v := s.selectedSlot
  readField 0 10 v.length ||| readField 12 1 (signCode v.sign) ||| readField 13 1 (ofFlag v.protect) ||| readField 16 6 v.pages.length

/-- SLOTINFO1 (R19, R163). -/
def State.readSlotinfo1 (s : State) : Word :=
  let v := s.selectedSlot
  (Holder.all.map fun h => readField (7 + holderCode (some h)) 1 (ofFlag (h ∈ v.readers))).foldl (· ||| ·)
    (readField 0 3 (holderCode v.writer))

/-- WINnSTAT (R151, R163). -/
def Window.statWord (v : Window) : Word :=
  readField 0 2 v.state.code ||| readField 2 1 (ofFlag v.overrun) ||| readField 3 1 (ofFlag v.pastEnd) ||| readField 4 3 v.lastResult.code |||
    readField 8 6 v.slot.val ||| readField 15 1 (signCode v.declSign) ||| readField 16 10 v.declLength

/-- The word that a read of an offset returns, once the hardware reset has ended (R158, R163). -/
def State.registerWord (s : State) (offset : Offset) : Word :=
  match offset.toNat with
  | 0x00 => readField 0 1 (ofFlag s.nq.latch) ||| readField 1 1 (ofFlag s.uq.latch)
  | 0x01 => s.readEngstat
  | 0x02 => s.intstat.setWidth 32
  | 0x03 => s.inten.setWidth 32
  | 0x04 => s.tbdiv.setWidth 32
  | 0x05 => readField 0 16 s.nq.limit.toNat ||| readField 16 16 s.uq.limit.toNat
  | 0x06 => readField 0 9 s.freeCount ||| readField 16 7 s.reserve
  | 0x08 => s.subw[0]
  | 0x09 => s.subw[1]
  | 0x0A => s.subw[2]
  | 0x0B => s.subw[3]
  | 0x0C => s.readPost
  | 0x10 => (s.cq.head?.map CompletionRecord.word0).getD 0
  | 0x11 => (s.cq.head?.map CompletionRecord.word1).getD 0
  | 0x13 => readField 0 5 s.cq.length
  | 0x14 => readField 0 3 s.ctxreq.code
  | 0x15 => s.ctxsel.setWidth 32
  | 0x16 => s.readCtxinfo0
  | 0x17 => s.readCtxinfo1
  | 0x18 => s.readCtxinfo2
  | 0x1C => s.slotsel.setWidth 32
  | 0x1D => s.readSlotinfo0
  | 0x1E => s.readSlotinfo1
  | 0x1F => readField 0 2 s.slotattr.code
  | 0x21 => s.windowWord 0
  | 0x22 => (s.window 0).statWord
  | 0x23 => readField 0 10 (s.window 0).index
  | 0x25 => s.windowWord 1
  | 0x26 => (s.window 1).statWord
  | 0x27 => readField 0 10 (s.window 1).index
  | _ => 0

/-- The word that a host read of an offset returns; while RESET_N is low every read returns 0 (R156, R157). No read but that of
WINnDATA, which is the command WINDOW_DATA_READ, changes anything (R158). -/
def State.readRegister (s : State) (offset : Offset) : Word :=
  if s.resetN = .low then 0 else s.registerWord offset

/-- D31-D0 during an access: a read drives the word that it returns, as the register stands when the read is taken; in every other
access, that with both strobes low included, the part does not drive them (R156, R157). -/
def State.dataLines (s : State) (csN rdN wrN : PinLevel) (offset : Offset) : Option Word :=
  match accessOf csN rdN wrN with
  | .read => some (s.readRegister offset)
  | .write => none
  | .neither => none

end Sys2Proof.Machine
end

