-- ==== Sys2Proof/Machine/Dispatch.lean ====
section
/-! DEFINITION. One arm per command: what it does to everything but the queue. -/

namespace Sys2Proof.Machine

def exec (i : Instr) (s : State) : Host.Outcome State Fault Refusal :=
  match i with
  -- resets
  | .hardwareReset resetN => Sys2Proof.Machine.execHardwareReset resetN s
  | .softReset => Sys2Proof.Machine.execSoftReset s
  -- DEVCTL requests
  | .flushN => Sys2Proof.Machine.execFlushN s
  | .flushU => Sys2Proof.Machine.execFlushU s
  | .clearLatchN => Sys2Proof.Machine.execClearLatchN s
  | .clearLatchU => Sys2Proof.Machine.execClearLatchU s
  -- submission and collection
  | .post data => Sys2Proof.Machine.execPost data s
  | .cqpop data => Sys2Proof.Machine.execCqpop data s
  -- registers
  | .intstatWrite data => Sys2Proof.Machine.execIntstatWrite data s
  | .intenWrite data => Sys2Proof.Machine.execIntenWrite data s
  | .tbdivWrite data => Sys2Proof.Machine.execTbdivWrite data s
  | .holdlimWrite data => Sys2Proof.Machine.execHoldlimWrite data s
  | .poolresWrite data => Sys2Proof.Machine.execPoolresWrite data s
  | .registerWrite offset data => Sys2Proof.Machine.execRegisterWrite offset data s
  -- context requests
  | .park target => Sys2Proof.Machine.execPark target s
  | .resume target => Sys2Proof.Machine.execResume target s
  | .abort target => Sys2Proof.Machine.execAbort target s
  | .abortUrgent target => Sys2Proof.Machine.execAbortUrgent target s
  -- protect requests
  | .setProtect => Sys2Proof.Machine.execSetProtect s
  | .clearProtect => Sys2Proof.Machine.execClearProtect s
  -- windows
  | .openRead w slot => Sys2Proof.Machine.execOpenRead w slot s
  | .openWrite w slot length sign => Sys2Proof.Machine.execOpenWrite w slot length sign s
  | .seek w index => Sys2Proof.Machine.execSeek w index s
  | .close w => Sys2Proof.Machine.execClose w s
  | .cancel w => Sys2Proof.Machine.execCancel w s
  | .windowDataWrite w data => Sys2Proof.Machine.execWindowDataWrite w data s
  | .windowDataRead w => Sys2Proof.Machine.execWindowDataRead w s
  | .winstatWrite w data => Sys2Proof.Machine.execWinstatWrite w data s
  -- the part's own events
  | .timebaseEvent => Sys2Proof.Machine.execTimebaseEvent s
  | .holdExpiry queue => Sys2Proof.Machine.execHoldExpiry queue s
  | .selection => Sys2Proof.Machine.execSelection s
  | .stepBegin => Sys2Proof.Machine.execStepBegin s
  | .stepEnd => Sys2Proof.Machine.execStepEnd s

end Sys2Proof.Machine
end

