-- ==== Sys2Proof/Safety.lean ====
section
/-! DEFINITION. What the claims are stated in: the whole-machine conditions that the spec gives for every moment, each as a predicate of the
state. -/

namespace Sys2Proof.Machine

/-- A step goes on: neither a fault nor a refusal. -/
def goesOn (o : Host.Outcome State Fault Refusal) : Prop := ∃ t, o = .next t

/-- The outcome of n steps, one after another. -/
def stepTimes : Nat → State → Host.Outcome State Fault Refusal
  | 0, s => .next s
  | n + 1, s =>
    match step s with
    | .next t => stepTimes n t
    | .fault f => .fault f
    | .refused r => .refused r

/-- The outcome of a list of commands, one after another. -/
def execAll : List Instr → State → Host.Outcome State Fault Refusal
  | [], s => .next s
  | c :: rest, s =>
    match exec c s with
    | .next t => execAll rest t
    | .fault f => .fault f
    | .refused r => .refused r

/-- The limb memory is in its canonical form. -/
def MemoryCanonical (s : State) : Prop := Memory.wf s.mem

/-! ### Credits -/

/-- The commands started and not completed (R29): the contexts that are not FREE, and the U record while it is not empty. -/
def State.startedCount (s : State) : Nat :=
  ((List.finRange Config.contextCount).filter fun n => (s.record (.ctx n)).state ≠ .free).length +
    (if s.urec.state = .free then 0 else 1)

/-- The credit law of R29. -/
def CreditLaw (s : State) : Prop :=
  s.credits + s.nq.entries.length + s.uq.entries.length + s.startedCount + s.cq.length = Config.creditCount

/-! ### Records, owner and resume list -/

/-- The states of the contexts and of the U record agree with the owner, the resume list and the fields of each record
(R96, R113, R114, R115, R117). -/
structure RecordsConsistent (s : State) : Prop where
  ownerActive : ∀ r, (s.record r).state = .active ↔ s.owner = some r
  urgentStates : s.urec.state = .free ∨ s.urec.state = .active
  freeIsEmpty : ∀ r, (s.record r).state = .free → s.record r = Record.free
  startedHasCommand : ∀ r, (s.record r).state ≠ .free → (s.record r).command.isSome
  listNodup : s.resumeList.Nodup
  listIsResumable : ∀ n, n ∈ s.resumeList ↔ (s.record (.ctx n)).state = .resumable
  wantedOnlyWaiting : ∀ r, (s.record r).state ≠ .spaceWait → (s.record r).pagesWanted = 0
  pendingOnlyActive : ∀ r, (s.record r).state ≠ .active → (s.record r).parkPending = false ∧ (s.record r).abortPending = false
  stepHasOwner : s.stepRunning = true → s.owner ≠ none

/-- The queue that the commands a started record may hold were accepted into: NQ for a context, UQ for the U record (R99, R100). -/
def Runner.queue : Runner → QueueId
  | .ctx _ => .normal
  | .urgent => .urgent

/-- Waiting and started commands stand where their queue field says (R31, R96). -/
structure QueuesMatch (s : State) : Prop where
  waiting : ∀ q, ∀ c ∈ (s.queue q).entries, c.queue = q
  started : ∀ r c, (s.record r).command = some c → c.queue = r.queue

/-! ### Pages -/

/-- Every page list of the part, one after another: free list, slots, contexts, U record, staging (R8). -/
def State.allPages (s : State) : List PageId :=
  s.freeList ++ (s.slots.toList.flatMap Slot.pages ++ (s.contexts.toList.flatMap Record.workPages ++
    (s.urec.workPages ++ s.windows.toList.flatMap Window.staging)))

/-- Each of the 256 pages is in exactly one place (R8, R165). -/
def PagesPartition (s : State) : Prop := s.allPages.Perm (List.finRange Config.pageCount)

/-! ### Locks -/

/-- A slot with a writer has no readers other than that writer (R81). -/
def LocksExclusive (s : State) : Prop := ∀ i h, (s.slot i).writer = some h → ∀ x ∈ (s.slot i).readers, x = h

/-- A command names a slot among its destinations. -/
def CommandRecord.writes (c : CommandRecord) (i : SlotId) : Prop := ∃ f ∈ c.dests, slotNumber f = some i

/-- A command names a slot among its sources. -/
def CommandRecord.reads (c : CommandRecord) (i : SlotId) : Prop := ∃ f ∈ c.sources, slotNumber f = some i

/-- The slots a holder claims to write: a started command's destinations, a write window's slot (R81, R84, R86). -/
def State.claimsWrite (s : State) (i : SlotId) : Holder → Prop
  | .run r => ∃ c, (s.record r).command = some c ∧ c.writes i
  | .win w => (s.window w).state = .openWrite ∧ (s.window w).slot = i

/-- The slots a holder claims to read: a started command's sources, a read window's slot (R81, R84, R86). -/
def State.claimsRead (s : State) (i : SlotId) : Holder → Prop
  | .run r => ∃ c, (s.record r).command = some c ∧ c.reads i
  | .win w => (s.window w).state = .openRead ∧ (s.window w).slot = i

/-- The lock table holds exactly the locks of the started commands and of the open windows (R81, R84, R86). -/
def LocksMatchHolders (s : State) : Prop :=
  ∀ i h, ((s.slot i).writer = some h ↔ s.claimsWrite i h) ∧ (h ∈ (s.slot i).readers ↔ s.claimsRead i h)

/-! ### Indicators, timers, windows -/

/-- The indicators say what they stand for, and a hold timer runs exactly while its head is blocked under a nonzero limit
(R88, R89, R92, R102). -/
structure IndicatorsTrue (s : State) : Prop where
  preempt : s.preemptPending = s.preemptDue
  blocked : ∀ q, (s.queue q).blocked = s.headBlocked q
  timer : ∀ q, (s.queue q).timer ≠ .stopped ↔ (s.queue q).blocked = true ∧ (s.queue q).limit ≠ 0

/-- A window record holds what R143 gives for its state. -/
structure WindowsConsistent (s : State) : Prop where
  closedFields : ∀ w, (s.window w).state = .closed →
    (s.window w).slot = 0 ∧ (s.window w).index = 0 ∧ (s.window w).declLength = 0 ∧ (s.window w).declSign = .pos
  readFields : ∀ w, (s.window w).state = .openRead → (s.window w).declLength = 0 ∧ (s.window w).declSign = .pos
  staging : ∀ w, (s.window w).staging.length = if (s.window w).state = .openWrite then pg (s.window w).declLength else 0
  indexBound : ∀ w, (s.window w).index ≤ Config.maxIndex
  lengthBound : ∀ w, (s.window w).declLength ≤ Config.maxSlotLimbs

/-- The bounds of the counts that the host can read (R14, R29, R31, R133, R164). -/
structure CountsBounded (s : State) : Prop where
  reserve : s.reserve ≤ Config.maxReserve
  credits : s.credits ≤ Config.creditCount
  nq : s.nq.entries.length ≤ Config.normalQueueSize
  uq : s.uq.entries.length ≤ Config.urgentQueueSize
  cq : s.cq.length ≤ Config.creditCount

/-- Every slot holds a normalized value of at most 512 limbs in exactly the pages it needs (R2, R4). -/
structure SlotsNormalized (s : State) : Prop where
  lengthBound : ∀ i, (s.slot i).length ≤ Config.maxSlotLimbs
  pageCount : ∀ i, (s.slot i).pages.length = pg (s.slot i).length
  zeroIsPos : ∀ i, (s.slot i).length = 0 → (s.slot i).sign = .pos
  topLimb : ∀ i, (s.slot i).length ≠ 0 → limbAt s.mem (s.slot i).pages ((s.slot i).length - 1) ≠ 0

/-! ### Started commands -/

/-- A started command's step total is that of its sources as they stand, its next step is one it has, a step past the checks of step
0 has passed them and would pass them again, and its working values leave room in a slot for every result that is not measured at
commit (R41, R43, R61, R63, R66, R72). -/
structure WorkConsistent (s : State) : Prop where
  total : ∀ r c, (s.record r).command = some c → (s.record r).stepTotal = s.stepTotalOf c
  next : ∀ r c, (s.record r).command = some c → c.kind ≠ .gcd → c.kind ≠ .modinv → (s.record r).nextStep < (s.record r).stepTotal
  begun : ∀ r c, (s.record r).command = some c → (s.record r).nextStep ≠ 0 ∨ (s.stepRunning = true ∧ s.owner = some r) →
    (s.record r).checksMade = true
  checked : ∀ r c, (s.record r).command = some c → (s.record r).checksMade = true → s.stepZeroFault c = none
  resultLength : ∀ r c, (s.record r).command = some c → c.kind.checkedAtCommit = false → c.kind ≠ .gcd →
    (s.record r).wv0.length ≤ Config.maxSlotLimbs
  divisors : ∀ r c, (s.record r).command = some c → c.kind = .gcd →
    magnitude s.mem (s.record r).wv0.pages (s.record r).wv0.length < 2 ^ (32 * Config.maxSlotLimbs)
  remainder : ∀ r c, (s.record r).command = some c → c.kind = .gcd ∨ c.kind = .divmod →
    magnitude s.mem (s.record r).wv1.pages (s.record r).wv1.length < 2 ^ (32 * Config.maxSlotLimbs)

/-! ### What an event does, as the claims say it -/

/-- The contexts that a wake event would wake, with a free count and a reserve, in ascending number (R119). -/
def State.wokenBy (s : State) (free reserve : Nat) : List CtxId :=
  (List.finRange Config.contextCount).filter fun n =>
    (s.record (.ctx n)).state = .spaceWait && (s.record (.ctx n)).pagesWanted + reserve ≤ free

/-- A context after its wake (R119). -/
def Record.woken (j : Record) : Record := { j with state := .resumable, pagesWanted := 0 }

/-- A record just filled by a start (R99, R100). -/
def Record.justStarted (c : CommandRecord) (stepTotal : Nat) : Record :=
  { state := .active, command := some c, nextStep := 0, stepsDone := 0, stepTotal := stepTotal, carry := none
    wv0 := { pages := [], length := 0 }, wv1 := { pages := [], length := 0 }, wv2 := { pages := [], length := 0 }
    pagesWanted := 0, parkPending := false, abortPending := false, checksMade := false }

/-- The completion record of a command that never started (R32, R132). -/
def recordOfUnstarted (status : Status) (c : CommandRecord) : CompletionRecord :=
  { tag := c.tag, kind := c.kind, queue := c.queue, status := status, holder := none, sign := .pos, zero := false
    relation := .none, count := 0, stepsDone := 0 }

/-- The completion record of a started command that is not DONE (R62, R132). -/
def recordOfEnded (status : Status) (r : Runner) (c : CommandRecord) (stepsDone : Nat) : CompletionRecord :=
  { tag := c.tag, kind := c.kind, queue := c.queue, status := status, holder := some r, sign := .pos, zero := false
    relation := .none, count := 0, stepsDone := stepsDone }

/-- The hold timer of a queue after a blocked test that finds the same head at the front: it goes on while the head stays blocked,
starts at 0 under a nonzero limit when the head becomes blocked, and stops when it is not (R89, R92). -/
def IntakeQueue.timerAfter (k : IntakeQueue) (blocked : Bool) : HoldTimer :=
  if blocked = false then .stopped
  else if k.blocked = true then k.timer
  else if k.limit = 0 then .stopped
  else .running 0

/-- The hold timer of a queue after the blocked test of a new head (R33, R92). -/
def IntakeQueue.timerOfNewHead (k : IntakeQueue) (blocked : Bool) : HoldTimer :=
  if blocked = true ∧ k.limit ≠ 0 then .running 0 else .stopped

/-- The SKIP commands at the front of a list, which a set latch removes (R37). -/
def skipRun (l : List CommandRecord) : List CommandRecord := l.takeWhile fun c => c.policy = .skip

/-- The notify bit that the posting of records for these commands brings (R133). -/
def notifyBit (l : List CommandRecord) : BitVec 6 := if l.any fun c => c.notify then IntFlag.notify.mask else 0

/-- The state t is the state s after the end of the command c of the holder r, with the record rec, the pages `gone` given back
and the slots as the commit left their values in `slots` (R84, R89, R92, R110 items 1 to 4, R125 items 2 to 5, R133 to R135, R35,
R37). -/
structure CommandEnds (s t : State) (r : Runner) (c : CommandRecord) (rec : CompletionRecord) (gone : List PageId)
    (slots : SlotId → Slot) : Prop where
  pages : t.freeList = s.freeList ++ gone
  contexts : ∀ n, t.record (.ctx n) =
    if r = .ctx n then Record.free
    else if n ∈ s.wokenBy (s.freeList.length + gone.length) s.reserve then (s.record (.ctx n)).woken
    else s.record (.ctx n)
  urgent : t.urec = if r = .urgent then Record.free else s.urec
  resumeList : t.resumeList =
    s.resumeList ++ (s.wokenBy (s.freeList.length + gone.length) s.reserve).filter fun n => r ≠ .ctx n
  slots : ∀ i, t.slot i =
    { slots i with
      writer := if (slots i).writer = some (.run r) then none else (slots i).writer
      readers := (slots i).readers.filter fun h => h ≠ .run r }
  latch : (t.queue c.queue).latch = ((s.queue c.queue).latch || decide (rec.status ≠ .done))
  skips : (t.queue c.queue).entries =
    if rec.status = .done then (s.queue c.queue).entries else (s.queue c.queue).entries.dropWhile fun d => d.policy = .skip
  records : t.cq = s.cq ++ rec ::
    if rec.status = .done then [] else (skipRun (s.queue c.queue).entries).map (recordOfUnstarted .skipped)
  otherQueue : ∀ q, q ≠ c.queue →
    (t.queue q).entries = (s.queue q).entries ∧ (t.queue q).latch = (s.queue q).latch
  limits : ∀ q, (t.queue q).limit = (s.queue q).limit
  blocked : ∀ q, (t.queue q).blocked = t.headBlocked q
  timers : ∀ q, (t.queue q).timer =
    if q = c.queue ∧ rec.status ≠ .done ∧ skipRun (s.queue q).entries ≠ [] then (s.queue q).timerOfNewHead (t.headBlocked q)
    else (s.queue q).timerAfter (t.headBlocked q)
  flags : t.intstat = s.intstat |||
    if rec.status = .done then notifyBit [c]
    else IntFlag.latch.mask ||| notifyBit (c :: skipRun (s.queue c.queue).entries)
  frame : t = { s with
    freeList := t.freeList, slots := t.slots, nq := t.nq, uq := t.uq, cq := t.cq, intstat := t.intstat
    contexts := t.contexts, urec := t.urec, resumeList := t.resumeList, owner := t.owner
    preemptPending := t.preemptPending, stepRunning := t.stepRunning, ctxreq := t.ctxreq }

end Sys2Proof.Machine
end

