-- ==== Sys2Proof/Certificates/Slice0/Obligations.lean ====
section
/-! DEFINITION. The statements for the provers. "Live" below is RESET_N high: the part takes events only then (R156). -/

open Sys2Proof Sys2Proof.Machine

/-! ### Steps, resets, the timebase -/

/-- A step takes the command at the front of the queue, and answers what exec answers on it with the queue's rest (the model's
queue, log entry 1). -/
def Obligations.StepTakesFrontCommand : Prop :=
  ∀ (c : Instr) (rest : List Instr) (s : State), s.pending = c :: rest → step s = exec c { s with pending := rest }

/-- Every command goes on, from every state, and leaves the queue of waiting commands alone. -/
def Obligations.EveryCommandGoesOn : Prop :=
  ∀ (c : Instr) (s : State), ∃ t, exec c s = .next t ∧ t.pending = s.pending

/-- The state after a hardware reset, field by field as the rules give it (R20, R39, R80, R87, R112, R130, R141, R155, R159). -/
def Obligations.ResetStateValues : Prop :=
  (∀ i, State.reset.slot i = { sign := .pos, length := 0, pages := [], protect := false, writer := none, readers := [] }) ∧
  State.reset.freeList.map Fin.val = List.range 256 ∧ State.reset.reserve = 0 ∧ State.reset.slotsel = 0 ∧
  State.reset.slotattr = .none ∧
  (∀ q, State.reset.queue q = { entries := [], latch := false, blocked := false, timer := .stopped, limit := 0 }) ∧
  State.reset.credits = 16 ∧ State.reset.lastres = .none ∧ (∀ k : Fin 4, State.reset.subw[k] = 0) ∧
  State.reset.tbdiv = 0 ∧ State.reset.inten = 0 ∧
  State.reset.owner = none ∧ State.reset.preemptPending = false ∧ State.reset.stepRunning = false ∧
  (∀ r, State.reset.record r =
    { state := .free, command := none, nextStep := 0, stepsDone := 0, stepTotal := 0, carry := none
      wv0 := { pages := [], length := 0 }, wv1 := { pages := [], length := 0 }, wv2 := { pages := [], length := 0 }
      pagesWanted := 0, parkPending := false, abortPending := false, checksMade := false }) ∧
  State.reset.resumeList = [] ∧ State.reset.ctxreq = .none ∧ State.reset.ctxsel = 0 ∧
  State.reset.cq = [] ∧ State.reset.intstat = 0 ∧ State.reset.attnN = .high ∧
  ∀ w, State.reset.window w =
    { state := .closed, slot := 0, index := 0, declLength := 0, declSign := .pos, staging := [], overrun := false
      pastEnd := false, lastResult := .ok }

/-- The reset pin: low holds the reset values and negates ATTN_N; the rise ends the reset; high again changes nothing. While it is
low a read returns 0 and no other command changes anything (R156). That waiting commands of the model's queue stay is log entry 12,
and the word of a read kept in dataOut log entry 10. -/
def Obligations.HardwareResetPin : Prop :=
  ∀ s : State,
    exec (.hardwareReset .low) s = .next { State.reset with resetN := .low, pending := s.pending } ∧
    ({ State.reset with resetN := .low, pending := s.pending } : State).attnN = .high ∧
    (s.resetN = .high → exec (.hardwareReset .high) s = .next s) ∧
    (s.resetN = .low →
      exec (.hardwareReset .high) s = .next { State.reset with pending := s.pending } ∧
      (∀ offset, s.readRegister offset = 0) ∧
      (∀ w, exec (.windowDataRead w) s = .next { s with dataOut := 0 }) ∧
      ∀ c, (∀ level, c ≠ .hardwareReset level) → (∀ w, c ≠ .windowDataRead w) → exec c s = .next s)

/-- The soft reset, block by block, with its release order and everything it keeps (R161). -/
def Obligations.SoftResetState : Prop :=
  ∀ s : State, s.resetN = .high → ∃ t, exec .softReset s = .next t ∧
    (∀ i, t.slot i = { s.slot i with writer := none, readers := [] }) ∧
    t = { s with
      slots := t.slots
      freeList := s.freeList ++ (s.record (.ctx 0)).workPages ++ (s.record (.ctx 1)).workPages ++
        (s.record (.ctx 2)).workPages ++ (s.record (.ctx 3)).workPages ++ s.urec.workPages ++
        (s.window 0).staging ++ (s.window 1).staging
      slotattr := .none
      nq := { entries := [], latch := false, blocked := false, timer := .stopped, limit := s.nq.limit }
      uq := { entries := [], latch := false, blocked := false, timer := .stopped, limit := s.uq.limit }
      credits := 16, lastres := .none, owner := none, preemptPending := false, stepRunning := false
      contexts := State.reset.contexts, urec := State.reset.urec, resumeList := [], ctxreq := .none
      cq := [], intstat := 0, windows := State.reset.windows } ∧
    t.attnN = .high

/-- After a soft reset every page is free or in a slot (R21). -/
def Obligations.SoftResetReturnsEveryPage : Prop :=
  ∀ s t : State, s.resetN = .high → PagesPartition s → exec .softReset s = .next t →
    PagesPartition t ∧ t.freeCount + (t.slots.toList.map fun v => v.pages.length).sum = 256

/-- After a TBDIV write of d the divider reads back as d, the next timebase event comes 16 * (d + 1) CLK periods later, and no count
changes before it (R90, R159). That an idle step is one CLK period is log entry 2. -/
def Obligations.TbdivWriteRestartsTimebase : Prop :=
  ∀ (s : State) (data : Word), s.resetN = .high → s.pending = [] →
    ∃ t, exec (.tbdivWrite data) s = .next t ∧
      t = { s with tbdiv := data.extractLsb' 0 8, timebaseLeft := 16 * ((data.extractLsb' 0 8).toNat + 1) } ∧
      t.readRegister 0x04 = (data.extractLsb' 0 8).setWidth 32 ∧
      (∀ k < 16 * (t.tbdiv.toNat + 1), stepTimes k t = .next { t with timebaseLeft := 16 * (t.tbdiv.toNat + 1) - k }) ∧
      stepTimes (16 * (t.tbdiv.toNat + 1)) t = exec .timebaseEvent t

/-- A timebase event raises each running count by one, or brings the timer to its expiry, and puts the next event one timebase period
away, wherever the model's phase stood; nothing else changes (R92). That a commanded event restarts the phase of the model's CLK
periods is log entry 2; the state of a timer between its last count and its expiry event is log entry 5. -/
def Obligations.TimebaseEventCounts : Prop :=
  ∀ s : State, s.resetN = .high → ∃ t, exec .timebaseEvent s = .next t ∧
    t = { s with
      nq := { s.nq with timer := t.nq.timer }, uq := { s.uq with timer := t.uq.timer }
      timebaseLeft := 16 * (s.tbdiv.toNat + 1) } ∧
    ∀ q, ((s.queue q).timer = .stopped → (t.queue q).timer = .stopped) ∧
      ((s.queue q).timer = .expiring → (t.queue q).timer = .expiring) ∧
      ∀ n, (s.queue q).timer = .running n →
        ((s.queue q).limit.toNat ≤ n + 1 → (t.queue q).timer = .expiring) ∧
        (n + 1 < (s.queue q).limit.toNat → (t.queue q).timer = .running (n + 1))

/-! ### The Command Intake -/

/-- A flush completes every waiting command of its queue as FLUSHED, head first, and leaves its latch (R34); a clear of a latch
clears that latch and moves nothing (R36). -/
def Obligations.FlushCompletesWaitingCommands : Prop :=
  ∀ s : State, s.resetN = .high →
    (s.preemptPending = s.preemptDue →
      exec .flushN s = .next { s with
        nq := { s.nq with entries := [], blocked := false, timer := .stopped }
        cq := s.cq ++ s.nq.entries.map (recordOfUnstarted .flushed)
        intstat := s.intstat ||| notifyBit s.nq.entries }) ∧
    exec .flushU s = .next { s with
      uq := { s.uq with entries := [], blocked := false, timer := .stopped }
      cq := s.cq ++ s.uq.entries.map (recordOfUnstarted .flushed)
      intstat := s.intstat ||| notifyBit s.uq.entries
      preemptPending := false } ∧
    exec .clearLatchN s = .next { s with nq := { s.nq with latch := false } } ∧
    exec .clearLatchU s = .next { s with uq := { s.uq with latch := false } }

/-- A read of DEVCTL returns the two fault latches in bits 0 and 1, changes nothing, and reads 0 after either reset (R162). -/
def Obligations.DevctlReadsTheLatches : Prop :=
  (∀ s : State, s.resetN = .high →
    s.readRegister 0x00 = (0#30 ++ BitVec.ofBool s.uq.latch ++ BitVec.ofBool s.nq.latch) ∧
    ∀ data, hostAccess .low .low .high 0x00 data = []) ∧
  (∀ s t : State, s.resetN = .high → exec .softReset s = .next t → t.readRegister 0x00 = 0) ∧
  (∀ s t : State, s.resetN = .low → exec (.hardwareReset .high) s = .next t → t.readRegister 0x00 = 0)

/-- The four staging words: a write stores all 32 bits and a read returns them; the write changes nothing else; an accepted POST
copies their record and leaves them; they are 0 after a hardware reset, a POST of which is BAD_KIND; a soft reset keeps them
(R24). -/
def Obligations.StagingWordsHold : Prop :=
  (∀ (s : State) (k : Fin 4) (data : Word), s.resetN = .high →
    ∃ t, exec (.registerWrite (BitVec.ofNat 6 (0x08 + k.val)) data) s = .next t ∧ t = { s with subw := s.subw.set k data } ∧
      t.readRegister (BitVec.ofNat 6 (0x08 + k.val)) = data ∧
      ∀ j : Fin 4, j ≠ k → t.readRegister (BitVec.ofNat 6 (0x08 + j.val)) = s.readRegister (BitVec.ofNat 6 (0x08 + j.val))) ∧
  (∀ (s t : State) (data : Word), exec (.post data) s = .next t → t.subw = s.subw) ∧
  (∀ (s t : State) (data : Word) (c : CommandRecord), s.resetN = .high → s.stagedRecord = some c →
    (s.queue c.queue).entries ≠ [] → exec (.post data) s = .next t → t.lastres = .accepted →
    (t.queue c.queue).entries = (s.queue c.queue).entries ++ [c]) ∧
  (∀ data, exec (.post data) State.reset = .next { State.reset with lastres := .badKind }) ∧
  (∀ k : Fin 4, State.reset.subw[k] = 0) ∧
  ∀ s t : State, exec .softReset s = .next t → t.subw = s.subw

/-- The record that the staging words spell, field by field (R22, R163), and a POST's refusals in the order of the checks, each of
which changes LASTRES alone (R25, R26). -/
def Obligations.PostRefusalsInOrder : Prop :=
  (∀ s : State,
    (s.subw[0].toNat % 32 = 0 ∨ 15 < s.subw[0].toNat % 32 → s.stagedRecord = none) ∧
    (1 ≤ s.subw[0].toNat % 32 → s.subw[0].toNat % 32 ≤ 15 → ∃ c, s.stagedRecord = some c ∧
      c.kind.code = s.subw[0].toNat % 32 ∧
      c.queue = (if s.subw[0].getLsbD 8 then .urgent else .normal) ∧
      c.policy = (if s.subw[0].getLsbD 9 then .skip else .run) ∧
      c.notify = s.subw[0].getLsbD 10 ∧ c.tag = s.subw[0].extractLsb' 16 16 ∧
      c.d = s.subw[1].extractLsb' 0 6 ∧ c.d2 = s.subw[1].extractLsb' 8 6 ∧
      c.a = s.subw[1].extractLsb' 16 6 ∧ c.b = s.subw[1].extractLsb' 24 6 ∧
      c.m = s.subw[2].extractLsb' 0 6 ∧ c.imm = s.subw[3])) ∧
  ∀ (s : State) (data : Word), s.resetN = .high →
    (s.stagedRecord = none → exec (.post data) s = .next { s with lastres := .badKind }) ∧
    ∀ c, s.stagedRecord = some c →
      let badSlot := ∃ f ∈ c.dests ++ c.sources, 48 ≤ f.toNat
      let badForm := (c.kind = .divmod ∧ c.d = c.d2) ∨ ((c.kind = .shl ∨ c.kind = .shr) ∧ 16384 < c.imm.toNat)
      let full := (c.queue = .normal ∧ 12 ≤ s.nq.entries.length) ∨ (c.queue = .urgent ∧ 4 ≤ s.uq.entries.length)
      (badSlot → exec (.post data) s = .next { s with lastres := .badSlot }) ∧
      (¬ badSlot → badForm → exec (.post data) s = .next { s with lastres := .badForm }) ∧
      (¬ badSlot → ¬ badForm → s.credits = 0 → exec (.post data) s = .next { s with lastres := .noCredit }) ∧
      (¬ badSlot → ¬ badForm → s.credits ≠ 0 → full → exec (.post data) s = .next { s with lastres := .queueFull })

/-- An accepted POST takes a credit and joins the tail (R25). Behind a head nothing else changes. In an empty queue it is the head at
once: skipped when the latch is set and its policy is SKIP, else tested for a lock conflict, with the hold timer started at 0
under a nonzero limit (R33, R37, R89, R92). A read of POST returns LASTRES and the three counts, and has no effect (R27, R163). -/
def Obligations.PostAcceptedTakesACredit : Prop :=
  (∀ (s : State) (data : Word), s.resetN = .high → hostAccess .low .low .high 0x0C data = [] ∧
    s.readRegister 0x0C =
      0#5 ++ BitVec.ofNat 3 s.uq.entries.length ++ 0#4 ++ BitVec.ofNat 4 s.nq.entries.length ++ 0#3 ++ BitVec.ofNat 5 s.credits ++
        0#5 ++ BitVec.ofNat 3 s.lastres.code) ∧
  [PostResult.none, .accepted, .badKind, .badSlot, .badForm, .noCredit, .queueFull].map PostResult.code = List.range 7 ∧
  ∀ (s : State) (data : Word) (c : CommandRecord), s.resetN = .high → s.stagedRecord = some c →
    (∀ f ∈ c.dests ++ c.sources, f.toNat < 48) →
    ¬ ((c.kind = .divmod ∧ c.d = c.d2) ∨ ((c.kind = .shl ∨ c.kind = .shr) ∧ 16384 < c.imm.toNat)) →
    s.credits ≠ 0 → (s.queue c.queue).entries.length < (if c.queue = .normal then 12 else 4) →
    ((s.queue c.queue).entries ≠ [] → exec (.post data) s = .next
      { s.setQueue c.queue { s.queue c.queue with entries := (s.queue c.queue).entries ++ [c] } with
        credits := s.credits - 1, lastres := .accepted }) ∧
    ((s.queue c.queue).entries = [] → ∃ t, exec (.post data) s = .next t ∧
      t = { s with credits := s.credits - 1, lastres := .accepted, nq := t.nq, uq := t.uq, cq := t.cq
                   intstat := t.intstat, preemptPending := t.preemptPending } ∧
      t.preemptPending = t.preemptDue ∧
      (∀ q, q ≠ c.queue → t.queue q = s.queue q) ∧
      (((s.queue c.queue).latch = true ∧ c.policy = .skip) →
        t.queue c.queue = { s.queue c.queue with blocked := false, timer := .stopped } ∧
        t.cq = s.cq ++ [recordOfUnstarted .skipped c] ∧ t.intstat = s.intstat ||| notifyBit [c]) ∧
      (¬ ((s.queue c.queue).latch = true ∧ c.policy = .skip) →
        t.queue c.queue = { s.queue c.queue with
          entries := [c], blocked := !s.startable c
          timer := if s.startable c ∨ (s.queue c.queue).limit = 0 then .stopped else .running 0 } ∧
        t.cq = s.cq ∧ t.intstat = s.intstat))

/-- The startability test reads the locks of the slots the kind uses, each destination free of any lock and each source of a writer,
and which slots those are (R23, R82). -/
def Obligations.StartabilityTest : Prop :=
  ∀ (s : State) (c : CommandRecord),
    (s.startable c = true ↔
      (∀ f ∈ c.dests, ∀ i, f.toNat = i.val → (s.slot i).writer = none ∧ (s.slot i).readers = []) ∧
      ∀ f ∈ c.sources, ∀ i, f.toNat = i.val → (s.slot i).writer = none) ∧
    c.dests = (if c.kind = .cmp ∨ c.kind = .bitlen then [] else if c.kind = .divmod then [c.d, c.d2] else [c.d]) ∧
    c.sources =
      (if c.kind = .seti ∨ c.kind = .free then []
       else if c.kind = .copy ∨ c.kind = .shl ∨ c.kind = .shr ∨ c.kind = .bitlen then [c.a]
       else if c.kind = .modmul ∨ c.kind = .modexp then [c.a, c.b, c.m]
       else if c.kind = .modinv then [c.a, c.m] else [c.a, c.b])

/-- A HOLDLIM write sets both limits, which read back, and each timer responds to its own limit by the table of R91 (R159). -/
def Obligations.HoldlimWriteSetsLimits : Prop :=
  ∀ (s : State) (data : Word), s.resetN = .high → ∃ t, exec (.holdlimWrite data) s = .next t ∧
    t = { s with
      nq := { s.nq with limit := data.extractLsb' 0 16, timer := t.nq.timer }
      uq := { s.uq with limit := data.extractLsb' 16 16, timer := t.uq.timer } } ∧
    t.readRegister 0x05 = data ∧
    ∀ q, let old := s.queue q
      let new := (t.queue q).limit
      (new = old.limit → (t.queue q).timer = old.timer) ∧
      (old.limit ≠ 0 → new = 0 → (t.queue q).timer = .stopped) ∧
      (old.limit = 0 → new ≠ 0 → old.blocked = true → (t.queue q).timer = .running 0) ∧
      (old.limit = 0 → new ≠ 0 → old.blocked = false → (t.queue q).timer = old.timer) ∧
      (old.limit ≠ 0 → new ≠ 0 → (t.queue q).timer = old.timer)

/-- The expiry of a hold timer: the head is HELD, the latch, LATCH and HELD are set, the SKIP commands behind it are skipped, and
the new head is tested (R93). An event for a timer that is not to expire changes nothing (log entries 3 and 5). -/
def Obligations.HoldExpiryHoldsTheHead : Prop :=
  ∀ (s : State) (q : QueueId), s.resetN = .high →
    ((s.queue q).timer ≠ .expiring → exec (.holdExpiry q) s = .next s) ∧
    ∀ (c : CommandRecord) (rest : List CommandRecord),
      (s.queue q).timer = .expiring → (s.queue q).entries = c :: rest → c.queue = q →
      ∃ t, exec (.holdExpiry q) s = .next t ∧
        t = { s with nq := t.nq, uq := t.uq, cq := t.cq, intstat := t.intstat, preemptPending := t.preemptPending } ∧
        (∀ p, p ≠ q → t.queue p = s.queue p) ∧
        (t.queue q).entries = rest.dropWhile (fun d => d.policy = .skip) ∧ (t.queue q).latch = true ∧
        (t.queue q).limit = (s.queue q).limit ∧ (t.queue q).blocked = t.headBlocked q ∧
        (t.queue q).timer =
          (if t.headBlocked q = true ∧ (s.queue q).limit ≠ 0 then HoldTimer.running 0 else HoldTimer.stopped) ∧
        t.cq = s.cq ++ recordOfUnstarted .held c :: (skipRun rest).map (recordOfUnstarted .skipped) ∧
        t.intstat = s.intstat ||| IntFlag.latch.mask ||| IntFlag.held.mask ||| notifyBit (c :: skipRun rest) ∧
        t.preemptPending = t.preemptDue

/-! ### Completion records and attention -/

/-- A CQPOP removes the oldest record and returns one credit; on an empty queue it changes nothing (R30, R136). CQSTAT reads the
number of records, CQHEAD0 and CQHEAD1 the fields of the oldest one, 0 while there is none, each at its place and in its code, and no
read has an effect (R135, R163). -/
def Obligations.CqpopReturnsCredit : Prop :=
  (∀ (s : State) (data : Word), s.resetN = .high →
    (s.cq = [] → exec (.cqpop data) s = .next s ∧ s.readRegister 0x10 = 0 ∧ s.readRegister 0x11 = 0) ∧
    s.readRegister 0x13 = 0#27 ++ BitVec.ofNat 5 s.cq.length ∧
    (∀ offset ∈ [0x10#6, 0x11#6, 0x13#6], hostAccess .low .low .high offset data = []) ∧
    ∀ oldest rest, s.cq = oldest :: rest →
      exec (.cqpop data) s = .next { s with cq := rest, credits := s.credits + 1 } ∧
      s.readRegister 0x10 =
        (if oldest.sign = .neg then 1#1 else 0#1) ++
          (match oldest.holder with | none => 0#3 | some (.ctx n) => BitVec.ofNat 3 (n.val + 1) | some .urgent => 5#3) ++
          BitVec.ofNat 4 oldest.status.code ++ BitVec.ofNat 2 oldest.relation.code ++
          (if oldest.queue = .urgent then 1#1 else 0#1) ++ BitVec.ofNat 5 oldest.kind.code ++ oldest.tag ∧
      s.readRegister 0x11 =
        BitVec.ofBool oldest.zero ++ BitVec.ofNat 15 oldest.count ++ BitVec.ofNat 16 oldest.stepsDone) ∧
  [Status.done, .slotProtected, .divZero, .badModulus, .negExponent, .oversize, .notInvertible, .noSpace, .aborted, .held, .skipped,
    .flushed].map Status.code = List.range' 1 12 ∧
  [Relation.none, .lt, .eq, .gt].map Relation.code = List.range 4 ∧
  [Kind.copy, .seti, .add, .sub, .shl, .shr, .mul, .divmod, .modmul, .modexp, .modinv, .gcd, .cmp, .bitlen, .free].map Kind.code =
    List.range' 1 15

/-- INTSTAT reads its six flags; a write clears the flags whose bits are 1 and leaves the others (R138). INTEN takes the six written enables and
changes no flag (R139). ATTN_N is low exactly while a set flag is enabled (R140). -/
def Obligations.IntstatWriteClears : Prop :=
  (∀ (s : State) (data : Word), s.resetN = .high → s.readRegister 0x02 = s.intstat.setWidth 32 ∧
    hostAccess .low .low .high 0x02 data = [] ∧ ∃ t, exec (.intstatWrite data) s = .next t ∧
    t = { s with intstat := t.intstat } ∧
    ∀ i < 6, t.intstat.getLsbD i = (s.intstat.getLsbD i && !data.getLsbD i)) ∧
  (∀ (s : State) (data : Word), s.resetN = .high → ∃ t, exec (.intenWrite data) s = .next t ∧
    t = { s with inten := data.extractLsb' 0 6 } ∧ t.readRegister 0x03 = (data.extractLsb' 0 6).setWidth 32) ∧
  ∀ s : State, s.attnN = .low ↔ ∃ i < 6, s.intstat.getLsbD i = true ∧ s.inten.getLsbD i = true

/-! ### The Operand Store -/

/-- A POOLRES write sets the reserve, at most 64, and wakes every context whose pages wanted now fit (R14, R119). POOLSTAT reads the
free count and the reserve, without effect (R9, R163). -/
def Obligations.PoolresWriteWakes : Prop :=
  (∀ (s : State) (data : Word), s.resetN = .high → hostAccess .low .low .high 0x06 data = [] ∧
    s.readRegister 0x06 = 0#9 ++ BitVec.ofNat 7 s.reserve ++ 0#7 ++ BitVec.ofNat 9 s.freeList.length) ∧
  ∀ (s : State) (data : Word), s.resetN = .high → ∃ t, exec (.poolresWrite data) s = .next t ∧
    t.reserve = (if 64 < (data.extractLsb' 0 7).toNat then 64 else (data.extractLsb' 0 7).toNat) ∧
    t = { s with reserve := t.reserve, contexts := t.contexts
                 resumeList := s.resumeList ++ s.wokenBy s.freeList.length t.reserve } ∧
    ∀ n, t.record (.ctx n) =
      if n ∈ s.wokenBy s.freeList.length t.reserve then (s.record (.ctx n)).woken else s.record (.ctx n)

/-- SLOTSEL holds the written number and reads back; it selects the slot that SLOTINFO0 and SLOTINFO1 describe, with length, sign,
protect attribute and page count in the one and writer and readers in the other, and that the SLOTATTR requests act on; a number of
48 to 63 reads as an empty, unlocked, unprotected slot; the write changes nothing else; 0 after a hardware reset, kept by a soft
reset (R18, R19, R163). -/
def Obligations.SlotselSelects : Prop :=
  (∀ (s : State) (data : Word), s.resetN = .high → ∃ t, exec (.registerWrite 0x1C data) s = .next t ∧
    t = { s with slotsel := data.extractLsb' 0 6 } ∧ t.readRegister 0x1C = (data.extractLsb' 0 6).setWidth 32) ∧
  (∀ (s : State) (i : SlotId), s.resetN = .high → s.slotsel.toNat = i.val →
    s.readRegister 0x1D =
      0#10 ++ BitVec.ofNat 6 (s.slot i).pages.length ++ 0#2 ++ BitVec.ofBool (s.slot i).protect ++
        (if (s.slot i).sign = .neg then 1#1 else 0#1) ++ 0#2 ++ BitVec.ofNat 10 (s.slot i).length ∧
    (let reads (h : Holder) : BitVec 1 := if h ∈ (s.slot i).readers then 1#1 else 0#1
    s.readRegister 0x1E =
      0#17 ++ reads (.win 1) ++ reads (.win 0) ++ reads (.run .urgent) ++ reads (.run (.ctx 3)) ++ reads (.run (.ctx 2)) ++
        reads (.run (.ctx 1)) ++ reads (.run (.ctx 0)) ++ 0#5 ++
        (match (s.slot i).writer with
        | none => 0#3
        | some (.run (.ctx n)) => BitVec.ofNat 3 (n.val + 1)
        | some (.run .urgent) => 5#3
        | some (.win w) => BitVec.ofNat 3 (w.val + 6))) ∧
    (∀ t, exec .setProtect s = .next t → ∀ k, k ≠ i → t.slot k = s.slot k) ∧
    (∀ t, exec .clearProtect s = .next t → ∀ k, k ≠ i → t.slot k = s.slot k)) ∧
  (∀ s : State, 48 ≤ s.slotsel.toNat → s.readRegister 0x1D = 0 ∧ s.readRegister 0x1E = 0) ∧
  (∀ data, hostAccess .low .low .high 0x1D data = [] ∧ hostAccess .low .low .high 0x1E data = []) ∧
  State.reset.slotsel = 0 ∧
  (∀ s t : State, exec .softReset s = .next t → t.slotsel = s.slotsel)

/-- The two protect requests on the slot SLOTSEL names, and the read of their result (R16, R17, R163). -/
def Obligations.ProtectRequests : Prop :=
  (∀ (s : State) (data : Word), s.resetN = .high → hostAccess .low .low .high 0x1F data = [] ∧
    s.readRegister 0x1F = 0#30 ++ BitVec.ofNat 2 s.slotattr.code) ∧
  [AttrResult.none, .ok, .slotBusy, .badSlot].map AttrResult.code = List.range 4 ∧
  ∀ s : State, s.resetN = .high →
    (48 ≤ s.slotsel.toNat →
      exec .setProtect s = .next { s with slotattr := .badSlot } ∧
      exec .clearProtect s = .next { s with slotattr := .badSlot }) ∧
    ∀ i : SlotId, s.slotsel.toNat = i.val →
      ((s.slot i).writer ≠ none → exec .setProtect s = .next { s with slotattr := .slotBusy }) ∧
      ((s.slot i).writer = none →
        exec .setProtect s = .next { s.setSlot i { s.slot i with protect := true } with slotattr := .ok }) ∧
      exec .clearProtect s = .next { s.setSlot i { s.slot i with protect := false } with slotattr := .ok }

/-! ### Registers and the bus -/

/-- CTXSEL holds the written number and reads back; 0 to 3 select the contexts, 4 the U record, above 4 none; the write changes no
record; 0 after a hardware reset, kept by a soft reset (R128). CTXINFO0 to CTXINFO2 read the selected record, a FREE one where none is
selected, and its place on the resume list, without effect (R129, R163). -/
def Obligations.CtxselSelects : Prop :=
  (∀ (s : State) (data : Word), s.resetN = .high → ∃ t, exec (.registerWrite 0x15 data) s = .next t ∧
    t = { s with ctxsel := data.extractLsb' 0 3 } ∧ t.readRegister 0x15 = (data.extractLsb' 0 3).setWidth 32) ∧
  (∀ (s : State) (n : CtxId), s.ctxsel.toNat = n.val → s.selectedRecord = s.record (.ctx n)) ∧
  (∀ s : State, s.ctxsel.toNat = 4 → s.selectedRecord = s.urec) ∧
  (∀ s : State, 4 < s.ctxsel.toNat → s.selectedRecord = Record.free) ∧
  (∀ (s : State) (data : Word), s.resetN = .high →
    let j := s.selectedRecord
    let listed := ∃ n : CtxId, s.ctxsel.toNat = n.val ∧ n ∈ s.resumeList
    (∀ offset ∈ [0x16#6, 0x17#6, 0x18#6], hostAccess .low .low .high offset data = []) ∧
    s.readRegister 0x17 = BitVec.ofNat 16 j.stepTotal ++ BitVec.ofNat 16 j.stepsDone ∧
    s.readRegister 0x18 =
      0#9 ++ BitVec.ofNat 7 j.pagesWanted ++ 0#9 ++
        BitVec.ofNat 7 (j.wv0.pages.length + j.wv1.pages.length + j.wv2.pages.length) ∧
    ∃ (tag : BitVec 16) (kind : BitVec 5) (onList : BitVec 1) (position : BitVec 2),
      s.readRegister 0x16 =
        tag ++ 0#1 ++ kind ++ BitVec.ofBool j.abortPending ++ BitVec.ofBool j.parkPending ++ 0#1 ++ onList ++ position ++ 0#1 ++
          BitVec.ofNat 3 j.state.code ∧
      (∀ c, j.command = some c → tag = c.tag ∧ kind = BitVec.ofNat 5 c.kind.code) ∧
      (j.command = none → tag = 0 ∧ kind = 0) ∧
      (¬ listed → onList = 0 ∧ position = 0) ∧
      ∀ (n : CtxId) (front back : List CtxId), s.ctxsel.toNat = n.val → s.resumeList = front ++ n :: back → n ∉ front →
        onList = 1 ∧ position = BitVec.ofNat 2 front.length) ∧
  [CtxState.free, .active, .resumable, .parked, .spaceWait].map CtxState.code = List.range 5 ∧
  State.reset.ctxsel = 0 ∧
  (∀ s t : State, exec .softReset s = .next t → t.ctxsel = s.ctxsel)

/-- A write to a read-only or undefined offset changes nothing; a write to any offset does what the commands of its rows do, one
after another (R158, R160; that a REGISTER_WRITE carries every offset, and takes a DEVCTL write in one step, is log entries
14 and 15). -/
def Obligations.RegisterWriteIsItsCommands : Prop :=
  ∀ (s : State) (offset : Offset) (data : Word), s.resetN = .high →
    (offset.toNat ∈ [0x01, 0x06, 0x0D, 0x0E, 0x0F, 0x10, 0x11, 0x13, 0x16, 0x17, 0x18, 0x19, 0x1A, 0x1B, 0x1D, 0x1E, 0x23, 0x27] ∨
        0x28 ≤ offset.toNat → exec (.registerWrite offset data) s = .next s) ∧
    execAll (commandsOfWrite offset data) s = exec (.registerWrite offset data) s

/-- The write that spells a command of the host, with every operand in its field, is that command and no other (R157, R163), and a
read of WINnDATA is WINDOW_DATA_READ. The part drives D31-D0 in a read alone, with the register's word as it stands at the read; with
both strobes low, or neither, or without CS_N, it drives nothing and no command comes of the access (R157). Write-only and undefined
offsets read 0 (R158). That dataOut keeps the word of a WINDOW_DATA_READ is log entry 10. -/
def Obligations.HostWriteSpellsItsCommand : Prop :=
  (∀ (c : Instr) (offset : Offset) (data : Word), c.wellFormed = true → hostWrite c = some (offset, data) →
    hostAccess .low .high .low offset data = [c]) ∧
  (∀ (w : WindowId) (data : Word), hostAccess .low .low .high (windowOffset w + 1) data = [.windowDataRead w]) ∧
  (∀ (s : State) (offset : Offset), s.dataLines .low .low .high offset = some (s.readRegister offset)) ∧
  (∀ (s t : State) (w : WindowId), exec (.windowDataRead w) s = .next t →
    s.dataLines .low .low .high (windowOffset w + 1) = some t.dataOut) ∧
  (∀ (csN rdN wrN : PinLevel) (s : State) (offset : Offset) (data : Word), ¬ (csN = .low ∧ rdN = .low ∧ wrN = .high) →
    s.dataLines csN rdN wrN offset = none ∧
    (¬ (csN = .low ∧ rdN = .high ∧ wrN = .low) → hostAccess csN rdN wrN offset data = [])) ∧
  ∀ (s : State) (offset : Offset),
    offset.toNat ∈ [0x07, 0x0D, 0x0E, 0x0F, 0x12, 0x19, 0x1A, 0x1B, 0x20, 0x24] ∨ 0x28 ≤ offset.toNat → s.readRegister offset = 0

/-! ### Contexts -/

/-- PARK, RESUME and ABORT by the state of the context, and ABORT_URGENT, whose target is ignored; a target above 3 is BAD_TARGET.
The abort of a suspended context is AbortOfSuspendedContext (R120 to R124, R126). A read of CTXREQ returns the result, without
effect (R120, R163). -/
def Obligations.ContextRequests : Prop :=
  (∀ (s : State) (data : Word), s.resetN = .high → hostAccess .low .low .high 0x14 data = [] ∧
    s.readRegister 0x14 = 0#29 ++ BitVec.ofNat 3 s.ctxreq.code) ∧
  [CtxResult.none, .ok, .pending, .refusedState, .badTarget].map CtxResult.code = List.range 5 ∧
  ∀ (s : State) (target : BitVec 3), s.resetN = .high →
    (4 ≤ target.toNat →
      exec (.park target) s = .next { s with ctxreq := .badTarget } ∧
      exec (.resume target) s = .next { s with ctxreq := .badTarget } ∧
      exec (.abort target) s = .next { s with ctxreq := .badTarget }) ∧
    (s.urec.state = .active → exec (.abortUrgent target) s = .next
      { s with urec := { s.urec with abortPending := true }, ctxreq := .pending }) ∧
    (s.urec.state ≠ .active → exec (.abortUrgent target) s = .next { s with ctxreq := .refusedState }) ∧
    ∀ n : CtxId, target.toNat = n.val →
      let j := s.record (.ctx n)
      (j.state = .active → exec (.park target) s = .next
        { s.setRecord (.ctx n) { j with parkPending := true } with ctxreq := .pending }) ∧
      (j.state = .resumable ∨ j.state = .spaceWait → exec (.park target) s = .next
        { s.setRecord (.ctx n) { j with state := .parked, pagesWanted := 0, parkPending := false } with
          resumeList := s.resumeList.filter (· ≠ n), intstat := s.intstat ||| IntFlag.park.mask, ctxreq := .ok }) ∧
      (j.state = .parked ∨ j.state = .free → exec (.park target) s = .next { s with ctxreq := .refusedState }) ∧
      (j.state = .parked → exec (.resume target) s = .next
        { s.setRecord (.ctx n) { j with state := .resumable } with resumeList := s.resumeList ++ [n], ctxreq := .ok }) ∧
      (j.state ≠ .parked → exec (.resume target) s = .next { s with ctxreq := .refusedState }) ∧
      (j.state = .active → exec (.abort target) s = .next
        { s.setRecord (.ctx n) { j with abortPending := true } with ctxreq := .pending }) ∧
      (j.state = .free → exec (.abort target) s = .next { s with ctxreq := .refusedState })

/-- The abort of a suspended context, at once and whole (R125). -/
def Obligations.AbortOfSuspendedContext : Prop :=
  ∀ (s : State) (target : BitVec 3) (n : CtxId) (c : CommandRecord), s.resetN = .high → target.toNat = n.val →
    ((s.record (.ctx n)).state = .resumable ∨ (s.record (.ctx n)).state = .parked ∨ (s.record (.ctx n)).state = .spaceWait) →
    (s.record (.ctx n)).command = some c →
    ∃ t, exec (.abort target) s = .next t ∧ t.ctxreq = .ok ∧ t.owner = s.owner ∧ t.stepRunning = s.stepRunning ∧
      t.preemptPending = t.preemptDue ∧
      CommandEnds { s with resumeList := s.resumeList.filter (· ≠ n) } t (.ctx n) c
        (recordOfEnded .aborted (.ctx n) c (s.record (.ctx n)).stepsDone) (s.record (.ctx n)).workPages s.slot

/-! ### Windows -/

/-- OPEN_READ: its tests in order, and the session it opens (R89, R92, R144, R145, R146). -/
def Obligations.OpenReadRequest : Prop :=
  ∀ (s : State) (w : WindowId) (slot : SlotField), s.resetN = .high →
    let refused (r : WindowResult) : State :=
      { s.setWindow w { s.window w with lastResult := r } with intstat := s.intstat ||| IntFlag.winerr.mask }
    ((s.window w).state ≠ .closed → exec (.openRead w slot) s = .next (refused .refusedState)) ∧
    ((s.window w).state = .closed →
      (48 ≤ slot.toNat → exec (.openRead w slot) s = .next (refused .badSlot)) ∧
      ∀ i : SlotId, slot.toNat = i.val →
        ((s.slot i).writer ≠ none → exec (.openRead w slot) s = .next (refused .refusedLocked)) ∧
        ((s.slot i).writer = none → ∃ t, exec (.openRead w slot) s = .next t ∧
          (∀ k, k ≠ i → t.slot k = s.slot k) ∧
          t.slot i = { s.slot i with readers := (t.slot i).readers } ∧
          (∀ h, h ∈ (t.slot i).readers ↔ h = .win w ∨ h ∈ (s.slot i).readers) ∧
          (∀ v, v ≠ w → t.window v = s.window v) ∧
          t.window w =
            { s.window w with
              state := .openRead, slot := i, index := 0, declLength := 0, declSign := .pos, staging := []
              lastResult := .ok } ∧
          (∀ q, (t.queue q).entries = (s.queue q).entries ∧ (t.queue q).blocked = t.headBlocked q ∧
            (t.queue q).timer = (s.queue q).timerAfter (t.headBlocked q)) ∧
          t.preemptPending = t.preemptDue ∧
          t = { s with slots := t.slots, windows := t.windows, preemptPending := t.preemptPending
                       nq := { s.nq with blocked := t.nq.blocked, timer := t.nq.timer }
                       uq := { s.uq with blocked := t.uq.blocked, timer := t.uq.timer } }))

/-- OPEN_WRITE: its tests in order, the pages it acquires and the session it opens (R11, R89, R92, R144, R145, R147). -/
def Obligations.OpenWriteRequest : Prop :=
  ∀ (s : State) (w : WindowId) (slot : SlotField) (length : BitVec 10) (sign : Sign), s.resetN = .high →
    let refused (r : WindowResult) : State :=
      { s.setWindow w { s.window w with lastResult := r } with intstat := s.intstat ||| IntFlag.winerr.mask }
    let answer := exec (.openWrite w slot length sign) s
    let d := pg length.toNat
    ((s.window w).state ≠ .closed → answer = .next (refused .refusedState)) ∧
    ((s.window w).state = .closed →
      (48 ≤ slot.toNat → answer = .next (refused .badSlot)) ∧
      ∀ i : SlotId, slot.toNat = i.val →
        let locked := (s.slot i).writer ≠ none ∨ (s.slot i).readers ≠ []
        let room := d = 0 ∨ d + s.reserve ≤ s.freeList.length
        (512 < length.toNat → answer = .next (refused .badLength)) ∧
        (length.toNat ≤ 512 → locked → answer = .next (refused .refusedLocked)) ∧
        (length.toNat ≤ 512 → ¬ locked → (s.slot i).protect = true → answer = .next (refused .refusedProtected)) ∧
        (length.toNat ≤ 512 → ¬ locked → (s.slot i).protect = false → ¬ room → answer = .next (refused .refusedSpace)) ∧
        (length.toNat ≤ 512 → ¬ locked → (s.slot i).protect = false → room → ∃ t, answer = .next t ∧
          t.freeList = s.freeList.drop d ∧
          (∀ p ∈ s.freeList.take d, ∀ k < 16, t.mem.read (16 * p.val + k) = 0) ∧
          (∀ a, (∀ p ∈ s.freeList.take d, p.val ≠ a / 16) → t.mem.read a = s.mem.read a) ∧
          (∀ k, t.slot k = if k = i then { s.slot i with writer := some (.win w) } else s.slot k) ∧
          (∀ v, v ≠ w → t.window v = s.window v) ∧
          t.window w =
            { s.window w with
              state := .openWrite, slot := i, index := 0, declLength := length.toNat, declSign := sign
              staging := s.freeList.take d, lastResult := .ok } ∧
          (∀ q, (t.queue q).entries = (s.queue q).entries ∧ (t.queue q).blocked = t.headBlocked q ∧
            (t.queue q).timer = (s.queue q).timerAfter (t.headBlocked q)) ∧
          t.preemptPending = t.preemptDue ∧
          t = { s with slots := t.slots, windows := t.windows, preemptPending := t.preemptPending
                       freeList := t.freeList, mem := t.mem
                       nq := { s.nq with blocked := t.nq.blocked, timer := t.nq.timer }
                       uq := { s.uq with blocked := t.uq.blocked, timer := t.uq.timer } }))

/-- SEEK, CLOSE and CANCEL in a CLOSED window are refused; SEEK in an open one takes an index up to 511 (R144, R148). WINnIDX reads the
index, without effect (R148). -/
def Obligations.SeekRequest : Prop :=
  (∀ (s : State) (w : WindowId) (data : Word), s.resetN = .high → hostAccess .low .low .high (windowOffset w + 3) data = [] ∧
    s.readRegister (windowOffset w + 3) = 0#22 ++ BitVec.ofNat 10 (s.window w).index) ∧
  ∀ (s : State) (w : WindowId) (index : BitVec 10), s.resetN = .high →
    let refused (r : WindowResult) : State :=
      { s.setWindow w { s.window w with lastResult := r } with intstat := s.intstat ||| IntFlag.winerr.mask }
    ((s.window w).state = .closed →
      exec (.seek w index) s = .next (refused .refusedState) ∧ exec (.close w) s = .next (refused .refusedState) ∧
      exec (.cancel w) s = .next (refused .refusedState)) ∧
    ((s.window w).state ≠ .closed →
      (511 < index.toNat → exec (.seek w index) s = .next (refused .badLength)) ∧
      (index.toNat ≤ 511 → exec (.seek w index) s = .next
        (s.setWindow w { s.window w with index := index.toNat, lastResult := .ok })))

/-- The end of a session. Of a read session, CLOSE and CANCEL release the lock and close the record, and change no value and no page
(R153). Of a write session, CLOSE installs the normalized staged value and CANCEL does not; both give the pages back in their
order, release the lock and close the record (R6, R13, R152, R153). Each head is tested against the locks left, and its hold timer
starts, goes on or stops (R86, R89, R92). -/
def Obligations.SessionsEnd : Prop :=
  (∀ (s : State) (w : WindowId), s.resetN = .high → (s.window w).state = .openRead →
    ∃ t, exec (.close w) s = .next t ∧ exec (.cancel w) s = .next t ∧
      (∀ i, t.slot i =
        { s.slot i with
          writer := if (s.slot i).writer = some (.win w) then none else (s.slot i).writer
          readers := (s.slot i).readers.filter fun h => h ≠ .win w }) ∧
      t.window w =
        { state := .closed, slot := 0, index := 0, declLength := 0, declSign := .pos, staging := []
          overrun := (s.window w).overrun, pastEnd := (s.window w).pastEnd, lastResult := .ok } ∧
      (∀ v, v ≠ w → t.window v = s.window v) ∧
      (∀ q, (t.queue q).entries = (s.queue q).entries ∧ (t.queue q).blocked = t.headBlocked q ∧
        (t.queue q).timer = (s.queue q).timerAfter (t.headBlocked q)) ∧
      t.preemptPending = t.preemptDue ∧
      t = { s with slots := t.slots, windows := t.windows, preemptPending := t.preemptPending
                   nq := { s.nq with blocked := t.nq.blocked, timer := t.nq.timer }
                   uq := { s.uq with blocked := t.uq.blocked, timer := t.uq.timer } }) ∧
  ∀ (s : State) (w : WindowId), s.resetN = .high → (s.window w).state = .openWrite →
    let v := s.window w
    let len := trimmedLength s.mem v.staging v.declLength
    let unlocked (x : Slot) : Slot :=
      { x with
        writer := if x.writer = some (.win w) then none else x.writer
        readers := x.readers.filter fun h => h ≠ .win w }
    let ends (t : State) (gone : List PageId) : Prop :=
      t.freeList = s.freeList ++ gone ∧
      t.window w =
        { state := .closed, slot := 0, index := 0, declLength := 0, declSign := .pos, staging := []
          overrun := v.overrun, pastEnd := v.pastEnd, lastResult := .ok } ∧
      (∀ u, u ≠ w → t.window u = s.window u) ∧
      (∀ n, t.record (.ctx n) =
        if n ∈ s.wokenBy t.freeList.length s.reserve then (s.record (.ctx n)).woken else s.record (.ctx n)) ∧
      (∀ q, (t.queue q).entries = (s.queue q).entries ∧ (t.queue q).blocked = t.headBlocked q ∧
        (t.queue q).timer = (s.queue q).timerAfter (t.headBlocked q)) ∧
      t.preemptPending = t.preemptDue ∧
      t = { s with slots := t.slots, windows := t.windows, preemptPending := t.preemptPending
                   freeList := t.freeList, contexts := t.contexts
                   resumeList := s.resumeList ++ s.wokenBy t.freeList.length s.reserve
                   nq := { s.nq with blocked := t.nq.blocked, timer := t.nq.timer }
                   uq := { s.uq with blocked := t.uq.blocked, timer := t.uq.timer } }
    (∃ t, exec (.close w) s = .next t ∧ ends t ((s.slot v.slot).pages ++ v.staging.drop (pg len)) ∧
      t.slot v.slot = unlocked
        { s.slot v.slot with sign := if len = 0 then .pos else v.declSign, length := len, pages := v.staging.take (pg len) } ∧
      (∀ i, i ≠ v.slot → t.slot i = unlocked (s.slot i)) ∧
      magnitude t.mem (t.slot v.slot).pages (t.slot v.slot).length = magnitude s.mem v.staging v.declLength) ∧
    ∃ t, exec (.cancel w) s = .next t ∧ ends t v.staging ∧ ∀ i, t.slot i = unlocked (s.slot i)

/-- A write to WINnDATA: below the declared length it stores the staged limb and steps the index, at or beyond it sets OVERRUN
and WINERR; outside OPEN_WRITE it changes nothing (R149). -/
def Obligations.WindowDataWriteStores : Prop :=
  ∀ (s : State) (w : WindowId) (data : Word), s.resetN = .high → MemoryCanonical s → WindowsConsistent s →
    let v := s.window w
    (v.state ≠ .openWrite → exec (.windowDataWrite w data) s = .next s) ∧
    (v.state = .openWrite → v.declLength ≤ v.index → exec (.windowDataWrite w data) s = .next
      { s.setWindow w { v with overrun := true } with intstat := s.intstat ||| IntFlag.winerr.mask }) ∧
    (v.state = .openWrite → v.index < v.declLength → ∃ t, exec (.windowDataWrite w data) s = .next t ∧
      t = { s.setWindow w { v with index := v.index + 1 } with mem := t.mem } ∧
      ∃ p, v.staging[v.index / 16]? = some p ∧ t.mem.read (16 * p.val + v.index % 16) = data ∧
        ∀ a, a ≠ 16 * p.val + v.index % 16 → t.mem.read a = s.mem.read a)

/-- A read of WINnDATA: in OPEN_READ the limb of the slot's value, or 0 with PAST_END at or beyond its length, and the index steps
up to 512; otherwise 0 and nothing changes (R150). The word is kept in dataOut (log entry 10). -/
def Obligations.WindowDataReadSteps : Prop :=
  ∀ (s : State) (w : WindowId), s.resetN = .high →
    let v := s.window w
    (v.state ≠ .openRead → exec (.windowDataRead w) s = .next { s with dataOut := 0 }) ∧
    (v.state = .openRead →
      (v.index < (s.slot v.slot).length → exec (.windowDataRead w) s = .next
        { s.setWindow w { v with index := min (v.index + 1) 512 } with
          dataOut := limbAt s.mem (s.slot v.slot).pages v.index }) ∧
      ((s.slot v.slot).length ≤ v.index → exec (.windowDataRead w) s = .next
        { s.setWindow w { v with index := min (v.index + 1) 512, pastEnd := true } with dataOut := 0 }))

/-- A read of WINnSTAT returns its fields and changes nothing; a write clears OVERRUN and PAST_END and nothing else; once set they
stay set until such a write or a reset, which clears them (R151). -/
def Obligations.WinstatFlagsAreSticky : Prop :=
  (∀ (w : WindowId) (data : Word), hostAccess .low .low .high (windowOffset w + 2) data = []) ∧
  (∀ (s : State) (w : WindowId), s.resetN = .high → s.readRegister (windowOffset w + 2) =
    0#6 ++ BitVec.ofNat 10 (s.window w).declLength ++ (if (s.window w).declSign = .neg then 1#1 else 0#1) ++ 0#1 ++
      BitVec.ofNat 6 (s.window w).slot.val ++ 0#1 ++ BitVec.ofNat 3 (s.window w).lastResult.code ++
      BitVec.ofBool (s.window w).pastEnd ++ BitVec.ofBool (s.window w).overrun ++ BitVec.ofNat 2 (s.window w).state.code) ∧
  [WindowState.closed, .openRead, .openWrite].map WindowState.code = List.range 3 ∧
  [WindowResult.ok, .refusedState, .badSlot, .badLength, .refusedLocked, .refusedProtected, .refusedSpace].map WindowResult.code =
    List.range 7 ∧
  (∀ (s : State) (w : WindowId) (data : Word), s.resetN = .high →
    exec (.winstatWrite w data) s = .next (s.setWindow w { s.window w with overrun := false, pastEnd := false })) ∧
  (∀ (s t : State) (w : WindowId), s.resetN = .high → exec .softReset s = .next t →
    (t.window w).overrun = false ∧ (t.window w).pastEnd = false) ∧
  (∀ w, (State.reset.window w).overrun = false ∧ (State.reset.window w).pastEnd = false) ∧
  ∀ (c : Instr) (s t : State) (w : WindowId), exec c s = .next t →
    (∀ level, c ≠ .hardwareReset level) → c ≠ .softReset → (∀ data, c ≠ .registerWrite 0x00 data) →
    (∀ data, c ≠ .winstatWrite w data) → (∀ data, c ≠ .registerWrite (windowOffset w + 2) data) →
    ((s.window w).overrun = true → (t.window w).overrun = true) ∧
    ((s.window w).pastEnd = true → (t.window w).pastEnd = true)

/-! ### Selection -/

/-- A selection starts the UQ head if it is startable, and otherwise, with no context to resume, the startable NQ head in the
lowest-numbered FREE context: locks taken, head removed, record filled, Core taken (R83, R97, R99, R100). The new head and the other
queue's head are tested against the locks, and their hold timers start, go on or stop (R33, R89, R92). -/
def Obligations.SelectionStarts : Prop :=
  ∀ (s : State) (q : QueueId) (r : Runner) (c : CommandRecord) (rest : List CommandRecord), s.resetN = .high → s.owner = none →
    (s.queue q).entries = c :: rest → s.startable c = true →
    ((q = .urgent ∧ r = .urgent) ∨
      (q = .normal ∧ s.headStartable .urgent = false ∧ s.resumeList = [] ∧
        ∃ n, r = .ctx n ∧ (s.record (.ctx n)).state = .free ∧ ∀ m, (s.record (.ctx m)).state = .free → n ≤ m)) →
    ∃ t, exec .selection s = .next t ∧ t.owner = some r ∧ t.stepRunning = false ∧
      (∀ x, t.record x = if x = r then Record.justStarted c (s.stepTotalOf c) else s.record x) ∧
      (∀ i, t.slot i =
        { s.slot i with
          writer := if ∃ f ∈ c.dests, f.toNat = i.val then some (.run r) else (s.slot i).writer
          readers := (t.slot i).readers }) ∧
      (∀ i h, h ∈ (t.slot i).readers ↔ h ∈ (s.slot i).readers ∨ (h = .run r ∧ ∃ f ∈ c.sources, f.toNat = i.val)) ∧
      (t.queue q).entries =
        (if (s.queue q).latch then rest.dropWhile (fun d => d.policy = .skip) else rest) ∧
      t.cq = s.cq ++ (if (s.queue q).latch then (skipRun rest).map (recordOfUnstarted .skipped) else []) ∧
      t.intstat = s.intstat ||| (if (s.queue q).latch then notifyBit (skipRun rest) else 0) ∧
      (∀ p, p ≠ q → (t.queue p).entries = (s.queue p).entries) ∧
      (∀ p, (t.queue p).latch = (s.queue p).latch ∧ (t.queue p).limit = (s.queue p).limit ∧
        (t.queue p).blocked = t.headBlocked p ∧
        (t.queue p).timer =
          if p = q then (s.queue p).timerOfNewHead (t.headBlocked p) else (s.queue p).timerAfter (t.headBlocked p)) ∧
      t.preemptPending = t.preemptDue ∧
      t = { s with
        owner := t.owner, stepRunning := t.stepRunning, contexts := t.contexts, urec := t.urec, slots := t.slots
        nq := t.nq, uq := t.uq, cq := t.cq, intstat := t.intstat, preemptPending := t.preemptPending }

/-- A selection resumes the head of the resume list when no UQ head is startable; with nothing to serve it leaves the Core idle;
while the Core is busy it only recomputes the preemption-pending indicator (R97, R101, R102). ENGSTAT reads the owner, its next step
and the four indicators, without effect (R111, R163). -/
def Obligations.SelectionResumesOrWaits : Prop :=
  (∀ (s : State) (data : Word), s.resetN = .high →
    let waits := s.nq.entries ≠ [] ∧ s.nq.blocked = false ∧ ∀ n, (s.record (.ctx n)).state ≠ .free
    let upper (step : BitVec 16) (owner : BitVec 3) : Word :=
      step ++ 0#8 ++ (if waits then 1#1 else 0#1) ++ BitVec.ofBool s.nq.blocked ++ BitVec.ofBool s.uq.blocked ++
        BitVec.ofBool s.preemptPending ++ 0#1 ++ owner
    hostAccess .low .low .high 0x01 data = [] ∧
    (s.owner = none → s.readRegister 0x01 = upper 0 0) ∧
    (∀ n, s.owner = some (.ctx n) →
      s.readRegister 0x01 = upper (BitVec.ofNat 16 (s.record (.ctx n)).nextStep) (BitVec.ofNat 3 (n.val + 1))) ∧
    (s.owner = some .urgent → s.readRegister 0x01 = upper (BitVec.ofNat 16 s.urec.nextStep) 5)) ∧
  ∀ s : State, s.resetN = .high →
    (∀ (n : CtxId) (rest : List CtxId), s.owner = none → s.headStartable .urgent = false → s.resumeList = n :: rest →
      exec .selection s = .next
        { s.setRecord (.ctx n) { s.record (.ctx n) with state := .active } with
          resumeList := (n :: rest).filter (· ≠ n), owner := some (.ctx n), stepRunning := false, preemptPending := false }) ∧
    (s.owner = none → s.headStartable .urgent = false → s.resumeList = [] →
      (s.headStartable .normal = false ∨ ∀ n, (s.record (.ctx n)).state ≠ .free) → exec .selection s = .next s) ∧
    (s.owner ≠ none → exec .selection s = .next { s with preemptPending := s.preemptDue })

/-! ### Steps -/

/-- The owner's next step begins: no check fails, and its acquisition is granted with the first pages of the free list, zeroed,
to WV0, then WV1, then WV2 (R10, R11, R67, R69). That the checks are marked as made is log entry 13. -/
def Obligations.StepBeginAcquires : Prop :=
  ∀ (s : State) (r : Runner) (c : CommandRecord), s.resetN = .high → s.owner = some r → (s.record r).command = some c →
    s.stepRunning = false →
    ((s.record r).nextStep ≠ 0 ∨ (s.record r).checksMade = true ∨ s.stepZeroFault c = none) →
    let j := s.record r
    let want := s.declaredPages c j.nextStep
    let n0 := want.1 - j.wv0.pages.length
    let n1 := want.2.1 - j.wv1.pages.length
    let n2 := want.2.2 - j.wv2.pages.length
    let d := n0 + n1 + n2
    (d = 0 ∨ (r = .urgent ∧ d ≤ s.freeList.length) ∨ d + s.reserve ≤ s.freeList.length) →
    ∃ t, exec .stepBegin s = .next t ∧ t.stepRunning = true ∧ t.freeList = s.freeList.drop d ∧
      (∀ p ∈ s.freeList.take d, ∀ k < 16, t.mem.read (16 * p.val + k) = 0) ∧
      (∀ a, (∀ p ∈ s.freeList.take d, p.val ≠ a / 16) → t.mem.read a = s.mem.read a) ∧
      (∀ x, x ≠ r → t.record x = s.record x) ∧
      t.record r =
        { j with
          wv0 := { j.wv0 with pages := j.wv0.pages ++ s.freeList.take n0 }
          wv1 := { j.wv1 with pages := j.wv1.pages ++ (s.freeList.drop n0).take n1 }
          wv2 := { j.wv2 with pages := j.wv2.pages ++ (s.freeList.drop (n0 + n1)).take n2 }
          checksMade := if j.nextStep = 0 then true else j.checksMade } ∧
      t = { s with stepRunning := true, freeList := t.freeList, mem := t.mem, contexts := t.contexts, urec := t.urec }

/-- What a start fixes as the step total of each kind (R66), the pages that each step of each kind declares (R68), the checks of step
0 in their order (R43, R45, R46), and which step is the last: by the step total, or for GCD and MODINV from the values (R65, R76).
Where MODINV's y stands is log entry 8. -/
def Obligations.StepTotalsAndChecks : Prop :=
  (∀ (s : State) (c : CommandRecord),
    let la := (s.value c.a).length
    let lb := (s.value c.b).length
    let lm := (s.value c.m).length
    let n := c.imm.toNat
    (c.kind = .copy → s.stepTotalOf c = 1 + pg la) ∧
    (c.kind = .seti ∨ c.kind = .cmp ∨ c.kind = .bitlen ∨ c.kind = .free → s.stepTotalOf c = 1) ∧
    (c.kind = .add ∨ c.kind = .sub → s.stepTotalOf c = 1 + pg (max la lb + 1)) ∧
    (c.kind = .shl → s.stepTotalOf c = if 0 < la then 1 + pg (la + (n + 31) / 32) else 1) ∧
    (c.kind = .shr → s.stepTotalOf c = if n / 32 < la then 1 + pg (la - n / 32) else 1) ∧
    (c.kind = .mul → s.stepTotalOf c = if 0 < la ∧ 0 < lb then 1 + la else 1) ∧
    (c.kind = .divmod → s.stepTotalOf c = if lb ≤ la then 1 + (la - lb + 1) else 1) ∧
    (c.kind = .modmul → s.stepTotalOf c = lm + 4) ∧
    (c.kind = .modexp → s.stepTotalOf c = 2 + bitLength (s.value c.b).mag) ∧
    (c.kind = .gcd ∨ c.kind = .modinv → s.stepTotalOf c = 0)) ∧
  (∀ (s : State) (c : CommandRecord) (i : Nat),
    let la := (s.value c.a).length
    let lb := (s.value c.b).length
    let lm := (s.value c.m).length
    (c.kind ∈ [.copy, .add, .sub, .shl, .shr] → s.declaredPages c i = (i, 0, 0)) ∧
    (c.kind = .seti → s.declaredPages c 0 = if c.imm = 0 then (0, 0, 0) else (1, 0, 0)) ∧
    (c.kind = .mul → s.declaredPages c i = if i = 0 then (0, 0, 0) else (pg (lb + i), 0, 0)) ∧
    (c.kind = .divmod →
      s.declaredPages c i = if i = 0 then (if 0 < la then (0, pg (la + 1), 0) else (0, 0, 0)) else (pg i, 0, 0)) ∧
    (c.kind = .modmul ∨ c.kind = .modexp →
      s.declaredPages c i = if i = 0 then (pg lm, pg lm, pg (2 * lm + 1)) else (0, 0, 0)) ∧
    (c.kind = .gcd → s.declaredPages c i =
      if i = 0 then (pg (max la lb + 1), pg (max la lb + 1), pg (max la lb + 1)) else (0, 0, 0)) ∧
    (c.kind = .modinv → s.declaredPages c i = if i = 0 then (pg (lm + 1), pg (lm + 1), pg (lm + 1)) else (0, 0, 0)) ∧
    (c.kind ∈ [.cmp, .bitlen, .free] → s.declaredPages c i = (0, 0, 0))) ∧
  (∀ (w : Work) (kind : Kind) (i : Nat),
    (kind ≠ .gcd → kind ≠ .modinv → (w.lastStep kind i = true ↔ i + 1 = w.job.stepTotal)) ∧
    (kind = .gcd → (w.lastStep kind i = true ↔ w.mag .wv1 = 0)) ∧
    (kind = .modinv → (w.lastStep kind i = true ↔ i ≠ 0 ∧ w.mag .wv2 % 2 ^ (32 * limbCount (w.mag .wv1)) = 0))) ∧
  ∀ (s : State) (c : CommandRecord),
    let a := s.value c.a
    let b := s.value c.b
    let m := s.value c.m
    let isProtected := ∃ f ∈ c.dests, ∃ i : SlotId, f.toNat = i.val ∧ (s.slot i).protect = true
    let modular := c.kind = .modmul ∨ c.kind = .modexp ∨ c.kind = .modinv
    let badModulus := m.length = 0 ∨ m.sign = .neg
    let big := (c.kind = .mul ∧ 0 < a.length ∧ 0 < b.length ∧ 512 < a.length + b.length - 1) ∨
      (c.kind = .shl ∧ 0 < a.length ∧ 512 < a.length + c.imm.toNat / 32)
    (isProtected → s.stepZeroFault c = some .slotProtected) ∧
    (¬ isProtected →
      (c.kind = .divmod → b.mag = 0 → s.stepZeroFault c = some .divZero) ∧
      (modular → badModulus → s.stepZeroFault c = some .badModulus) ∧
      (modular → ¬ badModulus → 256 < m.length → s.stepZeroFault c = some .oversize) ∧
      (c.kind = .modexp → ¬ badModulus → m.length ≤ 256 → b.sign = .neg → s.stepZeroFault c = some .negExponent) ∧
      (big → s.stepZeroFault c = some .oversize) ∧
      ((c.kind = .divmod → b.mag ≠ 0) → (modular → ¬ badModulus ∧ m.length ≤ 256) → (c.kind = .modexp → b.sign = .pos) →
        ¬ big → s.stepZeroFault c = none))

/-- A failed check ends the command at step 0 with its status and steps done 1; a result that is too long, or no inverse, ends it at
its last step. No slot changes, every working page goes back, and a request still pending changes no CTXREQ result (R42, R43, R61,
R77, R79, R107, R110). That MODINV's divisor stands in WV1 is log entry 8. -/
def Obligations.FaultsInstallNothing : Prop :=
  (∀ (s : State) (r : Runner) (c : CommandRecord) (status : Status), s.resetN = .high → s.owner = some r →
    (s.record r).command = some c → s.stepRunning = false → (s.record r).nextStep = 0 → (s.record r).checksMade = false →
    s.stepZeroFault c = some status →
    ∃ t, exec .stepBegin s = .next t ∧ t.owner = none ∧ t.stepRunning = false ∧ t.preemptPending = false ∧
      t.ctxreq = s.ctxreq ∧
      CommandEnds s t r c (recordOfEnded status r c 1) (s.record r).workPages s.slot) ∧
  ∀ (s : State) (r : Runner) (c : CommandRecord), s.resetN = .high → s.owner = some r →
    (s.record r).command = some c → s.stepRunning = true → (s.record r).stepsDone < 65535 →
    let w := s.stepWork c (s.record r)
    w.lastStep c.kind (s.record r).nextStep = true →
    ((c.kind = .add ∨ c.kind = .sub ∨ c.kind = .shl ∨ c.kind = .mul) →
      512 < trimmedLength w.mem w.job.wv0.pages w.job.wv0.length →
      ∃ t, exec .stepEnd s = .next t ∧ t.mem = w.mem ∧ t.owner = none ∧ t.stepRunning = false ∧ t.preemptPending = false ∧
        t.ctxreq = s.ctxreq ∧
        CommandEnds { s with mem := w.mem } t r c (recordOfEnded .oversize r c ((s.record r).stepsDone + 1))
          (s.record r).workPages s.slot) ∧
    (c.kind = .modinv → w.mag .wv1 ≠ 1 →
      ∃ t, exec .stepEnd s = .next t ∧ t.mem = w.mem ∧ t.owner = none ∧ t.stepRunning = false ∧ t.preemptPending = false ∧
        t.ctxreq = s.ctxreq ∧
        CommandEnds { s with mem := w.mem } t r c (recordOfEnded .notInvertible r c ((s.record r).stepsDone + 1))
          (s.record r).workPages s.slot)

/-- A refused acquisition: a pending abort ends the command; the urgent command ends with NO_SPACE; a pending park parks the
context; else the context waits for pages, with the refused demand and SPACE set (R12, R107, R108, R109, R118). That the checks
of step 0 stay marked as made is log entry 13; that no release comes between the refusal and the SPACE_WAIT entry, so that the entry
does not wake the context at once, is log entry 21. -/
def Obligations.StepBeginRefused : Prop :=
  ∀ (s : State) (r : Runner) (c : CommandRecord), s.resetN = .high → s.owner = some r → (s.record r).command = some c →
    s.stepRunning = false →
    ((s.record r).nextStep ≠ 0 ∨ (s.record r).checksMade = true ∨ s.stepZeroFault c = none) →
    let j := { s.record r with checksMade := if (s.record r).nextStep = 0 then true else (s.record r).checksMade }
    let d := s.demandOf c (s.record r)
    d ≠ 0 → (r = .urgent → s.freeList.length < d) → (r ≠ .urgent → s.freeList.length < d + s.reserve) →
    ((s.record r).abortPending = true → ∃ t, exec .stepBegin s = .next t ∧ t.owner = none ∧ t.stepRunning = false ∧
      t.preemptPending = false ∧ t.ctxreq = s.ctxreq ∧
      CommandEnds s t r c (recordOfEnded .aborted r c (s.record r).stepsDone) (s.record r).workPages s.slot) ∧
    ((s.record r).abortPending = false →
      (r = .urgent → ∃ t, exec .stepBegin s = .next t ∧ t.owner = none ∧ t.stepRunning = false ∧
        t.preemptPending = false ∧ t.ctxreq = s.ctxreq ∧
        CommandEnds s t r c (recordOfEnded .noSpace r c (s.record r).stepsDone) (s.record r).workPages s.slot) ∧
      ∀ n, r = .ctx n →
        ((s.record r).parkPending = true → exec .stepBegin s = .next
          { s.setRecord r { j with state := .parked, pagesWanted := 0, parkPending := false } with
            resumeList := s.resumeList.filter (· ≠ n), intstat := s.intstat ||| IntFlag.park.mask
            owner := none, stepRunning := false, preemptPending := false }) ∧
        ((s.record r).parkPending = false → exec .stepBegin s = .next
          { s.setRecord r { j with state := .spaceWait, pagesWanted := d } with
            intstat := s.intstat ||| IntFlag.space.mask, owner := none, stepRunning := false, preemptPending := false }))

/-- The end of a step that is not the last, with nothing pending and no startable UQ head: the work stands, the counts rise by one
(steps done not above 65,535), and in the same event the next step begins with its acquisition: granted with the first pages of the
free list, or refused into SPACE_WAIT or NO_SPACE (R10, R65, R67, R103, R105 to R109; that it is one event is log entry 4, and that a refusal and the SPACE_WAIT
entry are one is log entry 21). The work
of any step, the last one too, writes no limb outside the command's working pages and changes of its record only the step carry and
the working lengths (R41, R42, R64). -/
def Obligations.StepEndGoesOn : Prop :=
  (∀ (s : State) (c : CommandRecord) (j : Record),
    let w := s.stepWork c j
    (∀ a, (∀ p ∈ j.workPages, p.val ≠ a / 16) → w.mem.read a = s.mem.read a) ∧
    w.job =
      { j with
        carry := w.job.carry, wv0 := { j.wv0 with length := w.job.wv0.length }
        wv1 := { j.wv1 with length := w.job.wv1.length }, wv2 := { j.wv2 with length := w.job.wv2.length } }) ∧
  ∀ (s : State) (r : Runner) (c : CommandRecord), s.resetN = .high → s.owner = some r → (s.record r).command = some c →
    s.stepRunning = true → (s.record r).abortPending = false → (∀ n, r = .ctx n → (s.record r).parkPending = false) →
    (∀ n, r = .ctx n → s.headStartable .urgent = false) →
    let w := s.stepWork c (s.record r)
    w.lastStep c.kind (s.record r).nextStep = false →
    let j : Record :=
      { w.job with
        nextStep := (s.record r).nextStep + 1
        stepsDone := if (s.record r).stepsDone < 65535 then (s.record r).stepsDone + 1 else 65535 }
    let want := s.declaredPages c j.nextStep
    let n0 := want.1 - j.wv0.pages.length
    let n1 := want.2.1 - j.wv1.pages.length
    let n2 := want.2.2 - j.wv2.pages.length
    let d := n0 + n1 + n2
    let granted := d = 0 ∨ (r = .urgent ∧ d ≤ s.freeList.length) ∨ d + s.reserve ≤ s.freeList.length
    (granted → ∃ t, exec .stepEnd s = .next t ∧ t.freeList = s.freeList.drop d ∧
      (∀ p ∈ s.freeList.take d, ∀ k < 16, t.mem.read (16 * p.val + k) = 0) ∧
      (∀ a, (∀ p ∈ s.freeList.take d, p.val ≠ a / 16) → t.mem.read a = w.mem.read a) ∧
      (∀ x, x ≠ r → t.record x = s.record x) ∧
      t.record r =
        { j with
          wv0 := { j.wv0 with pages := j.wv0.pages ++ s.freeList.take n0 }
          wv1 := { j.wv1 with pages := j.wv1.pages ++ (s.freeList.drop n0).take n1 }
          wv2 := { j.wv2 with pages := j.wv2.pages ++ (s.freeList.drop (n0 + n1)).take n2 } } ∧
      t = { s with stepRunning := true, freeList := t.freeList, mem := t.mem, contexts := t.contexts, urec := t.urec }) ∧
    (¬ granted →
      (r = .urgent → ∃ t, exec .stepEnd s = .next t ∧ t.mem = w.mem ∧ t.owner = none ∧ t.stepRunning = false ∧
        t.preemptPending = false ∧ t.ctxreq = s.ctxreq ∧
        CommandEnds { s with mem := w.mem } t r c (recordOfEnded .noSpace r c j.stepsDone) (s.record r).workPages s.slot) ∧
      ∀ n, r = .ctx n → exec .stepEnd s = .next
        { s.setRecord r { j with state := .spaceWait, pagesWanted := d } with
          mem := w.mem, intstat := s.intstat ||| IntFlag.space.mask
          owner := none, stepRunning := false, preemptPending := false })

/-- A boundary takes a pending abort, else a pending park (R105, R106). -/
def Obligations.BoundaryTakesAbortThenPark : Prop :=
  ∀ (s : State) (r : Runner) (c : CommandRecord), s.resetN = .high → s.owner = some r → (s.record r).command = some c →
    s.stepRunning = true → (s.record r).stepsDone < 65535 →
    let w := s.stepWork c (s.record r)
    w.lastStep c.kind (s.record r).nextStep = false →
    ((s.record r).abortPending = true → ∃ t, exec .stepEnd s = .next t ∧ t.mem = w.mem ∧ t.owner = none ∧
      t.stepRunning = false ∧ t.preemptPending = false ∧ t.ctxreq = s.ctxreq ∧
      CommandEnds { s with mem := w.mem } t r c (recordOfEnded .aborted r c ((s.record r).stepsDone + 1))
        (s.record r).workPages s.slot) ∧
    ∀ n, r = .ctx n → (s.record r).abortPending = false → (s.record r).parkPending = true → exec .stepEnd s = .next
      { s.setRecord r
          { w.job with
            nextStep := (s.record r).nextStep + 1, stepsDone := (s.record r).stepsDone + 1
            state := .parked, pagesWanted := 0, parkPending := false } with
        mem := w.mem, resumeList := s.resumeList.filter (· ≠ n), intstat := s.intstat ||| IntFlag.park.mask
        owner := none, stepRunning := false, preemptPending := false }

/-- Preemption at a boundary of a normal command: the startable UQ head takes the Core, and the context stands RESUMABLE at the
head of the resume list with the step that follows as its next (R102, R103). The start can skip SKIP commands behind the head, and
both queues' heads are tested against the locks taken (R33, R37, R89, R92, R134). -/
def Obligations.BoundaryPreempts : Prop :=
  ∀ (s : State) (n : CtxId) (c u : CommandRecord) (rest : List CommandRecord), s.resetN = .high → s.owner = some (.ctx n) →
    (s.record (.ctx n)).command = some c → s.stepRunning = true → (s.record (.ctx n)).abortPending = false →
    (s.record (.ctx n)).parkPending = false → (s.record (.ctx n)).stepsDone < 65535 →
    s.uq.entries = u :: rest → s.startable u = true →
    let w := s.stepWork c (s.record (.ctx n))
    w.lastStep c.kind (s.record (.ctx n)).nextStep = false →
    ∃ t, exec .stepEnd s = .next t ∧ t.mem = w.mem ∧ t.owner = some .urgent ∧ t.stepRunning = false ∧
      t.preemptPending = false ∧ t.resumeList = n :: s.resumeList ∧
      t.record (.ctx n) =
        { w.job with
          nextStep := (s.record (.ctx n)).nextStep + 1, stepsDone := (s.record (.ctx n)).stepsDone + 1, state := .resumable } ∧
      (∀ m, m ≠ n → t.record (.ctx m) = s.record (.ctx m)) ∧
      t.urec = Record.justStarted u (({ s with mem := w.mem } : State).stepTotalOf u) ∧
      (∀ i, (t.slot i).writer = if ∃ f ∈ u.dests, f.toNat = i.val then some (.run .urgent) else (s.slot i).writer) ∧
      (∀ i h, h ∈ (t.slot i).readers ↔
        h ∈ (s.slot i).readers ∨ (h = .run .urgent ∧ ∃ f ∈ u.sources, f.toNat = i.val)) ∧
      (∀ i, t.slot i = { s.slot i with writer := (t.slot i).writer, readers := (t.slot i).readers }) ∧
      t.uq =
        { s.uq with
          entries := if s.uq.latch then rest.dropWhile (fun d => d.policy = .skip) else rest
          blocked := t.headBlocked .urgent, timer := s.uq.timerOfNewHead (t.headBlocked .urgent) } ∧
      t.nq = { s.nq with blocked := t.headBlocked .normal, timer := s.nq.timerAfter (t.headBlocked .normal) } ∧
      t.cq = s.cq ++ (if s.uq.latch then (skipRun rest).map (recordOfUnstarted .skipped) else []) ∧
      t.intstat = s.intstat ||| (if s.uq.latch then notifyBit (skipRun rest) else 0) ∧
      t = { s with
        mem := t.mem, owner := t.owner, stepRunning := t.stepRunning, contexts := t.contexts, urec := t.urec
        resumeList := t.resumeList, slots := t.slots, nq := t.nq, uq := t.uq, cq := t.cq, intstat := t.intstat, preemptPending := t.preemptPending }

/-- The commit of a kind with one destination: WV0, trimmed, is installed into D with the kind's sign (of COPY, SHL and SHR a's, of SETI
the immediate's, of ADD and SUB the one decided at step 0, of MUL NEG exactly when the operands' signs differ, of the modular kinds and
GCD POS; a result of length 0 takes POS); the pages not needed go back in the order of R78; the record is DONE with the summary of D;
the Core falls free (R6, R47 to R51, R53, R57, R62, R77, R78, R110). That MODINV's divisor stands in WV1 is log entry 8. -/
def Obligations.CommitInstallsResult : Prop :=
  ∀ (s : State) (r : Runner) (c : CommandRecord) (i : SlotId), s.resetN = .high → s.owner = some r →
    (s.record r).command = some c → s.stepRunning = true → (s.record r).stepsDone < 65535 →
    c.kind ∉ [.divmod, .free, .cmp, .bitlen] → c.d.toNat = i.val →
    let w := s.stepWork c (s.record r)
    let len := trimmedLength w.mem w.job.wv0.pages w.job.wv0.length
    let sign : Sign :=
      if len = 0 then .pos
      else if c.kind = .copy ∨ c.kind = .shl ∨ c.kind = .shr then (s.value c.a).sign
      else if c.kind = .seti then (if c.imm.toInt < 0 then .neg else .pos)
      else if c.kind = .add ∨ c.kind = .sub then (match w.job.carry with | some k => k.sign | none => .pos)
      else if c.kind = .mul then (if (s.value c.a).sign = (s.value c.b).sign then .pos else .neg)
      else .pos
    w.lastStep c.kind (s.record r).nextStep = true →
    ((c.kind = .add ∨ c.kind = .sub ∨ c.kind = .shl ∨ c.kind = .mul) → len ≤ 512) →
    (c.kind = .modinv → w.mag .wv1 = 1) →
    ∃ t, exec .stepEnd s = .next t ∧ t.mem = w.mem ∧ t.owner = none ∧ t.stepRunning = false ∧ t.preemptPending = false ∧
      t.ctxreq = s.ctxreq ∧
      CommandEnds { s with mem := w.mem } t r c
        { tag := c.tag, kind := c.kind, queue := c.queue, status := .done, holder := some r, sign := sign
          zero := decide (len = 0), relation := .none, count := len, stepsDone := (s.record r).stepsDone + 1 }
        ((s.slot i).pages ++ (s.record r).wv0.pages.drop (pg len) ++ (s.record r).wv1.pages ++ (s.record r).wv2.pages)
        (fun k => if k = i then
          { s.slot i with sign := sign, length := len, pages := (s.record r).wv0.pages.take (pg len) } else s.slot k)

/-- The commit of DIVMOD: |q| into D with the quotient's sign, then |r| into D2 with a's sign, each trimmed; the pages not needed go
back in the order of R78; the record is DONE with the summary of D (R52, R62, R77, R78, R110). -/
def Obligations.CommitInstallsQuotientAndRemainder : Prop :=
  ∀ (s : State) (r : Runner) (c : CommandRecord) (i k : SlotId), s.resetN = .high → s.owner = some r →
    (s.record r).command = some c → s.stepRunning = true → (s.record r).stepsDone < 65535 →
    c.kind = .divmod → c.d.toNat = i.val → c.d2.toNat = k.val → i ≠ k →
    let w := s.stepWork c (s.record r)
    let j := s.record r
    let qlen := trimmedLength w.mem w.job.wv0.pages w.job.wv0.length
    let rlen := trimmedLength w.mem w.job.wv1.pages w.job.wv1.length
    let qsign := if qlen = 0 ∨ (s.value c.a).sign = (s.value c.b).sign then Sign.pos else Sign.neg
    let rsign := if rlen = 0 then Sign.pos else (s.value c.a).sign
    w.lastStep .divmod j.nextStep = true →
    ∃ t, exec .stepEnd s = .next t ∧ t.mem = w.mem ∧ t.owner = none ∧ t.stepRunning = false ∧ t.preemptPending = false ∧
      t.ctxreq = s.ctxreq ∧
      CommandEnds { s with mem := w.mem } t r c
        { tag := c.tag, kind := c.kind, queue := c.queue, status := .done, holder := some r, sign := qsign
          zero := decide (qlen = 0), relation := .none, count := qlen, stepsDone := j.stepsDone + 1 }
        ((s.slot i).pages ++ j.wv0.pages.drop (pg qlen) ++ (s.slot k).pages ++ j.wv1.pages.drop (pg rlen) ++ j.wv2.pages)
        (fun x =>
          if x = i then { s.slot i with sign := qsign, length := qlen, pages := j.wv0.pages.take (pg qlen) }
          else if x = k then { s.slot k with sign := rsign, length := rlen, pages := j.wv1.pages.take (pg rlen) }
          else s.slot x)

/-- The one-step kinds: FREE empties its slot; CMP reports the relation of the signed values; BITLEN reports the bit length; none
installs anything (R7, R58, R62, R77, R78). -/
def Obligations.FreeCmpBitlenEnd : Prop :=
  ∀ (s : State) (r : Runner) (c : CommandRecord) (i : SlotId), s.resetN = .high → s.owner = some r →
    (s.record r).command = some c → s.stepRunning = true → (s.record r).stepsDone = 0 → (s.record r).nextStep = 0 →
    (s.record r).stepTotal = 1 → (c.kind = .free → c.d.toNat = i.val) →
    let done (sign : Sign) (zero : Bool) (relation : Relation) (count : Nat) : CompletionRecord :=
      { tag := c.tag, kind := c.kind, queue := c.queue, status := .done, holder := some r, sign := sign
        zero := zero, relation := relation, count := count, stepsDone := 1 }
    let a := (s.value c.a).toInt
    let b := (s.value c.b).toInt
    (c.kind ∈ [.free, .cmp, .bitlen] → ∃ t, exec .stepEnd s = .next t ∧ t.owner = none ∧ t.stepRunning = false ∧
      t.preemptPending = false ∧ t.ctxreq = s.ctxreq ∧
      (c.kind = .free → CommandEnds s t r c (done .pos true .none 0) ((s.slot i).pages ++ (s.record r).workPages)
        (fun k => if k = i then { s.slot i with sign := .pos, length := 0, pages := [] } else s.slot k)) ∧
      (c.kind = .cmp → CommandEnds s t r c
        (done .pos false (if a < b then .lt else if a = b then .eq else .gt) 0) (s.record r).workPages s.slot) ∧
      (c.kind = .bitlen → CommandEnds s t r c
        (done .pos false .none (bitLength (s.value c.a).mag)) (s.record r).workPages s.slot))

/-! ### Arithmetic -/

/-- The steps of COPY, SETI, SHL and SHR: after step i, WV0 holds the low limbs of the result, 16 i of them or as many as the
result has (R47, R49, R50, R73). -/
def Obligations.PageStepsBuildTheResult : Prop :=
  ∀ (s : State) (c : CommandRecord) (j : Record), MemoryCanonical s → j.workPages.Nodup →
    let a := s.value c.a
    let w := s.stepWork c j
    let i := j.nextStep
    let n := c.imm.toNat
    let result := if c.kind = .copy then a.mag else if c.kind = .shl then a.mag * 2 ^ n else a.mag / 2 ^ n
    let len := if c.kind = .copy then a.length else if c.kind = .shl then a.length + (n + 31) / 32 else a.length - n / 32
    (c.kind = .seti → i = 0 → (c.imm ≠ 0 → j.wv0.pages.length = 1) → (c.imm = 0 → j.wv0.length = 0) →
      w.mag .wv0 = c.imm.toInt.natAbs ∧ w.job.wv0.length = (if c.imm = 0 then 0 else 1)) ∧
    (c.kind ∈ [.copy, .shl, .shr] → result < 2 ^ (32 * len) ∧
      (1 ≤ i → i ≤ j.wv0.pages.length → j.wv0.length = min (16 * (i - 1)) len →
        magnitude s.mem j.wv0.pages j.wv0.length = result % 2 ^ (32 * min (16 * (i - 1)) len) →
        w.job.wv0.length = min (16 * i) len ∧ w.mag .wv0 = result % 2 ^ (32 * min (16 * i) len)))

/-- The steps of ADD and SUB: step 0 decides whether the magnitudes are added or the smaller is taken from the larger, and the sign, and
keeps that with a carry of 0; the carry or borrow of a later step accounts for what the limbs so far lack, and after the last step WV0
with the decided sign is a + b or a - b (R48, R64, R73). -/
def Obligations.AddSubStepsCarry : Prop :=
  (∀ (s : State) (c : CommandRecord) (j : Record), c.kind = .add ∨ c.kind = .sub → j.nextStep = 0 →
    let a := s.value c.a
    let b := s.value c.b
    let bSign : Sign := if c.kind = .add then b.sign else if b.sign = .pos then .neg else .pos
    let decision : StepCarry :=
      if a.sign = bSign then { form := .sum, sign := a.sign, carry := false }
      else if b.mag ≤ a.mag then { form := .aLessB, sign := a.sign, carry := false }
      else { form := .bLessA, sign := bSign, carry := false }
    s.stepWork c j = { mem := s.mem, job := { j with carry := some decision } } ∧
      addDecision a { b with sign := bSign } = decision ∧ bSign = if c.kind = .add then b.sign else flipSign b.sign) ∧
  ∀ (s : State) (c : CommandRecord) (j : Record) (k : StepCarry), MemoryCanonical s → j.workPages.Nodup →
    c.kind = .add ∨ c.kind = .sub → 1 ≤ j.nextStep → j.nextStep ≤ j.wv0.pages.length →
    let a := s.value c.a
    let b := if c.kind = .add then s.value c.b else { s.value c.b with sign := flipSign (s.value c.b).sign }
    let len := max a.length b.length + 1
    let lo := min (16 * (j.nextStep - 1)) len
    let hi := min (16 * j.nextStep) len
    let partialSum (form : AddForm) (carry : Bool) (x limbs : Nat) : Prop :=
      match form with
      | .sum => x + (if carry then 2 ^ (32 * limbs) else 0) = a.mag % 2 ^ (32 * limbs) + b.mag % 2 ^ (32 * limbs)
      | .aLessB => x + b.mag % 2 ^ (32 * limbs) = a.mag % 2 ^ (32 * limbs) + (if carry then 2 ^ (32 * limbs) else 0)
      | .bLessA => x + a.mag % 2 ^ (32 * limbs) = b.mag % 2 ^ (32 * limbs) + (if carry then 2 ^ (32 * limbs) else 0)
    16 * (j.nextStep - 1) < len → j.carry = some k → j.wv0.length = lo →
    k.form = (addDecision a b).form → k.sign = (addDecision a b).sign →
    partialSum k.form k.carry (magnitude s.mem j.wv0.pages lo) lo →
    let w := s.stepWork c j
    ∃ k', w.job.carry = some k' ∧ k'.form = k.form ∧ k'.sign = k.sign ∧ w.job.wv0.length = hi ∧
      partialSum k'.form k'.carry (w.mag .wv0) hi ∧
      (hi = len → (match k'.sign with | .pos => (w.mag .wv0 : Int) | .neg => -(w.mag .wv0 : Int)) = a.toInt + b.toInt)

/-- Step i of MUL: WV0 holds |b| times the low i limbs of |a|, with length lb + i. DIVMOD: step 0 copies |a| into WV1; step i finds the
next quotient limb, so that WV0 holds the i most significant limbs of |q| and WV1 the part of |a| not yet divided; after the last
step they are |q| and |r| (R51, R52, R74). -/
def Obligations.MulAndDivmodSteps : Prop :=
  (∀ (s : State) (c : CommandRecord) (j : Record), MemoryCanonical s → j.workPages.Nodup → c.kind = .mul →
    let a := s.value c.a
    let b := s.value c.b
    let i := j.nextStep
    1 ≤ i → pg (b.length + i) ≤ j.wv0.pages.length →
    magnitude s.mem j.wv0.pages j.wv0.length = b.mag * (a.mag % 2 ^ (32 * (i - 1))) →
    let w := s.stepWork c j
    w.job.wv0.length = b.length + i ∧ w.mag .wv0 = b.mag * (a.mag % 2 ^ (32 * i)) ∧
      (i = a.length → w.mag .wv0 = b.mag * a.mag)) ∧
  ∀ (s : State) (c : CommandRecord) (j : Record), MemoryCanonical s → j.workPages.Nodup → c.kind = .divmod →
    let a := s.value c.a
    let b := s.value c.b
    let w := s.stepWork c j
    let i := j.nextStep
    (i = 0 → 0 < a.length → pg (a.length + 1) ≤ j.wv1.pages.length →
      w.mag .wv1 = a.mag ∧ w.job.wv1.length = a.length + 1 ∧ w.job.wv0 = j.wv0) ∧
    (1 ≤ i → b.length ≤ a.length → i ≤ a.length - b.length + 1 → b.mag ≠ 0 →
      pg i ≤ j.wv0.pages.length → pg (a.length + 1) ≤ j.wv1.pages.length → j.wv0.length = i - 1 →
      let q := magnitude s.mem j.wv0.pages j.wv0.length
      let rest := magnitude s.mem j.wv1.pages j.wv1.length
      let place := 2 ^ (32 * (a.length - b.length + 1 - i))
      rest < b.mag * (place * 2 ^ 32) → a.mag = q * (b.mag * (place * 2 ^ 32)) + rest →
      w.job.wv0.length = i ∧ w.job.wv1.length = a.length + 1 ∧ w.mag .wv1 < b.mag * place ∧
        a.mag = w.mag .wv0 * (b.mag * place) + w.mag .wv1 ∧
        (i = a.length - b.length + 1 → w.mag .wv0 = a.mag / b.mag ∧ w.mag .wv1 = a.mag % b.mag))

/-- The steps of MODMUL and MODEXP keep their working values reduced: the product builds up by limbs of WV1; each
exponent step squares and, on a 1 bit, multiplies, so that WV0 is the power by the exponent bits taken so far (R53 to R55). -/
def Obligations.ModularStepsReduce : Prop :=
  ∀ (s : State) (c : CommandRecord) (j : Record), MemoryCanonical s → j.workPages.Nodup →
    let a := s.value c.a
    let b := s.value c.b
    let m := s.value c.m
    let w := s.stepWork c j
    let i := j.nextStep
    let x := magnitude s.mem j.wv0.pages j.wv0.length
    let y := magnitude s.mem j.wv1.pages j.wv1.length
    let p := magnitude s.mem j.wv2.pages j.wv2.length
    0 < m.mag → pg m.length ≤ j.wv0.pages.length → pg m.length ≤ j.wv1.pages.length →
    pg (2 * m.length + 1) ≤ j.wv2.pages.length →
    (c.kind = .modmul →
      (i = 1 → (w.mag .wv0 : Int) = a.toInt % m.mag) ∧
      (i = 2 → (w.mag .wv1 : Int) = b.toInt % m.mag ∧ w.mag .wv0 = x) ∧
      (3 ≤ i → i ≤ m.length + 2 → x < m.mag → p = x * (y % 2 ^ (32 * (i - 3))) →
        w.mag .wv2 = x * (y % 2 ^ (32 * (i - 2))) ∧ w.mag .wv0 = x ∧ w.mag .wv1 = y) ∧
      (i = m.length + 3 → 0 < m.length → w.mag .wv0 = p % m.mag)) ∧
    (c.kind = .modexp →
      (i = 1 → (w.mag .wv1 : Int) = a.toInt % m.mag ∧ w.mag .wv0 = 1 % m.mag) ∧
      (2 ≤ i → i ≤ 1 + bitLength b.mag → y < m.mag →
        x = y ^ (b.mag / 2 ^ (bitLength b.mag - (i - 2))) % m.mag →
        w.mag .wv0 = y ^ (b.mag / 2 ^ (bitLength b.mag - (i - 1))) % m.mag ∧ w.mag .wv1 = y))

/-- The steps of GCD keep the greatest common divisor and lower WV1. MODINV's step 0 does no work; its later steps keep the pair and
its coefficients in the three working values, each coefficient true to its number modulo m, and the end of the search gives the
inverse in WV0 (R56, R57, R76). The place of each number is log entry 8: x in WV1 with its coefficient in WV0, y in the limbs of WV2 that
x needs with its coefficient above it. -/
def Obligations.GcdAndInverseSearch : Prop :=
  ∀ (s : State) (c : CommandRecord) (j : Record), MemoryCanonical s → j.workPages.Nodup →
    let a := s.value c.a
    let b := s.value c.b
    let m := s.value c.m
    let w := s.stepWork c j
    let i := j.nextStep
    let x := magnitude s.mem j.wv0.pages j.wv0.length
    let y := magnitude s.mem j.wv1.pages j.wv1.length
    let z := magnitude s.mem j.wv2.pages j.wv2.length
    let len := max a.length b.length + 1
    (c.kind = .gcd → pg len ≤ j.wv0.pages.length → pg len ≤ j.wv1.pages.length → pg len ≤ j.wv2.pages.length →
      (i = 0 → w.mag .wv0 = a.mag ∧ w.mag .wv1 = b.mag) ∧
      (1 ≤ i → y ≠ 0 → x < 2 ^ (32 * len) → y < 2 ^ (32 * len) →
        w.mag .wv0 = y ∧ w.mag .wv1 = x % y ∧ Nat.gcd (w.mag .wv0) (w.mag .wv1) = Nat.gcd x y ∧ w.mag .wv1 < y) ∧
      (w.lastStep .gcd i = true → Nat.gcd (w.mag .wv0) (w.mag .wv1) = w.mag .wv0)) ∧
    (c.kind = .modinv → 0 < m.mag → pg (m.length + 1) ≤ j.wv0.pages.length → pg (m.length + 1) ≤ j.wv1.pages.length →
      pg (m.length + 1) ≤ j.wv2.pages.length →
      let place := 2 ^ (32 * limbCount y)
      let place' := 2 ^ (32 * limbCount (w.mag .wv1))
      let sound (x y cx cy step : Nat) : Prop :=
        let sign : Int := if step % 2 = 0 then 1 else -1
        (m.mag : Int) ∣ sign * cx * a.toInt - x ∧ (m.mag : Int) ∣ -sign * cy * a.toInt - y ∧ x * cy + y * cx = m.mag ∧
          Nat.gcd x y = Nat.gcd m.mag (a.toInt % m.mag).toNat
      let before := sound y (z % place) x (z / place) (i - 1)
      let found := w.mag .wv2 % place' = 0 ∧ w.mag .wv1 = 1
      (i = 0 → w.mem = s.mem ∧ w.job = j) ∧
      (i = 1 → w.mag .wv1 = m.mag ∧ ((w.mag .wv2 % place' : Nat) : Int) = a.toInt % m.mag ∧ w.mag .wv0 = 0 ∧
        w.mag .wv2 / place' = 1) ∧
      (2 ≤ i → before → z % place ≠ 0 → w.mag .wv1 = z % place ∧ w.mag .wv2 % place' = y % (z % place)) ∧
      (1 ≤ i → (2 ≤ i → before ∧ z % place ≠ 0) → ¬ found →
        sound (w.mag .wv1) (w.mag .wv2 % place') (w.mag .wv0) (w.mag .wv2 / place') i) ∧
      (1 ≤ i → (2 ≤ i → before ∧ z % place ≠ 0) → found →
        (w.mag .wv0 : Int) < m.mag ∧ (m.mag : Int) ∣ (w.mag .wv0 : Int) * a.toInt - 1)) ∧
    ∀ v n : Nat, limbCount v ≤ n ↔ v < 2 ^ (32 * n)

/-! ### What every step keeps -/

/-- The limb memory keeps its canonical form (the model's own form of R8's pages, log entry 7). -/
def Obligations.MemoryCanonicalKept : Prop :=
  ∀ s t : State, MemoryCanonical s → step s = .next t → MemoryCanonical t

/-- The states of the records agree with the owner, the resume list and their fields (R96, R113 to R117); each command stands in its
own queue, and runs where its queue sends it (R31, R99, R100). -/
def Obligations.RecordsConsistentKept : Prop :=
  ∀ s t : State, RecordsConsistent s → QueuesMatch s → step s = .next t → RecordsConsistent t ∧ QueuesMatch t

/-- The credit law, and the bounds of every count it bounds (R14, R29, R31, R133). -/
def Obligations.CreditLawKept : Prop :=
  ∀ s t : State, RecordsConsistent s → CreditLaw s → CountsBounded s → step s = .next t → CreditLaw t ∧ CountsBounded t

/-- Every page is in exactly one place (R8, R165). -/
def Obligations.PagesPartitionKept : Prop :=
  ∀ s t : State, RecordsConsistent s → WindowsConsistent s → PagesPartition s → step s = .next t → PagesPartition t

/-- The lock table holds exactly the locks of the started commands and of the open windows, and a slot with a writer has no readers but
that writer (R81, R84, R86). -/
def Obligations.LocksMatchHoldersKept : Prop :=
  ∀ s t : State, RecordsConsistent s → LocksMatchHolders s → LocksExclusive s → step s = .next t →
    LocksMatchHolders t ∧ LocksExclusive t

/-- The blocked and preemption-pending indicators stay true, and a hold timer runs exactly while its head is blocked under a
nonzero limit (R88, R89, R92, R102). -/
def Obligations.IndicatorsTrueKept : Prop :=
  ∀ s t : State, IndicatorsTrue s → step s = .next t → IndicatorsTrue t

/-- A window record keeps the values that its state calls for, its staging pages and the bounds of its index and length (R143). -/
def Obligations.WindowsConsistentKept : Prop :=
  ∀ s t : State, WindowsConsistent s → step s = .next t → WindowsConsistent t

/-- Every slot keeps a normalized value of at most 512 limbs in exactly the pages it needs (R2, R4). Every started command keeps the
step total of its sources, the checks it has passed, and working values that leave its result room in a slot (R41, R43, R61, R63,
R66). -/
def Obligations.SlotsNormalizedKept : Prop :=
  ∀ s t : State, RecordsConsistent s → WindowsConsistent s → PagesPartition s → MemoryCanonical s → LocksMatchHolders s →
    LocksExclusive s → SlotsNormalized s → WorkConsistent s → step s = .next t → SlotsNormalized t ∧ WorkConsistent t

/-- A slot that no holder writes keeps its value through every command but a hardware reset: reads of a command stay the same
through all its steps and suspensions (R41, R42, R81). -/
def Obligations.UnwrittenSlotKeepsItsValue : Prop :=
  ∀ (c : Instr) (s t : State) (i : SlotId), RecordsConsistent s → WindowsConsistent s → PagesPartition s → LocksMatchHolders s →
    (s.slot i).writer = none → (∀ level, c ≠ .hardwareReset level) → exec c s = .next t →
    t.slotValue i = s.slotValue i ∧ (t.slot i).pages = (s.slot i).pages

/-- Every condition above holds right after a hardware reset. -/
def Obligations.ConditionsHoldAtReset : Prop :=
  MemoryCanonical State.reset ∧ RecordsConsistent State.reset ∧ CreditLaw State.reset ∧ CountsBounded State.reset ∧
    QueuesMatch State.reset ∧ PagesPartition State.reset ∧ LocksExclusive State.reset ∧ LocksMatchHolders State.reset ∧
    IndicatorsTrue State.reset ∧ WindowsConsistent State.reset ∧ SlotsNormalized State.reset ∧ WorkConsistent State.reset
end

