-- ==== Sys2Proof/Laws/Memory.lean ====
section
/-! SUPPORT. The limb memory: every operation keeps the canonical form, what a read answers after a write, and what page lists hold
after limbs are stored through them. -/

namespace Sys2Proof.Machine

/-! ### The canonical form -/

theorem Memory.wf_nil : Memory.wf [] := by simp [Memory.wf]

/-- An entry that a write leaves or adds is one that was there, or the one written. -/
theorem Memory.mem_write {m : Memory} {a : Nat} {v : Limb} {c : Nat × Limb} (h : c ∈ m.write a v) :
    c ∈ m ∨ (c = (a, v) ∧ v ≠ 0) := by
  induction m with
  | nil =>
    unfold Memory.write at h
    split at h <;> simp_all
  | cons e rest ih =>
    obtain ⟨b, w⟩ := e
    unfold Memory.write at h
    split_ifs at h with h1 h2 h3 h4
    · exact .inl h
    · rcases List.mem_cons.1 h with h | h
      · exact .inr ⟨h, h2⟩
      · exact .inl h
    · exact .inl (List.mem_cons_of_mem _ h)
    · rcases List.mem_cons.1 h with h | h
      · exact .inr ⟨h, h4⟩
      · exact .inl (List.mem_cons_of_mem _ h)
    · rcases List.mem_cons.1 h with h | h
      · exact .inl (h ▸ List.mem_cons_self)
      · rcases ih h with h | h
        · exact .inl (List.mem_cons_of_mem _ h)
        · exact .inr h

theorem Memory.write_wf {m : Memory} {a : Nat} {v : Limb} (hm : m.wf) (ha : a < Config.pageCount * Config.pageLimbs) :
    (m.write a v).wf := by
  refine ⟨?_, fun c hc => ?_⟩
  · obtain ⟨hp, -⟩ := hm
    induction m with
    | nil =>
      unfold Memory.write
      split <;> simp
    | cons e rest ih =>
      obtain ⟨b, w⟩ := e
      obtain ⟨hhead, htail⟩ := List.pairwise_cons.1 hp
      unfold Memory.write
      split_ifs with h1 h2 h3 h4
      · exact hp
      · refine List.pairwise_cons.2 ⟨fun y hy => ?_, hp⟩
        rcases List.mem_cons.1 hy with rfl | hy
        · exact h1
        · exact h1.trans (hhead y hy)
      · exact htail
      · exact List.pairwise_cons.2 ⟨fun y hy => h3 ▸ hhead y hy, htail⟩
      · refine List.pairwise_cons.2 ⟨fun y hy => ?_, ih htail⟩
        rcases Memory.mem_write hy with hy | ⟨rfl, -⟩
        · exact hhead y hy
        · exact lt_of_le_of_ne (not_lt.1 h1) (fun e => h3 e.symm)
  · rcases Memory.mem_write hc with hc | ⟨rfl, hv⟩
    · exact hm.2 c hc
    · exact ⟨hv, ha⟩

theorem Memory.zeroPages_wf {m : Memory} (ps : List PageId) (hm : m.wf) : (m.zeroPages ps).wf :=
  ⟨hm.1.filter _, fun c hc => hm.2 c (List.mem_of_mem_filter hc)⟩

theorem limbAddress_lt {pages : List PageId} {k a : Nat} (h : limbAddress pages k = some a) :
    a < Config.pageCount * Config.pageLimbs := by
  obtain ⟨p, -, rfl⟩ := Option.map_eq_some_iff.1 h
  have h1 := p.isLt
  have h2 : k % Config.pageLimbs < Config.pageLimbs := Nat.mod_lt _ (by decide)
  simp only [Config.pageCount, Config.pageLimbs] at *
  omega

theorem setLimbAt_wf {m : Memory} (pages : List PageId) (k : Nat) (v : Limb) (hm : m.wf) :
    (setLimbAt m pages k v).wf := by
  unfold setLimbAt
  split
  · exact Memory.write_wf hm (limbAddress_lt (by assumption))
  · exact hm

theorem putLimbs_wf {m : Memory} (pages : List PageId) (x lo n : Nat) (hm : m.wf) : (putLimbs m pages x lo n).wf := by
  induction n with
  | zero => exact hm
  | succ n ih => exact setLimbAt_wf _ _ _ ih

/-! ### Reads after writes -/

theorem Memory.read_write_ne {m : Memory} {a b : Nat} {v : Limb} (h : b ≠ a) : (m.write a v).read b = m.read b := by
  induction m with
  | nil =>
    unfold Memory.write
    split <;> simp [Memory.read, h]
  | cons e rest ih =>
    obtain ⟨c, w⟩ := e
    unfold Memory.write
    split_ifs with h1 h2 h3 h4
    · rfl
    · simp [Memory.read, h]
    · subst h3
      simp [Memory.read, h]
    · subst h3
      simp [Memory.read, h]
    · simp only [Memory.read]
      split
      · rfl
      · exact ih

/-- An address below every listed one reads as 0. -/
theorem Memory.read_of_lt {m : Memory} {a : Nat} (h : ∀ c ∈ m, a < c.1) : m.read a = 0 := by
  induction m with
  | nil => rfl
  | cons e rest ih =>
    obtain ⟨b, w⟩ := e
    have hb : a < b := h (b, w) List.mem_cons_self
    rw [Memory.read, if_neg (Nat.ne_of_lt hb)]
    exact ih fun c hc => h c (List.mem_cons_of_mem _ hc)

theorem Memory.read_write_self {m : Memory} {a : Nat} {v : Limb} (hm : m.wf) : (m.write a v).read a = v := by
  obtain ⟨hp, -⟩ := hm
  induction m with
  | nil =>
    unfold Memory.write
    split
    · simp_all [Memory.read]
    · simp [Memory.read]
  | cons e rest ih =>
    obtain ⟨b, w⟩ := e
    obtain ⟨hhead, htail⟩ := List.pairwise_cons.1 hp
    unfold Memory.write
    split_ifs with h1 h2 h3 h4
    · subst h2
      refine Memory.read_of_lt fun c hc => ?_
      rcases List.mem_cons.1 hc with rfl | hc
      · exact h1
      · exact h1.trans (hhead c hc)
    · simp [Memory.read]
    · subst h3 h4
      exact Memory.read_of_lt fun c hc => hhead c hc
    · simp [Memory.read]
    · rw [Memory.read, if_neg h3]
      exact ih htail

/-- A page that is not zeroed keeps its limbs. -/
theorem Memory.read_zeroPages_of_not_mem {m : Memory} {ps : List PageId} {a : Nat}
    (h : ∀ p ∈ ps, p.val ≠ a / Config.pageLimbs) : (m.zeroPages ps).read a = m.read a := by
  induction m with
  | nil => rfl
  | cons e rest ih =>
    obtain ⟨b, w⟩ := e
    unfold Memory.zeroPages at ih ⊢
    rw [List.filter_cons]
    by_cases hb : a = b
    · have hk : (!ps.any fun p => p.val = b / Config.pageLimbs) = true := by
        simpa [← hb] using h
      rw [if_pos hk]
      simp [Memory.read, hb]
    · split <;> simpa [Memory.read, hb] using ih

/-- A page that is zeroed reads as 0 (R10). -/
theorem Memory.read_zeroPages_of_mem {m : Memory} {ps : List PageId} {a : Nat} {p : PageId} (hp : p ∈ ps)
    (h : p.val = a / Config.pageLimbs) : (m.zeroPages ps).read a = 0 := by
  induction m with
  | nil => rfl
  | cons e rest ih =>
    obtain ⟨b, w⟩ := e
    unfold Memory.zeroPages at ih ⊢
    rw [List.filter_cons]
    by_cases hb : a = b
    · have hk : ¬ (!ps.any fun p => p.val = b / Config.pageLimbs) = true := by
        simpa using ⟨p, hp, by rw [← hb]; exact h⟩
      rw [if_neg hk]
      exact ih
    · split
      · simpa [Memory.read, hb] using ih
      · exact ih

/-! ### Limbs through a page list -/

theorem limbAddress_eq_some {pages : List PageId} {k : Nat} (h : k < Config.pageLimbs * pages.length) :
    ∃ p, pages[k / Config.pageLimbs]? = some p ∧
      limbAddress pages k = some (Config.pageLimbs * p.val + k % Config.pageLimbs) := by
  have hk : k / Config.pageLimbs < pages.length := Nat.div_lt_of_lt_mul h
  exact ⟨pages[k / Config.pageLimbs], List.getElem?_eq_getElem hk, by simp [limbAddress, List.getElem?_eq_getElem hk]⟩

theorem limbAddress_eq_none {pages : List PageId} {k : Nat} (h : Config.pageLimbs * pages.length ≤ k) :
    limbAddress pages k = none := by
  have hk : pages.length ≤ k / Config.pageLimbs := (Nat.le_div_iff_mul_le (by decide)).2 (by rw [Nat.mul_comm]; exact h)
  simp [limbAddress, List.getElem?_eq_none hk]

/-- Beyond its pages a list reads as zero (R5, R63). -/
theorem limbAt_eq_zero {m : Memory} {pages : List PageId} {k : Nat} (h : Config.pageLimbs * pages.length ≤ k) :
    limbAt m pages k = 0 := by
  rw [limbAt, limbAddress_eq_none h]

/-- Two positions of a list without repeats share an address only when they are one position. -/
theorem limbAddress_inj {pages : List PageId} (hn : pages.Nodup) {j k a : Nat} (hj : limbAddress pages j = some a)
    (hk : limbAddress pages k = some a) : j = k := by
  obtain ⟨p, hp, rfl⟩ := Option.map_eq_some_iff.1 hj
  obtain ⟨q, hq, he⟩ := Option.map_eq_some_iff.1 hk
  have hj2 : j % Config.pageLimbs < Config.pageLimbs := Nat.mod_lt _ (by decide)
  have hk2 : k % Config.pageLimbs < Config.pageLimbs := Nat.mod_lt _ (by decide)
  have hpq : q = p := Fin.ext (by simp only [Config.pageLimbs] at *; omega)
  subst hpq
  obtain ⟨i1, e1⟩ := List.getElem?_eq_some_iff.1 hp
  obtain ⟨i2, e2⟩ := List.getElem?_eq_some_iff.1 hq
  have hd : j / Config.pageLimbs = k / Config.pageLimbs := (hn.getElem_inj_iff).1 (e1.trans e2.symm)
  simp only [Config.pageLimbs] at *
  omega

theorem limbAt_setLimbAt_self {m : Memory} {pages : List PageId} {k : Nat} {v : Limb} (hm : m.wf)
    (h : k < Config.pageLimbs * pages.length) : limbAt (setLimbAt m pages k v) pages k = v := by
  obtain ⟨p, -, he⟩ := limbAddress_eq_some h
  simp only [limbAt, setLimbAt, he]
  exact Memory.read_write_self hm

theorem limbAt_setLimbAt_ne {m : Memory} {pages : List PageId} (hn : pages.Nodup) {j k : Nat} {v : Limb} (h : j ≠ k) :
    limbAt (setLimbAt m pages k v) pages j = limbAt m pages j := by
  unfold limbAt setLimbAt
  cases hk : limbAddress pages k with
  | none => rfl
  | some a =>
    cases hj : limbAddress pages j with
    | none => rfl
    | some b => exact Memory.read_write_ne fun e => h (limbAddress_inj hn hj (e ▸ hk))

/-- Storing through a page list leaves every limb of the other pages. -/
theorem read_setLimbAt_of_not_mem {m : Memory} {pages : List PageId} {k a : Nat} {v : Limb}
    (h : ∀ p ∈ pages, p.val ≠ a / Config.pageLimbs) : (setLimbAt m pages k v).read a = m.read a := by
  unfold setLimbAt
  cases hk : limbAddress pages k with
  | none => rfl
  | some b =>
    refine Memory.read_write_ne fun e => ?_
    obtain ⟨p, hp, hb⟩ := Option.map_eq_some_iff.1 hk
    have hk' : k % Config.pageLimbs < Config.pageLimbs := Nat.mod_lt _ (by decide)
    refine h p (List.mem_of_getElem? hp) ?_
    simp only [Config.pageLimbs] at *
    omega

theorem read_putLimbs_of_not_mem {m : Memory} {pages : List PageId} {x lo n a : Nat}
    (h : ∀ p ∈ pages, p.val ≠ a / Config.pageLimbs) : (putLimbs m pages x lo n).read a = m.read a := by
  induction n with
  | zero => rfl
  | succ n ih => rw [putLimbs, read_setLimbAt_of_not_mem h, ih]

/-- A page list reads the same in two memories that agree on its pages. -/
theorem limbAt_congr {m m' : Memory} {pages : List PageId} (h : ∀ a, (∃ p ∈ pages, p.val = a / Config.pageLimbs) → m'.read a = m.read a)
    (k : Nat) : limbAt m' pages k = limbAt m pages k := by
  unfold limbAt
  cases hk : limbAddress pages k with
  | none => rfl
  | some b =>
    obtain ⟨p, hp, hb⟩ := Option.map_eq_some_iff.1 hk
    have hk' : k % Config.pageLimbs < Config.pageLimbs := Nat.mod_lt _ (by decide)
    refine h b ⟨p, List.mem_of_getElem? hp, ?_⟩
    simp only [Config.pageLimbs] at *
    omega

/-- Storing through one page list leaves what a list with none of its pages holds. -/
theorem limbAt_setLimbAt_of_disjoint {m : Memory} {pages other : List PageId} (hd : pages.Disjoint other) {j k : Nat}
    {v : Limb} : limbAt (setLimbAt m pages k v) other j = limbAt m other j := by
  unfold limbAt setLimbAt
  cases hk : limbAddress pages k with
  | none => rfl
  | some a =>
    cases hj : limbAddress other j with
    | none => rfl
    | some b =>
      refine Memory.read_write_ne fun e => ?_
      obtain ⟨p, hp, rfl⟩ := Option.map_eq_some_iff.1 hk
      obtain ⟨q, hq, rfl⟩ := Option.map_eq_some_iff.1 hj
      have h1 : j % Config.pageLimbs < Config.pageLimbs := Nat.mod_lt _ (by decide)
      have h2 : k % Config.pageLimbs < Config.pageLimbs := Nat.mod_lt _ (by decide)
      have hpq : q = p := Fin.ext (by simp only [Config.pageLimbs] at *; omega)
      exact hd (List.mem_of_getElem? hp) (hpq ▸ List.mem_of_getElem? hq)

theorem limbAt_putLimbs_of_disjoint {m : Memory} {pages other : List PageId} (hd : pages.Disjoint other) {j x lo n : Nat} :
    limbAt (putLimbs m pages x lo n) other j = limbAt m other j := by
  induction n with
  | zero => rfl
  | succ n ih => rw [putLimbs, limbAt_setLimbAt_of_disjoint hd, ih]

/-- The limb that stands at position j after limbs lo to lo + n - 1 of x have been stored. -/
theorem limbAt_putLimbs {m : Memory} {pages : List PageId} (hm : m.wf) (hn : pages.Nodup) {x lo n j : Nat}
    (h : lo + n ≤ Config.pageLimbs * pages.length) :
    limbAt (putLimbs m pages x lo n) pages j = if lo ≤ j ∧ j < lo + n then limbOfNat x j else limbAt m pages j := by
  induction n with
  | zero =>
    have : ¬ (lo ≤ j ∧ j < lo + 0) := by omega
    rw [if_neg this, putLimbs]
  | succ n ih =>
    rw [putLimbs]
    by_cases hj : j = lo + n
    · subst hj
      rw [limbAt_setLimbAt_self (putLimbs_wf _ _ _ _ hm) (by omega), if_pos (by omega)]
    · rw [limbAt_setLimbAt_ne hn hj, ih (by omega)]
      by_cases hc : lo ≤ j ∧ j < lo + n
      · rw [if_pos hc, if_pos (by omega)]
      · rw [if_neg hc, if_neg (by omega)]

/-- Pages that are not zeroed keep the limbs of a list. -/
theorem limbAt_zeroPages_of_disjoint {m : Memory} {ps pages : List PageId} (hd : ps.Disjoint pages) {k : Nat} :
    limbAt (m.zeroPages ps) pages k = limbAt m pages k := by
  unfold limbAt
  cases hk : limbAddress pages k with
  | none => rfl
  | some a =>
    refine Memory.read_zeroPages_of_not_mem fun p hp e => ?_
    obtain ⟨q, hq, rfl⟩ := Option.map_eq_some_iff.1 hk
    have h1 : k % Config.pageLimbs < Config.pageLimbs := Nat.mod_lt _ (by decide)
    have hpq : p = q := Fin.ext (by simp only [Config.pageLimbs] at *; omega)
    exact hd (hpq ▸ hp) (List.mem_of_getElem? hq)

/-! ### Magnitudes -/

theorem natOfLimbs_lt (l : List Limb) : natOfLimbs l < 2 ^ (32 * l.length) := by
  induction l with
  | nil => simp [natOfLimbs]
  | cons w rest ih =>
    have hw := w.isLt
    have : 2 ^ (32 * (rest.length + 1)) = 2 ^ 32 * 2 ^ (32 * rest.length) := by rw [← Nat.pow_add]; congr 1; omega
    simp only [natOfLimbs, List.length_cons, this]
    nlinarith

theorem magnitude_lt (m : Memory) (pages : List PageId) (n : Nat) : magnitude m pages n < 2 ^ (32 * n) := by
  simpa [magnitude] using natOfLimbs_lt ((List.range n).map (limbAt m pages))

theorem natOfLimbs_append (l k : List Limb) : natOfLimbs (l ++ k) = natOfLimbs l + 2 ^ (32 * l.length) * natOfLimbs k := by
  induction l with
  | nil => simp [natOfLimbs]
  | cons w rest ih =>
    have : 2 ^ (32 * (rest.length + 1)) = 2 ^ 32 * 2 ^ (32 * rest.length) := by rw [← Nat.pow_add]; congr 1; omega
    simp only [List.cons_append, natOfLimbs, List.length_cons, ih, this]
    ring

@[simp] theorem magnitude_zero (m : Memory) (pages : List PageId) : magnitude m pages 0 = 0 := rfl

/-- One more limb adds its weight (R1). -/
theorem magnitude_succ (m : Memory) (pages : List PageId) (n : Nat) :
    magnitude m pages (n + 1) = magnitude m pages n + 2 ^ (32 * n) * (limbAt m pages n).toNat := by
  simp [magnitude, List.range_succ, natOfLimbs_append, natOfLimbs]

/-- Two lists that read alike below n hold the same magnitude. -/
theorem magnitude_congr {m m' : Memory} {pages pages' : List PageId} {n : Nat}
    (h : ∀ k < n, limbAt m pages k = limbAt m' pages' k) : magnitude m pages n = magnitude m' pages' n := by
  induction n with
  | zero => rfl
  | succ n ih =>
    rw [magnitude_succ, magnitude_succ, ih fun k hk => h k (by omega), h n (by omega)]

theorem limbOfNat_toNat (x k : Nat) : (limbOfNat x k).toNat = x / 2 ^ (32 * k) % 2 ^ 32 := by
  simp [limbOfNat]

/-- The first n limbs of x make x modulo 2^(32n). -/
theorem magnitude_of_limbs {m : Memory} {pages : List PageId} {x n : Nat}
    (h : ∀ k < n, limbAt m pages k = limbOfNat x k) : magnitude m pages n = x % 2 ^ (32 * n) := by
  induction n with
  | zero => simp [Nat.mod_one]
  | succ n ih =>
    rw [magnitude_succ, ih fun k hk => h k (by omega), h n (by omega), limbOfNat_toNat, Nat.mul_succ, Nat.pow_add,
      Nat.mod_mul]

/-- Storing the first n limbs of x makes the list hold x modulo 2^(32n). -/
theorem magnitude_putLimbs {m : Memory} {pages : List PageId} (hm : m.wf) (hn : pages.Nodup) {x n : Nat}
    (h : n ≤ Config.pageLimbs * pages.length) : magnitude (putLimbs m pages x 0 n) pages n = x % 2 ^ (32 * n) :=
  magnitude_of_limbs fun k hk => by
    rw [limbAt_putLimbs hm hn (by omega), if_pos (by omega)]

theorem magnitude_putLimbs_of_disjoint {m : Memory} {pages other : List PageId} (hd : pages.Disjoint other)
    {x lo n k : Nat} : magnitude (putLimbs m pages x lo n) other k = magnitude m other k :=
  magnitude_congr fun _ _ => limbAt_putLimbs_of_disjoint hd

/-! ### Normalization -/

theorem trimmedLength_le (m : Memory) (pages : List PageId) (n : Nat) : trimmedLength m pages n ≤ n := by
  induction n with
  | zero => exact le_refl 0
  | succ n ih =>
    unfold trimmedLength
    split <;> omega

/-- Trimming keeps the magnitude (R2). -/
theorem magnitude_trimmedLength (m : Memory) (pages : List PageId) (n : Nat) :
    magnitude m pages (trimmedLength m pages n) = magnitude m pages n := by
  induction n with
  | zero => rfl
  | succ n ih =>
    unfold trimmedLength
    split
    · next h => rw [ih, magnitude_succ, h]; simp
    · rfl

/-- The most significant limb left by trimming is nonzero (R2). -/
theorem limbAt_trimmedLength {m : Memory} {pages : List PageId} {n : Nat} (h : trimmedLength m pages n ≠ 0) :
    limbAt m pages (trimmedLength m pages n - 1) ≠ 0 := by
  induction n with
  | zero => exact absurd rfl h
  | succ n ih =>
    unfold trimmedLength at h ⊢
    split
    · next hz => exact ih (by simpa [hz] using h)
    · next hz => simpa using hz

/-- A trimmed value fits the pages it stands in, for beyond them limbs read as zero. -/
theorem trimmedLength_le_pages (m : Memory) (pages : List PageId) (n : Nat) :
    trimmedLength m pages n ≤ Config.pageLimbs * pages.length := by
  induction n with
  | zero => exact Nat.zero_le _
  | succ n ih =>
    unfold trimmedLength
    split
    · exact ih
    · next h => exact Nat.succ_le_of_lt (lt_of_not_ge fun hge => h (limbAt_eq_zero hge))

/-- Pages enough for n limbs (00, Conventions). -/
theorem le_pageLimbs_mul_pg (n : Nat) : n ≤ Config.pageLimbs * pg n := by
  simp only [Config.pageLimbs, pg]
  omega

theorem pg_le {n k : Nat} (h : n ≤ Config.pageLimbs * k) : pg n ≤ k := by
  simp only [Config.pageLimbs, pg] at *
  omega

end Sys2Proof.Machine
end

