-- ==== Sys2Proof/Laws/Arith.lean ====
section
/-! SUPPORT. What the work of a step can change: the limbs of the record's own working values, their lengths, and the step carry,
and nothing else; and what a working value holds after it is set. -/

namespace Sys2Proof.Machine

/-- The page list of each working value of w' is that of w, every other field of the record but lengths and carry is the
same, the memory keeps its form, and every limb outside the working pages reads as before. -/
structure Work.Extends (w w' : Work) : Prop where
  job : w'.job = { w.job with
    wv0 := { w.job.wv0 with length := w'.job.wv0.length }
    wv1 := { w.job.wv1 with length := w'.job.wv1.length }
    wv2 := { w.job.wv2 with length := w'.job.wv2.length }
    carry := w'.job.carry }
  memWf : Memory.wf w.mem → Memory.wf w'.mem
  reads : ∀ a, (∀ p ∈ w.job.workPages, p.val ≠ a / Config.pageLimbs) → w'.mem.read a = w.mem.read a

theorem Work.Extends.refl (w : Work) : w.Extends w := ⟨rfl, id, fun _ _ => rfl⟩

theorem Work.Extends.pages {w w' : Work} (h : w.Extends w') (i : Wv) : (w'.job.wv i).pages = (w.job.wv i).pages := by
  rw [h.job]
  cases i <;> rfl

theorem Work.Extends.workPages {w w' : Work} (h : w.Extends w') : w'.job.workPages = w.job.workPages := by
  rw [h.job]
  rfl

theorem Work.Extends.trans {w w' w'' : Work} (h : w.Extends w') (h' : w'.Extends w'') : w.Extends w'' := by
  refine ⟨?_, fun hm => h'.memWf (h.memWf hm), fun a ha => ?_⟩
  · have h1 := h.job
    have h2 := h'.job
    rw [h1] at h2
    exact h2
  · rw [h'.reads a (h.workPages ▸ ha), h.reads a ha]

/-- A page list that shares no page with the working values reads as before. -/
theorem Work.Extends.limbs {w w' : Work} (h : w.Extends w') {other : List PageId} (hd : w.job.workPages.Disjoint other) (k : Nat) :
    limbAt w'.mem other k = limbAt w.mem other k :=
  limbAt_congr (fun a ⟨_, hp, hpa⟩ => h.reads a fun _ hq e => hd hq (Fin.ext (e.trans hpa.symm) ▸ hp)) k

theorem subset_workPages (j : Record) (i : Wv) : (j.wv i).pages ⊆ j.workPages := by
  cases i <;> simp [Record.wv, Record.workPages]

theorem Work.extends_fill (w : Work) (i : Wv) (x lo hi : Nat) : w.Extends (w.fill i x lo hi) := by
  refine ⟨?_, fun hm => putLimbs_wf _ _ _ _ hm, fun a ha => ?_⟩
  · cases i <;> rfl
  · exact read_putLimbs_of_not_mem fun p hp => ha p (subset_workPages _ _ hp)

theorem Work.extends_setMag (w : Work) (i : Wv) (x len : Nat) : w.Extends (w.setMag i x len) := w.extends_fill i x 0 len

theorem Work.extends_addStep (w : Work) (a b : Value) (step : Nat) : w.Extends (w.addStep a b step) := by
  unfold Work.addStep
  split
  · exact .refl w
  · exact (w.extends_fill .wv0 _ _ _).trans ⟨rfl, id, fun _ _ => rfl⟩

theorem Work.extends_mulReduce (w : Work) (y : Nat) (m : Value) : w.Extends (w.mulReduce y m) :=
  (w.extends_setMag .wv2 _ _).trans (Work.extends_setMag _ .wv0 _ _)

theorem Work.extends_modmulStep (w : Work) (a b m : Value) (step : Nat) : w.Extends (w.modmulStep a b m step) := by
  unfold Work.modmulStep
  split_ifs <;> exact Work.extends_setMag _ _ _ _

theorem Work.extends_modexpStep (w : Work) (a e m : Value) (step : Nat) : w.Extends (w.modexpStep a e m step) := by
  unfold Work.modexpStep
  split_ifs
  · exact (w.extends_setMag .wv1 _ _).trans (Work.extends_setMag _ .wv0 _ _)
  · exact (w.extends_mulReduce _ m).trans (Work.extends_mulReduce _ _ m)
  · exact w.extends_mulReduce _ m

theorem Work.extends_gcdStep (w : Work) (a b : Value) (step : Nat) : w.Extends (w.gcdStep a b step) := by
  unfold Work.gcdStep
  simp only
  split_ifs <;>
    exact ((w.extends_setMag _ _ _).trans (Work.extends_setMag _ _ _ _)).trans (Work.extends_setMag _ _ _ _)

theorem Work.extends_setSearch (w : Work) (m : Value) (z : Search) : w.Extends (w.setSearch m z) :=
  ((w.extends_setMag _ _ _).trans (Work.extends_setMag _ _ _ _)).trans (Work.extends_setMag _ _ _ _)

theorem Work.extends_recordSearch (w : Work) (m : Value) (z : Search) (step : Nat) : w.Extends (w.recordSearch m z step) := by
  unfold Work.recordSearch
  simp only
  split_ifs
  · exact (w.extends_setSearch m z).trans (Work.extends_setMag _ _ _ _)
  · exact w.extends_setSearch m z

theorem Work.extends_modinvStep (w : Work) (a m : Value) (step : Nat) : w.Extends (w.modinvStep a m step) := by
  unfold Work.modinvStep
  split_ifs <;> exact w.extends_recordSearch m _ _

/-- The work of any step changes only what is the command's own (R41, R63). -/
theorem extends_stepWork (s : State) (c : CommandRecord) (j : Record) :
    Work.Extends { mem := s.mem, job := j } (s.stepWork c j) := by
  have hcarry : ∀ k : Option StepCarry, Work.Extends { mem := s.mem, job := j } { mem := s.mem, job := { j with carry := k } } :=
    fun _ => ⟨rfl, id, fun _ _ => rfl⟩
  unfold State.stepWork
  cases c.kind <;> simp only <;>
    first
    | exact .refl _
    | exact Work.extends_gcdStep _ _ _ _
    | (split_ifs <;>
        first
        | exact .refl _
        | exact hcarry _
        | exact Work.extends_addStep _ _ _ _
        | exact Work.extends_modmulStep _ _ _ _ _
        | exact Work.extends_modexpStep _ _ _ _ _
        | exact Work.extends_modinvStep _ _ _ _
        | exact Work.extends_fill _ _ _ _ _
        | exact (Work.extends_setMag _ _ _ _).trans (Work.extends_setMag _ _ _ _))

/-! ### What a working value holds -/

@[simp] theorem Record.wv_setWv_self (j : Record) (i : Wv) (v : WorkingValue) : (j.setWv i v).wv i = v := by
  cases i <;> rfl

theorem Record.wv_setWv (j : Record) (i k : Wv) (v : WorkingValue) :
    (j.setWv i v).wv k = if k = i then v else j.wv k := by
  cases i <;> cases k <;> rfl

/-- A working value that has been set to x with a length its pages allow holds x modulo that length. -/
theorem Work.mag_setMag {w : Work} {i : Wv} {x len : Nat} (hm : Memory.wf w.mem) (hn : (w.job.wv i).pages.Nodup)
    (hl : len ≤ Config.pageLimbs * (w.job.wv i).pages.length) : (w.setMag i x len).mag i = x % 2 ^ (32 * len) := by
  simp only [Work.mag, Work.setMag, Work.fill, Record.wv_setWv_self, Nat.sub_zero]
  exact magnitude_putLimbs hm hn hl

/-- Setting one working value leaves another that shares no page with it. -/
theorem Work.mag_setMag_of_ne {w : Work} {i k : Wv} (h : k ≠ i) {x len : Nat}
    (hd : (w.job.wv i).pages.Disjoint (w.job.wv k).pages) : (w.setMag i x len).mag k = w.mag k := by
  simp only [Work.mag, Work.setMag, Work.fill, Record.wv_setWv, if_neg h]
  exact magnitude_putLimbs_of_disjoint hd

/-! ### The search of MODINV in the working values -/

/-- The limbs a number needs are the fewest that hold it (R1). -/
theorem limbCount_le_iff {x n : Nat} : limbCount x ≤ n ↔ x < 2 ^ (32 * n) := by
  unfold limbCount bitLength
  split
  · next h => subst h; simp
  · next h =>
    rw [← Nat.log2_lt h]
    omega

theorem lt_limbCount (x : Nat) : x < 2 ^ (32 * limbCount x) := limbCount_le_iff.1 le_rfl

/-- A search whose numbers fit reads back from the working values as it was laid into them (R76, log entry 8). -/
theorem Work.search_setSearch {w : Work} {m : Value} {z : Search} (hm : Memory.wf w.mem) (hn : w.job.workPages.Nodup)
    (h0 : pg m.length ≤ w.job.wv0.pages.length) (h1 : pg m.length ≤ w.job.wv1.pages.length)
    (h2 : pg (m.length + 1) ≤ w.job.wv2.pages.length) (hcx : z.cx < 2 ^ (32 * m.length)) (hx : z.x < 2 ^ (32 * m.length))
    (hy : z.y < 2 ^ (32 * limbCount z.x))
    (hcy : z.y + z.cy * 2 ^ (32 * limbCount z.x) < 2 ^ (32 * (m.length + 1))) : (w.setSearch m z).search = z := by
  obtain ⟨n01, n2, d012⟩ := List.nodup_append'.1 hn
  obtain ⟨n0, n1, d01⟩ := List.nodup_append'.1 n01
  have d02 : w.job.wv0.pages.Disjoint w.job.wv2.pages := fun p h h' => d012 (List.mem_append_left _ h) h'
  have d12 : w.job.wv1.pages.Disjoint w.job.wv2.pages := fun p h h' => d012 (List.mem_append_right _ h) h'
  have room : ∀ {n k : Nat}, pg n ≤ k → n ≤ Config.pageLimbs * k := fun {n k} h =>
    (le_pageLimbs_mul_pg n).trans (Nat.mul_le_mul_left _ h)
  set a := w.setMag .wv0 z.cx m.length with ha
  set b := a.setMag .wv1 z.x m.length with hb
  have ea : w.Extends a := w.extends_setMag _ _ _
  have eb : w.Extends b := ea.trans (a.extends_setMag _ _ _)
  have e2 : (b.setMag .wv2 (z.y + z.cy * 2 ^ (32 * limbCount z.x)) (m.length + 1)).mag .wv2 =
      z.y + z.cy * 2 ^ (32 * limbCount z.x) := by
    rw [Work.mag_setMag (eb.memWf hm) (by rw [eb.pages]; exact n2) (by rw [eb.pages]; exact room h2), Nat.mod_eq_of_lt hcy]
  have e1 : (b.setMag .wv2 (z.y + z.cy * 2 ^ (32 * limbCount z.x)) (m.length + 1)).mag .wv1 = z.x := by
    rw [Work.mag_setMag_of_ne (by decide) (by rw [eb.pages, eb.pages]; exact d12.symm), hb,
      Work.mag_setMag (ea.memWf hm) (by rw [ea.pages]; exact n1) (by rw [ea.pages]; exact room h1), Nat.mod_eq_of_lt hx]
  have e0 : (b.setMag .wv2 (z.y + z.cy * 2 ^ (32 * limbCount z.x)) (m.length + 1)).mag .wv0 = z.cx := by
    rw [Work.mag_setMag_of_ne (by decide) (by rw [eb.pages, eb.pages]; exact d02.symm), hb,
      Work.mag_setMag_of_ne (by decide) (by rw [ea.pages, ea.pages]; exact d01.symm), ha,
      Work.mag_setMag (i := .wv0) hm n0 (room h0), Nat.mod_eq_of_lt hcx]
  have hpos : 0 < 2 ^ (32 * limbCount z.x) := Nat.two_pow_pos _
  unfold Work.setSearch Work.search
  simp only
  rw [e0, e1, e2, Nat.add_mul_mod_self_right, Nat.mod_eq_of_lt hy, Nat.add_mul_div_right _ _ hpos, Nat.div_eq_of_lt hy, Nat.zero_add]

end Sys2Proof.Machine
end

