-- ==== Sys2Proof/Laws/Bus.lean ====
section
/-! SUPPORT. What an access and a read word are: when D31-D0 are driven, and the bits of a field of a read word. -/

namespace Sys2Proof.Machine

/-- An access is a read exactly with CS_N and RD_N low and WR_N high (R157). -/
theorem accessOf_eq_read {csN rdN wrN : PinLevel} : accessOf csN rdN wrN = .read ↔ csN = .low ∧ rdN = .low ∧ wrN = .high := by
  cases csN <;> cases rdN <;> cases wrN <;> decide

/-- An access is a write exactly with CS_N and WR_N low and RD_N high (R157). -/
theorem accessOf_eq_write {csN rdN wrN : PinLevel} : accessOf csN rdN wrN = .write ↔ csN = .low ∧ rdN = .high ∧ wrN = .low := by
  cases csN <;> cases rdN <;> cases wrN <;> decide

/-- The part drives the word of the register in a read, and nothing in any other access (R157). -/
theorem dataLines_eq (s : State) (csN rdN wrN : PinLevel) (offset : Offset) :
    s.dataLines csN rdN wrN offset = if accessOf csN rdN wrN = .read then some (s.readRegister offset) else none := by
  unfold State.dataLines
  cases accessOf csN rdN wrN <;> rfl

/-- The bits of a field of a read word: those of its value at its place, and 0 elsewhere (R163). -/
theorem getLsbD_readField (lo width value i : Nat) :
    (readField lo width value).getLsbD i = (decide (lo ≤ i ∧ i < 32 ∧ i - lo < width) && value.testBit (i - lo)) := by
  unfold readField
  rw [BitVec.getLsbD_shiftLeft, BitVec.getLsbD_setWidth, BitVec.getLsbD_ofNat]
  by_cases h1 : i < 32
  · by_cases h2 : lo ≤ i
    · have h4 : i - lo < 32 := by omega
      by_cases h3 : i - lo < width <;> simp [h1, h2, h3, h4]
    · simp [h2, Nat.not_le.1 h2]
  · simp [h1]

end Sys2Proof.Machine
end

