-- ==== Sys2Proof/Laws/State.lean ====
section
/-! SUPPORT. What each primitive update of the state leaves and what it sets: one lemma per field per update, then the part that was
replaced read back. -/

namespace Sys2Proof.Machine

/-! ### Replacing a slot -/

@[simp] theorem setSlot_resetN (s : State) (i : SlotId) (v : Slot) : (s.setSlot i v).resetN = s.resetN := rfl
@[simp] theorem setSlot_dataOut (s : State) (i : SlotId) (v : Slot) : (s.setSlot i v).dataOut = s.dataOut := rfl
@[simp] theorem setSlot_subw (s : State) (i : SlotId) (v : Slot) : (s.setSlot i v).subw = s.subw := rfl
@[simp] theorem setSlot_tbdiv (s : State) (i : SlotId) (v : Slot) : (s.setSlot i v).tbdiv = s.tbdiv := rfl
@[simp] theorem setSlot_timebaseLeft (s : State) (i : SlotId) (v : Slot) : (s.setSlot i v).timebaseLeft = s.timebaseLeft := rfl
@[simp] theorem setSlot_inten (s : State) (i : SlotId) (v : Slot) : (s.setSlot i v).inten = s.inten := rfl
@[simp] theorem setSlot_mem (s : State) (i : SlotId) (v : Slot) : (s.setSlot i v).mem = s.mem := rfl
@[simp] theorem setSlot_freeList (s : State) (i : SlotId) (v : Slot) : (s.setSlot i v).freeList = s.freeList := rfl
@[simp] theorem setSlot_reserve (s : State) (i : SlotId) (v : Slot) : (s.setSlot i v).reserve = s.reserve := rfl
@[simp] theorem setSlot_slotsel (s : State) (i : SlotId) (v : Slot) : (s.setSlot i v).slotsel = s.slotsel := rfl
@[simp] theorem setSlot_slotattr (s : State) (i : SlotId) (v : Slot) : (s.setSlot i v).slotattr = s.slotattr := rfl
@[simp] theorem setSlot_nq (s : State) (i : SlotId) (v : Slot) : (s.setSlot i v).nq = s.nq := rfl
@[simp] theorem setSlot_uq (s : State) (i : SlotId) (v : Slot) : (s.setSlot i v).uq = s.uq := rfl
@[simp] theorem setSlot_credits (s : State) (i : SlotId) (v : Slot) : (s.setSlot i v).credits = s.credits := rfl
@[simp] theorem setSlot_lastres (s : State) (i : SlotId) (v : Slot) : (s.setSlot i v).lastres = s.lastres := rfl
@[simp] theorem setSlot_owner (s : State) (i : SlotId) (v : Slot) : (s.setSlot i v).owner = s.owner := rfl
@[simp] theorem setSlot_preemptPending (s : State) (i : SlotId) (v : Slot) : (s.setSlot i v).preemptPending = s.preemptPending := rfl
@[simp] theorem setSlot_stepRunning (s : State) (i : SlotId) (v : Slot) : (s.setSlot i v).stepRunning = s.stepRunning := rfl
@[simp] theorem setSlot_contexts (s : State) (i : SlotId) (v : Slot) : (s.setSlot i v).contexts = s.contexts := rfl
@[simp] theorem setSlot_urec (s : State) (i : SlotId) (v : Slot) : (s.setSlot i v).urec = s.urec := rfl
@[simp] theorem setSlot_resumeList (s : State) (i : SlotId) (v : Slot) : (s.setSlot i v).resumeList = s.resumeList := rfl
@[simp] theorem setSlot_ctxreq (s : State) (i : SlotId) (v : Slot) : (s.setSlot i v).ctxreq = s.ctxreq := rfl
@[simp] theorem setSlot_ctxsel (s : State) (i : SlotId) (v : Slot) : (s.setSlot i v).ctxsel = s.ctxsel := rfl
@[simp] theorem setSlot_cq (s : State) (i : SlotId) (v : Slot) : (s.setSlot i v).cq = s.cq := rfl
@[simp] theorem setSlot_intstat (s : State) (i : SlotId) (v : Slot) : (s.setSlot i v).intstat = s.intstat := rfl
@[simp] theorem setSlot_windows (s : State) (i : SlotId) (v : Slot) : (s.setSlot i v).windows = s.windows := rfl
@[simp] theorem setSlot_pending (s : State) (i : SlotId) (v : Slot) : (s.setSlot i v).pending = s.pending := rfl
@[simp] theorem setSlot_record (s : State) (i : SlotId) (v : Slot) (r : Runner) : (s.setSlot i v).record r = s.record r := by cases r <;> rfl
@[simp] theorem setSlot_queue (s : State) (i : SlotId) (v : Slot) (q : QueueId) : (s.setSlot i v).queue q = s.queue q := by cases q <;> rfl
@[simp] theorem setSlot_window (s : State) (i : SlotId) (v : Slot) (w : WindowId) : (s.setSlot i v).window w = s.window w := rfl

/-! ### Replacing a record -/

@[simp] theorem setRecord_resetN (s : State) (r : Runner) (v : Record) : (s.setRecord r v).resetN = s.resetN := by cases r <;> rfl
@[simp] theorem setRecord_dataOut (s : State) (r : Runner) (v : Record) : (s.setRecord r v).dataOut = s.dataOut := by cases r <;> rfl
@[simp] theorem setRecord_subw (s : State) (r : Runner) (v : Record) : (s.setRecord r v).subw = s.subw := by cases r <;> rfl
@[simp] theorem setRecord_tbdiv (s : State) (r : Runner) (v : Record) : (s.setRecord r v).tbdiv = s.tbdiv := by cases r <;> rfl
@[simp] theorem setRecord_timebaseLeft (s : State) (r : Runner) (v : Record) : (s.setRecord r v).timebaseLeft = s.timebaseLeft := by cases r <;> rfl
@[simp] theorem setRecord_inten (s : State) (r : Runner) (v : Record) : (s.setRecord r v).inten = s.inten := by cases r <;> rfl
@[simp] theorem setRecord_slots (s : State) (r : Runner) (v : Record) : (s.setRecord r v).slots = s.slots := by cases r <;> rfl
@[simp] theorem setRecord_mem (s : State) (r : Runner) (v : Record) : (s.setRecord r v).mem = s.mem := by cases r <;> rfl
@[simp] theorem setRecord_freeList (s : State) (r : Runner) (v : Record) : (s.setRecord r v).freeList = s.freeList := by cases r <;> rfl
@[simp] theorem setRecord_reserve (s : State) (r : Runner) (v : Record) : (s.setRecord r v).reserve = s.reserve := by cases r <;> rfl
@[simp] theorem setRecord_slotsel (s : State) (r : Runner) (v : Record) : (s.setRecord r v).slotsel = s.slotsel := by cases r <;> rfl
@[simp] theorem setRecord_slotattr (s : State) (r : Runner) (v : Record) : (s.setRecord r v).slotattr = s.slotattr := by cases r <;> rfl
@[simp] theorem setRecord_nq (s : State) (r : Runner) (v : Record) : (s.setRecord r v).nq = s.nq := by cases r <;> rfl
@[simp] theorem setRecord_uq (s : State) (r : Runner) (v : Record) : (s.setRecord r v).uq = s.uq := by cases r <;> rfl
@[simp] theorem setRecord_credits (s : State) (r : Runner) (v : Record) : (s.setRecord r v).credits = s.credits := by cases r <;> rfl
@[simp] theorem setRecord_lastres (s : State) (r : Runner) (v : Record) : (s.setRecord r v).lastres = s.lastres := by cases r <;> rfl
@[simp] theorem setRecord_owner (s : State) (r : Runner) (v : Record) : (s.setRecord r v).owner = s.owner := by cases r <;> rfl
@[simp] theorem setRecord_preemptPending (s : State) (r : Runner) (v : Record) : (s.setRecord r v).preemptPending = s.preemptPending := by cases r <;> rfl
@[simp] theorem setRecord_stepRunning (s : State) (r : Runner) (v : Record) : (s.setRecord r v).stepRunning = s.stepRunning := by cases r <;> rfl
@[simp] theorem setRecord_resumeList (s : State) (r : Runner) (v : Record) : (s.setRecord r v).resumeList = s.resumeList := by cases r <;> rfl
@[simp] theorem setRecord_ctxreq (s : State) (r : Runner) (v : Record) : (s.setRecord r v).ctxreq = s.ctxreq := by cases r <;> rfl
@[simp] theorem setRecord_ctxsel (s : State) (r : Runner) (v : Record) : (s.setRecord r v).ctxsel = s.ctxsel := by cases r <;> rfl
@[simp] theorem setRecord_cq (s : State) (r : Runner) (v : Record) : (s.setRecord r v).cq = s.cq := by cases r <;> rfl
@[simp] theorem setRecord_intstat (s : State) (r : Runner) (v : Record) : (s.setRecord r v).intstat = s.intstat := by cases r <;> rfl
@[simp] theorem setRecord_windows (s : State) (r : Runner) (v : Record) : (s.setRecord r v).windows = s.windows := by cases r <;> rfl
@[simp] theorem setRecord_pending (s : State) (r : Runner) (v : Record) : (s.setRecord r v).pending = s.pending := by cases r <;> rfl
@[simp] theorem setRecord_ctx_urec (s : State) (n : CtxId) (v : Record) : (s.setRecord (.ctx n) v).urec = s.urec := rfl
@[simp] theorem setRecord_urgent_contexts (s : State) (v : Record) : (s.setRecord .urgent v).contexts = s.contexts := rfl
@[simp] theorem setRecord_slot (s : State) (r : Runner) (v : Record) (i : SlotId) : (s.setRecord r v).slot i = s.slot i := by cases r <;> rfl
@[simp] theorem setRecord_queue (s : State) (r : Runner) (v : Record) (q : QueueId) : (s.setRecord r v).queue q = s.queue q := by cases r <;> cases q <;> rfl
@[simp] theorem setRecord_window (s : State) (r : Runner) (v : Record) (w : WindowId) : (s.setRecord r v).window w = s.window w := by cases r <;> rfl

/-! ### Replacing a queue -/

@[simp] theorem setQueue_resetN (s : State) (q : QueueId) (v : IntakeQueue) : (s.setQueue q v).resetN = s.resetN := by cases q <;> rfl
@[simp] theorem setQueue_dataOut (s : State) (q : QueueId) (v : IntakeQueue) : (s.setQueue q v).dataOut = s.dataOut := by cases q <;> rfl
@[simp] theorem setQueue_subw (s : State) (q : QueueId) (v : IntakeQueue) : (s.setQueue q v).subw = s.subw := by cases q <;> rfl
@[simp] theorem setQueue_tbdiv (s : State) (q : QueueId) (v : IntakeQueue) : (s.setQueue q v).tbdiv = s.tbdiv := by cases q <;> rfl
@[simp] theorem setQueue_timebaseLeft (s : State) (q : QueueId) (v : IntakeQueue) : (s.setQueue q v).timebaseLeft = s.timebaseLeft := by cases q <;> rfl
@[simp] theorem setQueue_inten (s : State) (q : QueueId) (v : IntakeQueue) : (s.setQueue q v).inten = s.inten := by cases q <;> rfl
@[simp] theorem setQueue_slots (s : State) (q : QueueId) (v : IntakeQueue) : (s.setQueue q v).slots = s.slots := by cases q <;> rfl
@[simp] theorem setQueue_mem (s : State) (q : QueueId) (v : IntakeQueue) : (s.setQueue q v).mem = s.mem := by cases q <;> rfl
@[simp] theorem setQueue_freeList (s : State) (q : QueueId) (v : IntakeQueue) : (s.setQueue q v).freeList = s.freeList := by cases q <;> rfl
@[simp] theorem setQueue_reserve (s : State) (q : QueueId) (v : IntakeQueue) : (s.setQueue q v).reserve = s.reserve := by cases q <;> rfl
@[simp] theorem setQueue_slotsel (s : State) (q : QueueId) (v : IntakeQueue) : (s.setQueue q v).slotsel = s.slotsel := by cases q <;> rfl
@[simp] theorem setQueue_slotattr (s : State) (q : QueueId) (v : IntakeQueue) : (s.setQueue q v).slotattr = s.slotattr := by cases q <;> rfl
@[simp] theorem setQueue_credits (s : State) (q : QueueId) (v : IntakeQueue) : (s.setQueue q v).credits = s.credits := by cases q <;> rfl
@[simp] theorem setQueue_lastres (s : State) (q : QueueId) (v : IntakeQueue) : (s.setQueue q v).lastres = s.lastres := by cases q <;> rfl
@[simp] theorem setQueue_owner (s : State) (q : QueueId) (v : IntakeQueue) : (s.setQueue q v).owner = s.owner := by cases q <;> rfl
@[simp] theorem setQueue_preemptPending (s : State) (q : QueueId) (v : IntakeQueue) : (s.setQueue q v).preemptPending = s.preemptPending := by cases q <;> rfl
@[simp] theorem setQueue_stepRunning (s : State) (q : QueueId) (v : IntakeQueue) : (s.setQueue q v).stepRunning = s.stepRunning := by cases q <;> rfl
@[simp] theorem setQueue_contexts (s : State) (q : QueueId) (v : IntakeQueue) : (s.setQueue q v).contexts = s.contexts := by cases q <;> rfl
@[simp] theorem setQueue_urec (s : State) (q : QueueId) (v : IntakeQueue) : (s.setQueue q v).urec = s.urec := by cases q <;> rfl
@[simp] theorem setQueue_resumeList (s : State) (q : QueueId) (v : IntakeQueue) : (s.setQueue q v).resumeList = s.resumeList := by cases q <;> rfl
@[simp] theorem setQueue_ctxreq (s : State) (q : QueueId) (v : IntakeQueue) : (s.setQueue q v).ctxreq = s.ctxreq := by cases q <;> rfl
@[simp] theorem setQueue_ctxsel (s : State) (q : QueueId) (v : IntakeQueue) : (s.setQueue q v).ctxsel = s.ctxsel := by cases q <;> rfl
@[simp] theorem setQueue_cq (s : State) (q : QueueId) (v : IntakeQueue) : (s.setQueue q v).cq = s.cq := by cases q <;> rfl
@[simp] theorem setQueue_intstat (s : State) (q : QueueId) (v : IntakeQueue) : (s.setQueue q v).intstat = s.intstat := by cases q <;> rfl
@[simp] theorem setQueue_windows (s : State) (q : QueueId) (v : IntakeQueue) : (s.setQueue q v).windows = s.windows := by cases q <;> rfl
@[simp] theorem setQueue_pending (s : State) (q : QueueId) (v : IntakeQueue) : (s.setQueue q v).pending = s.pending := by cases q <;> rfl
@[simp] theorem setQueue_slot (s : State) (q : QueueId) (v : IntakeQueue) (i : SlotId) : (s.setQueue q v).slot i = s.slot i := by cases q <;> rfl
@[simp] theorem setQueue_record (s : State) (q : QueueId) (v : IntakeQueue) (r : Runner) : (s.setQueue q v).record r = s.record r := by cases q <;> cases r <;> rfl
@[simp] theorem setQueue_window (s : State) (q : QueueId) (v : IntakeQueue) (w : WindowId) : (s.setQueue q v).window w = s.window w := by cases q <;> rfl

/-! ### Replacing a window -/

@[simp] theorem setWindow_resetN (s : State) (w : WindowId) (v : Window) : (s.setWindow w v).resetN = s.resetN := rfl
@[simp] theorem setWindow_dataOut (s : State) (w : WindowId) (v : Window) : (s.setWindow w v).dataOut = s.dataOut := rfl
@[simp] theorem setWindow_subw (s : State) (w : WindowId) (v : Window) : (s.setWindow w v).subw = s.subw := rfl
@[simp] theorem setWindow_tbdiv (s : State) (w : WindowId) (v : Window) : (s.setWindow w v).tbdiv = s.tbdiv := rfl
@[simp] theorem setWindow_timebaseLeft (s : State) (w : WindowId) (v : Window) : (s.setWindow w v).timebaseLeft = s.timebaseLeft := rfl
@[simp] theorem setWindow_inten (s : State) (w : WindowId) (v : Window) : (s.setWindow w v).inten = s.inten := rfl
@[simp] theorem setWindow_slots (s : State) (w : WindowId) (v : Window) : (s.setWindow w v).slots = s.slots := rfl
@[simp] theorem setWindow_mem (s : State) (w : WindowId) (v : Window) : (s.setWindow w v).mem = s.mem := rfl
@[simp] theorem setWindow_freeList (s : State) (w : WindowId) (v : Window) : (s.setWindow w v).freeList = s.freeList := rfl
@[simp] theorem setWindow_reserve (s : State) (w : WindowId) (v : Window) : (s.setWindow w v).reserve = s.reserve := rfl
@[simp] theorem setWindow_slotsel (s : State) (w : WindowId) (v : Window) : (s.setWindow w v).slotsel = s.slotsel := rfl
@[simp] theorem setWindow_slotattr (s : State) (w : WindowId) (v : Window) : (s.setWindow w v).slotattr = s.slotattr := rfl
@[simp] theorem setWindow_nq (s : State) (w : WindowId) (v : Window) : (s.setWindow w v).nq = s.nq := rfl
@[simp] theorem setWindow_uq (s : State) (w : WindowId) (v : Window) : (s.setWindow w v).uq = s.uq := rfl
@[simp] theorem setWindow_credits (s : State) (w : WindowId) (v : Window) : (s.setWindow w v).credits = s.credits := rfl
@[simp] theorem setWindow_lastres (s : State) (w : WindowId) (v : Window) : (s.setWindow w v).lastres = s.lastres := rfl
@[simp] theorem setWindow_owner (s : State) (w : WindowId) (v : Window) : (s.setWindow w v).owner = s.owner := rfl
@[simp] theorem setWindow_preemptPending (s : State) (w : WindowId) (v : Window) : (s.setWindow w v).preemptPending = s.preemptPending := rfl
@[simp] theorem setWindow_stepRunning (s : State) (w : WindowId) (v : Window) : (s.setWindow w v).stepRunning = s.stepRunning := rfl
@[simp] theorem setWindow_contexts (s : State) (w : WindowId) (v : Window) : (s.setWindow w v).contexts = s.contexts := rfl
@[simp] theorem setWindow_urec (s : State) (w : WindowId) (v : Window) : (s.setWindow w v).urec = s.urec := rfl
@[simp] theorem setWindow_resumeList (s : State) (w : WindowId) (v : Window) : (s.setWindow w v).resumeList = s.resumeList := rfl
@[simp] theorem setWindow_ctxreq (s : State) (w : WindowId) (v : Window) : (s.setWindow w v).ctxreq = s.ctxreq := rfl
@[simp] theorem setWindow_ctxsel (s : State) (w : WindowId) (v : Window) : (s.setWindow w v).ctxsel = s.ctxsel := rfl
@[simp] theorem setWindow_cq (s : State) (w : WindowId) (v : Window) : (s.setWindow w v).cq = s.cq := rfl
@[simp] theorem setWindow_intstat (s : State) (w : WindowId) (v : Window) : (s.setWindow w v).intstat = s.intstat := rfl
@[simp] theorem setWindow_pending (s : State) (w : WindowId) (v : Window) : (s.setWindow w v).pending = s.pending := rfl
@[simp] theorem setWindow_slot (s : State) (w : WindowId) (v : Window) (i : SlotId) : (s.setWindow w v).slot i = s.slot i := rfl
@[simp] theorem setWindow_record (s : State) (w : WindowId) (v : Window) (r : Runner) : (s.setWindow w v).record r = s.record r := by cases r <;> rfl
@[simp] theorem setWindow_queue (s : State) (w : WindowId) (v : Window) (q : QueueId) : (s.setWindow w v).queue q = s.queue q := by cases q <;> rfl

/-! ### Setting an INTSTAT flag -/

@[simp] theorem raise_resetN (s : State) (f : IntFlag) : (s.raise f).resetN = s.resetN := rfl
@[simp] theorem raise_dataOut (s : State) (f : IntFlag) : (s.raise f).dataOut = s.dataOut := rfl
@[simp] theorem raise_subw (s : State) (f : IntFlag) : (s.raise f).subw = s.subw := rfl
@[simp] theorem raise_tbdiv (s : State) (f : IntFlag) : (s.raise f).tbdiv = s.tbdiv := rfl
@[simp] theorem raise_timebaseLeft (s : State) (f : IntFlag) : (s.raise f).timebaseLeft = s.timebaseLeft := rfl
@[simp] theorem raise_inten (s : State) (f : IntFlag) : (s.raise f).inten = s.inten := rfl
@[simp] theorem raise_slots (s : State) (f : IntFlag) : (s.raise f).slots = s.slots := rfl
@[simp] theorem raise_mem (s : State) (f : IntFlag) : (s.raise f).mem = s.mem := rfl
@[simp] theorem raise_freeList (s : State) (f : IntFlag) : (s.raise f).freeList = s.freeList := rfl
@[simp] theorem raise_reserve (s : State) (f : IntFlag) : (s.raise f).reserve = s.reserve := rfl
@[simp] theorem raise_slotsel (s : State) (f : IntFlag) : (s.raise f).slotsel = s.slotsel := rfl
@[simp] theorem raise_slotattr (s : State) (f : IntFlag) : (s.raise f).slotattr = s.slotattr := rfl
@[simp] theorem raise_nq (s : State) (f : IntFlag) : (s.raise f).nq = s.nq := rfl
@[simp] theorem raise_uq (s : State) (f : IntFlag) : (s.raise f).uq = s.uq := rfl
@[simp] theorem raise_credits (s : State) (f : IntFlag) : (s.raise f).credits = s.credits := rfl
@[simp] theorem raise_lastres (s : State) (f : IntFlag) : (s.raise f).lastres = s.lastres := rfl
@[simp] theorem raise_owner (s : State) (f : IntFlag) : (s.raise f).owner = s.owner := rfl
@[simp] theorem raise_preemptPending (s : State) (f : IntFlag) : (s.raise f).preemptPending = s.preemptPending := rfl
@[simp] theorem raise_stepRunning (s : State) (f : IntFlag) : (s.raise f).stepRunning = s.stepRunning := rfl
@[simp] theorem raise_contexts (s : State) (f : IntFlag) : (s.raise f).contexts = s.contexts := rfl
@[simp] theorem raise_urec (s : State) (f : IntFlag) : (s.raise f).urec = s.urec := rfl
@[simp] theorem raise_resumeList (s : State) (f : IntFlag) : (s.raise f).resumeList = s.resumeList := rfl
@[simp] theorem raise_ctxreq (s : State) (f : IntFlag) : (s.raise f).ctxreq = s.ctxreq := rfl
@[simp] theorem raise_ctxsel (s : State) (f : IntFlag) : (s.raise f).ctxsel = s.ctxsel := rfl
@[simp] theorem raise_cq (s : State) (f : IntFlag) : (s.raise f).cq = s.cq := rfl
@[simp] theorem raise_windows (s : State) (f : IntFlag) : (s.raise f).windows = s.windows := rfl
@[simp] theorem raise_pending (s : State) (f : IntFlag) : (s.raise f).pending = s.pending := rfl
@[simp] theorem raise_slot (s : State) (f : IntFlag) (i : SlotId) : (s.raise f).slot i = s.slot i := rfl
@[simp] theorem raise_record (s : State) (f : IntFlag) (r : Runner) : (s.raise f).record r = s.record r := by cases r <;> rfl
@[simp] theorem raise_queue (s : State) (f : IntFlag) (q : QueueId) : (s.raise f).queue q = s.queue q := by cases q <;> rfl
@[simp] theorem raise_window (s : State) (f : IntFlag) (w : WindowId) : (s.raise f).window w = s.window w := rfl

/-! ### Recomputing the preemption-pending indicator -/

@[simp] theorem refreshPreempt_resetN (s : State) : s.refreshPreempt.resetN = s.resetN := rfl
@[simp] theorem refreshPreempt_dataOut (s : State) : s.refreshPreempt.dataOut = s.dataOut := rfl
@[simp] theorem refreshPreempt_subw (s : State) : s.refreshPreempt.subw = s.subw := rfl
@[simp] theorem refreshPreempt_tbdiv (s : State) : s.refreshPreempt.tbdiv = s.tbdiv := rfl
@[simp] theorem refreshPreempt_timebaseLeft (s : State) : s.refreshPreempt.timebaseLeft = s.timebaseLeft := rfl
@[simp] theorem refreshPreempt_inten (s : State) : s.refreshPreempt.inten = s.inten := rfl
@[simp] theorem refreshPreempt_slots (s : State) : s.refreshPreempt.slots = s.slots := rfl
@[simp] theorem refreshPreempt_mem (s : State) : s.refreshPreempt.mem = s.mem := rfl
@[simp] theorem refreshPreempt_freeList (s : State) : s.refreshPreempt.freeList = s.freeList := rfl
@[simp] theorem refreshPreempt_reserve (s : State) : s.refreshPreempt.reserve = s.reserve := rfl
@[simp] theorem refreshPreempt_slotsel (s : State) : s.refreshPreempt.slotsel = s.slotsel := rfl
@[simp] theorem refreshPreempt_slotattr (s : State) : s.refreshPreempt.slotattr = s.slotattr := rfl
@[simp] theorem refreshPreempt_nq (s : State) : s.refreshPreempt.nq = s.nq := rfl
@[simp] theorem refreshPreempt_uq (s : State) : s.refreshPreempt.uq = s.uq := rfl
@[simp] theorem refreshPreempt_credits (s : State) : s.refreshPreempt.credits = s.credits := rfl
@[simp] theorem refreshPreempt_lastres (s : State) : s.refreshPreempt.lastres = s.lastres := rfl
@[simp] theorem refreshPreempt_owner (s : State) : s.refreshPreempt.owner = s.owner := rfl
@[simp] theorem refreshPreempt_stepRunning (s : State) : s.refreshPreempt.stepRunning = s.stepRunning := rfl
@[simp] theorem refreshPreempt_contexts (s : State) : s.refreshPreempt.contexts = s.contexts := rfl
@[simp] theorem refreshPreempt_urec (s : State) : s.refreshPreempt.urec = s.urec := rfl
@[simp] theorem refreshPreempt_resumeList (s : State) : s.refreshPreempt.resumeList = s.resumeList := rfl
@[simp] theorem refreshPreempt_ctxreq (s : State) : s.refreshPreempt.ctxreq = s.ctxreq := rfl
@[simp] theorem refreshPreempt_ctxsel (s : State) : s.refreshPreempt.ctxsel = s.ctxsel := rfl
@[simp] theorem refreshPreempt_cq (s : State) : s.refreshPreempt.cq = s.cq := rfl
@[simp] theorem refreshPreempt_intstat (s : State) : s.refreshPreempt.intstat = s.intstat := rfl
@[simp] theorem refreshPreempt_windows (s : State) : s.refreshPreempt.windows = s.windows := rfl
@[simp] theorem refreshPreempt_pending (s : State) : s.refreshPreempt.pending = s.pending := rfl
@[simp] theorem refreshPreempt_preemptPending (s : State) : s.refreshPreempt.preemptPending = s.preemptDue := rfl
@[simp] theorem refreshPreempt_slot (s : State) (i : SlotId) : s.refreshPreempt.slot i = s.slot i := rfl
@[simp] theorem refreshPreempt_record (s : State) (r : Runner) : s.refreshPreempt.record r = s.record r := by cases r <;> rfl
@[simp] theorem refreshPreempt_queue (s : State) (q : QueueId) : s.refreshPreempt.queue q = s.queue q := by cases q <;> rfl
@[simp] theorem refreshPreempt_window (s : State) (w : WindowId) : s.refreshPreempt.window w = s.window w := rfl

/-! ### The replaced part, read back -/

@[simp] theorem slot_setSlot_self (s : State) (i : SlotId) (v : Slot) : (s.setSlot i v).slot i = v := by
  simp [State.slot, State.setSlot]

theorem slot_setSlot (s : State) (i k : SlotId) (v : Slot) :
    (s.setSlot i v).slot k = if k = i then v else s.slot k := by
  simp only [State.slot, State.setSlot, Fin.getElem_fin, Vector.getElem_set]
  by_cases h : k = i
  · simp [h]
  · have : i.val ≠ k.val := fun e => h (Fin.ext e.symm)
    simp [h, this]

theorem slot_setSlot_ne (s : State) {i k : SlotId} (v : Slot) (h : k ≠ i) : (s.setSlot i v).slot k = s.slot k := by
  simp [slot_setSlot, h]

@[simp] theorem window_setWindow_self (s : State) (w : WindowId) (v : Window) : (s.setWindow w v).window w = v := by
  simp [State.window, State.setWindow]

theorem window_setWindow (s : State) (w u : WindowId) (v : Window) :
    (s.setWindow w v).window u = if u = w then v else s.window u := by
  simp only [State.window, State.setWindow, Fin.getElem_fin, Vector.getElem_set]
  by_cases h : u = w
  · simp [h]
  · have : w.val ≠ u.val := fun e => h (Fin.ext e.symm)
    simp [h, this]

@[simp] theorem queue_setQueue_self (s : State) (q : QueueId) (v : IntakeQueue) : (s.setQueue q v).queue q = v := by
  cases q <;> rfl

theorem queue_setQueue (s : State) (q p : QueueId) (v : IntakeQueue) :
    (s.setQueue q v).queue p = if p = q then v else s.queue p := by
  cases q <;> cases p <;> rfl

@[simp] theorem record_setRecord_self (s : State) (r : Runner) (v : Record) : (s.setRecord r v).record r = v := by
  cases r <;> simp [State.record, State.setRecord]

theorem record_setRecord (s : State) (r x : Runner) (v : Record) :
    (s.setRecord r v).record x = if x = r then v else s.record x := by
  cases r with
  | urgent => cases x <;> simp [State.record, State.setRecord]
  | ctx n =>
    cases x with
    | urgent => simp [State.record, State.setRecord]
    | ctx m =>
      simp only [State.record, State.setRecord, Fin.getElem_fin, Vector.getElem_set]
      by_cases h : m = n
      · simp [h]
      · have : n.val ≠ m.val := fun e => h (Fin.ext e.symm)
        simp [h, this]

/-- Two states are equal when each field is. -/
theorem State.eq_iff (s t : State) : s = t ↔
    s.resetN = t.resetN ∧ s.dataOut = t.dataOut ∧ s.subw = t.subw ∧ s.tbdiv = t.tbdiv ∧ s.timebaseLeft = t.timebaseLeft ∧
    s.inten = t.inten ∧ s.slots = t.slots ∧ s.mem = t.mem ∧ s.freeList = t.freeList ∧ s.reserve = t.reserve ∧
    s.slotsel = t.slotsel ∧ s.slotattr = t.slotattr ∧ s.nq = t.nq ∧ s.uq = t.uq ∧ s.credits = t.credits ∧
    s.lastres = t.lastres ∧ s.owner = t.owner ∧ s.preemptPending = t.preemptPending ∧ s.stepRunning = t.stepRunning ∧
    s.contexts = t.contexts ∧ s.urec = t.urec ∧ s.resumeList = t.resumeList ∧ s.ctxreq = t.ctxreq ∧ s.ctxsel = t.ctxsel ∧
    s.cq = t.cq ∧ s.intstat = t.intstat ∧ s.windows = t.windows ∧ s.pending = t.pending := by
  cases s
  cases t
  simp

/-- Two states are equal when every slot of them is. -/
theorem slots_ext {v w : Vector Slot Config.slotCount} (h : ∀ i : SlotId, v[i] = w[i]) : v = w :=
  Vector.ext fun i hi => h ⟨i, hi⟩

@[simp] theorem preemptDue_refreshPreempt (s : State) : s.refreshPreempt.preemptDue = s.preemptDue := rfl

end Sys2Proof.Machine
end

