-- ==== Sys2Proof/Laws/Ops.lean ====
section
/-! SUPPORT. What each shared operation over pages, locks and contexts does: for each, a frame equation that names the only fields
it changes, and lemmas for those fields. -/

namespace Sys2Proof.Machine

theorem getElem_mapVector {α : Type} {n : Nat} (f : α → α) (v : Vector α n) (i : Nat) (h : i < n) :
    (mapVector f v)[i] = f v[i] := by
  simp [mapVector]

/-! ### Slot numbers -/

theorem slotNumber_eq_some {f : SlotField} {i : SlotId} : slotNumber f = some i ↔ f.toNat = i.val := by
  unfold slotNumber
  split
  · simp [Fin.ext_iff]
  · have := i.isLt
    simp
    omega

theorem slotNumber_eq_none {f : SlotField} : slotNumber f = none ↔ 48 ≤ f.toNat := by
  unfold slotNumber
  split <;> simp_all

theorem contextNumber_eq_some {t : BitVec 3} {n : CtxId} : contextNumber t = some n ↔ t.toNat = n.val := by
  unfold contextNumber
  split
  · simp [Fin.ext_iff]
  · have := n.isLt
    simp
    omega

theorem contextNumber_eq_none {t : BitVec 3} : contextNumber t = none ↔ 4 ≤ t.toNat := by
  unfold contextNumber
  split <;> simp_all

/-! ### Locks -/

theorem releaseLocks_frame (s : State) (h : Holder) :
    s.releaseLocks h = { s with slots := (s.releaseLocks h).slots } := rfl

theorem slot_releaseLocks (s : State) (h : Holder) (i : SlotId) : (s.releaseLocks h).slot i = (s.slot i).unlock h :=
  getElem_mapVector _ _ _ i.isLt

theorem clearLocks_frame (s : State) : s.clearLocks = { s with slots := s.clearLocks.slots } := rfl

theorem slot_clearLocks (s : State) (i : SlotId) :
    s.clearLocks.slot i = { s.slot i with writer := none, readers := [] } :=
  getElem_mapVector _ _ _ i.isLt

theorem updateSlot_frame (s : State) (g : Slot → Slot) (f : SlotField) :
    s.updateSlot g f = { s with slots := (s.updateSlot g f).slots } := by
  unfold State.updateSlot
  split <;> rfl

theorem slot_updateSlot (s : State) (g : Slot → Slot) (f : SlotField) (i : SlotId) :
    (s.updateSlot g f).slot i = if slotNumber f = some i then g (s.slot i) else s.slot i := by
  unfold State.updateSlot
  split
  · next k hk =>
    rw [slot_setSlot, hk]
    by_cases h : i = k
    · simp [h]
    · have : ¬ k = i := fun e => h e.symm
      simp [h, this]
  · next hk => simp [hk]

theorem foldl_updateSlot_frame (g : Slot → Slot) (l : List SlotField) (s : State) :
    l.foldl (fun t f => t.updateSlot g f) s = { s with slots := (l.foldl (fun t f => t.updateSlot g f) s).slots } := by
  induction l generalizing s with
  | nil => rfl
  | cons f rest ih =>
    rw [List.foldl_cons, ih (s.updateSlot g f), updateSlot_frame s g f]

/-- An update that does nothing more when repeated reaches each named slot once. -/
theorem slot_foldl_updateSlot {g : Slot → Slot} (hg : ∀ v, g (g v) = g v) (l : List SlotField) (s : State) (i : SlotId) :
    (l.foldl (fun t f => t.updateSlot g f) s).slot i =
      if ∃ f ∈ l, slotNumber f = some i then g (s.slot i) else s.slot i := by
  induction l generalizing s with
  | nil => simp
  | cons f rest ih =>
    rw [List.foldl_cons, ih, slot_updateSlot]
    by_cases h1 : slotNumber f = some i <;> by_cases h2 : ∃ f ∈ rest, slotNumber f = some i
    · simp [h1, h2, hg]
    · simp [h1, h2]
    · simp [h1, h2]
    · simp [h1, h2]

theorem mem_holder_all (h : Holder) : h ∈ Holder.all := by
  cases h with
  | run r =>
    cases r with
    | ctx n => revert n; decide
    | urgent => decide
  | win w => revert w; decide

@[simp] theorem mem_addReader {h x : Holder} {rs : List Holder} : x ∈ addReader h rs ↔ x = h ∨ x ∈ rs := by
  simp [addReader, mem_holder_all]

@[simp] theorem mem_dropReader {h x : Holder} {rs : List Holder} : x ∈ dropReader h rs ↔ x ∈ rs ∧ x ≠ h := by
  simp [dropReader]

theorem lockWrite_lockWrite (h : Holder) (v : Slot) : (v.lockWrite h).lockWrite h = v.lockWrite h := rfl

theorem lockRead_lockRead (h : Holder) (v : Slot) : (v.lockRead h).lockRead h = v.lockRead h := by
  simp [Slot.lockRead, addReader, mem_holder_all]

theorem takeLocks_frame (s : State) (h : Holder) (ds ss : List SlotField) :
    s.takeLocks h ds ss = { s with slots := (s.takeLocks h ds ss).slots } := by
  unfold State.takeLocks
  rw [foldl_updateSlot_frame, foldl_updateSlot_frame (Slot.lockWrite h) ds s]

/-- The locks a start or an open takes on one slot (R83): the writer if it is a destination, a reader more if it is a source. -/
theorem slot_takeLocks (s : State) (h : Holder) (ds ss : List SlotField) (i : SlotId) :
    (s.takeLocks h ds ss).slot i =
      { s.slot i with
        writer := if ∃ f ∈ ds, slotNumber f = some i then some h else (s.slot i).writer
        readers := if ∃ f ∈ ss, slotNumber f = some i then addReader h (s.slot i).readers else (s.slot i).readers } := by
  rw [State.takeLocks, slot_foldl_updateSlot (lockRead_lockRead h), slot_foldl_updateSlot (lockWrite_lockWrite h)]
  split_ifs <;> rfl

/-! ### Pages -/

theorem takePages_frame (s : State) (d : Nat) :
    s.takePages d = { s with freeList := s.freeList.drop d, mem := s.mem.zeroPages (s.freeList.take d) } := rfl

/-- A granted acquisition is of no pages, or of pages that the free list has (R11). -/
theorem le_freeCount_of_acquisitionGranted {h : Holder} {d : Nat} {s : State} (hg : acquisitionGranted h d s = true) :
    d ≤ s.freeCount := by
  unfold acquisitionGranted at hg
  rcases Bool.or_eq_true_iff.1 hg with h0 | h1
  · have : d = 0 := of_decide_eq_true h0
    omega
  · split at h1
    · exact of_decide_eq_true h1
    · have := of_decide_eq_true h1
      omega

/-- The pages handed over are as many as were asked for. -/
theorem length_nextPages {h : Holder} {d : Nat} {s : State} (hg : acquisitionGranted h d s = true) :
    (s.nextPages d).length = d := by
  have := le_freeCount_of_acquisitionGranted hg
  simp only [State.nextPages, State.freeCount, List.length_take] at *
  omega

/-! ### The wake event and releases -/

/-- A woken context: RESUMABLE, with pages wanted 0 (R119). -/
theorem wakeContext_frame (s : State) (n : CtxId) :
    s.wakeContext n =
      { s with contexts := (s.wakeContext n).contexts, resumeList := s.resumeList ++ if s.wakes n then [n] else [] } := by
  unfold State.wakeContext
  split <;> simp [State.setRecord]

theorem record_wakeContext (s : State) (n : CtxId) (r : Runner) :
    (s.wakeContext n).record r =
      if r = .ctx n ∧ s.wakes n = true then { s.record r with state := .resumable, pagesWanted := 0 } else s.record r := by
  have hx : ∀ (t : State) (l : List CtxId) (x : Runner), ({ t with resumeList := l } : State).record x = t.record x := by
    intro t l x
    cases x <;> rfl
  unfold State.wakeContext
  split
  · next h =>
    rw [hx, record_setRecord]
    by_cases hr : r = .ctx n
    · simp [hr, h]
    · simp [hr]
  · next h => simp [h]

/-- Waking one context changes no other's test. -/
theorem wakes_wakeContext (s : State) (n m : CtxId) (h : m ≠ n) : (s.wakeContext n).wakes m = s.wakes m := by
  have hr : (s.wakeContext n).record (.ctx m) = s.record (.ctx m) := by
    rw [record_wakeContext, if_neg]
    simp [h]
  unfold State.wakes
  rw [hr]
  have hf := wakeContext_frame s n
  have h1 : (s.wakeContext n).reserve = s.reserve := by rw [hf]
  have h2 : (s.wakeContext n).freeList = s.freeList := by rw [hf]
  congr 1
  exact decide_eq_decide.2 (by rw [State.freeCount, State.freeCount, h1, h2])

theorem foldl_wakeContext (l : List CtxId) (hl : l.Nodup) (s : State) :
    (l.foldl State.wakeContext s = { s with
        contexts := (l.foldl State.wakeContext s).contexts, resumeList := s.resumeList ++ l.filter s.wakes }) ∧
      ∀ r, (l.foldl State.wakeContext s).record r =
        if ∃ n ∈ l, r = .ctx n ∧ s.wakes n = true then { s.record r with state := .resumable, pagesWanted := 0 }
        else s.record r := by
  induction l generalizing s with
  | nil => simp
  | cons n rest ih =>
    obtain ⟨hn, hrest⟩ := List.nodup_cons.1 hl
    obtain ⟨ih1, ih2⟩ := ih hrest (s.wakeContext n)
    have hw : ∀ m ∈ rest, (s.wakeContext n).wakes m = s.wakes m := fun m hm =>
      wakes_wakeContext s n m fun e => hn (e ▸ hm)
    have hfil : rest.filter (s.wakeContext n).wakes = rest.filter s.wakes := List.filter_congr hw
    refine ⟨?_, fun r => ?_⟩
    · rw [List.foldl_cons]
      rw [hfil] at ih1
      generalize rest.foldl State.wakeContext (s.wakeContext n) = t at ih1 ⊢
      rw [wakeContext_frame s n] at ih1
      rw [ih1]
      by_cases h : s.wakes n = true <;> simp [h, List.append_assoc]
    · rw [List.foldl_cons, ih2, record_wakeContext]
      by_cases h1 : r = .ctx n
      · subst h1
        have : ¬ ∃ m ∈ rest, Runner.ctx n = .ctx m ∧ (s.wakeContext n).wakes m = true := by
          rintro ⟨m, hm, he, -⟩
          exact hn (Runner.ctx.inj he ▸ hm)
        rw [if_neg this]
        by_cases h : s.wakes n = true
        · rw [if_pos ⟨rfl, h⟩, if_pos ⟨n, List.mem_cons_self, rfl, h⟩]
        · rw [if_neg (by simp [h]), if_neg]
          rintro ⟨m, hm, he, hwm⟩
          exact h (Runner.ctx.inj he ▸ hwm)
      · have hn' : ¬ (r = .ctx n ∧ s.wakes n = true) := fun e => h1 e.1
        rw [if_neg hn']
        by_cases h : ∃ m ∈ rest, r = .ctx m ∧ s.wakes m = true
        · obtain ⟨m, hm, he, hwm⟩ := h
          rw [if_pos ⟨m, hm, he, (hw m hm).trans hwm⟩, if_pos ⟨m, List.mem_cons_of_mem _ hm, he, hwm⟩]
        · rw [if_neg, if_neg]
          · rintro ⟨m, hm, he, hwm⟩
            rcases List.mem_cons.1 hm with rfl | hm
            · exact h1 he
            · exact h ⟨m, hm, he, hwm⟩
          · rintro ⟨m, hm, he, hwm⟩
            exact h ⟨m, hm, he, (hw m hm).symm.trans hwm⟩

/-- The wake event changes only contexts and the resume list, which takes every context that passes its test, in ascending
number (R119). -/
theorem wake_frame (s : State) :
    s.wake = { s with
      contexts := s.wake.contexts, resumeList := s.resumeList ++ (List.finRange Config.contextCount).filter s.wakes } :=
  (foldl_wakeContext _ (List.nodup_finRange _) s).1

theorem record_wake_ctx (s : State) (n : CtxId) :
    s.wake.record (.ctx n) =
      if s.wakes n then { s.record (.ctx n) with state := .resumable, pagesWanted := 0 } else s.record (.ctx n) := by
  rw [State.wake, (foldl_wakeContext _ (List.nodup_finRange _) s).2]
  by_cases h : s.wakes n = true
  · rw [if_pos ⟨n, List.mem_finRange n, rfl, h⟩, if_pos h]
  · rw [if_neg h, if_neg]
    rintro ⟨m, -, he, hm⟩
    exact h (Runner.ctx.inj he ▸ hm)

@[simp] theorem urec_wake (s : State) : s.wake.urec = s.urec := by rw [wake_frame]

/-- A release appends its pages in the order given, and wakes (R13). -/
theorem release_frame (s : State) (ps : List PageId) :
    s.release ps = { s with
      freeList := s.freeList ++ ps
      contexts := (s.release ps).contexts
      resumeList := s.resumeList ++
        (List.finRange Config.contextCount).filter ({ s with freeList := s.freeList ++ ps } : State).wakes } :=
  wake_frame { s with freeList := s.freeList ++ ps }

theorem release_freeList (s : State) (ps : List PageId) : (s.release ps).freeList = s.freeList ++ ps :=
  by rw [release_frame]

theorem record_release_ctx (s : State) (ps : List PageId) (n : CtxId) :
    (s.release ps).record (.ctx n) =
      if ({ s with freeList := s.freeList ++ ps } : State).wakes n then
        { s.record (.ctx n) with state := .resumable, pagesWanted := 0 }
      else s.record (.ctx n) :=
  record_wake_ctx { s with freeList := s.freeList ++ ps } n

@[simp] theorem urec_release (s : State) (ps : List PageId) : (s.release ps).urec = s.urec :=
  urec_wake { s with freeList := s.freeList ++ ps }

/-! ### Installed values -/

/-- An installed value fills exactly the pages its length needs, and the slot's other fields stay (R6). -/
theorem length_pages_installed (old : Slot) (mem : Memory) (sign : Sign) (pages : List PageId) (n : Nat) :
    (old.installed mem sign pages n).pages.length = pg (old.installed mem sign pages n).length := by
  have := pg_le (trimmedLength_le_pages mem pages n)
  simp [Slot.installed, this]

/-- An installed value of length 0 is POS (R2). -/
theorem sign_installed_of_zero {old : Slot} {mem : Memory} {sign : Sign} {pages : List PageId} {n : Nat}
    (h : (old.installed mem sign pages n).length = 0) : (old.installed mem sign pages n).sign = .pos := by
  simp only [Slot.installed] at h
  simp [Slot.installed, normalSign, h]

/-- No page is lost by an install: the old pages and the new ones are the slot's or are given back (R6). -/
theorem install_pages_perm (old : Slot) (mem : Memory) (sign : Sign) (pages : List PageId) (n : Nat) :
    ((old.installed mem sign pages n).pages ++ old.givenBack mem pages n).Perm (old.pages ++ pages) := by
  simp only [Slot.installed, Slot.givenBack]
  refine List.perm_append_comm_assoc _ _ _ |>.trans ?_
  rw [List.take_append_drop]

end Sys2Proof.Machine
end

