-- ==== Sys2Proof/Laws/Flags.lean ====
section
/-! SUPPORT. What the tests, notices and postings of Flags.lean do: for each a frame equation that names the only fields it changes, and
lemmas for those fields. -/

namespace Sys2Proof.Machine

/-! ### The startability test depends on the locks alone -/

/-- Slots with the same locks in two states give the same startability test (R82). -/
theorem startable_congr {s t : State}
    (h : ∀ i, (t.slot i).writer = (s.slot i).writer ∧ (t.slot i).readers = (s.slot i).readers) (c : CommandRecord) :
    t.startable c = s.startable c := by
  have hu : ∀ f, t.slotPasses Slot.unlocked f = s.slotPasses Slot.unlocked f := fun f => by
    unfold State.slotPasses Slot.unlocked
    split <;> simp [h]
  have hw : ∀ f, t.slotPasses (fun v => v.writer = none) f = s.slotPasses (fun v => v.writer = none) f := fun f => by
    unfold State.slotPasses
    split <;> simp [h]
  unfold State.startable
  rw [funext hu, funext hw]

/-- The blocked condition of a queue depends on its head and on the locks. -/
theorem headBlocked_congr {s t : State} {q : QueueId}
    (h : ∀ i, (t.slot i).writer = (s.slot i).writer ∧ (t.slot i).readers = (s.slot i).readers)
    (hq : (t.queue q).entries.head? = (s.queue q).entries.head?) : t.headBlocked q = s.headBlocked q := by
  unfold State.headBlocked State.head
  rw [hq, funext (startable_congr h)]

/-- The preemption condition depends on the owner, the UQ head and the locks (R102). -/
theorem preemptDue_congr {s t : State}
    (h : ∀ i, (t.slot i).writer = (s.slot i).writer ∧ (t.slot i).readers = (s.slot i).readers)
    (hq : t.uq.entries.head? = s.uq.entries.head?) (ho : t.owner = s.owner) : t.preemptDue = s.preemptDue := by
  have : t.headStartable .urgent = s.headStartable .urgent := by
    unfold State.headStartable State.head State.queue
    rw [hq, funext (startable_congr h)]
  unfold State.preemptDue
  rw [ho, this]

/-! ### Blocked test, head gone -/

/-- The blocked test changes one queue's indicator and timer (R89, R92). -/
theorem blockedTest_eq (s : State) (q : QueueId) :
    s.blockedTest q = s.setQueue q { s.queue q with
      blocked := s.headBlocked q
      timer := if s.headBlocked q then
          (if (s.queue q).blocked then (s.queue q).timer else startedTimer (s.queue q).limit)
        else .stopped } := by
  unfold State.blockedTest
  split
  · next h => simp [h]
  · next h => simp [Bool.eq_false_iff.2 h]

theorem headGone_eq (s : State) (q : QueueId) :
    s.headGone q = s.setQueue q { s.queue q with blocked := false, timer := .stopped } := rfl

/-- The blocked test leaves the head, and so its own condition, as it was. -/
theorem headBlocked_blockedTest (s : State) (q p : QueueId) : (s.blockedTest q).headBlocked p = s.headBlocked p := by
  refine headBlocked_congr (fun i => by simp [blockedTest_eq]) ?_
  rw [blockedTest_eq, queue_setQueue]
  split
  · next h => rw [h]
  · rfl

/-- The notices of a lock change touch both queues' indicators and timers and the preemption indicator, nothing else. -/
theorem locksChanged_frame (s : State) :
    s.locksChanged = { s with nq := s.locksChanged.nq, uq := s.locksChanged.uq, preemptPending := s.locksChanged.preemptPending } := by
  unfold State.locksChanged
  rw [blockedTest_eq, blockedTest_eq]
  rfl

/-- What the notices leave in each queue (R89, R92). -/
theorem queue_locksChanged (s : State) (q : QueueId) :
    s.locksChanged.queue q = { s.queue q with
      blocked := s.headBlocked q
      timer := if s.headBlocked q then
          (if (s.queue q).blocked then (s.queue q).timer else startedTimer (s.queue q).limit)
        else .stopped } := by
  have h := headBlocked_blockedTest s .normal .urgent
  unfold State.locksChanged
  rw [refreshPreempt_queue, blockedTest_eq (s.blockedTest .normal), h, blockedTest_eq s]
  cases q <;> rfl

/-- The indicator stands at its condition after the notices (R102). -/
theorem preemptPending_locksChanged (s : State) : s.locksChanged.preemptPending = s.preemptDue := by
  unfold State.locksChanged
  rw [refreshPreempt_preemptPending]
  refine preemptDue_congr (fun i => by simp [blockedTest_eq]) ?_ (by simp [blockedTest_eq])
  rw [blockedTest_eq (s.blockedTest .normal), blockedTest_eq s]
  rfl

/-! ### Posting -/

theorem raiseIf_frame (s : State) (cond : Bool) (f : IntFlag) :
    s.raiseIf cond f = { s with intstat := (s.raiseIf cond f).intstat } := by
  cases cond <;> rfl

theorem appendRecords_frame (s : State) (rs : List CompletionRecord) (notify : Bool) :
    s.appendRecords rs notify = { s with cq := s.cq ++ rs, intstat := (s.appendRecords rs notify).intstat } := by
  cases notify <;> rfl

/-- No posting clears a flag (R137). -/
theorem intstat_appendRecords (s : State) (rs : List CompletionRecord) (notify : Bool) :
    (s.appendRecords rs notify).intstat = if notify then s.intstat ||| IntFlag.notify.mask else s.intstat := by
  cases notify <;> rfl

/-- The skip test leaves a queue whose head it does not remove (R37). -/
theorem skipTest_of_skipped_eq_nil {s : State} {q : QueueId} (h : (s.queue q).skipped = []) : s.skipTest q = s := by
  simp [State.skipTest, h]

/-- The skip test touches one queue, the Completion Queue and INTSTAT (R37). -/
theorem skipTest_frame (s : State) (q : QueueId) :
    s.skipTest q =
      { s with nq := (s.skipTest q).nq, uq := (s.skipTest q).uq, cq := (s.skipTest q).cq, intstat := (s.skipTest q).intstat } := by
  unfold State.skipTest
  simp only
  split
  · rfl
  · rw [blockedTest_eq, headGone_eq, appendRecords_frame]
    cases q <;> rfl

/-- The entries a skip test leaves, with latch and limit kept (R37). -/
theorem queue_skipTest_self (s : State) (q : QueueId) :
    ((s.skipTest q).queue q).entries = (s.queue q).entries.drop (s.queue q).skipped.length ∧
      ((s.skipTest q).queue q).latch = (s.queue q).latch ∧ ((s.skipTest q).queue q).limit = (s.queue q).limit := by
  unfold State.skipTest
  simp only
  split
  · next h => simp [h]
  · rw [blockedTest_eq, headGone_eq, appendRecords_frame]
    cases q <;> exact ⟨rfl, rfl, rfl⟩

/-- The skip test of one queue leaves the other (R37). -/
theorem queue_skipTest_ne (s : State) {q p : QueueId} (h : p ≠ q) : (s.skipTest q).queue p = s.queue p := by
  unfold State.skipTest
  simp only
  split
  · rfl
  · rw [blockedTest_eq, headGone_eq, appendRecords_frame]
    cases q <;> cases p <;> first | exact absurd rfl h | rfl

/-- The SKIPPED records join the tail, in queue order (R134). -/
theorem cq_skipTest (s : State) (q : QueueId) :
    (s.skipTest q).cq = s.cq ++ (s.queue q).skipped.map (unstartedRecord .skipped) := by
  unfold State.skipTest
  simp only
  split
  · next h => simp [h]
  · rw [blockedTest_eq, headGone_eq, appendRecords_frame]
    cases q <;> rfl

/-- A new head: its queue, the Completion Queue and INTSTAT may change (R33). -/
theorem newHead_frame (s : State) (q : QueueId) :
    s.newHead q =
      { s with nq := (s.newHead q).nq, uq := (s.newHead q).uq, cq := (s.newHead q).cq, intstat := (s.newHead q).intstat } := by
  unfold State.newHead
  rw [blockedTest_eq, skipTest_frame, headGone_eq]
  cases q <;> rfl

/-- The blocked indicator of a queue whose new head has been tested is true to that head (R88, R89). -/
theorem blocked_newHead (s : State) (q : QueueId) :
    ((s.newHead q).queue q).blocked = (s.newHead q).headBlocked q := by
  unfold State.newHead
  rw [headBlocked_blockedTest, blockedTest_eq, queue_setQueue_self]

theorem dropHead_eq (s : State) (q : QueueId) :
    s.dropHead q = s.setQueue q { s.queue q with entries := (s.queue q).entries.tail } := rfl

theorem setLatch_frame (s : State) (q : QueueId) :
    s.setLatch q =
      { s with nq := (s.setLatch q).nq, uq := (s.setLatch q).uq, cq := (s.setLatch q).cq, intstat := (s.setLatch q).intstat } := by
  unfold State.setLatch
  rw [skipTest_frame]
  cases q <;> rfl

/-- A posting touches the queues, the Completion Queue and INTSTAT (R133, R35). -/
theorem postRecord_frame (s : State) (rec : CompletionRecord) (notify : Bool) :
    s.postRecord rec notify =
      { s with nq := (s.postRecord rec notify).nq, uq := (s.postRecord rec notify).uq,
               cq := (s.postRecord rec notify).cq, intstat := (s.postRecord rec notify).intstat } := by
  unfold State.postRecord
  split
  · rw [setLatch_frame, appendRecords_frame]
  · rw [appendRecords_frame]

/-- The posted record stands before the SKIPPED records it starts (R134). -/
theorem cq_postRecord (s : State) (rec : CompletionRecord) (notify : Bool) :
    ∃ skippedAfter : List CommandRecord,
      (s.postRecord rec notify).cq = s.cq ++ rec :: skippedAfter.map (unstartedRecord .skipped) := by
  unfold State.postRecord
  split
  · rw [State.setLatch, cq_skipTest, raise_cq, setQueue_cq, appendRecords_frame]
    simp only [List.append_assoc, List.singleton_append]
    exact ⟨_, rfl⟩
  · exact ⟨[], by rw [appendRecords_frame]; rfl⟩

/-! ### Commands are neither lost nor made by the tests -/

theorem length_skipped_le (k : IntakeQueue) : k.skipped.length ≤ k.entries.length := by
  unfold IntakeQueue.skipped
  split
  · exact (List.takeWhile_prefix _).length_le
  · exact Nat.zero_le _

/-- A skip moves a command from its queue to the Completion Queue (R29). -/
theorem count_skipTest (s : State) (q : QueueId) :
    (s.skipTest q).nq.entries.length + (s.skipTest q).uq.entries.length + (s.skipTest q).cq.length =
      s.nq.entries.length + s.uq.entries.length + s.cq.length := by
  have h1 := (queue_skipTest_self s q).1
  have h2 := cq_skipTest s q
  have h3 := length_skipped_le (s.queue q)
  rw [h2, List.length_append, List.length_map]
  cases q with
  | normal =>
    have hu : (s.skipTest .normal).uq = s.uq := queue_skipTest_ne s (q := .normal) (p := .urgent) (by decide)
    rw [hu]
    simp only [State.queue] at h1 h3 ⊢
    rw [h1, List.length_drop]
    omega
  | urgent =>
    have hn : (s.skipTest .urgent).nq = s.nq := queue_skipTest_ne s (q := .urgent) (p := .normal) (by decide)
    rw [hn]
    simp only [State.queue] at h1 h3 ⊢
    rw [h1, List.length_drop]
    omega

/-- Testing a head for locks moves no command. -/
theorem count_blockedTest (s : State) (q : QueueId) :
    (s.blockedTest q).nq.entries.length + (s.blockedTest q).uq.entries.length + (s.blockedTest q).cq.length =
      s.nq.entries.length + s.uq.entries.length + s.cq.length := by
  rw [blockedTest_eq]
  cases q <;> rfl

theorem count_locksChanged (s : State) :
    s.locksChanged.nq.entries.length + s.locksChanged.uq.entries.length + s.locksChanged.cq.length =
      s.nq.entries.length + s.uq.entries.length + s.cq.length := by
  unfold State.locksChanged
  rw [refreshPreempt_nq, refreshPreempt_uq, refreshPreempt_cq, count_blockedTest, count_blockedTest]

theorem count_newHead (s : State) (q : QueueId) :
    (s.newHead q).nq.entries.length + (s.newHead q).uq.entries.length + (s.newHead q).cq.length =
      s.nq.entries.length + s.uq.entries.length + s.cq.length := by
  unfold State.newHead
  rw [count_blockedTest, count_skipTest, headGone_eq]
  cases q <;> rfl

/-- A posting adds one record (R133). -/
theorem count_postRecord (s : State) (rec : CompletionRecord) (notify : Bool) :
    (s.postRecord rec notify).nq.entries.length + (s.postRecord rec notify).uq.entries.length +
        (s.postRecord rec notify).cq.length =
      s.nq.entries.length + s.uq.entries.length + s.cq.length + 1 := by
  unfold State.postRecord
  split
  · rw [State.setLatch, count_skipTest, appendRecords_frame]
    cases rec.queue <;> simp [State.setQueue, State.raise, State.queue] <;> omega
  · rw [appendRecords_frame]
    simp
    omega

end Sys2Proof.Machine
end

