-- ==== Sys2Proof/Laws/Fields.lean ====
section
/-! SUPPORT. The fields that each shared operation leaves alone, one lemma per field, for simp: the operations of Ops.lean and
Flags.lean first, then those of Engine.lean. The fields an operation does change have lemmas in Ops, Flags and Engine. -/

namespace Sys2Proof.Machine

/-! ### A granted acquisition -/

@[simp] theorem takePages_resetN (s : State) (d : Nat) : (s.takePages d).resetN = s.resetN := rfl
@[simp] theorem takePages_dataOut (s : State) (d : Nat) : (s.takePages d).dataOut = s.dataOut := rfl
@[simp] theorem takePages_subw (s : State) (d : Nat) : (s.takePages d).subw = s.subw := rfl
@[simp] theorem takePages_tbdiv (s : State) (d : Nat) : (s.takePages d).tbdiv = s.tbdiv := rfl
@[simp] theorem takePages_timebaseLeft (s : State) (d : Nat) : (s.takePages d).timebaseLeft = s.timebaseLeft := rfl
@[simp] theorem takePages_inten (s : State) (d : Nat) : (s.takePages d).inten = s.inten := rfl
@[simp] theorem takePages_slots (s : State) (d : Nat) : (s.takePages d).slots = s.slots := rfl
@[simp] theorem takePages_reserve (s : State) (d : Nat) : (s.takePages d).reserve = s.reserve := rfl
@[simp] theorem takePages_slotsel (s : State) (d : Nat) : (s.takePages d).slotsel = s.slotsel := rfl
@[simp] theorem takePages_slotattr (s : State) (d : Nat) : (s.takePages d).slotattr = s.slotattr := rfl
@[simp] theorem takePages_nq (s : State) (d : Nat) : (s.takePages d).nq = s.nq := rfl
@[simp] theorem takePages_uq (s : State) (d : Nat) : (s.takePages d).uq = s.uq := rfl
@[simp] theorem takePages_credits (s : State) (d : Nat) : (s.takePages d).credits = s.credits := rfl
@[simp] theorem takePages_lastres (s : State) (d : Nat) : (s.takePages d).lastres = s.lastres := rfl
@[simp] theorem takePages_owner (s : State) (d : Nat) : (s.takePages d).owner = s.owner := rfl
@[simp] theorem takePages_preemptPending (s : State) (d : Nat) : (s.takePages d).preemptPending = s.preemptPending := rfl
@[simp] theorem takePages_stepRunning (s : State) (d : Nat) : (s.takePages d).stepRunning = s.stepRunning := rfl
@[simp] theorem takePages_contexts (s : State) (d : Nat) : (s.takePages d).contexts = s.contexts := rfl
@[simp] theorem takePages_urec (s : State) (d : Nat) : (s.takePages d).urec = s.urec := rfl
@[simp] theorem takePages_resumeList (s : State) (d : Nat) : (s.takePages d).resumeList = s.resumeList := rfl
@[simp] theorem takePages_ctxreq (s : State) (d : Nat) : (s.takePages d).ctxreq = s.ctxreq := rfl
@[simp] theorem takePages_ctxsel (s : State) (d : Nat) : (s.takePages d).ctxsel = s.ctxsel := rfl
@[simp] theorem takePages_cq (s : State) (d : Nat) : (s.takePages d).cq = s.cq := rfl
@[simp] theorem takePages_intstat (s : State) (d : Nat) : (s.takePages d).intstat = s.intstat := rfl
@[simp] theorem takePages_windows (s : State) (d : Nat) : (s.takePages d).windows = s.windows := rfl
@[simp] theorem takePages_pending (s : State) (d : Nat) : (s.takePages d).pending = s.pending := rfl
@[simp] theorem takePages_slot (s : State) (d : Nat) (i : SlotId) : (s.takePages d).slot i = s.slot i := by simp [State.slot]
@[simp] theorem takePages_record (s : State) (d : Nat) (r : Runner) : (s.takePages d).record r = s.record r := by cases r <;> simp [State.record]
@[simp] theorem takePages_queue (s : State) (d : Nat) (q : QueueId) : (s.takePages d).queue q = s.queue q := by cases q <;> simp [State.queue]
@[simp] theorem takePages_window (s : State) (d : Nat) (w : WindowId) : (s.takePages d).window w = s.window w := by simp [State.window]

/-! ### Taking locks -/

@[simp] theorem takeLocks_resetN (s : State) (h : Holder) (ds ss : List SlotField) : (s.takeLocks h ds ss).resetN = s.resetN := by rw [takeLocks_frame]
@[simp] theorem takeLocks_dataOut (s : State) (h : Holder) (ds ss : List SlotField) : (s.takeLocks h ds ss).dataOut = s.dataOut := by rw [takeLocks_frame]
@[simp] theorem takeLocks_subw (s : State) (h : Holder) (ds ss : List SlotField) : (s.takeLocks h ds ss).subw = s.subw := by rw [takeLocks_frame]
@[simp] theorem takeLocks_tbdiv (s : State) (h : Holder) (ds ss : List SlotField) : (s.takeLocks h ds ss).tbdiv = s.tbdiv := by rw [takeLocks_frame]
@[simp] theorem takeLocks_timebaseLeft (s : State) (h : Holder) (ds ss : List SlotField) : (s.takeLocks h ds ss).timebaseLeft = s.timebaseLeft := by rw [takeLocks_frame]
@[simp] theorem takeLocks_inten (s : State) (h : Holder) (ds ss : List SlotField) : (s.takeLocks h ds ss).inten = s.inten := by rw [takeLocks_frame]
@[simp] theorem takeLocks_mem (s : State) (h : Holder) (ds ss : List SlotField) : (s.takeLocks h ds ss).mem = s.mem := by rw [takeLocks_frame]
@[simp] theorem takeLocks_freeList (s : State) (h : Holder) (ds ss : List SlotField) : (s.takeLocks h ds ss).freeList = s.freeList := by rw [takeLocks_frame]
@[simp] theorem takeLocks_reserve (s : State) (h : Holder) (ds ss : List SlotField) : (s.takeLocks h ds ss).reserve = s.reserve := by rw [takeLocks_frame]
@[simp] theorem takeLocks_slotsel (s : State) (h : Holder) (ds ss : List SlotField) : (s.takeLocks h ds ss).slotsel = s.slotsel := by rw [takeLocks_frame]
@[simp] theorem takeLocks_slotattr (s : State) (h : Holder) (ds ss : List SlotField) : (s.takeLocks h ds ss).slotattr = s.slotattr := by rw [takeLocks_frame]
@[simp] theorem takeLocks_nq (s : State) (h : Holder) (ds ss : List SlotField) : (s.takeLocks h ds ss).nq = s.nq := by rw [takeLocks_frame]
@[simp] theorem takeLocks_uq (s : State) (h : Holder) (ds ss : List SlotField) : (s.takeLocks h ds ss).uq = s.uq := by rw [takeLocks_frame]
@[simp] theorem takeLocks_credits (s : State) (h : Holder) (ds ss : List SlotField) : (s.takeLocks h ds ss).credits = s.credits := by rw [takeLocks_frame]
@[simp] theorem takeLocks_lastres (s : State) (h : Holder) (ds ss : List SlotField) : (s.takeLocks h ds ss).lastres = s.lastres := by rw [takeLocks_frame]
@[simp] theorem takeLocks_owner (s : State) (h : Holder) (ds ss : List SlotField) : (s.takeLocks h ds ss).owner = s.owner := by rw [takeLocks_frame]
@[simp] theorem takeLocks_preemptPending (s : State) (h : Holder) (ds ss : List SlotField) : (s.takeLocks h ds ss).preemptPending = s.preemptPending := by rw [takeLocks_frame]
@[simp] theorem takeLocks_stepRunning (s : State) (h : Holder) (ds ss : List SlotField) : (s.takeLocks h ds ss).stepRunning = s.stepRunning := by rw [takeLocks_frame]
@[simp] theorem takeLocks_contexts (s : State) (h : Holder) (ds ss : List SlotField) : (s.takeLocks h ds ss).contexts = s.contexts := by rw [takeLocks_frame]
@[simp] theorem takeLocks_urec (s : State) (h : Holder) (ds ss : List SlotField) : (s.takeLocks h ds ss).urec = s.urec := by rw [takeLocks_frame]
@[simp] theorem takeLocks_resumeList (s : State) (h : Holder) (ds ss : List SlotField) : (s.takeLocks h ds ss).resumeList = s.resumeList := by rw [takeLocks_frame]
@[simp] theorem takeLocks_ctxreq (s : State) (h : Holder) (ds ss : List SlotField) : (s.takeLocks h ds ss).ctxreq = s.ctxreq := by rw [takeLocks_frame]
@[simp] theorem takeLocks_ctxsel (s : State) (h : Holder) (ds ss : List SlotField) : (s.takeLocks h ds ss).ctxsel = s.ctxsel := by rw [takeLocks_frame]
@[simp] theorem takeLocks_cq (s : State) (h : Holder) (ds ss : List SlotField) : (s.takeLocks h ds ss).cq = s.cq := by rw [takeLocks_frame]
@[simp] theorem takeLocks_intstat (s : State) (h : Holder) (ds ss : List SlotField) : (s.takeLocks h ds ss).intstat = s.intstat := by rw [takeLocks_frame]
@[simp] theorem takeLocks_windows (s : State) (h : Holder) (ds ss : List SlotField) : (s.takeLocks h ds ss).windows = s.windows := by rw [takeLocks_frame]
@[simp] theorem takeLocks_pending (s : State) (h : Holder) (ds ss : List SlotField) : (s.takeLocks h ds ss).pending = s.pending := by rw [takeLocks_frame]
@[simp] theorem takeLocks_record (s : State) (h : Holder) (ds ss : List SlotField) (r : Runner) : (s.takeLocks h ds ss).record r = s.record r := by cases r <;> simp [State.record]
@[simp] theorem takeLocks_queue (s : State) (h : Holder) (ds ss : List SlotField) (q : QueueId) : (s.takeLocks h ds ss).queue q = s.queue q := by cases q <;> simp [State.queue]
@[simp] theorem takeLocks_window (s : State) (h : Holder) (ds ss : List SlotField) (w : WindowId) : (s.takeLocks h ds ss).window w = s.window w := by simp [State.window]

/-! ### Releasing locks -/

@[simp] theorem releaseLocks_resetN (s : State) (h : Holder) : (s.releaseLocks h).resetN = s.resetN := rfl
@[simp] theorem releaseLocks_dataOut (s : State) (h : Holder) : (s.releaseLocks h).dataOut = s.dataOut := rfl
@[simp] theorem releaseLocks_subw (s : State) (h : Holder) : (s.releaseLocks h).subw = s.subw := rfl
@[simp] theorem releaseLocks_tbdiv (s : State) (h : Holder) : (s.releaseLocks h).tbdiv = s.tbdiv := rfl
@[simp] theorem releaseLocks_timebaseLeft (s : State) (h : Holder) : (s.releaseLocks h).timebaseLeft = s.timebaseLeft := rfl
@[simp] theorem releaseLocks_inten (s : State) (h : Holder) : (s.releaseLocks h).inten = s.inten := rfl
@[simp] theorem releaseLocks_mem (s : State) (h : Holder) : (s.releaseLocks h).mem = s.mem := rfl
@[simp] theorem releaseLocks_freeList (s : State) (h : Holder) : (s.releaseLocks h).freeList = s.freeList := rfl
@[simp] theorem releaseLocks_reserve (s : State) (h : Holder) : (s.releaseLocks h).reserve = s.reserve := rfl
@[simp] theorem releaseLocks_slotsel (s : State) (h : Holder) : (s.releaseLocks h).slotsel = s.slotsel := rfl
@[simp] theorem releaseLocks_slotattr (s : State) (h : Holder) : (s.releaseLocks h).slotattr = s.slotattr := rfl
@[simp] theorem releaseLocks_nq (s : State) (h : Holder) : (s.releaseLocks h).nq = s.nq := rfl
@[simp] theorem releaseLocks_uq (s : State) (h : Holder) : (s.releaseLocks h).uq = s.uq := rfl
@[simp] theorem releaseLocks_credits (s : State) (h : Holder) : (s.releaseLocks h).credits = s.credits := rfl
@[simp] theorem releaseLocks_lastres (s : State) (h : Holder) : (s.releaseLocks h).lastres = s.lastres := rfl
@[simp] theorem releaseLocks_owner (s : State) (h : Holder) : (s.releaseLocks h).owner = s.owner := rfl
@[simp] theorem releaseLocks_preemptPending (s : State) (h : Holder) : (s.releaseLocks h).preemptPending = s.preemptPending := rfl
@[simp] theorem releaseLocks_stepRunning (s : State) (h : Holder) : (s.releaseLocks h).stepRunning = s.stepRunning := rfl
@[simp] theorem releaseLocks_contexts (s : State) (h : Holder) : (s.releaseLocks h).contexts = s.contexts := rfl
@[simp] theorem releaseLocks_urec (s : State) (h : Holder) : (s.releaseLocks h).urec = s.urec := rfl
@[simp] theorem releaseLocks_resumeList (s : State) (h : Holder) : (s.releaseLocks h).resumeList = s.resumeList := rfl
@[simp] theorem releaseLocks_ctxreq (s : State) (h : Holder) : (s.releaseLocks h).ctxreq = s.ctxreq := rfl
@[simp] theorem releaseLocks_ctxsel (s : State) (h : Holder) : (s.releaseLocks h).ctxsel = s.ctxsel := rfl
@[simp] theorem releaseLocks_cq (s : State) (h : Holder) : (s.releaseLocks h).cq = s.cq := rfl
@[simp] theorem releaseLocks_intstat (s : State) (h : Holder) : (s.releaseLocks h).intstat = s.intstat := rfl
@[simp] theorem releaseLocks_windows (s : State) (h : Holder) : (s.releaseLocks h).windows = s.windows := rfl
@[simp] theorem releaseLocks_pending (s : State) (h : Holder) : (s.releaseLocks h).pending = s.pending := rfl
@[simp] theorem releaseLocks_record (s : State) (h : Holder) (r : Runner) : (s.releaseLocks h).record r = s.record r := by cases r <;> simp [State.record]
@[simp] theorem releaseLocks_queue (s : State) (h : Holder) (q : QueueId) : (s.releaseLocks h).queue q = s.queue q := by cases q <;> simp [State.queue]
@[simp] theorem releaseLocks_window (s : State) (h : Holder) (w : WindowId) : (s.releaseLocks h).window w = s.window w := by simp [State.window]

/-! ### A release of pages -/

@[simp] theorem release_resetN (s : State) (ps : List PageId) : (s.release ps).resetN = s.resetN := by rw [release_frame]
@[simp] theorem release_dataOut (s : State) (ps : List PageId) : (s.release ps).dataOut = s.dataOut := by rw [release_frame]
@[simp] theorem release_subw (s : State) (ps : List PageId) : (s.release ps).subw = s.subw := by rw [release_frame]
@[simp] theorem release_tbdiv (s : State) (ps : List PageId) : (s.release ps).tbdiv = s.tbdiv := by rw [release_frame]
@[simp] theorem release_timebaseLeft (s : State) (ps : List PageId) : (s.release ps).timebaseLeft = s.timebaseLeft := by rw [release_frame]
@[simp] theorem release_inten (s : State) (ps : List PageId) : (s.release ps).inten = s.inten := by rw [release_frame]
@[simp] theorem release_slots (s : State) (ps : List PageId) : (s.release ps).slots = s.slots := by rw [release_frame]
@[simp] theorem release_mem (s : State) (ps : List PageId) : (s.release ps).mem = s.mem := by rw [release_frame]
@[simp] theorem release_reserve (s : State) (ps : List PageId) : (s.release ps).reserve = s.reserve := by rw [release_frame]
@[simp] theorem release_slotsel (s : State) (ps : List PageId) : (s.release ps).slotsel = s.slotsel := by rw [release_frame]
@[simp] theorem release_slotattr (s : State) (ps : List PageId) : (s.release ps).slotattr = s.slotattr := by rw [release_frame]
@[simp] theorem release_nq (s : State) (ps : List PageId) : (s.release ps).nq = s.nq := by rw [release_frame]
@[simp] theorem release_uq (s : State) (ps : List PageId) : (s.release ps).uq = s.uq := by rw [release_frame]
@[simp] theorem release_credits (s : State) (ps : List PageId) : (s.release ps).credits = s.credits := by rw [release_frame]
@[simp] theorem release_lastres (s : State) (ps : List PageId) : (s.release ps).lastres = s.lastres := by rw [release_frame]
@[simp] theorem release_owner (s : State) (ps : List PageId) : (s.release ps).owner = s.owner := by rw [release_frame]
@[simp] theorem release_preemptPending (s : State) (ps : List PageId) : (s.release ps).preemptPending = s.preemptPending := by rw [release_frame]
@[simp] theorem release_stepRunning (s : State) (ps : List PageId) : (s.release ps).stepRunning = s.stepRunning := by rw [release_frame]
@[simp] theorem release_ctxreq (s : State) (ps : List PageId) : (s.release ps).ctxreq = s.ctxreq := by rw [release_frame]
@[simp] theorem release_ctxsel (s : State) (ps : List PageId) : (s.release ps).ctxsel = s.ctxsel := by rw [release_frame]
@[simp] theorem release_cq (s : State) (ps : List PageId) : (s.release ps).cq = s.cq := by rw [release_frame]
@[simp] theorem release_intstat (s : State) (ps : List PageId) : (s.release ps).intstat = s.intstat := by rw [release_frame]
@[simp] theorem release_windows (s : State) (ps : List PageId) : (s.release ps).windows = s.windows := by rw [release_frame]
@[simp] theorem release_pending (s : State) (ps : List PageId) : (s.release ps).pending = s.pending := by rw [release_frame]
@[simp] theorem release_slot (s : State) (ps : List PageId) (i : SlotId) : (s.release ps).slot i = s.slot i := by simp [State.slot]
@[simp] theorem release_queue (s : State) (ps : List PageId) (q : QueueId) : (s.release ps).queue q = s.queue q := by cases q <;> simp [State.queue]
@[simp] theorem release_window (s : State) (ps : List PageId) (w : WindowId) : (s.release ps).window w = s.window w := by simp [State.window]

/-! ### The wake event -/

@[simp] theorem wake_resetN (s : State) : (s.wake).resetN = s.resetN := by rw [wake_frame]
@[simp] theorem wake_dataOut (s : State) : (s.wake).dataOut = s.dataOut := by rw [wake_frame]
@[simp] theorem wake_subw (s : State) : (s.wake).subw = s.subw := by rw [wake_frame]
@[simp] theorem wake_tbdiv (s : State) : (s.wake).tbdiv = s.tbdiv := by rw [wake_frame]
@[simp] theorem wake_timebaseLeft (s : State) : (s.wake).timebaseLeft = s.timebaseLeft := by rw [wake_frame]
@[simp] theorem wake_inten (s : State) : (s.wake).inten = s.inten := by rw [wake_frame]
@[simp] theorem wake_slots (s : State) : (s.wake).slots = s.slots := by rw [wake_frame]
@[simp] theorem wake_mem (s : State) : (s.wake).mem = s.mem := by rw [wake_frame]
@[simp] theorem wake_freeList (s : State) : (s.wake).freeList = s.freeList := by rw [wake_frame]
@[simp] theorem wake_reserve (s : State) : (s.wake).reserve = s.reserve := by rw [wake_frame]
@[simp] theorem wake_slotsel (s : State) : (s.wake).slotsel = s.slotsel := by rw [wake_frame]
@[simp] theorem wake_slotattr (s : State) : (s.wake).slotattr = s.slotattr := by rw [wake_frame]
@[simp] theorem wake_nq (s : State) : (s.wake).nq = s.nq := by rw [wake_frame]
@[simp] theorem wake_uq (s : State) : (s.wake).uq = s.uq := by rw [wake_frame]
@[simp] theorem wake_credits (s : State) : (s.wake).credits = s.credits := by rw [wake_frame]
@[simp] theorem wake_lastres (s : State) : (s.wake).lastres = s.lastres := by rw [wake_frame]
@[simp] theorem wake_owner (s : State) : (s.wake).owner = s.owner := by rw [wake_frame]
@[simp] theorem wake_preemptPending (s : State) : (s.wake).preemptPending = s.preemptPending := by rw [wake_frame]
@[simp] theorem wake_stepRunning (s : State) : (s.wake).stepRunning = s.stepRunning := by rw [wake_frame]
@[simp] theorem wake_ctxreq (s : State) : (s.wake).ctxreq = s.ctxreq := by rw [wake_frame]
@[simp] theorem wake_ctxsel (s : State) : (s.wake).ctxsel = s.ctxsel := by rw [wake_frame]
@[simp] theorem wake_cq (s : State) : (s.wake).cq = s.cq := by rw [wake_frame]
@[simp] theorem wake_intstat (s : State) : (s.wake).intstat = s.intstat := by rw [wake_frame]
@[simp] theorem wake_windows (s : State) : (s.wake).windows = s.windows := by rw [wake_frame]
@[simp] theorem wake_pending (s : State) : (s.wake).pending = s.pending := by rw [wake_frame]
@[simp] theorem wake_slot (s : State) (i : SlotId) : (s.wake).slot i = s.slot i := by simp [State.slot]
@[simp] theorem wake_queue (s : State) (q : QueueId) : (s.wake).queue q = s.queue q := by cases q <;> simp [State.queue]
@[simp] theorem wake_window (s : State) (w : WindowId) : (s.wake).window w = s.window w := by simp [State.window]

/-! ### Waking one context -/

@[simp] theorem wakeContext_resetN (s : State) (n : CtxId) : (s.wakeContext n).resetN = s.resetN := by rw [wakeContext_frame]
@[simp] theorem wakeContext_dataOut (s : State) (n : CtxId) : (s.wakeContext n).dataOut = s.dataOut := by rw [wakeContext_frame]
@[simp] theorem wakeContext_subw (s : State) (n : CtxId) : (s.wakeContext n).subw = s.subw := by rw [wakeContext_frame]
@[simp] theorem wakeContext_tbdiv (s : State) (n : CtxId) : (s.wakeContext n).tbdiv = s.tbdiv := by rw [wakeContext_frame]
@[simp] theorem wakeContext_timebaseLeft (s : State) (n : CtxId) : (s.wakeContext n).timebaseLeft = s.timebaseLeft := by rw [wakeContext_frame]
@[simp] theorem wakeContext_inten (s : State) (n : CtxId) : (s.wakeContext n).inten = s.inten := by rw [wakeContext_frame]
@[simp] theorem wakeContext_slots (s : State) (n : CtxId) : (s.wakeContext n).slots = s.slots := by rw [wakeContext_frame]
@[simp] theorem wakeContext_mem (s : State) (n : CtxId) : (s.wakeContext n).mem = s.mem := by rw [wakeContext_frame]
@[simp] theorem wakeContext_freeList (s : State) (n : CtxId) : (s.wakeContext n).freeList = s.freeList := by rw [wakeContext_frame]
@[simp] theorem wakeContext_reserve (s : State) (n : CtxId) : (s.wakeContext n).reserve = s.reserve := by rw [wakeContext_frame]
@[simp] theorem wakeContext_slotsel (s : State) (n : CtxId) : (s.wakeContext n).slotsel = s.slotsel := by rw [wakeContext_frame]
@[simp] theorem wakeContext_slotattr (s : State) (n : CtxId) : (s.wakeContext n).slotattr = s.slotattr := by rw [wakeContext_frame]
@[simp] theorem wakeContext_nq (s : State) (n : CtxId) : (s.wakeContext n).nq = s.nq := by rw [wakeContext_frame]
@[simp] theorem wakeContext_uq (s : State) (n : CtxId) : (s.wakeContext n).uq = s.uq := by rw [wakeContext_frame]
@[simp] theorem wakeContext_credits (s : State) (n : CtxId) : (s.wakeContext n).credits = s.credits := by rw [wakeContext_frame]
@[simp] theorem wakeContext_lastres (s : State) (n : CtxId) : (s.wakeContext n).lastres = s.lastres := by rw [wakeContext_frame]
@[simp] theorem wakeContext_owner (s : State) (n : CtxId) : (s.wakeContext n).owner = s.owner := by rw [wakeContext_frame]
@[simp] theorem wakeContext_preemptPending (s : State) (n : CtxId) : (s.wakeContext n).preemptPending = s.preemptPending := by rw [wakeContext_frame]
@[simp] theorem wakeContext_stepRunning (s : State) (n : CtxId) : (s.wakeContext n).stepRunning = s.stepRunning := by rw [wakeContext_frame]
@[simp] theorem wakeContext_urec (s : State) (n : CtxId) : (s.wakeContext n).urec = s.urec := by rw [wakeContext_frame]
@[simp] theorem wakeContext_ctxreq (s : State) (n : CtxId) : (s.wakeContext n).ctxreq = s.ctxreq := by rw [wakeContext_frame]
@[simp] theorem wakeContext_ctxsel (s : State) (n : CtxId) : (s.wakeContext n).ctxsel = s.ctxsel := by rw [wakeContext_frame]
@[simp] theorem wakeContext_cq (s : State) (n : CtxId) : (s.wakeContext n).cq = s.cq := by rw [wakeContext_frame]
@[simp] theorem wakeContext_intstat (s : State) (n : CtxId) : (s.wakeContext n).intstat = s.intstat := by rw [wakeContext_frame]
@[simp] theorem wakeContext_windows (s : State) (n : CtxId) : (s.wakeContext n).windows = s.windows := by rw [wakeContext_frame]
@[simp] theorem wakeContext_pending (s : State) (n : CtxId) : (s.wakeContext n).pending = s.pending := by rw [wakeContext_frame]
@[simp] theorem wakeContext_slot (s : State) (n : CtxId) (i : SlotId) : (s.wakeContext n).slot i = s.slot i := by simp [State.slot]
@[simp] theorem wakeContext_queue (s : State) (n : CtxId) (q : QueueId) : (s.wakeContext n).queue q = s.queue q := by cases q <;> simp [State.queue]
@[simp] theorem wakeContext_window (s : State) (n : CtxId) (w : WindowId) : (s.wakeContext n).window w = s.window w := by simp [State.window]

/-! ### The blocked test -/

@[simp] theorem blockedTest_resetN (s : State) (q : QueueId) : (s.blockedTest q).resetN = s.resetN := by simp [blockedTest_eq]
@[simp] theorem blockedTest_dataOut (s : State) (q : QueueId) : (s.blockedTest q).dataOut = s.dataOut := by simp [blockedTest_eq]
@[simp] theorem blockedTest_subw (s : State) (q : QueueId) : (s.blockedTest q).subw = s.subw := by simp [blockedTest_eq]
@[simp] theorem blockedTest_tbdiv (s : State) (q : QueueId) : (s.blockedTest q).tbdiv = s.tbdiv := by simp [blockedTest_eq]
@[simp] theorem blockedTest_timebaseLeft (s : State) (q : QueueId) : (s.blockedTest q).timebaseLeft = s.timebaseLeft := by simp [blockedTest_eq]
@[simp] theorem blockedTest_inten (s : State) (q : QueueId) : (s.blockedTest q).inten = s.inten := by simp [blockedTest_eq]
@[simp] theorem blockedTest_slots (s : State) (q : QueueId) : (s.blockedTest q).slots = s.slots := by simp [blockedTest_eq]
@[simp] theorem blockedTest_mem (s : State) (q : QueueId) : (s.blockedTest q).mem = s.mem := by simp [blockedTest_eq]
@[simp] theorem blockedTest_freeList (s : State) (q : QueueId) : (s.blockedTest q).freeList = s.freeList := by simp [blockedTest_eq]
@[simp] theorem blockedTest_reserve (s : State) (q : QueueId) : (s.blockedTest q).reserve = s.reserve := by simp [blockedTest_eq]
@[simp] theorem blockedTest_slotsel (s : State) (q : QueueId) : (s.blockedTest q).slotsel = s.slotsel := by simp [blockedTest_eq]
@[simp] theorem blockedTest_slotattr (s : State) (q : QueueId) : (s.blockedTest q).slotattr = s.slotattr := by simp [blockedTest_eq]
@[simp] theorem blockedTest_credits (s : State) (q : QueueId) : (s.blockedTest q).credits = s.credits := by simp [blockedTest_eq]
@[simp] theorem blockedTest_lastres (s : State) (q : QueueId) : (s.blockedTest q).lastres = s.lastres := by simp [blockedTest_eq]
@[simp] theorem blockedTest_owner (s : State) (q : QueueId) : (s.blockedTest q).owner = s.owner := by simp [blockedTest_eq]
@[simp] theorem blockedTest_preemptPending (s : State) (q : QueueId) : (s.blockedTest q).preemptPending = s.preemptPending := by simp [blockedTest_eq]
@[simp] theorem blockedTest_stepRunning (s : State) (q : QueueId) : (s.blockedTest q).stepRunning = s.stepRunning := by simp [blockedTest_eq]
@[simp] theorem blockedTest_contexts (s : State) (q : QueueId) : (s.blockedTest q).contexts = s.contexts := by simp [blockedTest_eq]
@[simp] theorem blockedTest_urec (s : State) (q : QueueId) : (s.blockedTest q).urec = s.urec := by simp [blockedTest_eq]
@[simp] theorem blockedTest_resumeList (s : State) (q : QueueId) : (s.blockedTest q).resumeList = s.resumeList := by simp [blockedTest_eq]
@[simp] theorem blockedTest_ctxreq (s : State) (q : QueueId) : (s.blockedTest q).ctxreq = s.ctxreq := by simp [blockedTest_eq]
@[simp] theorem blockedTest_ctxsel (s : State) (q : QueueId) : (s.blockedTest q).ctxsel = s.ctxsel := by simp [blockedTest_eq]
@[simp] theorem blockedTest_cq (s : State) (q : QueueId) : (s.blockedTest q).cq = s.cq := by simp [blockedTest_eq]
@[simp] theorem blockedTest_intstat (s : State) (q : QueueId) : (s.blockedTest q).intstat = s.intstat := by simp [blockedTest_eq]
@[simp] theorem blockedTest_windows (s : State) (q : QueueId) : (s.blockedTest q).windows = s.windows := by simp [blockedTest_eq]
@[simp] theorem blockedTest_pending (s : State) (q : QueueId) : (s.blockedTest q).pending = s.pending := by simp [blockedTest_eq]
@[simp] theorem blockedTest_slot (s : State) (q : QueueId) (i : SlotId) : (s.blockedTest q).slot i = s.slot i := by simp [State.slot]
@[simp] theorem blockedTest_record (s : State) (q : QueueId) (r : Runner) : (s.blockedTest q).record r = s.record r := by cases r <;> simp [State.record]
@[simp] theorem blockedTest_window (s : State) (q : QueueId) (w : WindowId) : (s.blockedTest q).window w = s.window w := by simp [State.window]

/-! ### A head that has left -/

@[simp] theorem headGone_resetN (s : State) (q : QueueId) : (s.headGone q).resetN = s.resetN := by simp [headGone_eq]
@[simp] theorem headGone_dataOut (s : State) (q : QueueId) : (s.headGone q).dataOut = s.dataOut := by simp [headGone_eq]
@[simp] theorem headGone_subw (s : State) (q : QueueId) : (s.headGone q).subw = s.subw := by simp [headGone_eq]
@[simp] theorem headGone_tbdiv (s : State) (q : QueueId) : (s.headGone q).tbdiv = s.tbdiv := by simp [headGone_eq]
@[simp] theorem headGone_timebaseLeft (s : State) (q : QueueId) : (s.headGone q).timebaseLeft = s.timebaseLeft := by simp [headGone_eq]
@[simp] theorem headGone_inten (s : State) (q : QueueId) : (s.headGone q).inten = s.inten := by simp [headGone_eq]
@[simp] theorem headGone_slots (s : State) (q : QueueId) : (s.headGone q).slots = s.slots := by simp [headGone_eq]
@[simp] theorem headGone_mem (s : State) (q : QueueId) : (s.headGone q).mem = s.mem := by simp [headGone_eq]
@[simp] theorem headGone_freeList (s : State) (q : QueueId) : (s.headGone q).freeList = s.freeList := by simp [headGone_eq]
@[simp] theorem headGone_reserve (s : State) (q : QueueId) : (s.headGone q).reserve = s.reserve := by simp [headGone_eq]
@[simp] theorem headGone_slotsel (s : State) (q : QueueId) : (s.headGone q).slotsel = s.slotsel := by simp [headGone_eq]
@[simp] theorem headGone_slotattr (s : State) (q : QueueId) : (s.headGone q).slotattr = s.slotattr := by simp [headGone_eq]
@[simp] theorem headGone_credits (s : State) (q : QueueId) : (s.headGone q).credits = s.credits := by simp [headGone_eq]
@[simp] theorem headGone_lastres (s : State) (q : QueueId) : (s.headGone q).lastres = s.lastres := by simp [headGone_eq]
@[simp] theorem headGone_owner (s : State) (q : QueueId) : (s.headGone q).owner = s.owner := by simp [headGone_eq]
@[simp] theorem headGone_preemptPending (s : State) (q : QueueId) : (s.headGone q).preemptPending = s.preemptPending := by simp [headGone_eq]
@[simp] theorem headGone_stepRunning (s : State) (q : QueueId) : (s.headGone q).stepRunning = s.stepRunning := by simp [headGone_eq]
@[simp] theorem headGone_contexts (s : State) (q : QueueId) : (s.headGone q).contexts = s.contexts := by simp [headGone_eq]
@[simp] theorem headGone_urec (s : State) (q : QueueId) : (s.headGone q).urec = s.urec := by simp [headGone_eq]
@[simp] theorem headGone_resumeList (s : State) (q : QueueId) : (s.headGone q).resumeList = s.resumeList := by simp [headGone_eq]
@[simp] theorem headGone_ctxreq (s : State) (q : QueueId) : (s.headGone q).ctxreq = s.ctxreq := by simp [headGone_eq]
@[simp] theorem headGone_ctxsel (s : State) (q : QueueId) : (s.headGone q).ctxsel = s.ctxsel := by simp [headGone_eq]
@[simp] theorem headGone_cq (s : State) (q : QueueId) : (s.headGone q).cq = s.cq := by simp [headGone_eq]
@[simp] theorem headGone_intstat (s : State) (q : QueueId) : (s.headGone q).intstat = s.intstat := by simp [headGone_eq]
@[simp] theorem headGone_windows (s : State) (q : QueueId) : (s.headGone q).windows = s.windows := by simp [headGone_eq]
@[simp] theorem headGone_pending (s : State) (q : QueueId) : (s.headGone q).pending = s.pending := by simp [headGone_eq]
@[simp] theorem headGone_slot (s : State) (q : QueueId) (i : SlotId) : (s.headGone q).slot i = s.slot i := by simp [State.slot]
@[simp] theorem headGone_record (s : State) (q : QueueId) (r : Runner) : (s.headGone q).record r = s.record r := by cases r <;> simp [State.record]
@[simp] theorem headGone_window (s : State) (q : QueueId) (w : WindowId) : (s.headGone q).window w = s.window w := by simp [State.window]

/-! ### Removing a head -/

@[simp] theorem dropHead_resetN (s : State) (q : QueueId) : (s.dropHead q).resetN = s.resetN := by simp [dropHead_eq]
@[simp] theorem dropHead_dataOut (s : State) (q : QueueId) : (s.dropHead q).dataOut = s.dataOut := by simp [dropHead_eq]
@[simp] theorem dropHead_subw (s : State) (q : QueueId) : (s.dropHead q).subw = s.subw := by simp [dropHead_eq]
@[simp] theorem dropHead_tbdiv (s : State) (q : QueueId) : (s.dropHead q).tbdiv = s.tbdiv := by simp [dropHead_eq]
@[simp] theorem dropHead_timebaseLeft (s : State) (q : QueueId) : (s.dropHead q).timebaseLeft = s.timebaseLeft := by simp [dropHead_eq]
@[simp] theorem dropHead_inten (s : State) (q : QueueId) : (s.dropHead q).inten = s.inten := by simp [dropHead_eq]
@[simp] theorem dropHead_slots (s : State) (q : QueueId) : (s.dropHead q).slots = s.slots := by simp [dropHead_eq]
@[simp] theorem dropHead_mem (s : State) (q : QueueId) : (s.dropHead q).mem = s.mem := by simp [dropHead_eq]
@[simp] theorem dropHead_freeList (s : State) (q : QueueId) : (s.dropHead q).freeList = s.freeList := by simp [dropHead_eq]
@[simp] theorem dropHead_reserve (s : State) (q : QueueId) : (s.dropHead q).reserve = s.reserve := by simp [dropHead_eq]
@[simp] theorem dropHead_slotsel (s : State) (q : QueueId) : (s.dropHead q).slotsel = s.slotsel := by simp [dropHead_eq]
@[simp] theorem dropHead_slotattr (s : State) (q : QueueId) : (s.dropHead q).slotattr = s.slotattr := by simp [dropHead_eq]
@[simp] theorem dropHead_credits (s : State) (q : QueueId) : (s.dropHead q).credits = s.credits := by simp [dropHead_eq]
@[simp] theorem dropHead_lastres (s : State) (q : QueueId) : (s.dropHead q).lastres = s.lastres := by simp [dropHead_eq]
@[simp] theorem dropHead_owner (s : State) (q : QueueId) : (s.dropHead q).owner = s.owner := by simp [dropHead_eq]
@[simp] theorem dropHead_preemptPending (s : State) (q : QueueId) : (s.dropHead q).preemptPending = s.preemptPending := by simp [dropHead_eq]
@[simp] theorem dropHead_stepRunning (s : State) (q : QueueId) : (s.dropHead q).stepRunning = s.stepRunning := by simp [dropHead_eq]
@[simp] theorem dropHead_contexts (s : State) (q : QueueId) : (s.dropHead q).contexts = s.contexts := by simp [dropHead_eq]
@[simp] theorem dropHead_urec (s : State) (q : QueueId) : (s.dropHead q).urec = s.urec := by simp [dropHead_eq]
@[simp] theorem dropHead_resumeList (s : State) (q : QueueId) : (s.dropHead q).resumeList = s.resumeList := by simp [dropHead_eq]
@[simp] theorem dropHead_ctxreq (s : State) (q : QueueId) : (s.dropHead q).ctxreq = s.ctxreq := by simp [dropHead_eq]
@[simp] theorem dropHead_ctxsel (s : State) (q : QueueId) : (s.dropHead q).ctxsel = s.ctxsel := by simp [dropHead_eq]
@[simp] theorem dropHead_cq (s : State) (q : QueueId) : (s.dropHead q).cq = s.cq := by simp [dropHead_eq]
@[simp] theorem dropHead_intstat (s : State) (q : QueueId) : (s.dropHead q).intstat = s.intstat := by simp [dropHead_eq]
@[simp] theorem dropHead_windows (s : State) (q : QueueId) : (s.dropHead q).windows = s.windows := by simp [dropHead_eq]
@[simp] theorem dropHead_pending (s : State) (q : QueueId) : (s.dropHead q).pending = s.pending := by simp [dropHead_eq]
@[simp] theorem dropHead_slot (s : State) (q : QueueId) (i : SlotId) : (s.dropHead q).slot i = s.slot i := by simp [State.slot]
@[simp] theorem dropHead_record (s : State) (q : QueueId) (r : Runner) : (s.dropHead q).record r = s.record r := by cases r <;> simp [State.record]
@[simp] theorem dropHead_window (s : State) (q : QueueId) (w : WindowId) : (s.dropHead q).window w = s.window w := by simp [State.window]

/-! ### The notices of a lock change -/

@[simp] theorem locksChanged_resetN (s : State) : (s.locksChanged).resetN = s.resetN := by simp [State.locksChanged]
@[simp] theorem locksChanged_dataOut (s : State) : (s.locksChanged).dataOut = s.dataOut := by simp [State.locksChanged]
@[simp] theorem locksChanged_subw (s : State) : (s.locksChanged).subw = s.subw := by simp [State.locksChanged]
@[simp] theorem locksChanged_tbdiv (s : State) : (s.locksChanged).tbdiv = s.tbdiv := by simp [State.locksChanged]
@[simp] theorem locksChanged_timebaseLeft (s : State) : (s.locksChanged).timebaseLeft = s.timebaseLeft := by simp [State.locksChanged]
@[simp] theorem locksChanged_inten (s : State) : (s.locksChanged).inten = s.inten := by simp [State.locksChanged]
@[simp] theorem locksChanged_slots (s : State) : (s.locksChanged).slots = s.slots := by simp [State.locksChanged]
@[simp] theorem locksChanged_mem (s : State) : (s.locksChanged).mem = s.mem := by simp [State.locksChanged]
@[simp] theorem locksChanged_freeList (s : State) : (s.locksChanged).freeList = s.freeList := by simp [State.locksChanged]
@[simp] theorem locksChanged_reserve (s : State) : (s.locksChanged).reserve = s.reserve := by simp [State.locksChanged]
@[simp] theorem locksChanged_slotsel (s : State) : (s.locksChanged).slotsel = s.slotsel := by simp [State.locksChanged]
@[simp] theorem locksChanged_slotattr (s : State) : (s.locksChanged).slotattr = s.slotattr := by simp [State.locksChanged]
@[simp] theorem locksChanged_credits (s : State) : (s.locksChanged).credits = s.credits := by simp [State.locksChanged]
@[simp] theorem locksChanged_lastres (s : State) : (s.locksChanged).lastres = s.lastres := by simp [State.locksChanged]
@[simp] theorem locksChanged_owner (s : State) : (s.locksChanged).owner = s.owner := by simp [State.locksChanged]
@[simp] theorem locksChanged_stepRunning (s : State) : (s.locksChanged).stepRunning = s.stepRunning := by simp [State.locksChanged]
@[simp] theorem locksChanged_contexts (s : State) : (s.locksChanged).contexts = s.contexts := by simp [State.locksChanged]
@[simp] theorem locksChanged_urec (s : State) : (s.locksChanged).urec = s.urec := by simp [State.locksChanged]
@[simp] theorem locksChanged_resumeList (s : State) : (s.locksChanged).resumeList = s.resumeList := by simp [State.locksChanged]
@[simp] theorem locksChanged_ctxreq (s : State) : (s.locksChanged).ctxreq = s.ctxreq := by simp [State.locksChanged]
@[simp] theorem locksChanged_ctxsel (s : State) : (s.locksChanged).ctxsel = s.ctxsel := by simp [State.locksChanged]
@[simp] theorem locksChanged_cq (s : State) : (s.locksChanged).cq = s.cq := by simp [State.locksChanged]
@[simp] theorem locksChanged_intstat (s : State) : (s.locksChanged).intstat = s.intstat := by simp [State.locksChanged]
@[simp] theorem locksChanged_windows (s : State) : (s.locksChanged).windows = s.windows := by simp [State.locksChanged]
@[simp] theorem locksChanged_pending (s : State) : (s.locksChanged).pending = s.pending := by simp [State.locksChanged]
@[simp] theorem locksChanged_slot (s : State) (i : SlotId) : (s.locksChanged).slot i = s.slot i := by simp [State.slot]
@[simp] theorem locksChanged_record (s : State) (r : Runner) : (s.locksChanged).record r = s.record r := by cases r <;> simp [State.record]
@[simp] theorem locksChanged_window (s : State) (w : WindowId) : (s.locksChanged).window w = s.window w := by simp [State.window]

/-! ### Appending completion records -/

@[simp] theorem appendRecords_resetN (s : State) (rs : List CompletionRecord) (notify : Bool) : (s.appendRecords rs notify).resetN = s.resetN := by cases notify <;> rfl
@[simp] theorem appendRecords_dataOut (s : State) (rs : List CompletionRecord) (notify : Bool) : (s.appendRecords rs notify).dataOut = s.dataOut := by cases notify <;> rfl
@[simp] theorem appendRecords_subw (s : State) (rs : List CompletionRecord) (notify : Bool) : (s.appendRecords rs notify).subw = s.subw := by cases notify <;> rfl
@[simp] theorem appendRecords_tbdiv (s : State) (rs : List CompletionRecord) (notify : Bool) : (s.appendRecords rs notify).tbdiv = s.tbdiv := by cases notify <;> rfl
@[simp] theorem appendRecords_timebaseLeft (s : State) (rs : List CompletionRecord) (notify : Bool) : (s.appendRecords rs notify).timebaseLeft = s.timebaseLeft := by cases notify <;> rfl
@[simp] theorem appendRecords_inten (s : State) (rs : List CompletionRecord) (notify : Bool) : (s.appendRecords rs notify).inten = s.inten := by cases notify <;> rfl
@[simp] theorem appendRecords_slots (s : State) (rs : List CompletionRecord) (notify : Bool) : (s.appendRecords rs notify).slots = s.slots := by cases notify <;> rfl
@[simp] theorem appendRecords_mem (s : State) (rs : List CompletionRecord) (notify : Bool) : (s.appendRecords rs notify).mem = s.mem := by cases notify <;> rfl
@[simp] theorem appendRecords_freeList (s : State) (rs : List CompletionRecord) (notify : Bool) : (s.appendRecords rs notify).freeList = s.freeList := by cases notify <;> rfl
@[simp] theorem appendRecords_reserve (s : State) (rs : List CompletionRecord) (notify : Bool) : (s.appendRecords rs notify).reserve = s.reserve := by cases notify <;> rfl
@[simp] theorem appendRecords_slotsel (s : State) (rs : List CompletionRecord) (notify : Bool) : (s.appendRecords rs notify).slotsel = s.slotsel := by cases notify <;> rfl
@[simp] theorem appendRecords_slotattr (s : State) (rs : List CompletionRecord) (notify : Bool) : (s.appendRecords rs notify).slotattr = s.slotattr := by cases notify <;> rfl
@[simp] theorem appendRecords_nq (s : State) (rs : List CompletionRecord) (notify : Bool) : (s.appendRecords rs notify).nq = s.nq := by cases notify <;> rfl
@[simp] theorem appendRecords_uq (s : State) (rs : List CompletionRecord) (notify : Bool) : (s.appendRecords rs notify).uq = s.uq := by cases notify <;> rfl
@[simp] theorem appendRecords_credits (s : State) (rs : List CompletionRecord) (notify : Bool) : (s.appendRecords rs notify).credits = s.credits := by cases notify <;> rfl
@[simp] theorem appendRecords_lastres (s : State) (rs : List CompletionRecord) (notify : Bool) : (s.appendRecords rs notify).lastres = s.lastres := by cases notify <;> rfl
@[simp] theorem appendRecords_owner (s : State) (rs : List CompletionRecord) (notify : Bool) : (s.appendRecords rs notify).owner = s.owner := by cases notify <;> rfl
@[simp] theorem appendRecords_preemptPending (s : State) (rs : List CompletionRecord) (notify : Bool) : (s.appendRecords rs notify).preemptPending = s.preemptPending := by cases notify <;> rfl
@[simp] theorem appendRecords_stepRunning (s : State) (rs : List CompletionRecord) (notify : Bool) : (s.appendRecords rs notify).stepRunning = s.stepRunning := by cases notify <;> rfl
@[simp] theorem appendRecords_contexts (s : State) (rs : List CompletionRecord) (notify : Bool) : (s.appendRecords rs notify).contexts = s.contexts := by cases notify <;> rfl
@[simp] theorem appendRecords_urec (s : State) (rs : List CompletionRecord) (notify : Bool) : (s.appendRecords rs notify).urec = s.urec := by cases notify <;> rfl
@[simp] theorem appendRecords_resumeList (s : State) (rs : List CompletionRecord) (notify : Bool) : (s.appendRecords rs notify).resumeList = s.resumeList := by cases notify <;> rfl
@[simp] theorem appendRecords_ctxreq (s : State) (rs : List CompletionRecord) (notify : Bool) : (s.appendRecords rs notify).ctxreq = s.ctxreq := by cases notify <;> rfl
@[simp] theorem appendRecords_ctxsel (s : State) (rs : List CompletionRecord) (notify : Bool) : (s.appendRecords rs notify).ctxsel = s.ctxsel := by cases notify <;> rfl
@[simp] theorem appendRecords_windows (s : State) (rs : List CompletionRecord) (notify : Bool) : (s.appendRecords rs notify).windows = s.windows := by cases notify <;> rfl
@[simp] theorem appendRecords_pending (s : State) (rs : List CompletionRecord) (notify : Bool) : (s.appendRecords rs notify).pending = s.pending := by cases notify <;> rfl
@[simp] theorem appendRecords_slot (s : State) (rs : List CompletionRecord) (notify : Bool) (i : SlotId) : (s.appendRecords rs notify).slot i = s.slot i := by simp [State.slot]
@[simp] theorem appendRecords_record (s : State) (rs : List CompletionRecord) (notify : Bool) (r : Runner) : (s.appendRecords rs notify).record r = s.record r := by cases r <;> simp [State.record]
@[simp] theorem appendRecords_queue (s : State) (rs : List CompletionRecord) (notify : Bool) (q : QueueId) : (s.appendRecords rs notify).queue q = s.queue q := by cases q <;> simp [State.queue]
@[simp] theorem appendRecords_window (s : State) (rs : List CompletionRecord) (notify : Bool) (w : WindowId) : (s.appendRecords rs notify).window w = s.window w := by simp [State.window]

/-! ### The skip test -/

@[simp] theorem skipTest_resetN (s : State) (q : QueueId) : (s.skipTest q).resetN = s.resetN := by rw [skipTest_frame]
@[simp] theorem skipTest_dataOut (s : State) (q : QueueId) : (s.skipTest q).dataOut = s.dataOut := by rw [skipTest_frame]
@[simp] theorem skipTest_subw (s : State) (q : QueueId) : (s.skipTest q).subw = s.subw := by rw [skipTest_frame]
@[simp] theorem skipTest_tbdiv (s : State) (q : QueueId) : (s.skipTest q).tbdiv = s.tbdiv := by rw [skipTest_frame]
@[simp] theorem skipTest_timebaseLeft (s : State) (q : QueueId) : (s.skipTest q).timebaseLeft = s.timebaseLeft := by rw [skipTest_frame]
@[simp] theorem skipTest_inten (s : State) (q : QueueId) : (s.skipTest q).inten = s.inten := by rw [skipTest_frame]
@[simp] theorem skipTest_slots (s : State) (q : QueueId) : (s.skipTest q).slots = s.slots := by rw [skipTest_frame]
@[simp] theorem skipTest_mem (s : State) (q : QueueId) : (s.skipTest q).mem = s.mem := by rw [skipTest_frame]
@[simp] theorem skipTest_freeList (s : State) (q : QueueId) : (s.skipTest q).freeList = s.freeList := by rw [skipTest_frame]
@[simp] theorem skipTest_reserve (s : State) (q : QueueId) : (s.skipTest q).reserve = s.reserve := by rw [skipTest_frame]
@[simp] theorem skipTest_slotsel (s : State) (q : QueueId) : (s.skipTest q).slotsel = s.slotsel := by rw [skipTest_frame]
@[simp] theorem skipTest_slotattr (s : State) (q : QueueId) : (s.skipTest q).slotattr = s.slotattr := by rw [skipTest_frame]
@[simp] theorem skipTest_credits (s : State) (q : QueueId) : (s.skipTest q).credits = s.credits := by rw [skipTest_frame]
@[simp] theorem skipTest_lastres (s : State) (q : QueueId) : (s.skipTest q).lastres = s.lastres := by rw [skipTest_frame]
@[simp] theorem skipTest_owner (s : State) (q : QueueId) : (s.skipTest q).owner = s.owner := by rw [skipTest_frame]
@[simp] theorem skipTest_preemptPending (s : State) (q : QueueId) : (s.skipTest q).preemptPending = s.preemptPending := by rw [skipTest_frame]
@[simp] theorem skipTest_stepRunning (s : State) (q : QueueId) : (s.skipTest q).stepRunning = s.stepRunning := by rw [skipTest_frame]
@[simp] theorem skipTest_contexts (s : State) (q : QueueId) : (s.skipTest q).contexts = s.contexts := by rw [skipTest_frame]
@[simp] theorem skipTest_urec (s : State) (q : QueueId) : (s.skipTest q).urec = s.urec := by rw [skipTest_frame]
@[simp] theorem skipTest_resumeList (s : State) (q : QueueId) : (s.skipTest q).resumeList = s.resumeList := by rw [skipTest_frame]
@[simp] theorem skipTest_ctxreq (s : State) (q : QueueId) : (s.skipTest q).ctxreq = s.ctxreq := by rw [skipTest_frame]
@[simp] theorem skipTest_ctxsel (s : State) (q : QueueId) : (s.skipTest q).ctxsel = s.ctxsel := by rw [skipTest_frame]
@[simp] theorem skipTest_windows (s : State) (q : QueueId) : (s.skipTest q).windows = s.windows := by rw [skipTest_frame]
@[simp] theorem skipTest_pending (s : State) (q : QueueId) : (s.skipTest q).pending = s.pending := by rw [skipTest_frame]
@[simp] theorem skipTest_slot (s : State) (q : QueueId) (i : SlotId) : (s.skipTest q).slot i = s.slot i := by simp [State.slot]
@[simp] theorem skipTest_record (s : State) (q : QueueId) (r : Runner) : (s.skipTest q).record r = s.record r := by cases r <;> simp [State.record]
@[simp] theorem skipTest_window (s : State) (q : QueueId) (w : WindowId) : (s.skipTest q).window w = s.window w := by simp [State.window]

/-! ### A new head -/

@[simp] theorem newHead_resetN (s : State) (q : QueueId) : (s.newHead q).resetN = s.resetN := by simp [State.newHead]
@[simp] theorem newHead_dataOut (s : State) (q : QueueId) : (s.newHead q).dataOut = s.dataOut := by simp [State.newHead]
@[simp] theorem newHead_subw (s : State) (q : QueueId) : (s.newHead q).subw = s.subw := by simp [State.newHead]
@[simp] theorem newHead_tbdiv (s : State) (q : QueueId) : (s.newHead q).tbdiv = s.tbdiv := by simp [State.newHead]
@[simp] theorem newHead_timebaseLeft (s : State) (q : QueueId) : (s.newHead q).timebaseLeft = s.timebaseLeft := by simp [State.newHead]
@[simp] theorem newHead_inten (s : State) (q : QueueId) : (s.newHead q).inten = s.inten := by simp [State.newHead]
@[simp] theorem newHead_slots (s : State) (q : QueueId) : (s.newHead q).slots = s.slots := by simp [State.newHead]
@[simp] theorem newHead_mem (s : State) (q : QueueId) : (s.newHead q).mem = s.mem := by simp [State.newHead]
@[simp] theorem newHead_freeList (s : State) (q : QueueId) : (s.newHead q).freeList = s.freeList := by simp [State.newHead]
@[simp] theorem newHead_reserve (s : State) (q : QueueId) : (s.newHead q).reserve = s.reserve := by simp [State.newHead]
@[simp] theorem newHead_slotsel (s : State) (q : QueueId) : (s.newHead q).slotsel = s.slotsel := by simp [State.newHead]
@[simp] theorem newHead_slotattr (s : State) (q : QueueId) : (s.newHead q).slotattr = s.slotattr := by simp [State.newHead]
@[simp] theorem newHead_credits (s : State) (q : QueueId) : (s.newHead q).credits = s.credits := by simp [State.newHead]
@[simp] theorem newHead_lastres (s : State) (q : QueueId) : (s.newHead q).lastres = s.lastres := by simp [State.newHead]
@[simp] theorem newHead_owner (s : State) (q : QueueId) : (s.newHead q).owner = s.owner := by simp [State.newHead]
@[simp] theorem newHead_preemptPending (s : State) (q : QueueId) : (s.newHead q).preemptPending = s.preemptPending := by simp [State.newHead]
@[simp] theorem newHead_stepRunning (s : State) (q : QueueId) : (s.newHead q).stepRunning = s.stepRunning := by simp [State.newHead]
@[simp] theorem newHead_contexts (s : State) (q : QueueId) : (s.newHead q).contexts = s.contexts := by simp [State.newHead]
@[simp] theorem newHead_urec (s : State) (q : QueueId) : (s.newHead q).urec = s.urec := by simp [State.newHead]
@[simp] theorem newHead_resumeList (s : State) (q : QueueId) : (s.newHead q).resumeList = s.resumeList := by simp [State.newHead]
@[simp] theorem newHead_ctxreq (s : State) (q : QueueId) : (s.newHead q).ctxreq = s.ctxreq := by simp [State.newHead]
@[simp] theorem newHead_ctxsel (s : State) (q : QueueId) : (s.newHead q).ctxsel = s.ctxsel := by simp [State.newHead]
@[simp] theorem newHead_windows (s : State) (q : QueueId) : (s.newHead q).windows = s.windows := by simp [State.newHead]
@[simp] theorem newHead_pending (s : State) (q : QueueId) : (s.newHead q).pending = s.pending := by simp [State.newHead]
@[simp] theorem newHead_slot (s : State) (q : QueueId) (i : SlotId) : (s.newHead q).slot i = s.slot i := by simp [State.slot]
@[simp] theorem newHead_record (s : State) (q : QueueId) (r : Runner) : (s.newHead q).record r = s.record r := by cases r <;> simp [State.record]
@[simp] theorem newHead_window (s : State) (q : QueueId) (w : WindowId) : (s.newHead q).window w = s.window w := by simp [State.window]

/-! ### Setting a fault latch -/

@[simp] theorem setLatch_resetN (s : State) (q : QueueId) : (s.setLatch q).resetN = s.resetN := by simp [State.setLatch]
@[simp] theorem setLatch_dataOut (s : State) (q : QueueId) : (s.setLatch q).dataOut = s.dataOut := by simp [State.setLatch]
@[simp] theorem setLatch_subw (s : State) (q : QueueId) : (s.setLatch q).subw = s.subw := by simp [State.setLatch]
@[simp] theorem setLatch_tbdiv (s : State) (q : QueueId) : (s.setLatch q).tbdiv = s.tbdiv := by simp [State.setLatch]
@[simp] theorem setLatch_timebaseLeft (s : State) (q : QueueId) : (s.setLatch q).timebaseLeft = s.timebaseLeft := by simp [State.setLatch]
@[simp] theorem setLatch_inten (s : State) (q : QueueId) : (s.setLatch q).inten = s.inten := by simp [State.setLatch]
@[simp] theorem setLatch_slots (s : State) (q : QueueId) : (s.setLatch q).slots = s.slots := by simp [State.setLatch]
@[simp] theorem setLatch_mem (s : State) (q : QueueId) : (s.setLatch q).mem = s.mem := by simp [State.setLatch]
@[simp] theorem setLatch_freeList (s : State) (q : QueueId) : (s.setLatch q).freeList = s.freeList := by simp [State.setLatch]
@[simp] theorem setLatch_reserve (s : State) (q : QueueId) : (s.setLatch q).reserve = s.reserve := by simp [State.setLatch]
@[simp] theorem setLatch_slotsel (s : State) (q : QueueId) : (s.setLatch q).slotsel = s.slotsel := by simp [State.setLatch]
@[simp] theorem setLatch_slotattr (s : State) (q : QueueId) : (s.setLatch q).slotattr = s.slotattr := by simp [State.setLatch]
@[simp] theorem setLatch_credits (s : State) (q : QueueId) : (s.setLatch q).credits = s.credits := by simp [State.setLatch]
@[simp] theorem setLatch_lastres (s : State) (q : QueueId) : (s.setLatch q).lastres = s.lastres := by simp [State.setLatch]
@[simp] theorem setLatch_owner (s : State) (q : QueueId) : (s.setLatch q).owner = s.owner := by simp [State.setLatch]
@[simp] theorem setLatch_preemptPending (s : State) (q : QueueId) : (s.setLatch q).preemptPending = s.preemptPending := by simp [State.setLatch]
@[simp] theorem setLatch_stepRunning (s : State) (q : QueueId) : (s.setLatch q).stepRunning = s.stepRunning := by simp [State.setLatch]
@[simp] theorem setLatch_contexts (s : State) (q : QueueId) : (s.setLatch q).contexts = s.contexts := by simp [State.setLatch]
@[simp] theorem setLatch_urec (s : State) (q : QueueId) : (s.setLatch q).urec = s.urec := by simp [State.setLatch]
@[simp] theorem setLatch_resumeList (s : State) (q : QueueId) : (s.setLatch q).resumeList = s.resumeList := by simp [State.setLatch]
@[simp] theorem setLatch_ctxreq (s : State) (q : QueueId) : (s.setLatch q).ctxreq = s.ctxreq := by simp [State.setLatch]
@[simp] theorem setLatch_ctxsel (s : State) (q : QueueId) : (s.setLatch q).ctxsel = s.ctxsel := by simp [State.setLatch]
@[simp] theorem setLatch_windows (s : State) (q : QueueId) : (s.setLatch q).windows = s.windows := by simp [State.setLatch]
@[simp] theorem setLatch_pending (s : State) (q : QueueId) : (s.setLatch q).pending = s.pending := by simp [State.setLatch]
@[simp] theorem setLatch_slot (s : State) (q : QueueId) (i : SlotId) : (s.setLatch q).slot i = s.slot i := by simp [State.slot]
@[simp] theorem setLatch_record (s : State) (q : QueueId) (r : Runner) : (s.setLatch q).record r = s.record r := by cases r <;> simp [State.record]
@[simp] theorem setLatch_window (s : State) (q : QueueId) (w : WindowId) : (s.setLatch q).window w = s.window w := by simp [State.window]

/-! ### Posting a record -/

@[simp] theorem postRecord_resetN (s : State) (rec : CompletionRecord) (notify : Bool) : (s.postRecord rec notify).resetN = s.resetN := by rw [postRecord_frame]
@[simp] theorem postRecord_dataOut (s : State) (rec : CompletionRecord) (notify : Bool) : (s.postRecord rec notify).dataOut = s.dataOut := by rw [postRecord_frame]
@[simp] theorem postRecord_subw (s : State) (rec : CompletionRecord) (notify : Bool) : (s.postRecord rec notify).subw = s.subw := by rw [postRecord_frame]
@[simp] theorem postRecord_tbdiv (s : State) (rec : CompletionRecord) (notify : Bool) : (s.postRecord rec notify).tbdiv = s.tbdiv := by rw [postRecord_frame]
@[simp] theorem postRecord_timebaseLeft (s : State) (rec : CompletionRecord) (notify : Bool) : (s.postRecord rec notify).timebaseLeft = s.timebaseLeft := by rw [postRecord_frame]
@[simp] theorem postRecord_inten (s : State) (rec : CompletionRecord) (notify : Bool) : (s.postRecord rec notify).inten = s.inten := by rw [postRecord_frame]
@[simp] theorem postRecord_slots (s : State) (rec : CompletionRecord) (notify : Bool) : (s.postRecord rec notify).slots = s.slots := by rw [postRecord_frame]
@[simp] theorem postRecord_mem (s : State) (rec : CompletionRecord) (notify : Bool) : (s.postRecord rec notify).mem = s.mem := by rw [postRecord_frame]
@[simp] theorem postRecord_freeList (s : State) (rec : CompletionRecord) (notify : Bool) : (s.postRecord rec notify).freeList = s.freeList := by rw [postRecord_frame]
@[simp] theorem postRecord_reserve (s : State) (rec : CompletionRecord) (notify : Bool) : (s.postRecord rec notify).reserve = s.reserve := by rw [postRecord_frame]
@[simp] theorem postRecord_slotsel (s : State) (rec : CompletionRecord) (notify : Bool) : (s.postRecord rec notify).slotsel = s.slotsel := by rw [postRecord_frame]
@[simp] theorem postRecord_slotattr (s : State) (rec : CompletionRecord) (notify : Bool) : (s.postRecord rec notify).slotattr = s.slotattr := by rw [postRecord_frame]
@[simp] theorem postRecord_credits (s : State) (rec : CompletionRecord) (notify : Bool) : (s.postRecord rec notify).credits = s.credits := by rw [postRecord_frame]
@[simp] theorem postRecord_lastres (s : State) (rec : CompletionRecord) (notify : Bool) : (s.postRecord rec notify).lastres = s.lastres := by rw [postRecord_frame]
@[simp] theorem postRecord_owner (s : State) (rec : CompletionRecord) (notify : Bool) : (s.postRecord rec notify).owner = s.owner := by rw [postRecord_frame]
@[simp] theorem postRecord_preemptPending (s : State) (rec : CompletionRecord) (notify : Bool) : (s.postRecord rec notify).preemptPending = s.preemptPending := by rw [postRecord_frame]
@[simp] theorem postRecord_stepRunning (s : State) (rec : CompletionRecord) (notify : Bool) : (s.postRecord rec notify).stepRunning = s.stepRunning := by rw [postRecord_frame]
@[simp] theorem postRecord_contexts (s : State) (rec : CompletionRecord) (notify : Bool) : (s.postRecord rec notify).contexts = s.contexts := by rw [postRecord_frame]
@[simp] theorem postRecord_urec (s : State) (rec : CompletionRecord) (notify : Bool) : (s.postRecord rec notify).urec = s.urec := by rw [postRecord_frame]
@[simp] theorem postRecord_resumeList (s : State) (rec : CompletionRecord) (notify : Bool) : (s.postRecord rec notify).resumeList = s.resumeList := by rw [postRecord_frame]
@[simp] theorem postRecord_ctxreq (s : State) (rec : CompletionRecord) (notify : Bool) : (s.postRecord rec notify).ctxreq = s.ctxreq := by rw [postRecord_frame]
@[simp] theorem postRecord_ctxsel (s : State) (rec : CompletionRecord) (notify : Bool) : (s.postRecord rec notify).ctxsel = s.ctxsel := by rw [postRecord_frame]
@[simp] theorem postRecord_windows (s : State) (rec : CompletionRecord) (notify : Bool) : (s.postRecord rec notify).windows = s.windows := by rw [postRecord_frame]
@[simp] theorem postRecord_pending (s : State) (rec : CompletionRecord) (notify : Bool) : (s.postRecord rec notify).pending = s.pending := by rw [postRecord_frame]
@[simp] theorem postRecord_slot (s : State) (rec : CompletionRecord) (notify : Bool) (i : SlotId) : (s.postRecord rec notify).slot i = s.slot i := by simp [State.slot]
@[simp] theorem postRecord_record (s : State) (rec : CompletionRecord) (notify : Bool) (r : Runner) : (s.postRecord rec notify).record r = s.record r := by cases r <;> simp [State.record]
@[simp] theorem postRecord_window (s : State) (rec : CompletionRecord) (notify : Bool) (w : WindowId) : (s.postRecord rec notify).window w = s.window w := by simp [State.window]

/-! ### The Core falls free -/

@[simp] theorem coreFree_resetN (s : State) : (s.coreFree).resetN = s.resetN := rfl
@[simp] theorem coreFree_dataOut (s : State) : (s.coreFree).dataOut = s.dataOut := rfl
@[simp] theorem coreFree_subw (s : State) : (s.coreFree).subw = s.subw := rfl
@[simp] theorem coreFree_tbdiv (s : State) : (s.coreFree).tbdiv = s.tbdiv := rfl
@[simp] theorem coreFree_timebaseLeft (s : State) : (s.coreFree).timebaseLeft = s.timebaseLeft := rfl
@[simp] theorem coreFree_inten (s : State) : (s.coreFree).inten = s.inten := rfl
@[simp] theorem coreFree_slots (s : State) : (s.coreFree).slots = s.slots := rfl
@[simp] theorem coreFree_mem (s : State) : (s.coreFree).mem = s.mem := rfl
@[simp] theorem coreFree_freeList (s : State) : (s.coreFree).freeList = s.freeList := rfl
@[simp] theorem coreFree_reserve (s : State) : (s.coreFree).reserve = s.reserve := rfl
@[simp] theorem coreFree_slotsel (s : State) : (s.coreFree).slotsel = s.slotsel := rfl
@[simp] theorem coreFree_slotattr (s : State) : (s.coreFree).slotattr = s.slotattr := rfl
@[simp] theorem coreFree_nq (s : State) : (s.coreFree).nq = s.nq := rfl
@[simp] theorem coreFree_uq (s : State) : (s.coreFree).uq = s.uq := rfl
@[simp] theorem coreFree_credits (s : State) : (s.coreFree).credits = s.credits := rfl
@[simp] theorem coreFree_lastres (s : State) : (s.coreFree).lastres = s.lastres := rfl
@[simp] theorem coreFree_contexts (s : State) : (s.coreFree).contexts = s.contexts := rfl
@[simp] theorem coreFree_urec (s : State) : (s.coreFree).urec = s.urec := rfl
@[simp] theorem coreFree_resumeList (s : State) : (s.coreFree).resumeList = s.resumeList := rfl
@[simp] theorem coreFree_ctxreq (s : State) : (s.coreFree).ctxreq = s.ctxreq := rfl
@[simp] theorem coreFree_ctxsel (s : State) : (s.coreFree).ctxsel = s.ctxsel := rfl
@[simp] theorem coreFree_cq (s : State) : (s.coreFree).cq = s.cq := rfl
@[simp] theorem coreFree_intstat (s : State) : (s.coreFree).intstat = s.intstat := rfl
@[simp] theorem coreFree_windows (s : State) : (s.coreFree).windows = s.windows := rfl
@[simp] theorem coreFree_pending (s : State) : (s.coreFree).pending = s.pending := rfl
@[simp] theorem coreFree_slot (s : State) (i : SlotId) : (s.coreFree).slot i = s.slot i := by simp [State.slot]
@[simp] theorem coreFree_record (s : State) (r : Runner) : (s.coreFree).record r = s.record r := by cases r <;> simp [State.record]
@[simp] theorem coreFree_queue (s : State) (q : QueueId) : (s.coreFree).queue q = s.queue q := by cases q <;> simp [State.queue]
@[simp] theorem coreFree_window (s : State) (w : WindowId) : (s.coreFree).window w = s.window w := by simp [State.window]

/-! ### Parking a context -/

@[simp] theorem parkContext_resetN (s : State) (n : CtxId) : (s.parkContext n).resetN = s.resetN := rfl
@[simp] theorem parkContext_dataOut (s : State) (n : CtxId) : (s.parkContext n).dataOut = s.dataOut := rfl
@[simp] theorem parkContext_subw (s : State) (n : CtxId) : (s.parkContext n).subw = s.subw := rfl
@[simp] theorem parkContext_tbdiv (s : State) (n : CtxId) : (s.parkContext n).tbdiv = s.tbdiv := rfl
@[simp] theorem parkContext_timebaseLeft (s : State) (n : CtxId) : (s.parkContext n).timebaseLeft = s.timebaseLeft := rfl
@[simp] theorem parkContext_inten (s : State) (n : CtxId) : (s.parkContext n).inten = s.inten := rfl
@[simp] theorem parkContext_slots (s : State) (n : CtxId) : (s.parkContext n).slots = s.slots := rfl
@[simp] theorem parkContext_mem (s : State) (n : CtxId) : (s.parkContext n).mem = s.mem := rfl
@[simp] theorem parkContext_freeList (s : State) (n : CtxId) : (s.parkContext n).freeList = s.freeList := rfl
@[simp] theorem parkContext_reserve (s : State) (n : CtxId) : (s.parkContext n).reserve = s.reserve := rfl
@[simp] theorem parkContext_slotsel (s : State) (n : CtxId) : (s.parkContext n).slotsel = s.slotsel := rfl
@[simp] theorem parkContext_slotattr (s : State) (n : CtxId) : (s.parkContext n).slotattr = s.slotattr := rfl
@[simp] theorem parkContext_nq (s : State) (n : CtxId) : (s.parkContext n).nq = s.nq := rfl
@[simp] theorem parkContext_uq (s : State) (n : CtxId) : (s.parkContext n).uq = s.uq := rfl
@[simp] theorem parkContext_credits (s : State) (n : CtxId) : (s.parkContext n).credits = s.credits := rfl
@[simp] theorem parkContext_lastres (s : State) (n : CtxId) : (s.parkContext n).lastres = s.lastres := rfl
@[simp] theorem parkContext_owner (s : State) (n : CtxId) : (s.parkContext n).owner = s.owner := rfl
@[simp] theorem parkContext_preemptPending (s : State) (n : CtxId) : (s.parkContext n).preemptPending = s.preemptPending := rfl
@[simp] theorem parkContext_stepRunning (s : State) (n : CtxId) : (s.parkContext n).stepRunning = s.stepRunning := rfl
@[simp] theorem parkContext_urec (s : State) (n : CtxId) : (s.parkContext n).urec = s.urec := rfl
@[simp] theorem parkContext_ctxreq (s : State) (n : CtxId) : (s.parkContext n).ctxreq = s.ctxreq := rfl
@[simp] theorem parkContext_ctxsel (s : State) (n : CtxId) : (s.parkContext n).ctxsel = s.ctxsel := rfl
@[simp] theorem parkContext_cq (s : State) (n : CtxId) : (s.parkContext n).cq = s.cq := rfl
@[simp] theorem parkContext_windows (s : State) (n : CtxId) : (s.parkContext n).windows = s.windows := rfl
@[simp] theorem parkContext_pending (s : State) (n : CtxId) : (s.parkContext n).pending = s.pending := rfl
@[simp] theorem parkContext_slot (s : State) (n : CtxId) (i : SlotId) : (s.parkContext n).slot i = s.slot i := by simp [State.slot]
@[simp] theorem parkContext_queue (s : State) (n : CtxId) (q : QueueId) : (s.parkContext n).queue q = s.queue q := by cases q <;> simp [State.queue]
@[simp] theorem parkContext_window (s : State) (n : CtxId) (w : WindowId) : (s.parkContext n).window w = s.window w := by simp [State.window]

/-! ### A preempted context -/

@[simp] theorem preempted_resetN (s : State) (n : CtxId) : (s.preempted n).resetN = s.resetN := rfl
@[simp] theorem preempted_dataOut (s : State) (n : CtxId) : (s.preempted n).dataOut = s.dataOut := rfl
@[simp] theorem preempted_subw (s : State) (n : CtxId) : (s.preempted n).subw = s.subw := rfl
@[simp] theorem preempted_tbdiv (s : State) (n : CtxId) : (s.preempted n).tbdiv = s.tbdiv := rfl
@[simp] theorem preempted_timebaseLeft (s : State) (n : CtxId) : (s.preempted n).timebaseLeft = s.timebaseLeft := rfl
@[simp] theorem preempted_inten (s : State) (n : CtxId) : (s.preempted n).inten = s.inten := rfl
@[simp] theorem preempted_slots (s : State) (n : CtxId) : (s.preempted n).slots = s.slots := rfl
@[simp] theorem preempted_mem (s : State) (n : CtxId) : (s.preempted n).mem = s.mem := rfl
@[simp] theorem preempted_freeList (s : State) (n : CtxId) : (s.preempted n).freeList = s.freeList := rfl
@[simp] theorem preempted_reserve (s : State) (n : CtxId) : (s.preempted n).reserve = s.reserve := rfl
@[simp] theorem preempted_slotsel (s : State) (n : CtxId) : (s.preempted n).slotsel = s.slotsel := rfl
@[simp] theorem preempted_slotattr (s : State) (n : CtxId) : (s.preempted n).slotattr = s.slotattr := rfl
@[simp] theorem preempted_nq (s : State) (n : CtxId) : (s.preempted n).nq = s.nq := rfl
@[simp] theorem preempted_uq (s : State) (n : CtxId) : (s.preempted n).uq = s.uq := rfl
@[simp] theorem preempted_credits (s : State) (n : CtxId) : (s.preempted n).credits = s.credits := rfl
@[simp] theorem preempted_lastres (s : State) (n : CtxId) : (s.preempted n).lastres = s.lastres := rfl
@[simp] theorem preempted_owner (s : State) (n : CtxId) : (s.preempted n).owner = s.owner := rfl
@[simp] theorem preempted_preemptPending (s : State) (n : CtxId) : (s.preempted n).preemptPending = s.preemptPending := rfl
@[simp] theorem preempted_stepRunning (s : State) (n : CtxId) : (s.preempted n).stepRunning = s.stepRunning := rfl
@[simp] theorem preempted_urec (s : State) (n : CtxId) : (s.preempted n).urec = s.urec := rfl
@[simp] theorem preempted_ctxreq (s : State) (n : CtxId) : (s.preempted n).ctxreq = s.ctxreq := rfl
@[simp] theorem preempted_ctxsel (s : State) (n : CtxId) : (s.preempted n).ctxsel = s.ctxsel := rfl
@[simp] theorem preempted_cq (s : State) (n : CtxId) : (s.preempted n).cq = s.cq := rfl
@[simp] theorem preempted_intstat (s : State) (n : CtxId) : (s.preempted n).intstat = s.intstat := rfl
@[simp] theorem preempted_windows (s : State) (n : CtxId) : (s.preempted n).windows = s.windows := rfl
@[simp] theorem preempted_pending (s : State) (n : CtxId) : (s.preempted n).pending = s.pending := rfl
@[simp] theorem preempted_slot (s : State) (n : CtxId) (i : SlotId) : (s.preempted n).slot i = s.slot i := by simp [State.slot]
@[simp] theorem preempted_queue (s : State) (n : CtxId) (q : QueueId) : (s.preempted n).queue q = s.queue q := by cases q <;> simp [State.queue]
@[simp] theorem preempted_window (s : State) (n : CtxId) (w : WindowId) : (s.preempted n).window w = s.window w := by simp [State.window]

/-! ### Resuming a context -/

@[simp] theorem resumeContext_resetN (s : State) (n : CtxId) : (s.resumeContext n).resetN = s.resetN := rfl
@[simp] theorem resumeContext_dataOut (s : State) (n : CtxId) : (s.resumeContext n).dataOut = s.dataOut := rfl
@[simp] theorem resumeContext_subw (s : State) (n : CtxId) : (s.resumeContext n).subw = s.subw := rfl
@[simp] theorem resumeContext_tbdiv (s : State) (n : CtxId) : (s.resumeContext n).tbdiv = s.tbdiv := rfl
@[simp] theorem resumeContext_timebaseLeft (s : State) (n : CtxId) : (s.resumeContext n).timebaseLeft = s.timebaseLeft := rfl
@[simp] theorem resumeContext_inten (s : State) (n : CtxId) : (s.resumeContext n).inten = s.inten := rfl
@[simp] theorem resumeContext_slots (s : State) (n : CtxId) : (s.resumeContext n).slots = s.slots := rfl
@[simp] theorem resumeContext_mem (s : State) (n : CtxId) : (s.resumeContext n).mem = s.mem := rfl
@[simp] theorem resumeContext_freeList (s : State) (n : CtxId) : (s.resumeContext n).freeList = s.freeList := rfl
@[simp] theorem resumeContext_reserve (s : State) (n : CtxId) : (s.resumeContext n).reserve = s.reserve := rfl
@[simp] theorem resumeContext_slotsel (s : State) (n : CtxId) : (s.resumeContext n).slotsel = s.slotsel := rfl
@[simp] theorem resumeContext_slotattr (s : State) (n : CtxId) : (s.resumeContext n).slotattr = s.slotattr := rfl
@[simp] theorem resumeContext_nq (s : State) (n : CtxId) : (s.resumeContext n).nq = s.nq := rfl
@[simp] theorem resumeContext_uq (s : State) (n : CtxId) : (s.resumeContext n).uq = s.uq := rfl
@[simp] theorem resumeContext_credits (s : State) (n : CtxId) : (s.resumeContext n).credits = s.credits := rfl
@[simp] theorem resumeContext_lastres (s : State) (n : CtxId) : (s.resumeContext n).lastres = s.lastres := rfl
@[simp] theorem resumeContext_urec (s : State) (n : CtxId) : (s.resumeContext n).urec = s.urec := rfl
@[simp] theorem resumeContext_ctxreq (s : State) (n : CtxId) : (s.resumeContext n).ctxreq = s.ctxreq := rfl
@[simp] theorem resumeContext_ctxsel (s : State) (n : CtxId) : (s.resumeContext n).ctxsel = s.ctxsel := rfl
@[simp] theorem resumeContext_cq (s : State) (n : CtxId) : (s.resumeContext n).cq = s.cq := rfl
@[simp] theorem resumeContext_intstat (s : State) (n : CtxId) : (s.resumeContext n).intstat = s.intstat := rfl
@[simp] theorem resumeContext_windows (s : State) (n : CtxId) : (s.resumeContext n).windows = s.windows := rfl
@[simp] theorem resumeContext_pending (s : State) (n : CtxId) : (s.resumeContext n).pending = s.pending := rfl
@[simp] theorem resumeContext_slot (s : State) (n : CtxId) (i : SlotId) : (s.resumeContext n).slot i = s.slot i := by simp [State.slot]
@[simp] theorem resumeContext_queue (s : State) (n : CtxId) (q : QueueId) : (s.resumeContext n).queue q = s.queue q := by cases q <;> simp [State.queue]
@[simp] theorem resumeContext_window (s : State) (n : CtxId) (w : WindowId) : (s.resumeContext n).window w = s.window w := by simp [State.window]

/-! ### Entering SPACE_WAIT -/

@[simp] theorem enterSpaceWait_resetN (s : State) (n : CtxId) (d : Nat) : (s.enterSpaceWait n d).resetN = s.resetN := by simp [State.enterSpaceWait]
@[simp] theorem enterSpaceWait_dataOut (s : State) (n : CtxId) (d : Nat) : (s.enterSpaceWait n d).dataOut = s.dataOut := by simp [State.enterSpaceWait]
@[simp] theorem enterSpaceWait_subw (s : State) (n : CtxId) (d : Nat) : (s.enterSpaceWait n d).subw = s.subw := by simp [State.enterSpaceWait]
@[simp] theorem enterSpaceWait_tbdiv (s : State) (n : CtxId) (d : Nat) : (s.enterSpaceWait n d).tbdiv = s.tbdiv := by simp [State.enterSpaceWait]
@[simp] theorem enterSpaceWait_timebaseLeft (s : State) (n : CtxId) (d : Nat) : (s.enterSpaceWait n d).timebaseLeft = s.timebaseLeft := by simp [State.enterSpaceWait]
@[simp] theorem enterSpaceWait_inten (s : State) (n : CtxId) (d : Nat) : (s.enterSpaceWait n d).inten = s.inten := by simp [State.enterSpaceWait]
@[simp] theorem enterSpaceWait_slots (s : State) (n : CtxId) (d : Nat) : (s.enterSpaceWait n d).slots = s.slots := by simp [State.enterSpaceWait]
@[simp] theorem enterSpaceWait_mem (s : State) (n : CtxId) (d : Nat) : (s.enterSpaceWait n d).mem = s.mem := by simp [State.enterSpaceWait]
@[simp] theorem enterSpaceWait_freeList (s : State) (n : CtxId) (d : Nat) : (s.enterSpaceWait n d).freeList = s.freeList := by simp [State.enterSpaceWait]
@[simp] theorem enterSpaceWait_reserve (s : State) (n : CtxId) (d : Nat) : (s.enterSpaceWait n d).reserve = s.reserve := by simp [State.enterSpaceWait]
@[simp] theorem enterSpaceWait_slotsel (s : State) (n : CtxId) (d : Nat) : (s.enterSpaceWait n d).slotsel = s.slotsel := by simp [State.enterSpaceWait]
@[simp] theorem enterSpaceWait_slotattr (s : State) (n : CtxId) (d : Nat) : (s.enterSpaceWait n d).slotattr = s.slotattr := by simp [State.enterSpaceWait]
@[simp] theorem enterSpaceWait_nq (s : State) (n : CtxId) (d : Nat) : (s.enterSpaceWait n d).nq = s.nq := by simp [State.enterSpaceWait]
@[simp] theorem enterSpaceWait_uq (s : State) (n : CtxId) (d : Nat) : (s.enterSpaceWait n d).uq = s.uq := by simp [State.enterSpaceWait]
@[simp] theorem enterSpaceWait_credits (s : State) (n : CtxId) (d : Nat) : (s.enterSpaceWait n d).credits = s.credits := by simp [State.enterSpaceWait]
@[simp] theorem enterSpaceWait_lastres (s : State) (n : CtxId) (d : Nat) : (s.enterSpaceWait n d).lastres = s.lastres := by simp [State.enterSpaceWait]
@[simp] theorem enterSpaceWait_owner (s : State) (n : CtxId) (d : Nat) : (s.enterSpaceWait n d).owner = s.owner := by simp [State.enterSpaceWait]
@[simp] theorem enterSpaceWait_preemptPending (s : State) (n : CtxId) (d : Nat) : (s.enterSpaceWait n d).preemptPending = s.preemptPending := by simp [State.enterSpaceWait]
@[simp] theorem enterSpaceWait_stepRunning (s : State) (n : CtxId) (d : Nat) : (s.enterSpaceWait n d).stepRunning = s.stepRunning := by simp [State.enterSpaceWait]
@[simp] theorem enterSpaceWait_urec (s : State) (n : CtxId) (d : Nat) : (s.enterSpaceWait n d).urec = s.urec := by simp [State.enterSpaceWait]
@[simp] theorem enterSpaceWait_ctxreq (s : State) (n : CtxId) (d : Nat) : (s.enterSpaceWait n d).ctxreq = s.ctxreq := by simp [State.enterSpaceWait]
@[simp] theorem enterSpaceWait_ctxsel (s : State) (n : CtxId) (d : Nat) : (s.enterSpaceWait n d).ctxsel = s.ctxsel := by simp [State.enterSpaceWait]
@[simp] theorem enterSpaceWait_cq (s : State) (n : CtxId) (d : Nat) : (s.enterSpaceWait n d).cq = s.cq := by simp [State.enterSpaceWait]
@[simp] theorem enterSpaceWait_windows (s : State) (n : CtxId) (d : Nat) : (s.enterSpaceWait n d).windows = s.windows := by simp [State.enterSpaceWait]
@[simp] theorem enterSpaceWait_pending (s : State) (n : CtxId) (d : Nat) : (s.enterSpaceWait n d).pending = s.pending := by simp [State.enterSpaceWait]
@[simp] theorem enterSpaceWait_slot (s : State) (n : CtxId) (d : Nat) (i : SlotId) : (s.enterSpaceWait n d).slot i = s.slot i := by simp [State.slot]
@[simp] theorem enterSpaceWait_queue (s : State) (n : CtxId) (d : Nat) (q : QueueId) : (s.enterSpaceWait n d).queue q = s.queue q := by cases q <;> simp [State.queue]
@[simp] theorem enterSpaceWait_window (s : State) (n : CtxId) (d : Nat) (w : WindowId) : (s.enterSpaceWait n d).window w = s.window w := by simp [State.window]

/-! ### Starting a command -/

@[simp] theorem start_resetN (s : State) (q : QueueId) (r : Runner) (c : CommandRecord) : (s.start q r c).resetN = s.resetN := by simp [State.start]
@[simp] theorem start_dataOut (s : State) (q : QueueId) (r : Runner) (c : CommandRecord) : (s.start q r c).dataOut = s.dataOut := by simp [State.start]
@[simp] theorem start_subw (s : State) (q : QueueId) (r : Runner) (c : CommandRecord) : (s.start q r c).subw = s.subw := by simp [State.start]
@[simp] theorem start_tbdiv (s : State) (q : QueueId) (r : Runner) (c : CommandRecord) : (s.start q r c).tbdiv = s.tbdiv := by simp [State.start]
@[simp] theorem start_timebaseLeft (s : State) (q : QueueId) (r : Runner) (c : CommandRecord) : (s.start q r c).timebaseLeft = s.timebaseLeft := by simp [State.start]
@[simp] theorem start_inten (s : State) (q : QueueId) (r : Runner) (c : CommandRecord) : (s.start q r c).inten = s.inten := by simp [State.start]
@[simp] theorem start_mem (s : State) (q : QueueId) (r : Runner) (c : CommandRecord) : (s.start q r c).mem = s.mem := by simp [State.start]
@[simp] theorem start_freeList (s : State) (q : QueueId) (r : Runner) (c : CommandRecord) : (s.start q r c).freeList = s.freeList := by simp [State.start]
@[simp] theorem start_reserve (s : State) (q : QueueId) (r : Runner) (c : CommandRecord) : (s.start q r c).reserve = s.reserve := by simp [State.start]
@[simp] theorem start_slotsel (s : State) (q : QueueId) (r : Runner) (c : CommandRecord) : (s.start q r c).slotsel = s.slotsel := by simp [State.start]
@[simp] theorem start_slotattr (s : State) (q : QueueId) (r : Runner) (c : CommandRecord) : (s.start q r c).slotattr = s.slotattr := by simp [State.start]
@[simp] theorem start_credits (s : State) (q : QueueId) (r : Runner) (c : CommandRecord) : (s.start q r c).credits = s.credits := by simp [State.start]
@[simp] theorem start_lastres (s : State) (q : QueueId) (r : Runner) (c : CommandRecord) : (s.start q r c).lastres = s.lastres := by simp [State.start]
@[simp] theorem start_resumeList (s : State) (q : QueueId) (r : Runner) (c : CommandRecord) : (s.start q r c).resumeList = s.resumeList := by simp [State.start]
@[simp] theorem start_ctxreq (s : State) (q : QueueId) (r : Runner) (c : CommandRecord) : (s.start q r c).ctxreq = s.ctxreq := by simp [State.start]
@[simp] theorem start_ctxsel (s : State) (q : QueueId) (r : Runner) (c : CommandRecord) : (s.start q r c).ctxsel = s.ctxsel := by simp [State.start]
@[simp] theorem start_windows (s : State) (q : QueueId) (r : Runner) (c : CommandRecord) : (s.start q r c).windows = s.windows := by simp [State.start]
@[simp] theorem start_pending (s : State) (q : QueueId) (r : Runner) (c : CommandRecord) : (s.start q r c).pending = s.pending := by simp [State.start]
@[simp] theorem start_window (s : State) (q : QueueId) (r : Runner) (c : CommandRecord) (w : WindowId) : (s.start q r c).window w = s.window w := by simp [State.window]

/-! ### Ending a command -/

@[simp] theorem endCommand_resetN (s : State) (r : Runner) (gone : List PageId) (rec : CompletionRecord) (notify : Bool) : (s.endCommand r gone rec notify).resetN = s.resetN := by simp [State.endCommand]
@[simp] theorem endCommand_dataOut (s : State) (r : Runner) (gone : List PageId) (rec : CompletionRecord) (notify : Bool) : (s.endCommand r gone rec notify).dataOut = s.dataOut := by simp [State.endCommand]
@[simp] theorem endCommand_subw (s : State) (r : Runner) (gone : List PageId) (rec : CompletionRecord) (notify : Bool) : (s.endCommand r gone rec notify).subw = s.subw := by simp [State.endCommand]
@[simp] theorem endCommand_tbdiv (s : State) (r : Runner) (gone : List PageId) (rec : CompletionRecord) (notify : Bool) : (s.endCommand r gone rec notify).tbdiv = s.tbdiv := by simp [State.endCommand]
@[simp] theorem endCommand_timebaseLeft (s : State) (r : Runner) (gone : List PageId) (rec : CompletionRecord) (notify : Bool) : (s.endCommand r gone rec notify).timebaseLeft = s.timebaseLeft := by simp [State.endCommand]
@[simp] theorem endCommand_inten (s : State) (r : Runner) (gone : List PageId) (rec : CompletionRecord) (notify : Bool) : (s.endCommand r gone rec notify).inten = s.inten := by simp [State.endCommand]
@[simp] theorem endCommand_mem (s : State) (r : Runner) (gone : List PageId) (rec : CompletionRecord) (notify : Bool) : (s.endCommand r gone rec notify).mem = s.mem := by simp [State.endCommand]
@[simp] theorem endCommand_reserve (s : State) (r : Runner) (gone : List PageId) (rec : CompletionRecord) (notify : Bool) : (s.endCommand r gone rec notify).reserve = s.reserve := by simp [State.endCommand]
@[simp] theorem endCommand_slotsel (s : State) (r : Runner) (gone : List PageId) (rec : CompletionRecord) (notify : Bool) : (s.endCommand r gone rec notify).slotsel = s.slotsel := by simp [State.endCommand]
@[simp] theorem endCommand_slotattr (s : State) (r : Runner) (gone : List PageId) (rec : CompletionRecord) (notify : Bool) : (s.endCommand r gone rec notify).slotattr = s.slotattr := by simp [State.endCommand]
@[simp] theorem endCommand_credits (s : State) (r : Runner) (gone : List PageId) (rec : CompletionRecord) (notify : Bool) : (s.endCommand r gone rec notify).credits = s.credits := by simp [State.endCommand]
@[simp] theorem endCommand_lastres (s : State) (r : Runner) (gone : List PageId) (rec : CompletionRecord) (notify : Bool) : (s.endCommand r gone rec notify).lastres = s.lastres := by simp [State.endCommand]
@[simp] theorem endCommand_owner (s : State) (r : Runner) (gone : List PageId) (rec : CompletionRecord) (notify : Bool) : (s.endCommand r gone rec notify).owner = s.owner := by simp [State.endCommand]
@[simp] theorem endCommand_stepRunning (s : State) (r : Runner) (gone : List PageId) (rec : CompletionRecord) (notify : Bool) : (s.endCommand r gone rec notify).stepRunning = s.stepRunning := by simp [State.endCommand]
@[simp] theorem endCommand_ctxreq (s : State) (r : Runner) (gone : List PageId) (rec : CompletionRecord) (notify : Bool) : (s.endCommand r gone rec notify).ctxreq = s.ctxreq := by simp [State.endCommand]
@[simp] theorem endCommand_ctxsel (s : State) (r : Runner) (gone : List PageId) (rec : CompletionRecord) (notify : Bool) : (s.endCommand r gone rec notify).ctxsel = s.ctxsel := by simp [State.endCommand]
@[simp] theorem endCommand_windows (s : State) (r : Runner) (gone : List PageId) (rec : CompletionRecord) (notify : Bool) : (s.endCommand r gone rec notify).windows = s.windows := by simp [State.endCommand]
@[simp] theorem endCommand_pending (s : State) (r : Runner) (gone : List PageId) (rec : CompletionRecord) (notify : Bool) : (s.endCommand r gone rec notify).pending = s.pending := by simp [State.endCommand]
@[simp] theorem endCommand_window (s : State) (r : Runner) (gone : List PageId) (rec : CompletionRecord) (notify : Bool) (w : WindowId) : (s.endCommand r gone rec notify).window w = s.window w := by simp [State.window]

end Sys2Proof.Machine
end

