-- ==== Sys2Proof/Laws/Engine.lean ====
section
/-! SUPPORT. What a start, a suspension and an end of a command can change: a frame equation for each, and lemmas for the records,
slots and counts. -/

namespace Sys2Proof.Machine

/-! ### Suspending -/

/-- The Core falls free: no owner, no step, no preemption pending (R96, R102). -/
theorem coreFree_eq (s : State) :
    s.coreFree = { s with owner := none, stepRunning := false, preemptPending := false } := rfl

theorem parkContext_frame (s : State) (n : CtxId) :
    s.parkContext n = { s with
      contexts := (s.parkContext n).contexts, resumeList := s.resumeList.filter (· ≠ n)
      intstat := s.intstat ||| IntFlag.park.mask } := rfl

theorem record_parkContext (s : State) (n : CtxId) (r : Runner) :
    (s.parkContext n).record r =
      if r = .ctx n then { s.record r with state := .parked, pagesWanted := 0, parkPending := false } else s.record r := by
  have h : (s.parkContext n).record r =
      (s.setRecord (.ctx n) { s.record (.ctx n) with state := .parked, pagesWanted := 0, parkPending := false }).record r := by
    cases r <;> rfl
  rw [h, record_setRecord]
  split
  · next e => rw [e]
  · rfl

theorem preempted_frame (s : State) (n : CtxId) :
    s.preempted n = { s with contexts := (s.preempted n).contexts, resumeList := n :: s.resumeList } := rfl

theorem record_preempted (s : State) (n : CtxId) (r : Runner) :
    (s.preempted n).record r = if r = .ctx n then { s.record r with state := .resumable } else s.record r := by
  have h : (s.preempted n).record r = (s.setRecord (.ctx n) { s.record (.ctx n) with state := .resumable }).record r := by
    cases r <;> rfl
  rw [h, record_setRecord]
  split
  · next e => rw [e]
  · rfl

theorem enterSpaceWait_frame (s : State) (n : CtxId) (d : Nat) :
    s.enterSpaceWait n d = { s with
      contexts := (s.enterSpaceWait n d).contexts, resumeList := (s.enterSpaceWait n d).resumeList
      intstat := s.intstat ||| IntFlag.space.mask } := by
  unfold State.enterSpaceWait
  rw [wakeContext_frame]
  rfl

theorem resumeContext_frame (s : State) (n : CtxId) :
    s.resumeContext n = { s with
      contexts := (s.resumeContext n).contexts, resumeList := s.resumeList.filter (· ≠ n), owner := some (.ctx n)
      stepRunning := false, preemptPending := s.headStartable .urgent } := rfl

theorem record_resumeContext (s : State) (n : CtxId) (r : Runner) :
    (s.resumeContext n).record r = if r = .ctx n then { s.record r with state := .active } else s.record r := by
  have h : (s.resumeContext n).record r = (s.setRecord (.ctx n) { s.record (.ctx n) with state := .active }).record r := by
    cases r <;> rfl
  rw [h, record_setRecord]
  split
  · next e => rw [e]
  · rfl

/-! ### Starting -/

/-- The started command has the Core (R96). -/
@[simp] theorem start_owner (s : State) (q : QueueId) (r : Runner) (c : CommandRecord) : (s.start q r c).owner = some r := by
  simp [State.start]

@[simp] theorem start_stepRunning (s : State) (q : QueueId) (r : Runner) (c : CommandRecord) :
    (s.start q r c).stepRunning = false := by
  simp [State.start]

/-- The started command's record is filled, every other kept (R99). -/
theorem record_start (s : State) (q : QueueId) (r x : Runner) (c : CommandRecord) :
    (s.start q r c).record x = if x = r then Record.started c (s.stepTotalOf c) else s.record x := by
  have h : (s.start q r c).record x =
      (((s.takeLocks (.run r) c.dests c.sources).dropHead q).setRecord r (Record.started c (s.stepTotalOf c))).record x := by
    unfold State.start
    rw [locksChanged_record, newHead_record]
    cases x <;> rfl
  rw [h, record_setRecord, dropHead_record, takeLocks_record]

/-- The locks a start takes (R83). -/
theorem slot_start (s : State) (q : QueueId) (r : Runner) (c : CommandRecord) (i : SlotId) :
    (s.start q r c).slot i = (s.takeLocks (.run r) c.dests c.sources).slot i := by
  simp [State.start, State.slot]

/-- A start takes one command from its queue and moves no other but by a skip (R29). -/
theorem count_start (s : State) (q : QueueId) (r : Runner) (c : CommandRecord) :
    (s.start q r c).nq.entries.length + (s.start q r c).uq.entries.length + (s.start q r c).cq.length +
        (s.queue q).entries.length =
      s.nq.entries.length + s.uq.entries.length + s.cq.length + (s.queue q).entries.tail.length := by
  unfold State.start
  rw [count_locksChanged, count_newHead]
  cases q <;> simp [State.dropHead, State.setQueue, State.queue] <;> omega

/-! ### Ending -/

/-- The pages an end gives back join the tail of the free list (R13, R78, R79). -/
@[simp] theorem endCommand_freeList (s : State) (r : Runner) (gone : List PageId) (rec : CompletionRecord) (notify : Bool) :
    (s.endCommand r gone rec notify).freeList = s.freeList ++ gone := by
  simp [State.endCommand, release_freeList]

/-- The command's locks are gone, every other lock and every value stays (R84). -/
theorem slot_endCommand (s : State) (r : Runner) (gone : List PageId) (rec : CompletionRecord) (notify : Bool) (i : SlotId) :
    (s.endCommand r gone rec notify).slot i = (s.slot i).unlock (.run r) := by
  simp [State.endCommand, slot_releaseLocks]

/-- The command's record is empty, and a context that its pages wake is RESUMABLE (R110, R119). -/
theorem record_endCommand (s : State) (r : Runner) (gone : List PageId) (rec : CompletionRecord) (notify : Bool) (x : Runner) :
    (s.endCommand r gone rec notify).record x = ((s.setRecord r Record.free).release gone).record x := by
  simp [State.endCommand]

theorem record_endCommand_self (s : State) (r : Runner) (gone : List PageId) (rec : CompletionRecord) (notify : Bool) :
    (s.endCommand r gone rec notify).record r = Record.free := by
  rw [record_endCommand]
  cases r with
  | urgent => exact urec_release _ gone
  | ctx n =>
    have hr : (s.setRecord (.ctx n) Record.free).record (.ctx n) = Record.free := record_setRecord_self _ _ _
    have hw : ({ s.setRecord (.ctx n) Record.free with freeList := (s.setRecord (.ctx n) Record.free).freeList ++ gone } : State).wakes n
        = false := by
      have h2 : ({ s.setRecord (.ctx n) Record.free with
          freeList := (s.setRecord (.ctx n) Record.free).freeList ++ gone } : State).record (.ctx n) = Record.free := hr
      unfold State.wakes
      rw [h2]
      rfl
    rw [record_release_ctx, hw, hr]
    rfl

/-- An end posts one record (R133). -/
theorem count_endCommand (s : State) (r : Runner) (gone : List PageId) (rec : CompletionRecord) (notify : Bool) :
    (s.endCommand r gone rec notify).nq.entries.length + (s.endCommand r gone rec notify).uq.entries.length +
        (s.endCommand r gone rec notify).cq.length =
      s.nq.entries.length + s.uq.entries.length + s.cq.length + 1 := by
  unfold State.endCommand
  rw [refreshPreempt_nq, refreshPreempt_uq, refreshPreempt_cq, count_postRecord, count_locksChanged]
  simp

/-! ### Acquisitions -/

/-- A record that receives the pages of its acquisition holds them all, in free-list order within each working value (R67). -/
theorem withPages_pages (j : Record) (lack : Nat × Nat × Nat) (ps : List PageId)
    (h : ps.length = lack.1 + lack.2.1 + lack.2.2) :
    (j.withPages lack ps).workPages.Perm (j.workPages ++ ps) := by
  have e : ps.take lack.1 ++ ((ps.drop lack.1).take lack.2.1 ++ (ps.drop (lack.1 + lack.2.1)).take lack.2.2) = ps := by
    have h3 : (ps.drop (lack.1 + lack.2.1)).take lack.2.2 = ps.drop (lack.1 + lack.2.1) :=
      List.take_of_length_le (by rw [List.length_drop]; omega)
    rw [h3, ← List.drop_drop, List.take_append_drop, List.take_append_drop]
  simp only [Record.workPages, Record.withPages]
  conv_rhs => rw [← e]
  generalize ps.take lack.1 = x
  generalize (ps.drop lack.1).take lack.2.1 = y
  generalize (ps.drop (lack.1 + lack.2.1)).take lack.2.2 = z
  rw [List.perm_iff_count]
  intro p
  simp only [List.count_append]
  omega

/-- The demand is what the working values lack together (R67). -/
theorem demandOf_eq (s : State) (c : CommandRecord) (j : Record) :
    s.demandOf c j = (s.lackingPages c j).1 + (s.lackingPages c j).2.1 + (s.lackingPages c j).2.2 := rfl

/-- The pages a granted acquisition brings are the demand, no more (R10). -/
theorem length_nextPages_demandOf {s : State} {r : Runner} {c : CommandRecord} {j : Record}
    (hg : acquisitionGranted (.run r) (s.demandOf c j) s = true) :
    (s.nextPages (s.demandOf c j)).length = (s.lackingPages c j).1 + (s.lackingPages c j).2.1 + (s.lackingPages c j).2.2 :=
  length_nextPages hg

/-- A granted acquisition: the first free pages, zeroed, join the record's working values and the step runs (R10, R67). -/
theorem acquireStep_of_granted {s : State} {r : Runner} {c : CommandRecord}
    (hg : acquisitionGranted (.run r) (s.demandOf c (s.record r)) s = true) :
    s.acquireStep r c =
      { (s.takePages (s.demandOf c (s.record r))).setRecord r
          ((s.record r).withPages (s.lackingPages c (s.record r)) (s.nextPages (s.demandOf c (s.record r)))) with
        stepRunning := true } := by
  unfold State.acquireStep
  simp only [hg, if_true]

/-- A refused acquisition changes nothing in the pool and is a shortfall (R12, R107 to R109). -/
theorem acquireStep_of_refused {s : State} {r : Runner} {c : CommandRecord}
    (hg : acquisitionGranted (.run r) (s.demandOf c (s.record r)) s = false) :
    s.acquireStep r c = s.shortfall r c (s.demandOf c (s.record r)) := by
  unfold State.acquireStep
  simp only [hg, Bool.false_eq_true, if_false]

/-- A boundary that takes no request and no preemption is the next step's acquisition, at which no request is pending
(R103, R105, R106, R107). -/
theorem boundary_eq_acquireStep {s : State} {r : Runner} {c : CommandRecord} (ha : (s.record r).abortPending = false)
    (hp : ∀ n, r = .ctx n → (s.record r).parkPending = false) (hu : ∀ n, r = .ctx n → s.headStartable .urgent = false) :
    s.boundary r c = s.acquireStep r c := by
  cases r with
  | urgent =>
    have h : s.urec.abortPending = false := ha
    simp [State.boundary, State.urgentBoundary, h]
  | ctx n =>
    have hs := hu n rfl
    unfold State.headStartable at hs
    simp only [State.boundary, State.normalBoundary, ha, hp n rfl, Bool.false_eq_true, if_false]
    cases he : s.head .urgent with
    | none => rfl
    | some u =>
      have : s.startable u = false := by simpa [he] using hs
      simp [this]

/-- A context that does not pass the wake test stays as it is (R119). -/
theorem wakeContext_of_not_wakes {s : State} {n : CtxId} (h : s.wakes n = false) : s.wakeContext n = s := by
  unfold State.wakeContext
  rw [h]
  rfl

/-- The wake test at the entry into SPACE_WAIT does not wake a context whose acquisition the pool has just refused: in the model no
release or reserve write comes between the two (R118, log entry 21). -/
theorem enterSpaceWait_of_short {s : State} {n : CtxId} {demand : Nat} (hd : s.freeCount < demand + s.reserve) :
    s.enterSpaceWait n demand =
      (s.setRecord (.ctx n) { s.record (.ctx n) with state := .spaceWait, pagesWanted := demand }).raise .space := by
  refine wakeContext_of_not_wakes ?_
  have hw : ∀ v : Record, v.pagesWanted = demand → ((s.setRecord (.ctx n) v).raise .space).wakes n = false := fun v hv => by
    have hr : ((s.setRecord (.ctx n) v).raise .space).record (.ctx n) = v := record_setRecord_self s (.ctx n) v
    unfold State.wakes
    rw [hr, hv]
    exact Bool.and_eq_false_iff.2 (Or.inr (decide_eq_false (Nat.not_le.2 hd)))
  exact hw _ rfl

/-- A refused acquisition of a normal command with nothing pending: its context waits for pages (R108). -/
theorem shortfall_spaceWait {s : State} {n : CtxId} {c : CommandRecord} {demand : Nat} (ha : (s.record (.ctx n)).abortPending = false)
    (hp : (s.record (.ctx n)).parkPending = false) (hd : s.freeCount < demand + s.reserve) :
    s.shortfall (.ctx n) c demand =
      ((s.setRecord (.ctx n) { s.record (.ctx n) with state := .spaceWait, pagesWanted := demand }).raise .space).coreFree := by
  have h : s.shortfall (.ctx n) c demand = (s.enterSpaceWait n demand).coreFree := by
    unfold State.shortfall
    simp only
    rw [ha, hp]
    rfl
  rw [h, enterSpaceWait_of_short hd]

end Sys2Proof.Machine
end

