-- ==== Sys2Proof/Laws/Safety.lean ====
section
/-! SUPPORT. How the counts behind the whole-machine conditions change when one part of the state is replaced: how often a page stands
in the page lists of the part, and how many commands are started. -/

namespace Sys2Proof.Machine

/-! ### Pages -/

/-- How often p stands in the lists of a table, after one entry of the table is replaced. -/
theorem count_flatMap_set {α : Type} {n : Nat} (f : α → List PageId) (t : Vector α n) (i : Fin n) (v : α) (p : PageId) :
    ((t.set i v).toList.flatMap f).count p + (f t[i]).count p = (t.toList.flatMap f).count p + (f v).count p := by
  have key : ∀ (l : List α) (k : Nat) (hk : k < l.length),
      ((l.set k v).flatMap f).count p + (f l[k]).count p = (l.flatMap f).count p + (f v).count p := by
    intro l
    induction l with
    | nil => intro k hk; exact absurd hk (Nat.not_lt_zero k)
    | cons a rest ih =>
      intro k hk
      cases k with
      | zero => simp only [List.set_cons_zero, List.flatMap_cons, List.count_append, List.getElem_cons_zero]; omega
      | succ k =>
        have := ih k (Nat.lt_of_succ_lt_succ hk)
        simp only [List.set_cons_succ, List.flatMap_cons, List.count_append, List.getElem_cons_succ]
        omega
  have h := key t.toList i.val (by simp)
  simpa [Vector.toList_set] using h

theorem count_allPages_setSlot (s : State) (i : SlotId) (v : Slot) (p : PageId) :
    (s.setSlot i v).allPages.count p + (s.slot i).pages.count p = s.allPages.count p + v.pages.count p := by
  have h := count_flatMap_set Slot.pages s.slots i v p
  simp only [State.allPages, State.setSlot, State.slot, List.count_append, Fin.getElem_fin] at *
  omega

theorem count_allPages_setRecord (s : State) (r : Runner) (v : Record) (p : PageId) :
    (s.setRecord r v).allPages.count p + (s.record r).workPages.count p = s.allPages.count p + v.workPages.count p := by
  cases r with
  | urgent =>
    simp only [State.allPages, State.setRecord, State.record, List.count_append]
    omega
  | ctx n =>
    have h := count_flatMap_set Record.workPages s.contexts n v p
    simp only [State.allPages, State.setRecord, State.record, List.count_append, Fin.getElem_fin] at *
    omega

theorem count_allPages_setWindow (s : State) (w : WindowId) (v : Window) (p : PageId) :
    (s.setWindow w v).allPages.count p + (s.window w).staging.count p = s.allPages.count p + v.staging.count p := by
  have h := count_flatMap_set Window.staging s.windows w v p
  simp only [State.allPages, State.setWindow, State.window, List.count_append, Fin.getElem_fin] at *
  omega

/-- The division of the pages, as a count of each: every page stands once (R8, R165). -/
theorem pagesPartition_iff (s : State) : PagesPartition s ↔ ∀ p, s.allPages.count p = 1 := by
  unfold PagesPartition
  rw [List.perm_iff_count]
  refine forall_congr' fun p => ?_
  rw [List.count_eq_one_of_mem (List.nodup_finRange _) (List.mem_finRange p)]

/-! ### Started commands -/

/-- How many commands are started, after one record is replaced (R29). -/
theorem startedCount_setRecord (s : State) (r : Runner) (v : Record) :
    (s.setRecord r v).startedCount + (if (s.record r).state = .free then 0 else 1) =
      s.startedCount + (if v.state = .free then 0 else 1) := by
  have hc : (List.finRange Config.contextCount) = [0, 1, 2, 3] := by decide
  cases r with
  | urgent =>
    have h : ∀ n, (s.setRecord .urgent v).record (.ctx n) = s.record (.ctx n) := fun _ => rfl
    have hu : (s.setRecord .urgent v).urec = v := rfl
    have hs : s.record .urgent = s.urec := rfl
    simp only [State.startedCount, h, hu, hs]
    omega
  | ctx n =>
    have h : ∀ m, (s.setRecord (.ctx n) v).record (.ctx m) = if m = n then v else s.record (.ctx m) := fun m => by
      rw [record_setRecord]
      simp
    have hu : (s.setRecord (.ctx n) v).urec = s.urec := rfl
    have key : ∀ (l : List CtxId), l.Nodup → n ∈ l →
        (l.filter fun m => (if m = n then v else s.record (.ctx m)).state ≠ .free).length +
            (if (s.record (.ctx n)).state = .free then 0 else 1) =
          (l.filter fun m => (s.record (.ctx m)).state ≠ .free).length + (if v.state = .free then 0 else 1) := by
      intro l
      induction l with
      | nil => intro _ hm; cases hm
      | cons a rest ih =>
        intro hn hm
        obtain ⟨ha, hr⟩ := List.nodup_cons.1 hn
        by_cases e : a = n
        · subst e
          have hrest : rest.filter (fun m => (if m = a then v else s.record (.ctx m)).state ≠ .free) =
              rest.filter fun m => (s.record (.ctx m)).state ≠ .free :=
            List.filter_congr fun m hm' => by
              have : m ≠ a := fun e => ha (e ▸ hm')
              simp [this]
          simp only [List.filter_cons, hrest, if_true]
          by_cases h1 : v.state = .free <;> by_cases h2 : (s.record (.ctx a)).state = .free <;> simp [h1, h2]
        · have hm' : n ∈ rest := (List.mem_cons.1 hm).resolve_left fun h => e h.symm
          have := ih hr hm'
          simp only [List.filter_cons, if_neg e]
          by_cases h1 : (s.record (.ctx a)).state = .free <;> simp [h1] at this ⊢ <;> omega
    have := key (List.finRange Config.contextCount) (List.nodup_finRange _) (List.mem_finRange n)
    simp only [State.startedCount, h, hu]
    omega

/-- Only the records' states decide how many commands are started. -/
theorem startedCount_congr {s t : State} (h : ∀ r, (t.record r).state = .free ↔ (s.record r).state = .free) :
    t.startedCount = s.startedCount := by
  have hu : t.urec.state = .free ↔ s.urec.state = .free := h .urgent
  have hf : (List.finRange Config.contextCount).filter (fun n => (t.record (.ctx n)).state ≠ .free) =
      (List.finRange Config.contextCount).filter fun n => (s.record (.ctx n)).state ≠ .free :=
    List.filter_congr fun n _ => by simp [h (.ctx n)]
  unfold State.startedCount
  rw [hf]
  simp only [hu]

end Sys2Proof.Machine
end

