-- ==== Sys2Proof/Laws/Ends.lean ====
section
/-! SUPPORT. Everything a skip test, a new head, the posting of a record and the end of a command do, in the terms of Safety.lean:
the lists removed, the records posted, the flags set. -/

namespace Sys2Proof.Machine

/-! ### Flags as a bit for the commands whose records are posted -/

theorem notifyBit_nil : notifyBit [] = 0 := rfl

/-- A posting sets NOTIFY when one of its commands asks for it (R133). -/
theorem intstat_appendRecords_any (s : State) (rs : List CompletionRecord) (l : List CommandRecord) :
    (s.appendRecords rs (l.any fun c => c.notify)).intstat = s.intstat ||| notifyBit l := by
  rw [intstat_appendRecords]
  unfold notifyBit
  split <;> simp

theorem notifyBit_cons (c : CommandRecord) (l : List CommandRecord) :
    notifyBit (c :: l) = notifyBit [c] ||| notifyBit l := by
  unfold notifyBit
  simp only [List.any_cons, List.any_nil, Bool.or_false]
  by_cases h1 : c.notify = true <;> by_cases h2 : (l.any fun c => c.notify) = true <;> simp [h1, h2]

theorem unstartedRecord_eq (status : Status) (c : CommandRecord) : unstartedRecord status c = recordOfUnstarted status c := rfl

/-! ### The skip test -/

/-- The commands a skip test removes are the SKIP commands at the front, when the latch is set (R37). -/
theorem skipped_eq (k : IntakeQueue) : k.skipped = if k.latch then skipRun k.entries else [] := rfl

/-- What a skip test leaves in its queue (R37). -/
theorem drop_skipped (k : IntakeQueue) :
    k.entries.drop k.skipped.length = if k.latch then k.entries.dropWhile (fun c => c.policy = .skip) else k.entries := by
  rw [skipped_eq]
  split
  · unfold skipRun
    generalize k.entries = l
    induction l with
    | nil => rfl
    | cons c rest ih =>
      by_cases h : c.policy = .skip
      · simpa [h] using ih
      · simp [h]
  · rfl

/-- The flags after a skip test (R133). -/
theorem intstat_skipTest (s : State) (q : QueueId) :
    (s.skipTest q).intstat = s.intstat ||| notifyBit (s.queue q).skipped := by
  unfold State.skipTest
  simp only
  split
  · next h => rw [h, notifyBit_nil]; simp
  · rw [blockedTest_eq, headGone_eq, setQueue_intstat, setQueue_intstat, intstat_appendRecords_any, setQueue_intstat]

/-! ### A new head -/

/-- The queue, the records and the flags after a command has become a head (R33, R37). -/
theorem newHead_spec (s : State) (q : QueueId) :
    ((s.newHead q).queue q).entries =
        (if (s.queue q).latch then (s.queue q).entries.dropWhile (fun c => c.policy = .skip) else (s.queue q).entries) ∧
      ((s.newHead q).queue q).latch = (s.queue q).latch ∧ ((s.newHead q).queue q).limit = (s.queue q).limit ∧
      (∀ p, p ≠ q → (s.newHead q).queue p = s.queue p) ∧
      (s.newHead q).cq =
        s.cq ++ (if (s.queue q).latch then skipRun (s.queue q).entries else []).map (recordOfUnstarted .skipped) ∧
      (s.newHead q).intstat = s.intstat ||| notifyBit (if (s.queue q).latch then skipRun (s.queue q).entries else []) := by
  have hg : (s.headGone q).queue q = { s.queue q with blocked := false, timer := .stopped } := by
    rw [headGone_eq, queue_setQueue_self]
  have hk : ((s.headGone q).queue q).skipped = if (s.queue q).latch then skipRun (s.queue q).entries else [] := by
    rw [hg, skipped_eq]
  obtain ⟨he, hl, hm⟩ := queue_skipTest_self (s.headGone q) q
  rw [drop_skipped] at he
  unfold State.newHead
  rw [blockedTest_eq]
  refine ⟨?_, ?_, ?_, fun p hp => ?_, ?_, ?_⟩
  · rw [queue_setQueue_self]; simp only [he, hg]
  · rw [queue_setQueue_self]; simp only [hl, hg]
  · rw [queue_setQueue_self]; simp only [hm, hg]
  · rw [queue_setQueue, if_neg hp, queue_skipTest_ne _ hp, headGone_eq, queue_setQueue, if_neg hp]
  · rw [setQueue_cq, cq_skipTest, hk, headGone_eq, setQueue_cq]; rfl
  · rw [setQueue_intstat, intstat_skipTest, hk, headGone_eq, setQueue_intstat]

/-- The hold timer and the indicator of a queue whose new head has been tested (R88, R89, R92): a head blocked starts the timer at 0
under a nonzero limit. -/
theorem timer_newHead (s : State) (q : QueueId) :
    ((s.newHead q).queue q).blocked = (s.newHead q).headBlocked q ∧
      ((s.newHead q).queue q).timer =
        if (s.newHead q).headBlocked q = true ∧ (s.queue q).limit ≠ 0 then HoldTimer.running 0 else HoldTimer.stopped := by
  refine ⟨blocked_newHead s q, ?_⟩
  have hb : (s.newHead q).headBlocked q = ((s.headGone q).skipTest q).headBlocked q := headBlocked_blockedTest _ q q
  have hlim : (((s.headGone q).skipTest q).queue q).limit = (s.queue q).limit := by
    rw [(queue_skipTest_self (s.headGone q) q).2.2, headGone_eq, queue_setQueue_self]
  have key : (((s.headGone q).skipTest q).queue q).blocked = false ∨
      ((((s.headGone q).skipTest q).queue q).blocked = ((s.headGone q).skipTest q).headBlocked q ∧
        (((s.headGone q).skipTest q).queue q).timer =
          if ((s.headGone q).skipTest q).headBlocked q then startedTimer (s.queue q).limit else .stopped) := by
    unfold State.skipTest
    simp only
    split
    · left; rw [headGone_eq, queue_setQueue_self]
    · right
      rw [headBlocked_blockedTest, blockedTest_eq, queue_setQueue_self, headGone_eq _ q, headGone_eq _ q, queue_setQueue_self]
      refine ⟨rfl, ?_⟩
      simp
  unfold State.newHead at hb ⊢
  rw [hb, blockedTest_eq, queue_setQueue_self]
  simp only [hlim]
  rcases key with h | ⟨h1, h2⟩
  · rw [h]
    unfold startedTimer
    split_ifs <;> simp_all
  · rw [h1, h2]
    unfold startedTimer
    split_ifs <;> simp_all

/-! ### Hold timers -/

theorem timerAfter_eq (k : IntakeQueue) (blocked : Bool) :
    k.timerAfter blocked = if blocked then (if k.blocked then k.timer else startedTimer k.limit) else .stopped := by
  unfold IntakeQueue.timerAfter startedTimer
  cases blocked <;> cases k.blocked <;> simp

/-- The hold timer after a lock change (R89, R92). -/
theorem timer_locksChanged (s : State) (q : QueueId) :
    (s.locksChanged.queue q).timer = (s.queue q).timerAfter (s.locksChanged.headBlocked q) := by
  have hb : s.locksChanged.headBlocked q = s.headBlocked q :=
    headBlocked_congr (fun i => by simp) (by rw [queue_locksChanged])
  rw [hb, queue_locksChanged, timerAfter_eq]

/-- The indicator and the hold timer after a skip test: those of a new head when it removes the head, and as they stood when it
does not (R37, R89, R92). -/
theorem timer_skipTest {s : State} {q : QueueId} (hb : (s.queue q).blocked = s.headBlocked q) :
    ((s.skipTest q).queue q).blocked = (s.skipTest q).headBlocked q ∧
      ((s.skipTest q).queue q).timer =
        if (s.queue q).skipped = [] then (s.queue q).timer else (s.queue q).timerOfNewHead ((s.skipTest q).headBlocked q) := by
  by_cases h : (s.queue q).skipped = []
  · rw [skipTest_of_skipped_eq_nil h, if_pos h]
    exact ⟨hb, rfl⟩
  · rw [if_neg h]
    unfold State.skipTest
    simp only [if_neg h]
    rw [headBlocked_blockedTest, blockedTest_eq, queue_setQueue_self]
    refine ⟨rfl, ?_⟩
    rw [headGone_eq _ q, queue_setQueue_self, appendRecords_frame]
    cases q <;> simp [IntakeQueue.timerOfNewHead, startedTimer, State.queue, State.setQueue] <;> split_ifs <;> simp_all

/-! ### The posting of a record -/

/-- The posting of a record that sets the latch, and of one that does not (R35, R37, R133, R134). -/
theorem postRecord_spec (s : State) (rec : CompletionRecord) (c : CommandRecord) (hq : rec.queue = c.queue) :
    let sets := rec.status.setsLatch
    let t := s.postRecord rec c.notify
    (t.queue c.queue).latch = ((s.queue c.queue).latch || sets) ∧
      (t.queue c.queue).limit = (s.queue c.queue).limit ∧
      (t.queue c.queue).entries =
        (if sets then (s.queue c.queue).entries.dropWhile (fun d => d.policy = .skip) else (s.queue c.queue).entries) ∧
      (∀ p, p ≠ c.queue → t.queue p = s.queue p) ∧
      t.cq = s.cq ++ rec :: (if sets then skipRun (s.queue c.queue).entries else []).map (recordOfUnstarted .skipped) ∧
      t.intstat = s.intstat |||
        if sets then IntFlag.latch.mask ||| notifyBit (c :: skipRun (s.queue c.queue).entries) else notifyBit [c] := by
  have hn : ∀ x : CompletionRecord, (s.appendRecords [x] c.notify).intstat = s.intstat ||| notifyBit [c] := fun x => by
    have := intstat_appendRecords_any s [x] [c]
    simpa using this
  have hqa : ∀ p, (s.appendRecords [rec] c.notify).queue p = s.queue p := fun p => by
    rw [appendRecords_frame]; cases p <;> rfl
  simp only
  unfold State.postRecord
  cases hs : rec.status.setsLatch with
  | false =>
    simp only [Bool.false_eq_true, if_false, hqa, hn, Bool.or_false, List.map_nil]
    exact ⟨trivial, trivial, trivial, fun _ _ => trivial, by rw [appendRecords_frame], trivial⟩
  | true =>
    simp only [if_true, Bool.or_true, hq]
    set u := ((s.appendRecords [rec] c.notify).setQueue c.queue
      { (s.appendRecords [rec] c.notify).queue c.queue with latch := true }).raise .latch with hu
    have hset : (s.appendRecords [rec] c.notify).setLatch c.queue = u.skipTest c.queue := rfl
    have huq : u.queue c.queue = { s.queue c.queue with latch := true } := by
      rw [hu, raise_queue, queue_setQueue_self, hqa]
    have hk : (u.queue c.queue).skipped = skipRun (s.queue c.queue).entries := by rw [huq, skipped_eq]; rfl
    obtain ⟨he, hl, hm⟩ := queue_skipTest_self u c.queue
    rw [drop_skipped, huq] at he
    rw [huq] at hl hm
    rw [hset]
    refine ⟨hl, hm, by simpa using he, fun p hp => ?_, ?_, ?_⟩
    · rw [queue_skipTest_ne _ hp, hu, raise_queue, queue_setQueue, if_neg hp, hqa]
    · rw [cq_skipTest, hk, hu, raise_cq, setQueue_cq, appendRecords_frame]
      simp only [List.append_assoc, List.singleton_append]
      rfl
    · have hui : u.intstat = (s.intstat ||| notifyBit [c]) ||| IntFlag.latch.mask := by
        rw [hu]
        change (State.setQueue _ _ _).intstat ||| _ = _
        rw [setQueue_intstat, hn]
      rw [intstat_skipTest, hk, hui, notifyBit_cons c (skipRun _)]
      simp only [BitVec.or_assoc]
      congr 1
      rw [← BitVec.or_assoc, BitVec.or_comm (notifyBit [c]), BitVec.or_assoc]

/-- Indicators that are true stay true through the posting of a record, and a hold timer changes only where the posting removes the
head (R35, R37, R89, R92). -/
theorem timers_postRecord {s : State} {rec : CompletionRecord} {notify : Bool}
    (hb : ∀ q, (s.queue q).blocked = s.headBlocked q) (q : QueueId) :
    ((s.postRecord rec notify).queue q).blocked = (s.postRecord rec notify).headBlocked q ∧
      (((s.postRecord rec notify).queue q).timer =
        if q = rec.queue ∧ rec.status.setsLatch = true ∧ skipRun (s.queue q).entries ≠ [] then
          (s.queue q).timerOfNewHead ((s.postRecord rec notify).headBlocked q)
        else (s.queue q).timer) ∧
      (¬ (q = rec.queue ∧ rec.status.setsLatch = true ∧ skipRun (s.queue q).entries ≠ []) →
        (s.postRecord rec notify).headBlocked q = s.headBlocked q) := by
  have hqa : ∀ p, (s.appendRecords [rec] notify).queue p = s.queue p := fun p => by
    rw [appendRecords_frame]; cases p <;> rfl
  have hsa : ∀ i, (s.appendRecords [rec] notify).slot i = s.slot i := fun i => by rw [appendRecords_frame]; rfl
  unfold State.postRecord
  cases hs : rec.status.setsLatch with
  | false =>
    simp only [Bool.false_eq_true, if_false, false_and, and_false, hqa]
    have h : (s.appendRecords [rec] notify).headBlocked q = s.headBlocked q :=
      headBlocked_congr (fun i => by rw [hsa]; exact ⟨rfl, rfl⟩) (by rw [hqa])
    exact ⟨(hb q).trans h.symm, trivial, fun _ => h⟩
  | true =>
    simp only [if_true, true_and]
    set u := ((s.appendRecords [rec] notify).setQueue rec.queue
      { (s.appendRecords [rec] notify).queue rec.queue with latch := true }).raise .latch with hu
    have hset : (s.appendRecords [rec] notify).setLatch rec.queue = u.skipTest rec.queue := rfl
    have huq : ∀ p, u.queue p = if p = rec.queue then { s.queue rec.queue with latch := true } else s.queue p := fun p => by
      rw [hu, raise_queue, queue_setQueue, hqa, hqa]
    have hus : ∀ i, u.slot i = s.slot i := fun i => by rw [hu, ← hsa i]; rcases rec.queue <;> rfl
    have hub : ∀ p, u.headBlocked p = s.headBlocked p := fun p =>
      headBlocked_congr (fun i => by rw [hus]; exact ⟨rfl, rfl⟩) (by rw [huq]; split <;> simp_all)
    rw [hset]
    by_cases hq : q = rec.queue
    · subst hq
      obtain ⟨h1, h2⟩ := timer_skipTest (s := u) (q := rec.queue) (by rw [huq, if_pos rfl, hub]; exact hb _)
      refine ⟨h1, ?_, fun hc => ?_⟩
      · rw [h2, huq, if_pos rfl, skipped_eq]
        by_cases he : skipRun (s.queue rec.queue).entries = [] <;> simp [he, IntakeQueue.timerOfNewHead]
      · have he : skipRun (s.queue rec.queue).entries = [] := by
          by_contra he
          exact hc ⟨rfl, he⟩
        rw [skipTest_of_skipped_eq_nil (by rw [huq, if_pos rfl, skipped_eq]; exact he), hub]
    · rw [queue_skipTest_ne _ hq, huq, if_neg hq, if_neg (fun h => hq h.1)]
      have h : (u.skipTest rec.queue).headBlocked q = s.headBlocked q :=
        (headBlocked_congr (fun i => by rw [skipTest_frame]; exact ⟨rfl, rfl⟩) (by rw [queue_skipTest_ne _ hq])).trans (hub q)
      exact ⟨(hb q).trans h.symm, rfl, fun _ => h⟩

/-! ### The end of a command -/

theorem woken_eq (j : Record) : j.woken = { j with state := .resumable, pagesWanted := 0 } := rfl

/-- The contexts that wake at a free count and a reserve (R119). -/
theorem filter_wakes_eq (s : State) :
    (List.finRange Config.contextCount).filter s.wakes = s.wokenBy s.freeList.length s.reserve := rfl

theorem mem_wokenBy (s : State) (free reserve : Nat) (n : CtxId) :
    n ∈ s.wokenBy free reserve ↔
      (s.record (.ctx n)).state = .spaceWait ∧ (s.record (.ctx n)).pagesWanted + reserve ≤ free := by
  simp [State.wokenBy]

/-- The fields that the shared end of a command can change, from a state that differs only in the fields of a commit. -/
theorem endCommand_frame_of {s s₁ : State} {r : Runner} {gone : List PageId} {rec : CompletionRecord} {notify : Bool}
    (hf : s₁ = { s with slots := s₁.slots, contexts := s₁.contexts, urec := s₁.urec, stepRunning := s₁.stepRunning }) :
    s₁.endCommand r gone rec notify = { s with
      freeList := (s₁.endCommand r gone rec notify).freeList, slots := (s₁.endCommand r gone rec notify).slots
      nq := (s₁.endCommand r gone rec notify).nq, uq := (s₁.endCommand r gone rec notify).uq
      cq := (s₁.endCommand r gone rec notify).cq, intstat := (s₁.endCommand r gone rec notify).intstat
      contexts := (s₁.endCommand r gone rec notify).contexts, urec := (s₁.endCommand r gone rec notify).urec
      resumeList := (s₁.endCommand r gone rec notify).resumeList, owner := (s₁.endCommand r gone rec notify).owner
      preemptPending := (s₁.endCommand r gone rec notify).preemptPending
      stepRunning := (s₁.endCommand r gone rec notify).stepRunning
      ctxreq := (s₁.endCommand r gone rec notify).ctxreq } := by
  rw [State.eq_iff] at hf ⊢
  simp at hf ⊢
  simp [hf]

/-- The contexts that the pages of an ending command wake: not its own (R119, R125). -/
theorem wakes_freed {s s₁ : State} {r : Runner} {gone : List PageId} (hres : s₁.reserve = s.reserve)
    (hfree : s₁.freeList = s.freeList) (hx : ∀ x, x ≠ r → s₁.record x = s.record x) (n : CtxId) :
    ({ s₁.setRecord r Record.free with freeList := (s₁.setRecord r Record.free).freeList ++ gone } : State).wakes n =
      decide (r ≠ .ctx n ∧ n ∈ s.wokenBy (s.freeList.length + gone.length) s.reserve) := by
  have h1 : ({ s₁.setRecord r Record.free with freeList := (s₁.setRecord r Record.free).freeList ++ gone } : State).record (.ctx n) =
      if (Runner.ctx n) = r then Record.free else s.record (.ctx n) := by
    change (s₁.setRecord r Record.free).record (.ctx n) = _
    rw [record_setRecord]
    split
    · rfl
    · next h => exact hx _ h
  have h2 : ({ s₁.setRecord r Record.free with freeList := (s₁.setRecord r Record.free).freeList ++ gone } : State).freeCount =
      s.freeList.length + gone.length := by
    change ((s₁.setRecord r Record.free).freeList ++ gone).length = _
    rw [setRecord_freeList, hfree, List.length_append]
  have h3 : ({ s₁.setRecord r Record.free with freeList := (s₁.setRecord r Record.free).freeList ++ gone } : State).reserve =
      s.reserve := by
    change (s₁.setRecord r Record.free).reserve = _
    rw [setRecord_reserve, hres]
  unfold State.wakes
  rw [h1, h2, h3]
  by_cases h : (Runner.ctx n) = r
  · rw [if_pos h]
    simp [Record.free, h]
  · have h' : ¬ r = .ctx n := fun e => h e.symm
    rw [if_neg h]
    simp [mem_wokenBy, h']

/-- What the end of a command leaves in the records and the resume list (R110, R119, R125). -/
theorem records_endCommand {s s₁ : State} {r : Runner} {gone : List PageId} {rec : CompletionRecord} {notify : Bool}
    (hres : s₁.reserve = s.reserve) (hfree : s₁.freeList = s.freeList) (hlist : s₁.resumeList = s.resumeList)
    (hx : ∀ x, x ≠ r → s₁.record x = s.record x) :
    (∀ n, (s₁.endCommand r gone rec notify).record (.ctx n) =
        if r = .ctx n then Record.free
        else if n ∈ s.wokenBy (s.freeList.length + gone.length) s.reserve then (s.record (.ctx n)).woken
        else s.record (.ctx n)) ∧
      (s₁.endCommand r gone rec notify).urec = (if r = .urgent then Record.free else s.urec) ∧
      (s₁.endCommand r gone rec notify).resumeList =
        s.resumeList ++ (s.wokenBy (s.freeList.length + gone.length) s.reserve).filter fun n => r ≠ .ctx n := by
  have hwake := wakes_freed (gone := gone) hres hfree hx
  refine ⟨fun n => ?_, ?_, ?_⟩
  · rw [record_endCommand, record_release_ctx, hwake, record_setRecord]
    by_cases h : r = .ctx n
    · simp [h]
    · have h' : ¬ (Runner.ctx n) = r := fun e => h e.symm
      rw [if_neg h', if_neg h, hx _ h']
      by_cases hw : n ∈ s.wokenBy (s.freeList.length + gone.length) s.reserve <;> simp [h, hw, woken_eq]
  · have : (s₁.endCommand r gone rec notify).urec = (s₁.setRecord r Record.free).record .urgent := by
      change (s₁.endCommand r gone rec notify).record .urgent = _
      rw [record_endCommand]
      exact urec_release _ _
    rw [this, record_setRecord]
    by_cases h : r = .urgent
    · simp [h]
    · have h' : ¬ Runner.urgent = r := fun e => h e.symm
      rw [if_neg h, if_neg h', hx _ h']
      rfl
  · have : (s₁.endCommand r gone rec notify).resumeList = ((s₁.setRecord r Record.free).release gone).resumeList := by
      simp [State.endCommand]
    rw [this]
    refine (congrArg State.resumeList (release_frame _ gone)).trans
      (congrArg₂ (· ++ ·) ((setRecord_resumeList _ _ _).trans hlist) ((List.filter_congr fun n _ => hwake n).trans ?_))
    unfold State.wokenBy
    rw [List.filter_filter]
    refine List.filter_congr fun n _ => ?_
    simp

/-- What the end of a command leaves in the queues, the Completion Queue and INTSTAT (R35, R37, R133). -/
theorem posts_endCommand {s s₁ : State} {r : Runner} {c : CommandRecord} {gone : List PageId} {rec : CompletionRecord}
    (hqueue : ∀ p, s₁.queue p = s.queue p) (hcq : s₁.cq = s.cq) (hint : s₁.intstat = s.intstat) (hq : rec.queue = c.queue) :
    let sets := rec.status.setsLatch
    let t := s₁.endCommand r gone rec c.notify
    (t.queue c.queue).latch = ((s.queue c.queue).latch || sets) ∧
      (∀ p, (t.queue p).limit = (s.queue p).limit) ∧
      (t.queue c.queue).entries =
        (if sets then (s.queue c.queue).entries.dropWhile (fun d => d.policy = .skip) else (s.queue c.queue).entries) ∧
      (∀ p, p ≠ c.queue → (t.queue p).entries = (s.queue p).entries ∧ (t.queue p).latch = (s.queue p).latch) ∧
      t.cq = s.cq ++ rec :: (if sets then skipRun (s.queue c.queue).entries else []).map (recordOfUnstarted .skipped) ∧
      t.intstat = s.intstat |||
        if sets then IntFlag.latch.mask ||| notifyBit (c :: skipRun (s.queue c.queue).entries) else notifyBit [c] := by
  obtain ⟨u, hu⟩ : ∃ u, u = (((s₁.setRecord r Record.free).release gone).releaseLocks (.run r)).locksChanged := ⟨_, rfl⟩
  have htq : ∀ p, (s₁.endCommand r gone rec c.notify).queue p = (u.postRecord rec c.notify).queue p := fun p => by
    rw [hu]; simp [State.endCommand]
  have huq : ∀ p, (u.queue p).entries = (s.queue p).entries ∧ (u.queue p).latch = (s.queue p).latch ∧
      (u.queue p).limit = (s.queue p).limit := fun p => by
    have : (((s₁.setRecord r Record.free).release gone).releaseLocks (.run r)).queue p = s.queue p := by
      rw [← hqueue p]; simp
    rw [hu, queue_locksChanged, this]
    exact ⟨rfl, rfl, rfl⟩
  have hucq : u.cq = s.cq := by rw [hu]; simp [hcq]
  have huint : u.intstat = s.intstat := by rw [hu]; simp [hint]
  have h1 : (s₁.endCommand r gone rec c.notify).cq = (u.postRecord rec c.notify).cq := by rw [hu]; simp [State.endCommand]
  have h2 : (s₁.endCommand r gone rec c.notify).intstat = (u.postRecord rec c.notify).intstat := by
    rw [hu]; simp [State.endCommand]
  clear hu
  obtain ⟨p1, p2, p3, p4, p5, p6⟩ := postRecord_spec u rec c hq
  rw [(huq c.queue).2.1] at p1
  rw [(huq c.queue).2.2] at p2
  rw [(huq c.queue).1] at p3
  rw [(huq c.queue).1, hucq] at p5
  rw [(huq c.queue).1, huint] at p6
  refine ⟨(htq _).symm ▸ p1, fun p => ?_, (htq _).symm ▸ p3, fun p hp => ?_, h1.trans p5, h2.trans p6⟩
  · rw [htq]
    by_cases hp : p = c.queue
    · rw [hp, p2]
    · rw [p4 p hp, (huq p).2.2]
  · rw [htq, p4 p hp]
    exact ⟨(huq p).1, (huq p).2.1⟩

/-- The indicators and the hold timers after the end of a command (R84, R89, R92, R110). -/
theorem timers_endCommand {s s₁ : State} {r : Runner} {gone : List PageId} {rec : CompletionRecord} {notify : Bool}
    (hqueue : ∀ p, s₁.queue p = s.queue p) (q : QueueId) :
    let t := s₁.endCommand r gone rec notify
    (t.queue q).blocked = t.headBlocked q ∧
      (t.queue q).timer =
        if q = rec.queue ∧ rec.status.setsLatch = true ∧ skipRun (s.queue q).entries ≠ [] then
          (s.queue q).timerOfNewHead (t.headBlocked q)
        else (s.queue q).timerAfter (t.headBlocked q) := by
  obtain ⟨v, hv⟩ : ∃ v, v = ((s₁.setRecord r Record.free).release gone).releaseLocks (.run r) := ⟨_, rfl⟩
  have hvq : ∀ p, v.queue p = s.queue p := fun p => by rw [hv, ← hqueue p]; simp
  have hlb : ∀ p, v.locksChanged.headBlocked p = v.headBlocked p := fun p =>
    headBlocked_congr (fun i => by rw [locksChanged_frame]; exact ⟨rfl, rfl⟩) (by rw [queue_locksChanged])
  have hb : ∀ p, (v.locksChanged.queue p).blocked = v.locksChanged.headBlocked p := fun p => by
    rw [hlb, queue_locksChanged]
  obtain ⟨h1, h2, h3⟩ := timers_postRecord (rec := rec) (notify := notify) hb q
  have hent : (v.locksChanged.queue q).entries = (s.queue q).entries := by rw [queue_locksChanged, ← hvq]
  have hlim : (v.locksChanged.queue q).limit = (s.queue q).limit := by rw [queue_locksChanged, ← hvq]
  have htq : (s₁.endCommand r gone rec notify).queue q = (v.locksChanged.postRecord rec notify).queue q := by
    rw [hv]; simp [State.endCommand]
  have htb : (s₁.endCommand r gone rec notify).headBlocked q = (v.locksChanged.postRecord rec notify).headBlocked q :=
    headBlocked_congr (fun i => by rw [hv]; simp [State.endCommand, State.slot]) (by rw [htq])
  simp only
  rw [htq, htb]
  refine ⟨h1, ?_⟩
  rw [h2, hent]
  split
  · simp only [IntakeQueue.timerOfNewHead, hlim]
  · next hc =>
    rw [(h3 (by rw [hent]; exact hc)).trans (hlb q), timerAfter_eq, queue_locksChanged, hvq]

/-- Everything that the shared end of a command does: s is the state when the command ends, s₁ that state with the commit's slots and
with the fields of the ending command's own record at anything (R84, R110, R119, R125, R133). -/
theorem commandEnds_endCommand {s s₁ : State} {r : Runner} {c : CommandRecord} {rec : CompletionRecord} {gone : List PageId}
    (hf : s₁ = { s with slots := s₁.slots, contexts := s₁.contexts, urec := s₁.urec, stepRunning := s₁.stepRunning })
    (hx : ∀ x, x ≠ r → s₁.record x = s.record x) (hq : rec.queue = c.queue)
    (hs : rec.status.setsLatch = decide (rec.status ≠ .done)) :
    CommandEnds s (s₁.endCommand r gone rec c.notify) r c rec gone s₁.slot := by
  have hres : s₁.reserve = s.reserve := by rw [hf]
  have hfree : s₁.freeList = s.freeList := by rw [hf]
  have hlist : s₁.resumeList = s.resumeList := by rw [hf]
  have hcq : s₁.cq = s.cq := by rw [hf]
  have hint : s₁.intstat = s.intstat := by rw [hf]
  have hqueue : ∀ p, s₁.queue p = s.queue p := fun p => by rw [hf]; cases p <;> rfl
  obtain ⟨c1, c2, c3⟩ := records_endCommand (gone := gone) (rec := rec) (notify := c.notify) hres hfree hlist hx
  obtain ⟨p1, p2, p3, p4, p5, p6⟩ := posts_endCommand (r := r) (gone := gone) hqueue hcq hint hq
  rw [hs] at p1 p3 p5 p6
  have hb := fun q => timers_endCommand (r := r) (gone := gone) (rec := rec) (notify := c.notify) hqueue q
  refine ⟨?_, c1, c2, c3, fun i => ?_, p1, ?_, ?_, p4, p2, fun q => (hb q).1, fun q => ?_, ?_, endCommand_frame_of hf⟩
  · rw [endCommand_freeList, hfree]
  · rw [slot_endCommand]
    simp [Slot.unlock, dropReader]
  · rw [p3]; by_cases h : rec.status = .done <;> simp [h]
  · rw [p5]; by_cases h : rec.status = .done <;> simp [h]
  · rw [(hb q).2, hq, hs]; simp only [decide_eq_true_eq]
  · rw [p6]; by_cases h : rec.status = .done <;> simp [h]

/-- What CommandEnds says does not depend on the Core, the preemption indicator or the CTXREQ result. -/
theorem CommandEnds.of_eq {s t t' : State} {r : Runner} {c : CommandRecord} {rec : CompletionRecord} {gone : List PageId}
    {slots : SlotId → Slot} (h : CommandEnds s t r c rec gone slots)
    (e : t' = { t with
      owner := t'.owner, preemptPending := t'.preemptPending, stepRunning := t'.stepRunning, ctxreq := t'.ctxreq }) :
    CommandEnds s t' r c rec gone slots := by
  have hq : ∀ q, t'.queue q = t.queue q := fun q => by rw [e]; cases q <;> rfl
  have hr : ∀ x, t'.record x = t.record x := fun x => by rw [e]; cases x <;> rfl
  have hs : ∀ i, t'.slot i = t.slot i := fun i => by rw [e]; rfl
  have hb : ∀ q, t'.headBlocked q = t.headBlocked q := fun q =>
    headBlocked_congr (fun i => by rw [hs]; exact ⟨rfl, rfl⟩) (by rw [hq])
  obtain ⟨h1, h2, h3, h4, h5, h6, h7, h8, h9, h10, hi, ht, h11, h12⟩ := h
  refine ⟨?_, fun n => (hr _).trans (h2 n), ?_, ?_, fun i => (hs i).trans (h5 i), ?_, ?_, ?_, fun q hn => ?_, fun q => ?_,
    fun q => ?_, fun q => ?_, ?_, ?_⟩
  · rw [e, ← h1]
  · rw [e, ← h3]
  · rw [e, ← h4]
  · rw [hq, h6]
  · rw [hq, h7]
  · rw [e, ← h8]
  · rw [hq]; exact h9 q hn
  · rw [hq, h10]
  · rw [hq, hb]; exact hi q
  · rw [hq, hb]; exact ht q
  · rw [e, ← h11]
  · rw [State.eq_iff] at e h12 ⊢
    simp at e h12 ⊢
    simp [e, h12]

/-- An end on the Core that installs nothing, from a state that differs from s only in the ending command's own record and in the
running step (R77, R79, R110). -/
theorem commandEnds_coreEndUninstalled {s s₁ : State} {r : Runner} {c : CommandRecord} {status : Status}
    (hf : s₁ = { s with contexts := s₁.contexts, urec := s₁.urec, stepRunning := s₁.stepRunning })
    (hx : ∀ x, x ≠ r → s₁.record x = s.record x) (hs : status.setsLatch = true) :
    CommandEnds s (s₁.coreEndUninstalled r c status) r c (recordOfEnded status r c (s₁.record r).stepsDone)
      (s₁.record r).workPages s.slot := by
  have hslots : s₁.slot = s.slot := by funext i; rw [hf]; rfl
  have hst : status ≠ .done := fun e => by rw [e] at hs; exact absurd hs (by decide)
  have h := commandEnds_endCommand (s := s) (s₁ := s₁) (r := r) (c := c) (gone := (s₁.record r).workPages)
    (rec := recordOfEnded status r c (s₁.record r).stepsDone) (by rw [State.eq_iff] at hf ⊢; simp at hf ⊢; simp [hf]) hx rfl
    (by simp [recordOfEnded, hs, hst])
  rw [hslots] at h
  exact h.of_eq rfl

end Sys2Proof.Machine
end

