-- ==== Sys2Proof/Laws/PerInstr.lean ====
section
/-! SUPPORT. Which commands are well formed, command by command: all of them, but a REGISTER_WRITE to an offset that has a row of its own. -/

namespace Sys2Proof.Laws.WellFormed

/-- A command is well formed unless it is a REGISTER_WRITE to an offset that has a row of its own. -/
def Statement (i : Instr) : Prop :=
  i.wellFormed = true ∨ ∃ offset data, i = .registerWrite offset data ∧ offsetHasOwnRow offset = true

theorem hardwareReset (l : PinLevel) : Statement (.hardwareReset l) := .inl rfl

theorem softReset : Statement .softReset := .inl rfl

theorem flushN : Statement .flushN := .inl rfl

theorem flushU : Statement .flushU := .inl rfl

theorem clearLatchN : Statement .clearLatchN := .inl rfl

theorem clearLatchU : Statement .clearLatchU := .inl rfl

theorem post (d : Word) : Statement (.post d) := .inl rfl

theorem cqpop (d : Word) : Statement (.cqpop d) := .inl rfl

theorem intstatWrite (d : Word) : Statement (.intstatWrite d) := .inl rfl

theorem intenWrite (d : Word) : Statement (.intenWrite d) := .inl rfl

theorem tbdivWrite (d : Word) : Statement (.tbdivWrite d) := .inl rfl

theorem holdlimWrite (d : Word) : Statement (.holdlimWrite d) := .inl rfl

theorem poolresWrite (d : Word) : Statement (.poolresWrite d) := .inl rfl

theorem registerWrite (o : Offset) (d : Word) : Statement (.registerWrite o d) := by
  cases h : offsetHasOwnRow o with
  | true => exact .inr ⟨o, d, rfl, h⟩
  | false => exact .inl (by simp [Instr.wellFormed, h])

theorem park (t : BitVec 3) : Statement (.park t) := .inl rfl

theorem resume (t : BitVec 3) : Statement (.resume t) := .inl rfl

theorem abort (t : BitVec 3) : Statement (.abort t) := .inl rfl

theorem abortUrgent (t : BitVec 3) : Statement (.abortUrgent t) := .inl rfl

theorem setProtect : Statement .setProtect := .inl rfl

theorem clearProtect : Statement .clearProtect := .inl rfl

theorem openRead (w : WindowId) (f : SlotField) : Statement (.openRead w f) := .inl rfl

theorem openWrite (w : WindowId) (f : SlotField) (n : BitVec 10) (g : Sign) : Statement (.openWrite w f n g) := .inl rfl

theorem seek (w : WindowId) (n : BitVec 10) : Statement (.seek w n) := .inl rfl

theorem close (w : WindowId) : Statement (.close w) := .inl rfl

theorem cancel (w : WindowId) : Statement (.cancel w) := .inl rfl

theorem windowDataWrite (w : WindowId) (d : Word) : Statement (.windowDataWrite w d) := .inl rfl

theorem windowDataRead (w : WindowId) : Statement (.windowDataRead w) := .inl rfl

theorem winstatWrite (w : WindowId) (d : Word) : Statement (.winstatWrite w d) := .inl rfl

theorem timebaseEvent : Statement .timebaseEvent := .inl rfl

theorem holdExpiry (q : QueueId) : Statement (.holdExpiry q) := .inl rfl

theorem selection : Statement .selection := .inl rfl

theorem stepBegin : Statement .stepBegin := .inl rfl

theorem stepEnd : Statement .stepEnd := .inl rfl

end Sys2Proof.Laws.WellFormed
end

