-- ==== Sys2Proof/Laws/Starts.lean ====
section
/-! SUPPORT. Everything that a start does, in the terms of Safety.lean: the record filled, the locks taken, the queue left behind. -/

namespace Sys2Proof.Machine

/-- Everything that a start does (R33, R37, R83, R89, R99, R100, R102). -/
theorem start_spec (s : State) (q : QueueId) (r : Runner) (c : CommandRecord) (rest : List CommandRecord)
    (he : (s.queue q).entries = c :: rest) :
    (∀ x, (s.start q r c).record x = if x = r then Record.justStarted c (s.stepTotalOf c) else s.record x) ∧
      (∀ i, (s.start q r c).slot i =
        { s.slot i with
          writer := if ∃ f ∈ c.dests, f.toNat = i.val then some (.run r) else (s.slot i).writer
          readers := ((s.start q r c).slot i).readers }) ∧
      (∀ i h, h ∈ ((s.start q r c).slot i).readers ↔
        h ∈ (s.slot i).readers ∨ (h = .run r ∧ ∃ f ∈ c.sources, f.toNat = i.val)) ∧
      ((s.start q r c).queue q).entries =
        (if (s.queue q).latch then rest.dropWhile (fun d => d.policy = .skip) else rest) ∧
      (s.start q r c).cq = s.cq ++ (if (s.queue q).latch then (skipRun rest).map (recordOfUnstarted .skipped) else []) ∧
      (s.start q r c).intstat = s.intstat ||| (if (s.queue q).latch then notifyBit (skipRun rest) else 0) ∧
      (∀ p, p ≠ q → ((s.start q r c).queue p).entries = (s.queue p).entries) ∧
      (∀ p, ((s.start q r c).queue p).latch = (s.queue p).latch ∧ ((s.start q r c).queue p).limit = (s.queue p).limit ∧
        ((s.start q r c).queue p).blocked = (s.start q r c).headBlocked p ∧
        ((s.start q r c).queue p).timer =
          if p = q then (s.queue p).timerOfNewHead ((s.start q r c).headBlocked p)
          else (s.queue p).timerAfter ((s.start q r c).headBlocked p)) ∧
      (s.start q r c).preemptPending = (s.start q r c).preemptDue ∧
      s.start q r c = { s with
        owner := some r, stepRunning := false, contexts := (s.start q r c).contexts, urec := (s.start q r c).urec
        slots := (s.start q r c).slots, nq := (s.start q r c).nq, uq := (s.start q r c).uq, cq := (s.start q r c).cq
        intstat := (s.start q r c).intstat, preemptPending := (s.start q r c).preemptPending } := by
  obtain ⟨u, hu⟩ : ∃ u, u = ({ ((s.takeLocks (.run r) c.dests c.sources).dropHead q).setRecord r
      (Record.started c (s.stepTotalOf c)) with owner := some r, stepRunning := false } : State) := ⟨_, rfl⟩
  have hs : s.start q r c = (u.newHead q).locksChanged := by rw [hu]; rfl
  have hq : ∀ p, u.queue p = if p = q then { s.queue q with entries := rest } else s.queue p := fun p => by
    have h1 : u.queue p = ((s.takeLocks (.run r) c.dests c.sources).dropHead q).queue p := by
      rw [hu]; cases p <;> cases r <;> rfl
    rw [h1, dropHead_eq, queue_setQueue, takeLocks_queue, takeLocks_queue, he]
    rfl
  have hself : u.queue q = { s.queue q with entries := rest } := by rw [hq, if_pos rfl]
  have hcq : u.cq = s.cq := by rw [hu]; simp
  have hint : u.intstat = s.intstat := by rw [hu]; simp
  obtain ⟨n1, n2, n3, n4, n5, n6⟩ := newHead_spec u q
  simp only [hself] at n1 n2 n3 n5 n6
  rw [hcq] at n5
  rw [hint] at n6
  have hlq : ∀ p, (s.start q r c).queue p = { (u.newHead q).queue p with
      blocked := ((s.start q r c).queue p).blocked, timer := ((s.start q r c).queue p).timer } := fun p => by
    rw [hs, queue_locksChanged]
  have hlb : ∀ p, (u.newHead q).locksChanged.headBlocked p = (u.newHead q).headBlocked p := fun p =>
    headBlocked_congr (fun i => by simp) (by rw [queue_locksChanged])
  have hb : ∀ p, ((s.start q r c).queue p).blocked = (s.start q r c).headBlocked p := fun p => by
    rw [hs, hlb, queue_locksChanged]
  have ht : ∀ p, ((s.start q r c).queue p).timer =
      if p = q then (s.queue p).timerOfNewHead ((s.start q r c).headBlocked p)
      else (s.queue p).timerAfter ((s.start q r c).headBlocked p) := fun p => by
    rw [hs, hlb, queue_locksChanged]
    by_cases hp : p = q
    · subst hp
      obtain ⟨t1, t2⟩ := timer_newHead u p
      rw [if_pos rfl, t1, t2, hself, n3]
      simp only [IntakeQueue.timerOfNewHead, startedTimer]
      cases (u.newHead p).headBlocked p <;> simp
    · rw [if_neg hp, timerAfter_eq, n4 p hp, hq, if_neg hp]
  have hslot : ∀ i, (s.start q r c).slot i = (s.takeLocks (.run r) c.dests c.sources).slot i := fun i => slot_start s q r c i
  refine ⟨fun x => record_start s q r x c, fun i => ?_, fun i h => ?_, ?_, ?_, ?_, fun p hp => ?_, fun p => ⟨?_, ?_, hb p, ht p⟩, ?_, ?_⟩
  · rw [hslot, slot_takeLocks]
    simp only [slotNumber_eq_some]
  · rw [hslot, slot_takeLocks]
    simp only [slotNumber_eq_some]
    split
    · next hf => simp [hf, or_comm]
    · next hf => simp [hf]
  · rw [hlq]; exact n1
  · have : (s.start q r c).cq = (u.newHead q).cq := by rw [hs]; simp
    rw [this, n5]; split <;> rfl
  · have : (s.start q r c).intstat = (u.newHead q).intstat := by rw [hs]; simp
    rw [this, n6]; split <;> rfl
  · rw [hlq]; simp only [n4 p hp, hq, if_neg hp]
  · rw [hlq]
    by_cases hp : p = q
    · rw [hp]; exact n2
    · simp only [n4 p hp, hq, if_neg hp]
  · rw [hlq]
    by_cases hp : p = q
    · rw [hp]; exact n3
    · simp only [n4 p hp, hq, if_neg hp]
  · rw [hs, preemptPending_locksChanged]
    exact (preemptDue_congr (fun i => by simp) (by
      have := congrArg (fun k : IntakeQueue => k.entries.head?) (queue_locksChanged (u.newHead q) .urgent)
      exact this) (by simp)).symm
  · rw [State.eq_iff]
    simp [State.start]

end Sys2Proof.Machine
end

