-- ==== Sys2Proof/Tests/Slice0.lean ====
section
/-! SUPPORT. Small tests of the model: the well-formedness check, examples of the manual, and for each statement with hypotheses a
state and operands that meet them, clause by clause, at the edges of their ranges. -/

namespace Sys2Proof.Tests

open Sys2Proof Sys2Proof.Machine

-- One theorem after another: a test that the kernel evaluates waits for every declaration before it, and would hold a thread.
set_option Elab.async false

/-! ### Well-formedness -/

theorem test_wellFormed_refuses_devctl : (Instr.registerWrite 0x00 0).wellFormed = false := by decide
theorem test_wellFormed_refuses_post : (Instr.registerWrite 0x0C 5).wellFormed = false := by decide
theorem test_wellFormed_refuses_winstat : (Instr.registerWrite 0x26 1).wellFormed = false := by decide
theorem test_wellFormed_takes_staging : (Instr.registerWrite 0x08 5).wellFormed = true := by decide
theorem test_wellFormed_takes_undefined : (Instr.registerWrite 0x3F 5).wellFormed = true := by decide
theorem test_decodeTableWord_none : decodeTableWord 32 5 = none := rfl

/-! ### Small states -/

/-- A command on slots 1, 2 (destinations) and 3, 4, 5 (sources). -/
def ofKind (kind : Kind) : CommandRecord :=
  { kind := kind, queue := .normal, policy := .run, notify := true, tag := 7, d := 1, d2 := 2, a := 3, b := 4, m := 5, imm := 3 }

def urgentOf (kind : Kind) : CommandRecord := { ofKind kind with queue := .urgent }

/-- The state with a value of one limb in a slot. -/
def holding (i : SlotId) (sign : Sign) (p : PageId) (limb : Limb) (s : State) : State :=
  { s.setSlot i { s.slot i with sign := sign, length := 1, pages := [p] } with
    mem := s.mem.write (16 * p.val) limb, freeList := s.freeList.filter (· ≠ p) }

/-- Slots 3, 4 and 5 hold 6, 4 and 7. -/
def filled : State := holding 5 .pos 2 7 (holding 4 .pos 1 4 (holding 3 .pos 0 6 State.reset))

def jobOf (c : CommandRecord) (step total : Nat) : Record :=
  { Record.free with state := .active, command := some c, nextStep := step, stepTotal := total, stepsDone := step, checksMade := true }

/-- A command on the Core in context 0, its step running or not. -/
def onCore (running : Bool) (j : Record) (s : State) : State :=
  { s.setRecord (.ctx 0) j with owner := some (.ctx 0), stepRunning := running }

def urgentOnCore (running : Bool) (j : Record) (s : State) : State := { s with owner := some .urgent, stepRunning := running, urec := j }

def queued (q : QueueId) (entries : List CommandRecord) (s : State) : State := s.setQueue q { s.queue q with entries := entries }

/-- The state after a command that answers next. -/
def after (c : Instr) (s : State) : State :=
  match exec c s with
  | .next t => t
  | .fault _ => s
  | .refused _ => s

def staged (w0 w1 w2 w3 : Word) (s : State) : State := { s with subw := #v[w0, w1, w2, w3] }

/-! ### Examples of the manual -/

/-- COPY, SETI, ADD, MUL, DIVMOD, MODMUL and MODEXP of one-limb values (R66). -/
theorem test_step_totals :
    [Kind.copy, .seti, .add, .mul, .divmod, .modmul, .modexp, .gcd, .cmp].map (fun k => filled.stepTotalOf (ofKind k)) =
      [2, 1, 2, 2, 2, 5, 5, 0, 1] := by decide +kernel

theorem test_pages_needed : [pg 0, pg 1, pg 16, pg 17, pg 512] = [0, 1, 1, 2, 32] := by decide

theorem test_post_results :
    ([staged 0 0 0 0, staged 16 0 0 0, staged 1 0x00300001 0 0, staged 1 0x002F002F 0 0, staged 8 0x00000101 0 0,
        staged 5 0x00000001 0 16385, staged 5 0x00000001 0 16384, fun s => { staged 1 0 0 0 s with credits := 0 },
        fun s => queued .normal (List.replicate 12 (ofKind .copy)) (staged 1 0 0 0 s),
        fun s => queued .normal (List.replicate 11 (ofKind .copy)) (staged 1 0 0 0 s),
        fun s => queued .urgent (List.replicate 4 (urgentOf .copy)) (staged 0x101 0 0 0 s)].map
      fun f => (after (.post 0) (f State.reset)).lastres) =
      [.badKind, .badKind, .badSlot, .accepted, .badForm, .badForm, .accepted, .noCredit, .queueFull, .accepted, .queueFull] := by
  decide +kernel

/-- An ADD of 6 and 4 in one later step: WV0 becomes 10, and the step is the last (R73). -/
theorem test_add_step :
    let j := { jobOf (ofKind .add) 1 2 with carry := some { form := .sum, sign := .pos, carry := false }, wv0 := { pages := [9], length := 0 } }
    let w := filled.stepWork (ofKind .add) j
    (w.mag .wv0, w.job.wv0.length, w.lastStep .add 1) = (10, 2, true) := by decide +kernel

/-- The commit of that ADD: slot 1 holds 10 with length 1, and the record says DONE (R6, R62, R77). -/
theorem test_add_commit :
    let j := { jobOf (ofKind .add) 1 2 with carry := some { form := .sum, sign := .pos, carry := false }, wv0 := { pages := [9], length := 0 } }
    let t := after .stepEnd (onCore true j filled)
    (t.slotValue 1, t.cq.map (fun r => (r.status, r.count, r.stepsDone)), t.owner, t.attnN) =
      ({ sign := .pos, length := 1, mag := 10 }, [(Status.done, 1, 2)], none, PinLevel.high) := by decide +kernel

/-- 6 divided by 4 in one later step (R74). -/
theorem test_divmod_step :
    let j := { jobOf (ofKind .divmod) 1 2 with wv0 := { pages := [9], length := 0 }, wv1 := { pages := [10], length := 2 } }
    let s := { filled with mem := filled.mem.write 160 6 }
    let w := s.stepWork (ofKind .divmod) j
    (w.mag .wv0, w.mag .wv1) = (1, 2) := by decide +kernel

/-- A record of MODINV with one page for each working value, before a step of its search. -/
def searching (step n : Nat) : Record :=
  { jobOf (ofKind .modinv) step 0 with
    wv0 := { pages := [9], length := n }, wv1 := { pages := [10], length := n }, wv2 := { pages := [11], length := 2 * n } }

/-- The working values of the search (x, y) with the coefficients cx and cy, each number of one limb. -/
def searchMem (x y cx cy : Limb) : Memory := (((filled.mem.write 144 cx).write 160 x).write 176 y).write 177 cy

/-- The search for the inverse of 6 modulo 7: the pairs (7, 6), (6, 1), (1, 0), and 6 in WV0 at its end (R57, R76). -/
theorem test_modinv_search :
    let w1 := filled.stepWork (ofKind .modinv) (searching 1 0)
    let w2 := { filled with mem := w1.mem }.stepWork (ofKind .modinv) { w1.job with nextStep := 2 }
    let w3 := { filled with mem := w2.mem }.stepWork (ofKind .modinv) { w2.job with nextStep := 3 }
    (w1.search, w1.lastStep .modinv 1) = ({ x := 7, y := 6, cx := 0, cy := 1 }, false) ∧
      (w2.search, w2.lastStep .modinv 2) = ({ x := 6, y := 1, cx := 1, cy := 1 }, false) ∧
      (w3.search.x, w3.search.y, w3.mag .wv0, w3.lastStep .modinv 3) = (1, 0, 6, true) := by decide +kernel

/-- A write session: open, one limb, CLOSE; the slot holds the value and OVERRUN is clear (R147, R149, R152). -/
theorem test_write_session :
    let s := after (.windowDataWrite 0 9) (after (.openWrite 0 1 1 .neg) State.reset)
    let t := after (.close 0) s
    (t.slotValue 1, (t.window 0).overrun, t.freeList.length) = ({ sign := .neg, length := 1, mag := 9 }, false, 255) := by
  decide +kernel

/-- The worked example of chapter 10: POST, CQSTAT, CQHEAD0 and CQHEAD1 as read (R27, R135, R163). -/
theorem test_read_words :
    let posted := after (.post 0) (staged 0x0042050D 0x09070000 0 0 State.reset)
    let done := { State.reset with cq :=
      [{ tag := 0x42, kind := .cmp, queue := .urgent, status := .done, holder := some .urgent, sign := .pos, zero := false
         relation := .lt, count := 0, stepsDone := 1 }] }
    [posted.readRegister 0x0C, done.readRegister 0x13, done.readRegister 0x10, done.readRegister 0x11] =
      [0x01000F01, 1, 0x516D0042, 1] := by decide +kernel

/-- A boundary begins the next step with its acquisition in one event, granted or refused (R105, R107, R108). -/
theorem test_boundary_acquires :
    let s := onCore true (jobOf (ofKind .copy) 0 2) filled
    let t := after .stepEnd s
    let u := after .stepEnd { s with freeList := [] }
    (t.stepRunning, t.owner, (t.record (.ctx 0)).wv0.pages, t.freeList.length) = (true, some (.ctx 0), [3], 252) ∧
      (u.stepRunning, u.owner, (u.record (.ctx 0)).state, (u.record (.ctx 0)).pagesWanted) = (false, none, .spaceWait, 1) := by
  decide +kernel

/-! ### The commands of a host write, one of each -/

theorem test_commandsOfWrite :
    [commandsOfWrite 0x00 0x1E, commandsOfWrite 0x00 0x1F, commandsOfWrite 0x14 0x203, commandsOfWrite 0x20 0x00218502,
        commandsOfWrite 0x24 0x01FF0003, commandsOfWrite 0x1F 3, commandsOfWrite 0x08 5] =
      [[.flushN, .flushU, .clearLatchN, .clearLatchU], [.softReset], [.abort 2], [.openWrite 0 5 0x21 .neg], [.seek 1 0x1FF], [],
        [.registerWrite 0x08 5]] := by decide

/-! ### Hypotheses that are met: resets, the timebase, the Intake -/

theorem test_witness_StepTakesFrontCommand :
    ∃ (c : Instr) (rest : List Instr) (s : State), s.pending = c :: rest :=
  ⟨.selection, [.stepBegin], { State.reset with pending := [.selection, .stepBegin] }, rfl⟩

theorem test_witness_HardwareResetPin :
    State.reset.resetN = .high ∧ ({ State.reset with resetN := .low } : State).resetN = .low ∧
      (∀ level, Instr.selection ≠ .hardwareReset level) ∧ ∀ w, Instr.selection ≠ .windowDataRead w := by
  refine ⟨rfl, rfl, ?_, ?_⟩ <;> (intro x h; cases h)

theorem test_witness_SoftResetState : filled.resetN = .high := rfl

theorem test_witness_TbdivWriteRestartsTimebase : State.reset.resetN = .high ∧ State.reset.pending = [] ∧ 0 < 16 * (0 + 1) ∧ 4095 < 16 * (255 + 1) := by
  decide

/-- Queues in which the timer is stopped, about to reach its limit, one count earlier, and due to expire. -/
def timed (timer : HoldTimer) : State :=
  { queued .normal [ofKind .copy, { ofKind .copy with policy := .skip }] State.reset with
    nq := { entries := [ofKind .copy, { ofKind .copy with policy := .skip }], latch := false, blocked := true, timer := timer, limit := 5 } }

theorem test_witness_TimebaseEventCounts :
    ((timed .stopped).queue .normal).timer = .stopped ∧ ((timed .expiring).queue .normal).timer = .expiring ∧
      ((timed (.running 4)).queue .normal).timer = .running 4 ∧ ((timed (.running 4)).queue .normal).limit.toNat ≤ 4 + 1 ∧
      ((timed (.running 3)).queue .normal).timer = .running 3 ∧ 3 + 1 < ((timed (.running 3)).queue .normal).limit.toNat := by
  decide

theorem test_witness_FlushCompletesWaitingCommands :
    (timed .stopped).resetN = .high ∧ (timed .stopped).preemptPending = (timed .stopped).preemptDue := by decide +kernel

theorem test_witness_DevctlReadsTheLatches :
    exec .softReset State.reset = .next State.reset.softReset ∧
      exec (.hardwareReset .high) { State.reset with resetN := .low } =
        .next (({ State.reset with resetN := .low } : State).hardwareResetValues .high) := ⟨rfl, rfl⟩

theorem test_witness_StagingWordsHold :
    let s := queued .normal [ofKind .copy] (staged 1 0x00030001 0 0 State.reset)
    s.stagedRecord.map CommandRecord.queue = some .normal ∧ (s.queue .normal).entries ≠ [] ∧
      exec (.post 0) s = .next s.post ∧ s.post.lastres = .accepted ∧ (3 : Fin 4) ≠ 0 := by
  refine ⟨by decide, by decide, rfl, by decide +kernel, by decide⟩

theorem test_witness_PostRefusalsInOrder :
    (staged 0 0 0 0 State.reset).subw[0].toNat % 32 = 0 ∧ 15 < (staged 16 0 0 0 State.reset).subw[0].toNat % 32 ∧
      1 ≤ (staged 1 0 0 0 State.reset).subw[0].toNat % 32 ∧ (staged 15 0 0 0 State.reset).subw[0].toNat % 32 ≤ 15 ∧
      (staged 16 0 0 0 State.reset).stagedRecord = none ∧
      ((staged 1 0x00300001 0 0 State.reset).stagedRecord.any fun c => (c.dests ++ c.sources).any fun f => 48 ≤ f.toNat) = true ∧
      ((staged 8 0x00000101 0 0 State.reset).stagedRecord.any fun c => c.kind = .divmod && c.d = c.d2) = true ∧
      ((staged 5 0x00000001 0 16385 State.reset).stagedRecord.any fun c => c.kind = .shl && 16384 < c.imm.toNat) = true ∧
      ((staged 5 0x002F0001 0 16384 State.reset).stagedRecord.any fun c =>
        (c.dests ++ c.sources).all (fun f => f.toNat < 48) && c.imm.toNat ≤ 16384 && c.queue = .normal) = true ∧
      ({ staged 5 0x002F0001 0 16384 State.reset with credits := 0 } : State).credits = 0 ∧
      12 ≤ (queued .normal (List.replicate 12 (ofKind .copy)) State.reset).nq.entries.length ∧
      4 ≤ (queued .urgent (List.replicate 4 (urgentOf .copy)) State.reset).uq.entries.length := by decide +kernel

/-- The record that 0x00030001 under a code word spells. -/
def copyOfThree (skip : Bool) : CommandRecord :=
  { kind := .copy, queue := .normal, policy := if skip then .skip else .run, notify := false, tag := 0, d := 1, d2 := 0, a := 3, b := 0,
    m := 0, imm := 0 }

theorem test_witness_PostAcceptedTakesACredit :
    let s := staged 1 0x00030001 0 0 State.reset
    let latched := { staged 0x201 0x00030001 0 0 State.reset with nq := { State.reset.nq with latch := true } }
    s.stagedRecord = some (copyOfThree false) ∧ latched.stagedRecord = some (copyOfThree true) ∧
      (∀ f ∈ (copyOfThree true).dests ++ (copyOfThree true).sources, f.toNat < 48) ∧ s.credits ≠ 0 ∧
      (s.queue .normal).entries = [] ∧ (latched.queue .normal).latch = true ∧ (copyOfThree true).policy = .skip ∧
      (queued .normal (List.replicate 11 (ofKind .copy)) s).nq.entries.length < 12 := by decide +kernel

theorem test_witness_StartabilityTest :
    filled.startable (ofKind .add) = true ∧
      (filled.setSlot 3 { filled.slot 3 with writer := some (.win 0) }).startable (ofKind .add) = false ∧
      (filled.setSlot 1 { filled.slot 1 with readers := [.win 0] }).startable (ofKind .add) = false ∧
      (ofKind .add).d.toNat = (1 : SlotId).val := by decide +kernel

theorem test_witness_HoldlimWriteSetsLimits :
    ((timed .stopped).queue .normal).limit ≠ 0 ∧ ((timed .stopped).queue .normal).blocked = true ∧ (State.reset.queue .normal).limit = 0 ∧
      (State.reset.queue .normal).blocked = false ∧ (0 : BitVec 16) ≠ 65535 := by decide +kernel

theorem test_witness_HoldExpiryHoldsTheHead :
    ((timed .stopped).queue .normal).timer ≠ .expiring ∧ ((timed .expiring).queue .normal).timer = .expiring ∧
      ((timed .expiring).queue .normal).entries = [ofKind .copy, { ofKind .copy with policy := .skip }] ∧ (ofKind .copy).queue = .normal := by
  decide

theorem test_witness_CqpopReturnsCredit :
    State.reset.cq = [] ∧
      ({ State.reset with cq := [recordOfUnstarted .held (ofKind .copy)], credits := 15 } : State).cq =
        recordOfUnstarted .held (ofKind .copy) :: [] := ⟨rfl, rfl⟩

theorem test_witness_IntstatWriteClears :
    let s := { State.reset with intstat := 0x21, inten := 0x20 }
    s.resetN = .high ∧ s.attnN = .low ∧ (after (.intstatWrite 0x20) s).intstat = 1 ∧ (after (.intstatWrite 0x20) s).attnN = .high := by
  decide

/-! ### Hypotheses that are met: the Operand Store, the bus, the contexts, the windows -/

/-- A context that waits for ten pages. -/
def waitingForSpace : State :=
  State.reset.setRecord (.ctx 2) { jobOf (ofKind .copy) 1 11 with state := .spaceWait, pagesWanted := 10 }

theorem test_witness_PoolresWriteWakes :
    2 ∈ waitingForSpace.wokenBy waitingForSpace.freeList.length 64 ∧ 1 ∉ waitingForSpace.wokenBy waitingForSpace.freeList.length 0 ∧
      64 < ((127 : Word).extractLsb' 0 7).toNat ∧ ¬ 64 < ((64 : Word).extractLsb' 0 7).toNat := by decide +kernel

theorem test_witness_SlotselSelects :
    ({ State.reset with slotsel := 47 } : State).slotsel.toNat = (47 : SlotId).val ∧
      48 ≤ ({ State.reset with slotsel := 48 } : State).slotsel.toNat ∧ 48 ≤ ({ State.reset with slotsel := 63 } : State).slotsel.toNat ∧
      exec .setProtect State.reset = .next State.reset.setProtect ∧ (1 : SlotId) ≠ 0 :=
  ⟨rfl, by decide, by decide, rfl, by decide⟩

theorem test_witness_ProtectRequests :
    48 ≤ ({ State.reset with slotsel := 48 } : State).slotsel.toNat ∧ (State.reset.slot 0).writer = none ∧
      State.reset.slotsel.toNat = (0 : SlotId).val ∧
      ((State.reset.setSlot 0 { Slot.empty with writer := some (.win 1) }).slot 0).writer ≠ none := by decide +kernel

theorem test_witness_CtxselSelects :
    ({ State.reset with ctxsel := 3 } : State).ctxsel.toNat = (3 : CtxId).val ∧
      ({ State.reset with ctxsel := 4 } : State).ctxsel.toNat = 4 ∧ 4 < ({ State.reset with ctxsel := 5 } : State).ctxsel.toNat ∧
      ({ State.reset with resumeList := [2, 3] } : State).resumeList = [2] ++ 3 :: [] ∧ (3 : CtxId) ∉ [(2 : CtxId)] ∧
      State.reset.selectedRecord.command = none ∧ (jobOf (ofKind .copy) 0 2).command = some (ofKind .copy) := by decide

theorem test_witness_RegisterWriteIsItsCommands :
    (0x27 : Offset).toNat ∈ [0x01, 0x27] ∧ 0x28 ≤ (0x28 : Offset).toNat ∧ 0x28 ≤ (0x3F : Offset).toNat := by decide

theorem test_witness_HostWriteSpellsItsCommand :
    ¬ (PinLevel.low = .low ∧ PinLevel.low = .low ∧ PinLevel.low = PinLevel.high) ∧ (0x24 : Offset).toNat ∈ [0x07, 0x24] ∧
      0x28 ≤ (0x28 : Offset).toNat ∧ (Instr.openWrite 1 63 1023 .neg).wellFormed = true ∧ hostWrite (.openWrite 1 63 1023 .neg) = some (0x24, 0x03FFBF02) ∧
      (Instr.registerWrite 0x3F 1).wellFormed = true ∧ hostWrite (.registerWrite 0x3F 1) = some (0x3F, 1) := by decide

theorem test_witness_ContextRequests :
    4 ≤ (4 : BitVec 3).toNat ∧ (3 : BitVec 3).toNat = (3 : CtxId).val ∧
      (urgentOnCore true (jobOf (urgentOf .copy) 0 2) State.reset).urec.state = .active ∧ State.reset.urec.state ≠ .active ∧
      ((onCore true (jobOf (ofKind .copy) 0 2) State.reset).record (.ctx 0)).state = .active ∧
      (waitingForSpace.record (.ctx 2)).state = .spaceWait ∧ (waitingForSpace.record (.ctx 0)).state = .free ∧
      ((after (.park 2) waitingForSpace).record (.ctx 2)).state = .parked ∧
      ((after (.resume 2) (after (.park 2) waitingForSpace)).record (.ctx 2)).state = .resumable := by decide +kernel

theorem test_witness_AbortOfSuspendedContext :
    (2 : BitVec 3).toNat = (2 : CtxId).val ∧ (waitingForSpace.record (.ctx 2)).state = .spaceWait ∧
      (waitingForSpace.record (.ctx 2)).command = some (ofKind .copy) ∧
      ((after (.park 2) waitingForSpace).record (.ctx 2)).command = some (ofKind .copy) := by decide +kernel

/-- Window 0 reads slot 3, window 1 writes slot 1. -/
def windowsOpen : State := after (.openWrite 1 1 16 .pos) (after (.openRead 0 3) filled)

theorem test_windowsOpen :
    (windowsOpen.window 0).state = .openRead ∧ (windowsOpen.window 1).state = .openWrite ∧ windowsOpen.resetN = .high ∧
      (windowsOpen.slot 1).writer = some (.win 1) ∧ (windowsOpen.slot 3).readers = [.win 0] := by decide +kernel

theorem test_witness_OpenReadRequest :
    (windowsOpen.window 0).state ≠ .closed ∧ (filled.window 0).state = .closed ∧ 48 ≤ (48 : SlotField).toNat ∧
      (47 : SlotField).toNat = (47 : SlotId).val ∧ (filled.slot 47).writer = none ∧
      ((filled.setSlot 47 { Slot.empty with writer := some (.win 1) }).slot 47).writer ≠ none := by decide +kernel

theorem test_witness_OpenWriteRequest :
    512 < (513 : BitVec 10).toNat ∧ (512 : BitVec 10).toNat ≤ 512 ∧ (filled.slot 47).protect = false ∧
      (filled.slot 47).readers = [] ∧ pg 512 + filled.reserve ≤ filled.freeList.length ∧
      ¬ (pg 512 + 64 ≤ (filled.freeList.take 95).length) ∧ pg 0 = 0 ∧
      ((filled.setSlot 47 { Slot.empty with protect := true }).slot 47).protect = true ∧
      ((filled.setSlot 47 { Slot.empty with readers := [.win 1] }).slot 47).readers ≠ [] := by decide +kernel

theorem test_witness_SeekRequest :
    (filled.window 0).state = .closed ∧ (windowsOpen.window 0).state ≠ .closed ∧ 511 < (512 : BitVec 10).toNat ∧
      (511 : BitVec 10).toNat ≤ 511 := by decide +kernel

theorem test_witness_SessionsEnd :
    windowsOpen.resetN = .high ∧ (windowsOpen.window 0).state = .openRead ∧ (windowsOpen.window 1).state = .openWrite := by
  decide +kernel

theorem memoryCanonical_iff (s : State) : MemoryCanonical s ↔ Memory.wf s.mem := Iff.rfl

/-- What WindowsConsistent says, window by window. -/
theorem windowsConsistent_of_both {s : State}
    (h : ∀ w : WindowId,
      ((s.window w).state = .closed →
          (s.window w).slot = 0 ∧ (s.window w).index = 0 ∧ (s.window w).declLength = 0 ∧ (s.window w).declSign = .pos) ∧
        ((s.window w).state = .openRead → (s.window w).declLength = 0 ∧ (s.window w).declSign = .pos) ∧
        ((s.window w).staging.length = if (s.window w).state = .openWrite then pg (s.window w).declLength else 0) ∧
        (s.window w).index ≤ Config.maxIndex ∧ (s.window w).declLength ≤ Config.maxSlotLimbs) : WindowsConsistent s :=
  ⟨fun w => (h w).1, fun w => (h w).2.1, fun w => (h w).2.2.1, fun w => (h w).2.2.2.1, fun w => (h w).2.2.2.2⟩

theorem test_witness_WindowDataWriteStores :
    MemoryCanonical windowsOpen ∧ WindowsConsistent windowsOpen ∧ (windowsOpen.window 0).state ≠ .openWrite ∧
      (windowsOpen.window 1).index < (windowsOpen.window 1).declLength ∧
      ((after (.seek 1 15) windowsOpen).window 1).index < ((after (.seek 1 15) windowsOpen).window 1).declLength ∧
      ((after (.seek 1 16) windowsOpen).window 1).declLength ≤ ((after (.seek 1 16) windowsOpen).window 1).index := by
  refine ⟨(memoryCanonical_iff _).2 ?_, windowsConsistent_of_both ?_, ?_⟩ <;> decide +kernel

theorem test_witness_WindowDataReadSteps :
    (windowsOpen.window 1).state ≠ .openRead ∧ (windowsOpen.window 0).state = .openRead ∧
      (windowsOpen.window 0).index < (windowsOpen.slot (windowsOpen.window 0).slot).length ∧
      (windowsOpen.slot (windowsOpen.window 0).slot).length ≤ ((after (.seek 0 1) windowsOpen).window 0).index := by decide +kernel

theorem test_witness_WinstatFlagsAreSticky :
    ((after (.windowDataRead 0) (after (.seek 0 511) windowsOpen)).window 0).pastEnd = true ∧
      ((after (.windowDataWrite 1 5) (after (.seek 1 16) windowsOpen)).window 1).overrun = true ∧
      ((after (.close 1) (after (.windowDataWrite 1 5) (after (.seek 1 16) windowsOpen))).window 1).overrun = true := by decide +kernel

/-! ### Hypotheses that are met: the Arbiter and the Core -/

theorem test_witness_SelectionStarts :
    let s := queued .normal [ofKind .add] filled
    let u := queued .urgent [urgentOf .add] filled
    s.resetN = .high ∧ s.owner = none ∧ (s.queue .normal).entries = ofKind .add :: [] ∧ s.startable (ofKind .add) = true ∧
      s.headStartable .urgent = false ∧ s.resumeList = [] ∧ (s.record (.ctx 0)).state = .free ∧
      (u.queue .urgent).entries = urgentOf .add :: [] ∧ u.startable (urgentOf .add) = true := by decide +kernel

theorem test_witness_SelectionResumesOrWaits :
    let s := after (.resume 2) (after (.park 2) waitingForSpace)
    s.owner = none ∧ s.headStartable .urgent = false ∧ s.resumeList = 2 :: [] ∧ State.reset.resumeList = [] ∧
      State.reset.headStartable .normal = false ∧ (onCore true (jobOf (ofKind .copy) 0 2) State.reset).owner ≠ none := by decide +kernel

theorem test_witness_StepBeginAcquires :
    let fresh := onCore false { jobOf (ofKind .gcd) 0 0 with checksMade := false } filled
    let later := onCore false (jobOf (ofKind .copy) 1 2) filled
    let urgent := urgentOnCore false (jobOf (urgentOf .copy) 1 2) { filled with reserve := 64, freeList := [9] }
    fresh.owner = some (.ctx 0) ∧ (fresh.record (.ctx 0)).command = some (ofKind .gcd) ∧ fresh.stepRunning = false ∧
      fresh.stepZeroFault (ofKind .gcd) = none ∧ fresh.demandOf (ofKind .gcd) (fresh.record (.ctx 0)) = 3 ∧
      (later.record (.ctx 0)).nextStep ≠ 0 ∧ later.demandOf (ofKind .copy) (later.record (.ctx 0)) = 1 ∧
      (onCore false (jobOf (ofKind .copy) 0 2) filled).demandOf (ofKind .copy) (jobOf (ofKind .copy) 0 2) = 0 ∧
      urgent.demandOf (urgentOf .copy) (urgent.record .urgent) ≤ urgent.freeList.length := by decide +kernel

theorem test_witness_StepTotalsAndChecks :
    filled.stepTotalOf { ofKind .shr with imm := 32 } = 1 ∧ filled.stepTotalOf { ofKind .shr with imm := 31 } = 2 ∧
      filled.stepTotalOf { ofKind .shl with a := 6 } = 1 ∧ State.reset.stepZeroFault (ofKind .divmod) = some .divZero ∧
      State.reset.stepZeroFault (ofKind .modmul) = some .badModulus ∧
      (holding 5 .neg 2 7 State.reset).stepZeroFault (ofKind .modinv) = some .badModulus ∧
      (holding 4 .neg 1 3 (holding 5 .pos 2 7 State.reset)).stepZeroFault (ofKind .modexp) = some .negExponent ∧
      filled.stepZeroFault { ofKind .shl with imm := 16384 } = some .oversize ∧
      filled.stepZeroFault { ofKind .shl with imm := 16383 } = none ∧
      (filled.setSlot 5 { filled.slot 5 with length := 257 }).stepZeroFault (ofKind .modmul) = some .oversize ∧
      (filled.setSlot 1 { filled.slot 1 with protect := true }).stepZeroFault (ofKind .divmod) = some .slotProtected := by decide +kernel

theorem test_witness_FaultsInstallNothing :
    let s := onCore false { jobOf (ofKind .divmod) 0 1 with checksMade := false } State.reset
    let n := onCore true (searching 2 1) { filled with mem := searchMem 6 3 0 1 }
    s.stepZeroFault (ofKind .divmod) = some .divZero ∧ (s.record (.ctx 0)).nextStep = 0 ∧ (s.record (.ctx 0)).checksMade = false ∧
      (n.stepWork (ofKind .modinv) (n.record (.ctx 0))).lastStep .modinv 2 = true ∧
      (n.stepWork (ofKind .modinv) (n.record (.ctx 0))).mag .wv1 = 3 := by decide +kernel

/-- An ADD at its last step whose WV0 already has its top limb set at position 512. -/
theorem test_witness_FaultsInstallNothing_oversize :
    let pages : List PageId := (List.finRange 256).drop 200
    let j := { jobOf (ofKind .add) 33 34 with
      carry := some { form := .sum, sign := .pos, carry := true }, wv0 := { pages := pages.take 33, length := 512 } }
    let s := onCore true j { (filled.setSlot 3 { filled.slot 3 with length := 512 }) with mem := filled.mem }
    (s.stepWork (ofKind .add) (s.record (.ctx 0))).lastStep .add 33 = true ∧
      512 < trimmedLength (s.stepWork (ofKind .add) (s.record (.ctx 0))).mem (pages.take 33)
        (s.stepWork (ofKind .add) (s.record (.ctx 0))).job.wv0.length := by decide +kernel

theorem test_witness_StepBeginRefused :
    let j := jobOf (ofKind .copy) 1 2
    let s := onCore false j { filled with reserve := 64, freeList := filled.freeList.take 64 }
    let u := urgentOnCore false (jobOf (urgentOf .copy) 1 2) { filled with freeList := [] }
    s.demandOf (ofKind .copy) (s.record (.ctx 0)) = 1 ∧ s.freeList.length < 1 + s.reserve ∧
      u.demandOf (urgentOf .copy) (u.record .urgent) = 1 ∧ u.freeList.length < 1 ∧ (s.record (.ctx 0)).abortPending = false ∧
      ((after (.abort 0) s).record (.ctx 0)).abortPending = true ∧ ((after (.park 0) s).record (.ctx 0)).parkPending = true ∧
      (after (.park 0) s).stepRunning = false := by decide +kernel

theorem test_witness_StepEndGoesOn :
    let s := onCore true (jobOf (ofKind .copy) 0 2) filled
    let u := urgentOnCore true (jobOf (urgentOf .copy) 0 2) { filled with freeList := [] }
    (s.record (.ctx 0)).abortPending = false ∧ (s.record (.ctx 0)).parkPending = false ∧ s.headStartable .urgent = false ∧
      (s.stepWork (ofKind .copy) (s.record (.ctx 0))).lastStep .copy 0 = false ∧ s.declaredPages (ofKind .copy) 1 = (1, 0, 0) ∧
      1 + s.reserve ≤ s.freeList.length ∧ (u.stepWork (urgentOf .copy) (u.record .urgent)).lastStep .copy 0 = false ∧
      ¬ 1 ≤ u.freeList.length := by decide +kernel

theorem test_witness_BoundaryTakesAbortThenPark :
    let s := onCore true (jobOf (ofKind .copy) 0 2) filled
    ((after (.abort 0) s).record (.ctx 0)).abortPending = true ∧ ((after (.park 0) s).record (.ctx 0)).parkPending = true ∧
      (s.record (.ctx 0)).stepsDone < 65535 ∧ (s.stepWork (ofKind .copy) (s.record (.ctx 0))).lastStep .copy 0 = false := by decide +kernel

theorem test_witness_BoundaryPreempts :
    let s := queued .urgent [{ urgentOf .seti with d := 40 }] (onCore true (jobOf (ofKind .copy) 0 2) filled)
    s.uq.entries = { urgentOf .seti with d := 40 } :: [] ∧ s.startable { urgentOf .seti with d := 40 } = true ∧
      (s.stepWork (ofKind .copy) (s.record (.ctx 0))).lastStep .copy 0 = false := by decide +kernel

theorem test_witness_CommitInstallsResult :
    let s := onCore true { jobOf (ofKind .copy) 1 2 with wv0 := { pages := [9], length := 0 } } filled
    let z := onCore true (searching 3 1) { filled with mem := searchMem 6 1 1 1 }
    (s.stepWork (ofKind .copy) (s.record (.ctx 0))).lastStep .copy 1 = true ∧ (ofKind .copy).kind ∉ [Kind.divmod, .free, .cmp, .bitlen] ∧
      (z.stepWork (ofKind .modinv) (z.record (.ctx 0))).lastStep .modinv 3 = true ∧
      (z.stepWork (ofKind .modinv) (z.record (.ctx 0))).mag .wv1 = 1 := by decide +kernel

theorem test_witness_CommitInstallsQuotientAndRemainder :
    let s := onCore true { jobOf (ofKind .divmod) 1 2 with wv0 := { pages := [9], length := 0 }, wv1 := { pages := [10], length := 2 } } filled
    (s.stepWork (ofKind .divmod) (s.record (.ctx 0))).lastStep .divmod 1 = true ∧ (1 : SlotId) ≠ 2 ∧
      (ofKind .divmod).d.toNat = (1 : SlotId).val ∧ (ofKind .divmod).d2.toNat = (2 : SlotId).val := by decide +kernel

theorem test_witness_FreeCmpBitlenEnd :
    let s := onCore true (jobOf (ofKind .free) 0 1) filled
    s.stepRunning = true ∧ (s.record (.ctx 0)).stepsDone = 0 ∧ (s.record (.ctx 0)).nextStep = 0 ∧ (s.record (.ctx 0)).stepTotal = 1 ∧
      (ofKind .free).d.toNat = (1 : SlotId).val ∧ (ofKind .cmp).kind ∈ [Kind.free, .cmp, .bitlen] := by decide +kernel

/-! ### Hypotheses that are met: arithmetic -/

/-- A record of a command with one page for each working value. -/
def onePageEach (kind : Kind) (step n0 n1 n2 : Nat) : Record :=
  { jobOf (ofKind kind) step 0 with
    wv0 := { pages := [9], length := n0 }, wv1 := { pages := [10], length := n1 }, wv2 := { pages := [11], length := n2 } }

theorem test_filled_canonical : MemoryCanonical filled ∧ (onePageEach .copy 1 0 0 0).workPages.Nodup :=
  ⟨(memoryCanonical_iff _).2 (by decide +kernel), by decide⟩

theorem test_witness_PageStepsBuildTheResult :
    let j := onePageEach .copy 1 0 0 0
    1 ≤ j.nextStep ∧ j.nextStep ≤ j.wv0.pages.length ∧ j.wv0.length = min (16 * (1 - 1)) 1 ∧
      magnitude filled.mem j.wv0.pages j.wv0.length = 6 % 2 ^ (32 * min (16 * (1 - 1)) 1) ∧
      (onePageEach .seti 0 0 0 0).wv0.pages.length = 1 ∧ (onePageEach .seti 0 0 0 0).wv0.length = 0 := by decide +kernel

theorem test_witness_AddSubStepsCarry :
    let k := addDecision (filled.value 3) (filled.value 4)
    let j := { onePageEach .add 1 0 0 0 with carry := some k }
    1 ≤ j.nextStep ∧ j.nextStep ≤ j.wv0.pages.length ∧ 16 * (1 - 1) < 2 ∧ j.wv0.length = min (16 * (1 - 1)) 2 ∧ k.form = .sum ∧
      k.carry = false ∧ magnitude filled.mem j.wv0.pages 0 = 0 := by decide +kernel

theorem test_witness_MulAndDivmodSteps :
    let j := onePageEach .mul 1 1 0 0
    let d := onePageEach .divmod 1 0 2 0
    pg ((filled.value 4).length + 1) ≤ j.wv0.pages.length ∧ magnitude filled.mem j.wv0.pages j.wv0.length = 4 * (6 % 2 ^ (32 * (1 - 1))) ∧
      0 < (filled.value 3).length ∧ pg ((filled.value 3).length + 1) ≤ d.wv1.pages.length ∧ (filled.value 4).mag ≠ 0 ∧
      magnitude filled.mem d.wv1.pages d.wv1.length < 4 * (2 ^ (32 * (1 - 1 + 1 - 1)) * 2 ^ 32) ∧
      magnitude (filled.mem.write 160 6) d.wv1.pages d.wv1.length = 6 ∧
      6 = magnitude filled.mem d.wv0.pages 0 * (4 * (1 * 2 ^ 32)) + 6 := by decide +kernel

theorem test_witness_ModularStepsReduce :
    let j := onePageEach .modmul 3 1 1 0
    let mem := (filled.mem.write 144 5).write 160 4
    0 < (filled.value 5).mag ∧ pg (filled.value 5).length ≤ j.wv0.pages.length ∧ pg (2 * (filled.value 5).length + 1) ≤ j.wv2.pages.length ∧
      magnitude mem j.wv0.pages j.wv0.length < 7 ∧ magnitude mem j.wv2.pages j.wv2.length = 5 * (4 % 2 ^ (32 * (3 - 3))) ∧
      2 ≤ 1 + bitLength (filled.value 4).mag ∧
      magnitude (filled.mem.write 144 1) j.wv0.pages j.wv0.length = 6 ^ (4 / 2 ^ (3 - (2 - 2))) % 7 := by decide +kernel

theorem test_witness_GcdAndInverseSearch :
    let j := onePageEach .gcd 1 2 2 2
    let mem := (filled.mem.write 144 6).write 160 4
    pg 2 ≤ j.wv0.pages.length ∧ magnitude mem j.wv1.pages j.wv1.length ≠ 0 ∧ magnitude mem j.wv0.pages j.wv0.length < 2 ^ (32 * 2) := by
  decide +kernel

/-- Before the last step of the search: the pair (6, 1) with the coefficients 1 and -1, true to 6 modulo 7. -/
theorem test_witness_GcdAndInverseSearch_modinv :
    let k := searching 3 1
    let mem := searchMem 6 1 1 1
    let z := magnitude mem k.wv2.pages k.wv2.length
    0 < (filled.value 5).mag ∧ pg ((filled.value 5).length + 1) ≤ k.wv2.pages.length ∧ k.workPages.Nodup ∧ Memory.wf mem ∧
      magnitude mem k.wv1.pages k.wv1.length = 6 ∧ magnitude mem k.wv0.pages k.wv0.length = 1 ∧
      z % 2 ^ (32 * limbCount 6) = 1 ∧ z / 2 ^ (32 * limbCount 6) = 1 ∧ (7 : Int) ∣ 1 * 1 * 6 - 6 ∧ (7 : Int) ∣ -1 * 1 * 6 - 1 ∧
      6 * 1 + 1 * 1 = (filled.value 5).mag ∧ Nat.gcd 6 1 = Nat.gcd 7 ((6 : Int) % 7).toNat := by decide +kernel

/-! ### A busy state that meets every whole-machine condition -/

/-- An ADD runs in context 0 and window 0 reads slot 3; a step is about to begin. -/
def busy : State :=
  { after (.openRead 0 3) (after .selection (queued .normal [ofKind .add] { filled with credits := 15 })) with
    pending := [.stepBegin] }

theorem forall_runner {p : Runner → Prop} (h : ∀ n : CtxId, p (.ctx n)) (hu : p .urgent) : ∀ r, p r := fun r =>
  match r with
  | .ctx n => h n
  | .urgent => hu

theorem forall_queue {p : QueueId → Prop} (h : p .normal) (hu : p .urgent) : ∀ q, p q := fun q =>
  match q with
  | .normal => h
  | .urgent => hu

/-- The write claims of a slot as a Boolean. -/
def claimsWriteB (s : State) (i : SlotId) : Holder → Bool
  | .run r => (s.record r).command.any fun c => c.dests.any fun f => slotNumber f = some i
  | .win w => (s.window w).state = .openWrite && (s.window w).slot = i

/-- The read claims of a slot as a Boolean. -/
def claimsReadB (s : State) (i : SlotId) : Holder → Bool
  | .run r => (s.record r).command.any fun c => c.sources.any fun f => slotNumber f = some i
  | .win w => (s.window w).state = .openRead && (s.window w).slot = i

theorem claimsWriteB_iff (s : State) (i : SlotId) (h : Holder) : claimsWriteB s i h = true ↔ s.claimsWrite i h := by
  cases h with
  | run r => cases hc : (s.record r).command <;> simp [claimsWriteB, State.claimsWrite, CommandRecord.writes, hc]
  | win w => simp [claimsWriteB, State.claimsWrite]

theorem claimsReadB_iff (s : State) (i : SlotId) (h : Holder) : claimsReadB s i h = true ↔ s.claimsRead i h := by
  cases h with
  | run r => cases hc : (s.record r).command <;> simp [claimsReadB, State.claimsRead, CommandRecord.reads, hc]
  | win w => simp [claimsReadB, State.claimsRead]

theorem test_busy_steps : ∃ t, step busy = .next t := ⟨after .stepBegin { busy with pending := [] }, rfl⟩

theorem test_busy_MemoryCanonical : MemoryCanonical busy := (memoryCanonical_iff _).2 (by decide +kernel)

theorem test_busy_RecordsConsistent : RecordsConsistent busy where
  ownerActive := forall_runner (by decide +kernel) (by decide +kernel)
  urgentStates := by decide +kernel
  freeIsEmpty := forall_runner (by decide +kernel) (by decide +kernel)
  startedHasCommand := forall_runner (by decide +kernel) (by decide +kernel)
  listNodup := by decide +kernel
  listIsResumable := by decide +kernel
  wantedOnlyWaiting := forall_runner (by decide +kernel) (by decide +kernel)
  pendingOnlyActive := forall_runner (by decide +kernel) (by decide +kernel)
  stepHasOwner := by decide +kernel

theorem test_busy_QueuesMatch : QueuesMatch busy where
  waiting := forall_queue (by decide +kernel) (by decide +kernel)
  started := fun r c h => by
    have key : ∀ r, (busy.record r).command.all (fun c => c.queue = r.queue) = true :=
      forall_runner (by decide +kernel) (by decide +kernel)
    have := key r
    rw [h] at this
    simpa using this

theorem test_busy_CreditLaw : CreditLaw busy := by
  unfold CreditLaw
  decide +kernel

theorem test_busy_CountsBounded : CountsBounded busy where
  reserve := by decide +kernel
  credits := by decide +kernel
  nq := by decide +kernel
  uq := by decide +kernel
  cq := by decide +kernel

theorem test_busy_PagesPartition : PagesPartition busy := by
  unfold PagesPartition
  decide +kernel

theorem test_busy_LocksExclusive : LocksExclusive busy := fun i h => by
  have key : ∀ i : SlotId, ∀ h ∈ Holder.all, (busy.slot i).writer = some h → ∀ x ∈ (busy.slot i).readers, x = h := by decide +kernel
  exact key i h (mem_holder_all h)

theorem test_busy_LocksMatchHolders : LocksMatchHolders busy := fun i h => by
  have key : ∀ i : SlotId, ∀ h ∈ Holder.all,
      ((busy.slot i).writer = some h ↔ claimsWriteB busy i h = true) ∧
        (h ∈ (busy.slot i).readers ↔ claimsReadB busy i h = true) := by decide +kernel
  rw [← claimsWriteB_iff, ← claimsReadB_iff]
  exact key i h (mem_holder_all h)

theorem test_busy_IndicatorsTrue : IndicatorsTrue busy where
  preempt := by decide +kernel
  blocked := forall_queue (by decide +kernel) (by decide +kernel)
  timer := forall_queue (by decide +kernel) (by decide +kernel)

theorem test_busy_WindowsConsistent : WindowsConsistent busy := windowsConsistent_of_both (by decide +kernel)

theorem test_busy_SlotsNormalized : SlotsNormalized busy where
  lengthBound := by decide +kernel
  pageCount := by decide +kernel
  zeroIsPos := by decide +kernel
  topLimb := by decide +kernel

/-- The one command of the busy state is the ADD of context 0. -/
theorem busy_command {r : Runner} {c : CommandRecord} (h : (busy.record r).command = some c) : r = .ctx 0 ∧ c = ofKind .add := by
  have key : ∀ r, (busy.record r).command = if r = .ctx 0 then some (ofKind .add) else none :=
    forall_runner (by decide +kernel) (by decide +kernel)
  rw [key] at h
  split at h
  · next hr => exact ⟨hr, (Option.some.inj h).symm⟩
  · cases h

theorem test_busy_WorkConsistent : WorkConsistent busy where
  total := fun r c h => by obtain ⟨rfl, rfl⟩ := busy_command h; decide +kernel
  next := fun r c h _ _ => by obtain ⟨rfl, rfl⟩ := busy_command h; decide +kernel
  begun := fun r c h => by obtain ⟨rfl, rfl⟩ := busy_command h; decide +kernel
  checked := fun r c h => by obtain ⟨rfl, rfl⟩ := busy_command h; decide +kernel
  resultLength := fun r c h _ _ => by obtain ⟨rfl, rfl⟩ := busy_command h; decide +kernel
  divisors := fun r c h => by obtain ⟨rfl, rfl⟩ := busy_command h; decide +kernel
  remainder := fun r c h => by obtain ⟨rfl, rfl⟩ := busy_command h; decide +kernel

theorem test_witness_UnwrittenSlotKeepsItsValue :
    (busy.slot 3).writer = none ∧ (busy.slot 3).length = 1 ∧ (busy.slot 1).writer = some (.run (.ctx 0)) ∧
      ∀ level, Instr.stepBegin ≠ .hardwareReset level :=
  ⟨by decide +kernel, by decide +kernel, by decide +kernel, fun level h => by cases h⟩

/-- For SoftResetReturnsEveryPage: the busy state is live and its pages are divided. -/
theorem test_witness_SoftResetReturnsEveryPage :
    busy.resetN = .high ∧ PagesPartition busy ∧ exec .softReset busy = .next busy.softReset :=
  ⟨by decide +kernel, test_busy_PagesPartition, by rfl⟩

end Sys2Proof.Tests
end

section
/-! PROOFS. SLOTSEL: the word it holds, the slot it selects for SLOTINFO0 and SLOTINFO1, and the slot that the SLOTATTR requests act
on (R18, R19, R163). -/

namespace Sys2Proof.Machine

/-! ### Events of the live part -/

theorem whenLive_eq_next_iff {f : State → State} {s t : State} :
    whenLive f s = .next t ↔ t = if s.resetN = .low then s else f s := by
  unfold whenLive
  split <;> simp [eq_comm]

theorem whenLive_of_high {s : State} (f : State → State) (h : s.resetN = .high) : whenLive f s = .next (f s) :=
  whenLive_eq_next_iff.2 (by simp [h])

theorem exec_registerWrite (offset : Offset) (data : Word) (s : State) :
    exec (.registerWrite offset data) s = whenLive (fun t => t.busWrite offset data) s := rfl

theorem exec_softReset (s : State) : exec .softReset s = whenLive State.softReset s := rfl

theorem exec_setProtect (s : State) : exec .setProtect s = whenLive State.setProtect s := rfl

theorem exec_clearProtect (s : State) : exec .clearProtect s = whenLive State.clearProtect s := rfl

@[simp] theorem softReset_slotsel (s : State) : s.softReset.slotsel = s.slotsel := rfl

/-! ### Reads -/

theorem readRegister_of_high {s : State} (h : s.resetN = .high) (offset : Offset) :
    s.readRegister offset = s.registerWord offset := by
  simp [State.readRegister, h]

/-- A register whose word is 0 reads 0 at either level of RESET_N (R156). -/
theorem readRegister_eq_zero {s : State} {offset : Offset} (h : s.registerWord offset = 0) : s.readRegister offset = 0 := by
  simp [State.readRegister, h]

/-- Of the reads, only those of WIN0DATA and WIN1DATA are commands (R158). -/
theorem hostAccess_read_eq_nil {offset : Offset} (h0 : offset.toNat ≠ 0x21) (h1 : offset.toNat ≠ 0x25) (data : Word) :
    hostAccess .low .low .high offset data = [] := by
  simp [hostAccess, accessOf, h0, h1]

/-! ### The fields of a read word

A layout that R163 gives field by field, written with `++`, is the `|||` of its read fields: the back field of a layout is a read field
at bit 0, and the front of it stands shifted above that field. -/

theorem setWidth_append_ofNat {m n : Nat} (x : BitVec m) (value : Nat) :
    (x ++ BitVec.ofNat n value).setWidth 32 = readField 0 n value ||| x.setWidth 32 <<< n := by
  ext i hi
  by_cases h : i < n
  · simp [readField, BitVec.getLsbD_append, h]
  · simp [readField, BitVec.getLsbD_append, h, BitVec.getLsbD_of_ge _ _ (Nat.le_of_not_lt h)]

theorem readField_shiftLeft (lo width value k : Nat) : readField lo width value <<< k = readField (lo + k) width value :=
  (BitVec.shiftLeft_add _ lo k).symm

@[simp] theorem readField_zero (lo width : Nat) : readField lo width 0 = 0#32 := by
  simp [readField]

theorem ofNat_ofFlag (b : Bool) : BitVec.ofNat 1 (ofFlag b) = BitVec.ofBool b := by
  cases b <;> rfl

theorem ofNat_ofFlag_decide (p : Prop) [Decidable p] : BitVec.ofNat 1 (ofFlag (decide p)) = if p then 1#1 else 0#1 := by
  by_cases h : p <;> simp [h, ofFlag]

theorem ofNat_signCode (g : Sign) : BitVec.ofNat 1 (signCode g) = if g = .neg then 1#1 else 0#1 := by
  cases g <;> rfl

/-! ### The selected slot -/

theorem selectedSlot_of_toNat_eq {s : State} {i : SlotId} (h : s.slotsel.toNat = i.val) : s.selectedSlot = s.slot i := by
  simp [State.selectedSlot, slotNumber_eq_some.2 h]

theorem selectedSlot_of_le {s : State} (h : 48 ≤ s.slotsel.toNat) : s.selectedSlot = Slot.empty := by
  simp [State.selectedSlot, slotNumber_eq_none.2 h]

/-- SLOTINFO0 as the table of R163 lays it out. -/
theorem readSlotinfo0_eq_fields (s : State) :
    s.readSlotinfo0 =
      0#10 ++ BitVec.ofNat 6 s.selectedSlot.pages.length ++ 0#2 ++ BitVec.ofBool s.selectedSlot.protect ++
        (if s.selectedSlot.sign = .neg then 1#1 else 0#1) ++ 0#2 ++ BitVec.ofNat 10 s.selectedSlot.length := by
  rw [← ofNat_ofFlag, ← ofNat_signCode]
  refine .trans ?_ (BitVec.setWidth_eq (n := 32) _)
  simp only [setWidth_append_ofNat, BitVec.shiftLeft_or_distrib, readField_shiftLeft]
  simp [State.readSlotinfo0, BitVec.or_assoc]

/-- SLOTINFO1 as the table of R163 lays it out, the writer by its code. -/
theorem readSlotinfo1_eq_fields (s : State) :
    let reads (h : Holder) : BitVec 1 := if h ∈ s.selectedSlot.readers then 1#1 else 0#1
    s.readSlotinfo1 =
      0#17 ++ reads (.win 1) ++ reads (.win 0) ++ reads (.run .urgent) ++ reads (.run (.ctx 3)) ++ reads (.run (.ctx 2)) ++
        reads (.run (.ctx 1)) ++ reads (.run (.ctx 0)) ++ 0#5 ++ BitVec.ofNat 3 (holderCode s.selectedSlot.writer) := by
  intro reads
  simp only [reads, ← ofNat_ofFlag_decide]
  refine .trans ?_ (BitVec.setWidth_eq (n := 32) _)
  simp only [setWidth_append_ofNat, BitVec.shiftLeft_or_distrib, readField_shiftLeft]
  simp [State.readSlotinfo1, Holder.all, holderCode, Config.contextCount, BitVec.or_assoc]

/-- The empty slot reads 0 in both SLOTINFO words (R19). -/
theorem readSlotinfo_of_selectedSlot_empty {s : State} (h : s.selectedSlot = Slot.empty) :
    s.readSlotinfo0 = 0 ∧ s.readSlotinfo1 = 0 := by
  simp [State.readSlotinfo0, State.readSlotinfo1, h, Slot.empty, signCode, ofFlag, Holder.all, holderCode]

/-! ### The requests on the selected slot -/

theorem setProtect_slot_of_ne {s : State} {i k : SlotId} (h : s.slotsel.toNat = i.val) (hk : k ≠ i) :
    s.setProtect.slot k = s.slot k := by
  simp only [State.setProtect, slotNumber_eq_some.2 h]
  split
  · rfl
  · exact slot_setSlot_ne s _ hk

theorem clearProtect_slot_of_ne {s : State} {i k : SlotId} (h : s.slotsel.toNat = i.val) (hk : k ≠ i) :
    s.clearProtect.slot k = s.slot k := by
  simp only [State.clearProtect, slotNumber_eq_some.2 h]
  exact slot_setSlot_ne s _ hk

/-! ### SLOTSEL -/

/-- Settles O20: each part is a lemma above, and the writer's code is read off holder by holder. -/
theorem slotselSelects : Obligations.SlotselSelects := by
  refine ⟨?stored, ?selects, ?outside, ?reads, rfl, ?softReset⟩
  case stored =>
    intro s data hlive
    exact ⟨_, (exec_registerWrite _ _ s).trans (whenLive_of_high _ hlive), rfl,
      readRegister_of_high (s := s.busWrite 0x1C data) hlive _⟩
  case selects =>
    intro s i hlive hsel
    have hslot := selectedSlot_of_toNat_eq hsel
    refine ⟨?info0, ?info1, ?set, ?clear⟩
    case info0 =>
      rw [← hslot]
      exact (readRegister_of_high hlive _).trans (readSlotinfo0_eq_fields s)
    case info1 =>
      rw [← hslot]
      refine (readRegister_of_high hlive _).trans ((readSlotinfo1_eq_fields s).trans ?_)
      rcases s.selectedSlot.writer with _ | (n | _) | w <;> rfl
    case set =>
      intro t ht k hk
      rw [exec_setProtect, whenLive_of_high _ hlive] at ht
      cases ht
      exact setProtect_slot_of_ne hsel hk
    case clear =>
      intro t ht k hk
      rw [exec_clearProtect, whenLive_of_high _ hlive] at ht
      cases ht
      exact clearProtect_slot_of_ne hsel hk
  case outside =>
    intro s hsel
    obtain ⟨h0, h1⟩ := readSlotinfo_of_selectedSlot_empty (selectedSlot_of_le hsel)
    exact ⟨readRegister_eq_zero h0, readRegister_eq_zero h1⟩
  case reads =>
    exact fun data => ⟨hostAccess_read_eq_nil (by decide) (by decide) data,
      hostAccess_read_eq_nil (by decide) (by decide) data⟩
  case softReset =>
    intro s t ht
    rw [exec_softReset, whenLive_eq_next_iff] at ht
    rw [ht]
    split
    · rfl
    · exact softReset_slotsel s

end Sys2Proof.Machine
end

section
/-! PROOFS. The staging words: the register each one is, and what a POST makes of the record they spell (R24, R25, R26). -/

namespace Sys2Proof.Machine

/-! ### The four registers -/

/-- The offset of SUBWk, as a host access gives it (R24). -/
def subwOffset (k : Fin 4) : Offset := BitVec.ofNat 6 (0x08 + k.val)

theorem busWrite_subwOffset (s : State) (k : Fin 4) (data : Word) : s.busWrite (subwOffset k) data = s.writeSubw k data := by
  fin_cases k <;> rfl

theorem registerWord_subwOffset (s : State) (k : Fin 4) : s.registerWord (subwOffset k) = s.subw[k] := by
  fin_cases k <;> rfl

theorem readRegister_subwOffset {s : State} (h : s.resetN = .high) (k : Fin 4) : s.readRegister (subwOffset k) = s.subw[k] :=
  (readRegister_of_high h _).trans (registerWord_subwOffset s k)

theorem exec_registerWrite_subwOffset {s : State} (h : s.resetN = .high) (k : Fin 4) (data : Word) :
    exec (.registerWrite (subwOffset k) data) s = .next (s.writeSubw k data) := by
  rw [exec_registerWrite, whenLive_of_high _ h, busWrite_subwOffset]

@[simp] theorem writeSubw_resetN (s : State) (k : Fin 4) (data : Word) : (s.writeSubw k data).resetN = s.resetN := rfl

theorem writeSubw_subw_self (s : State) (k : Fin 4) (data : Word) : (s.writeSubw k data).subw[k] = data :=
  Vector.getElem_set_self _

theorem writeSubw_subw_of_ne {s : State} {j k : Fin 4} (h : j ≠ k) (data : Word) :
    (s.writeSubw k data).subw[j] = s.subw[j] :=
  Vector.getElem_set_ne k.isLt j.isLt fun hval => h (Fin.ext hval.symm)

/-- An event of the live part that leaves the staging words leaves them at either level of RESET_N (R156). -/
theorem subw_of_whenLive {f : State → State} {s t : State} (hf : (f s).subw = s.subw) (ht : whenLive f s = .next t) :
    t.subw = s.subw := by
  rw [whenLive_eq_next_iff.1 ht]
  split
  · rfl
  · exact hf

@[simp] theorem softReset_subw (s : State) : s.softReset.subw = s.subw := rfl

/-! ### A POST -/

theorem exec_post (data : Word) (s : State) : exec (.post data) s = whenLive State.post s := rfl

/-- All that a POST can do (R25): the staged record is accepted, or only LASTRES changes, to a result that is a refusal. -/
theorem post_cases (s : State) :
    (∃ c, s.stagedRecord = some c ∧ s.judge (some c) = .accepted ∧ s.post = s.accept c) ∨
      (s.judge s.stagedRecord ≠ .accepted ∧ s.post = { s with lastres := s.judge s.stagedRecord }) := by
  unfold State.post
  split
  · next c hjudge hstaged => exact .inl ⟨c, hstaged, hstaged ▸ hjudge, rfl⟩
  · next hnot =>
    refine .inr ⟨fun hjudge => ?_, rfl⟩
    cases hstaged : s.stagedRecord with
    | none => rw [hstaged] at hjudge; cases hjudge
    | some c => exact hnot c hjudge hstaged

/-- Without a kind in the staged record the check that comes first refuses the POST (R26). -/
theorem post_of_stagedRecord_eq_none {s : State} (h : s.stagedRecord = none) : s.post = { s with lastres := .badKind } := by
  obtain ⟨c, hc, -⟩ | ⟨-, hpost⟩ := post_cases s
  · rw [h] at hc; cases hc
  · rw [hpost, h]; rfl

@[simp] theorem accept_subw (s : State) (c : CommandRecord) : (s.accept c).subw = s.subw := by
  unfold State.accept
  dsimp only
  split <;> simp

/-- Behind a head, an accepted record joins the tail of its queue (R25). -/
theorem entries_accept {s : State} {c : CommandRecord} (h : (s.queue c.queue).entries ≠ []) :
    ((s.accept c).queue c.queue).entries = (s.queue c.queue).entries ++ [c] := by
  unfold State.accept
  dsimp only
  rw [if_neg h, queue_setQueue_self]

/-- A POST leaves the staging words, accepted or refused (R24). -/
@[simp] theorem post_subw (s : State) : s.post.subw = s.subw := by
  obtain ⟨c, -, -, hpost⟩ | ⟨-, hpost⟩ := post_cases s
  · rw [hpost, accept_subw]
  · rw [hpost]

/-- The record that a POST with result ACCEPTED took is the staged one (R25). -/
theorem post_eq_accept {s : State} {c : CommandRecord} (hstaged : s.stagedRecord = some c) (h : s.post.lastres = .accepted) :
    s.post = s.accept c := by
  obtain ⟨c', hc', -, hpost⟩ | ⟨hrefused, hpost⟩ := post_cases s
  · rw [hpost, Option.some.inj (hc'.symm.trans hstaged)]
  · rw [hpost] at h; exact absurd h hrefused

/-! ### The staging words hold what is written -/

/-- Settles O11: the registers by their offsets, a POST by the two things it can do. -/
theorem stagingWordsHold : Obligations.StagingWordsHold := by
  refine ⟨?written, ?postKeeps, ?postCopies, ?postOfReset, ?resetWords, ?softResetKeeps⟩
  case written =>
    intro s k data hlive
    refine ⟨_, exec_registerWrite_subwOffset hlive k data, rfl, ?same, fun j hj => ?other⟩
    case same => exact (readRegister_subwOffset (by simpa using hlive) k).trans (writeSubw_subw_self s k data)
    case other =>
      calc (s.writeSubw k data).readRegister (subwOffset j)
          _ = (s.writeSubw k data).subw[j] := readRegister_subwOffset (by simpa using hlive) j
          _ = s.subw[j] := writeSubw_subw_of_ne hj data
          _ = s.readRegister (subwOffset j) := (readRegister_subwOffset hlive j).symm
  case postKeeps => exact fun s _ _ ht => subw_of_whenLive (post_subw s) ht
  case postCopies =>
    intro s t data c hlive hstaged hhead ht haccepted
    rw [exec_post, whenLive_of_high _ hlive] at ht
    cases ht
    rw [post_eq_accept hstaged haccepted]
    exact entries_accept hhead
  case postOfReset =>
    intro data
    have hnone : State.reset.stagedRecord = none := by decide
    rw [exec_post, whenLive_of_high _ rfl, post_of_stagedRecord_eq_none hnone]
  case resetWords => exact fun k => Vector.getElem_replicate k.isLt
  case softResetKeeps => exact fun s _ ht => subw_of_whenLive (softReset_subw s) ht

end Sys2Proof.Machine
end

section
/-! PROOFS. The startability test: which locks it reads, and on which slots for each kind of command (R23, R82). -/

namespace Sys2Proof.Machine

/-! ### The locks that the test reads -/

theorem unlocked_iff {v : Slot} : v.unlocked = true ↔ v.writer = none ∧ v.readers = [] := by
  simp [Slot.unlocked]

/-- A test passes on a slot field when it passes on the slot that the field names, if it names one. -/
theorem slotPasses_iff {s : State} {test : Slot → Bool} {f : SlotField} :
    s.slotPasses test f = true ↔ ∀ i, f.toNat = i.val → test (s.slot i) = true := by
  simp only [← slotNumber_eq_some]
  unfold State.slotPasses
  cases hf : slotNumber f with
  | none => simp
  | some i => simp

/-- The test of R82: no lock at all on a destination, no writer on a source. -/
theorem startable_iff {s : State} {c : CommandRecord} :
    s.startable c = true ↔
      (∀ f ∈ c.dests, ∀ i, f.toNat = i.val → (s.slot i).writer = none ∧ (s.slot i).readers = []) ∧
      ∀ f ∈ c.sources, ∀ i, f.toNat = i.val → (s.slot i).writer = none := by
  simp only [State.startable, Bool.and_eq_true, List.all_eq_true, slotPasses_iff, unlocked_iff, decide_eq_true_eq]

/-! ### The slot fields of each kind -/

/-- The destinations of R23's table: none for CMP and BITLEN, two for DIVMOD, D for every other kind. -/
theorem dests_eq_ite (c : CommandRecord) :
    c.dests = if c.kind = .cmp ∨ c.kind = .bitlen then [] else if c.kind = .divmod then [c.d, c.d2] else [c.d] := by
  unfold CommandRecord.dests
  cases c.kind <;> rfl

/-- The sources of R23's table: A and B unless the kind is one of those that it lists first. -/
theorem sources_eq_ite (c : CommandRecord) :
    c.sources =
      if c.kind = .seti ∨ c.kind = .free then []
      else if c.kind = .copy ∨ c.kind = .shl ∨ c.kind = .shr ∨ c.kind = .bitlen then [c.a]
      else if c.kind = .modmul ∨ c.kind = .modexp then [c.a, c.b, c.m]
      else if c.kind = .modinv then [c.a, c.m] else [c.a, c.b] := by
  unfold CommandRecord.sources
  cases c.kind <;> rfl

/-- Settles O14: the locks by the meaning of the two tests on a slot field, the slots by the rows of R23's table. -/
theorem startabilityTest : Obligations.StartabilityTest :=
  fun _ c => ⟨startable_iff, dests_eq_ite c, sources_eq_ite c⟩

end Sys2Proof.Machine
end

section
/-! PROOFS. CTXSEL: the number it holds, the record it selects for CTXINFO0 to CTXINFO2, and that record's place on the resume list
(R128, R129, R163). -/

namespace Sys2Proof.Machine

/-! ### Writes and the soft reset -/

/-- What an event of the live part leaves alone stays at either level of RESET_N (R156). -/
theorem eq_of_whenLive {α : Type} {part : State → α} {f : State → State} {s t : State} (hf : part (f s) = part s)
    (ht : whenLive f s = .next t) : part t = part s := by
  rw [whenLive_eq_next_iff.1 ht]
  split
  · rfl
  · exact hf

@[simp] theorem softReset_ctxsel (s : State) : s.softReset.ctxsel = s.ctxsel := rfl

/-! ### The selected record -/

theorem selectedRecord_of_toNat_eq {s : State} {n : CtxId} (h : s.ctxsel.toNat = n.val) :
    s.selectedRecord = s.record (.ctx n) := by
  simp [State.selectedRecord, contextNumber_eq_some.2 h]

/-- Number 4 names no context, and of those that name none it alone selects the U record (R128). -/
theorem selectedRecord_of_four_le {s : State} (h : 4 ≤ s.ctxsel.toNat) :
    s.selectedRecord = if s.ctxsel.toNat = 4 then s.urec else Record.free := by
  simp [State.selectedRecord, contextNumber_eq_none.2 h, ← BitVec.toNat_inj]

/-! ### Its place on the resume list -/

theorem selectedPosition_eq_none {s : State} (h : ¬ ∃ n : CtxId, s.ctxsel.toNat = n.val ∧ n ∈ s.resumeList) :
    s.selectedPosition = none := by
  unfold State.selectedPosition
  cases hn : contextNumber s.ctxsel with
  | none => rfl
  | some n => exact if_neg fun hmem => h ⟨n, contextNumber_eq_some.1 hn, hmem⟩

/-- The position counts the contexts ahead of the selected one (R129). -/
theorem selectedPosition_eq_some {s : State} {n : CtxId} {front back : List CtxId} (h : s.ctxsel.toNat = n.val)
    (hlist : s.resumeList = front ++ n :: back) (hfront : n ∉ front) : s.selectedPosition = some front.length := by
  simp [State.selectedPosition, contextNumber_eq_some.2 h, hlist, List.idxOf_append_of_notMem hfront]

/-! ### The CTXINFO words -/

/-- A field that a layout begins with is a read field at bit 0, until the fields behind it shift it. -/
theorem setWidth_ofNat_eq_readField (n value : Nat) : (BitVec.ofNat n value).setWidth 32 = readField 0 n value :=
  (BitVec.shiftLeft_zero _).symm

/-- CTXINFO0 as the table of R163 lays it out. -/
theorem readCtxinfo0_eq_fields (s : State) :
    s.readCtxinfo0 =
      BitVec.ofNat 16 ((s.selectedRecord.command.map fun c => c.tag.toNat).getD 0) ++ 0#1 ++
        BitVec.ofNat 5 ((s.selectedRecord.command.map fun c => c.kind.code).getD 0) ++
        BitVec.ofBool s.selectedRecord.abortPending ++ BitVec.ofBool s.selectedRecord.parkPending ++ 0#1 ++
        BitVec.ofBool s.selectedPosition.isSome ++ BitVec.ofNat 2 (s.selectedPosition.getD 0) ++ 0#1 ++
        BitVec.ofNat 3 s.selectedRecord.state.code := by
  simp only [← ofNat_ofFlag]
  refine .trans ?_ (BitVec.setWidth_eq (n := 32) _)
  simp only [setWidth_append_ofNat, setWidth_ofNat_eq_readField, BitVec.shiftLeft_or_distrib, readField_shiftLeft]
  simp [State.readCtxinfo0, BitVec.or_assoc]

/-- CTXINFO1 as the table of R163 lays it out. -/
theorem readCtxinfo1_eq_fields (s : State) :
    s.readCtxinfo1 = BitVec.ofNat 16 s.selectedRecord.stepTotal ++ BitVec.ofNat 16 s.selectedRecord.stepsDone := by
  refine .trans ?_ (BitVec.setWidth_eq (n := 32) _)
  simp only [setWidth_append_ofNat, setWidth_ofNat_eq_readField, readField_shiftLeft]
  rfl

/-- CTXINFO2 as the table of R163 lays it out, the pages held counted over the three working values (R129). -/
theorem readCtxinfo2_eq_fields (s : State) :
    let j := s.selectedRecord
    s.readCtxinfo2 =
      0#9 ++ BitVec.ofNat 7 j.pagesWanted ++ 0#9 ++
        BitVec.ofNat 7 (j.wv0.pages.length + j.wv1.pages.length + j.wv2.pages.length) := by
  intro j
  refine .trans ?_ (BitVec.setWidth_eq (n := 32) _)
  simp only [setWidth_append_ofNat, BitVec.shiftLeft_or_distrib, readField_shiftLeft]
  simp [State.readCtxinfo2, Record.workPages, j, Nat.add_assoc]

/-! ### CTXSEL -/

/-- Settles O22: each part is a lemma above, and CTXINFO0 is read off by the command and the place on the resume list. -/
theorem ctxselSelects : Obligations.CtxselSelects := by
  refine ⟨?stored, fun _ _ => selectedRecord_of_toNat_eq, ?urgent, ?none, ?reads, rfl, rfl, ?softReset⟩
  case stored =>
    intro s data hlive
    exact ⟨_, (exec_registerWrite _ _ s).trans (whenLive_of_high _ hlive), rfl,
      readRegister_of_high (s := s.busWrite 0x15 data) hlive _⟩
  case urgent =>
    intro s hsel
    rw [selectedRecord_of_four_le hsel.ge, if_pos hsel]
  case none =>
    intro s hsel
    rw [selectedRecord_of_four_le hsel.le, if_neg hsel.ne']
  case reads =>
    intro s data hlive j listed
    refine ⟨?noEffect, (readRegister_of_high hlive _).trans (readCtxinfo1_eq_fields s),
      (readRegister_of_high hlive _).trans (readCtxinfo2_eq_fields s), _, _, _, _,
      (readRegister_of_high hlive _).trans (readCtxinfo0_eq_fields s), ?command, ?noCommand, ?unlisted, ?onList⟩
    case noEffect =>
      intro offset hoffset
      refine hostAccess_read_eq_nil ?_ ?_ data <;> (revert offset; decide)
    case command =>
      intro c hc
      simp [show s.selectedRecord.command = some c from hc]
    case noCommand =>
      intro hc
      simp [show s.selectedRecord.command = none from hc]
    case unlisted =>
      intro hunlisted
      rw [selectedPosition_eq_none hunlisted]
      exact ⟨rfl, rfl⟩
    case onList =>
      intro n front back hsel hlist hfront
      rw [selectedPosition_eq_some hsel hlist hfront]
      exact ⟨rfl, rfl⟩
  case softReset => exact fun s _ ht => eq_of_whenLive (part := State.ctxsel) (softReset_ctxsel s) ht

end Sys2Proof.Machine
end

section
/-! PROOFS. The Completion Queue and attention: the pop of the oldest record, the words in which the host reads it, INTSTAT and INTEN, and
the level of ATTN_N (R135, R136, R138 to R140, R163). -/

namespace Sys2Proof.Machine

/-! ### The commands -/

theorem exec_cqpop (data : Word) (s : State) : exec (.cqpop data) s = whenLive State.pop s := rfl

theorem exec_intstatWrite (data : Word) (s : State) :
    exec (.intstatWrite data) s = whenLive (fun t => t.writeIntstat data) s := rfl

theorem exec_intenWrite (data : Word) (s : State) : exec (.intenWrite data) s = whenLive (fun t => t.writeInten data) s := rfl

/-! ### A pop -/

theorem pop_of_cq_nil {s : State} (h : s.cq = []) : s.pop = s := by
  simp [State.pop, h]

theorem pop_of_cq_cons {s : State} {oldest : CompletionRecord} {rest : List CompletionRecord} (h : s.cq = oldest :: rest) :
    s.pop = { s with cq := rest, credits := s.credits + 1 } := by
  simp [State.pop, h]

/-! ### The words in which a record is read -/

/-- CQHEAD0 of a record as the table of R163 lays it out, the holder by its code. -/
theorem word0_eq_fields (r : CompletionRecord) :
    r.word0 =
      (if r.sign = .neg then 1#1 else 0#1) ++ BitVec.ofNat 3 (runnerCode r.holder) ++ BitVec.ofNat 4 r.status.code ++
        BitVec.ofNat 2 r.relation.code ++ (if r.queue = .urgent then 1#1 else 0#1) ++ BitVec.ofNat 5 r.kind.code ++ r.tag := by
  have htag : r.tag = BitVec.ofNat 16 r.tag.toNat := by simp
  rw [htag, ← ofNat_signCode, ← ofNat_ofFlag_decide]
  refine .trans ?_ (BitVec.setWidth_eq (n := 32) _)
  simp only [setWidth_append_ofNat, setWidth_ofNat_eq_readField, BitVec.shiftLeft_or_distrib, readField_shiftLeft]
  simp [CompletionRecord.word0, BitVec.or_assoc]

/-- CQHEAD1 of a record as the table of R163 lays it out. -/
theorem word1_eq_fields (r : CompletionRecord) :
    r.word1 = BitVec.ofBool r.zero ++ BitVec.ofNat 15 r.count ++ BitVec.ofNat 16 r.stepsDone := by
  rw [← ofNat_ofFlag]
  refine .trans ?_ (BitVec.setWidth_eq (n := 32) _)
  simp only [setWidth_append_ofNat, setWidth_ofNat_eq_readField, BitVec.shiftLeft_or_distrib, readField_shiftLeft]
  simp [CompletionRecord.word1, BitVec.or_assoc]

/-- CQSTAT as the table of R163 lays it out: the number of records, and zeros above it (R135). -/
theorem registerWord_cqstat (s : State) : s.registerWord 0x13 = 0#27 ++ BitVec.ofNat 5 s.cq.length := by
  refine .trans ?_ (BitVec.setWidth_eq (n := 32) _)
  rw [setWidth_append_ofNat, BitVec.setWidth_zero, BitVec.zero_shiftLeft, BitVec.or_zero]
  rfl

/-- CQHEAD0 reads the first word of the oldest record, or 0 (R135). -/
theorem registerWord_cqhead0 (s : State) : s.registerWord 0x10 = (s.cq.head?.map CompletionRecord.word0).getD 0 := rfl

/-- CQHEAD1 reads the second word of the oldest record, or 0 (R135). -/
theorem registerWord_cqhead1 (s : State) : s.registerWord 0x11 = (s.cq.head?.map CompletionRecord.word1).getD 0 := rfl

/-! ### CQPOP and the reads of the Completion Queue -/

/-- Settles O17: the pop by the two shapes of the queue, the words of the oldest record by their layouts, the codes by their tables. -/
theorem cqpopReturnsCredit : Obligations.CqpopReturnsCredit := by
  refine ⟨fun s data hlive => ⟨?empty, ?count, ?noEffect, ?oldest⟩, rfl, rfl, rfl⟩
  case empty =>
    intro hcq
    refine ⟨?_, readRegister_eq_zero ?_, readRegister_eq_zero ?_⟩
    · rw [exec_cqpop, whenLive_of_high _ hlive, pop_of_cq_nil hcq]
    · rw [registerWord_cqhead0, hcq]; rfl
    · rw [registerWord_cqhead1, hcq]; rfl
  case count => exact (readRegister_of_high hlive _).trans (registerWord_cqstat s)
  case noEffect =>
    intro offset hoffset
    refine hostAccess_read_eq_nil ?_ ?_ data <;> (revert offset; decide)
  case oldest =>
    intro oldest rest hcq
    refine ⟨?pop, ?head0, ?head1⟩
    case pop => rw [exec_cqpop, whenLive_of_high _ hlive, pop_of_cq_cons hcq]
    case head0 =>
      have hword : s.readRegister 0x10 = oldest.word0 := by
        rw [readRegister_of_high hlive, registerWord_cqhead0, hcq]; rfl
      rw [hword, word0_eq_fields]
      rcases oldest.holder with _ | n | _ <;> rfl
    case head1 =>
      have hword : s.readRegister 0x11 = oldest.word1 := by
        rw [readRegister_of_high hlive, registerWord_cqhead1, hcq]; rfl
      rw [hword, word1_eq_fields]

/-! ### INTSTAT and ATTN_N, bit by bit -/

/-- The write-one-to-clear of R138 on one flag. -/
theorem getLsbD_intstat_writeIntstat (s : State) (data : Word) {i : Nat} (hi : i < 6) :
    (s.writeIntstat data).intstat.getLsbD i = (s.intstat.getLsbD i && !data.getLsbD i) := by
  simp [State.writeIntstat, wordField, hi]

/-- Two words meet when they share a set bit. -/
theorem and_ne_zero_iff_exists_getLsbD {w : Nat} {x y : BitVec w} :
    x &&& y ≠ 0 ↔ ∃ i < w, x.getLsbD i = true ∧ y.getLsbD i = true := by
  constructor
  · intro hne
    have hbit := BitVec.getLsbD_true_ctz_of_ne_zero hne
    rw [BitVec.getLsbD_and, Bool.and_eq_true] at hbit
    obtain ⟨hx, hy⟩ := hbit
    exact ⟨_, BitVec.lt_of_getLsbD hx, hx, hy⟩
  · rintro ⟨i, -, hx, hy⟩ hzero
    have hbit : (x &&& y).getLsbD i = true := by rw [BitVec.getLsbD_and, hx, hy]; rfl
    simp [hzero] at hbit

theorem attnN_eq_low_iff (s : State) : s.attnN = .low ↔ s.intstat &&& s.inten ≠ 0 := by
  simp [State.attnN, State.attnAsserted]

/-! ### INTSTAT, INTEN and ATTN_N -/

/-- Settles O18: a write of either register by its command, the flags and the level of ATTN_N by their bits. -/
theorem intstatWriteClears : Obligations.IntstatWriteClears := by
  refine ⟨?intstat, ?inten, ?attn⟩
  case intstat =>
    intro s data hlive
    refine ⟨readRegister_of_high hlive _, hostAccess_read_eq_nil (by decide) (by decide) data, s.writeIntstat data, ?_, rfl,
      fun i => getLsbD_intstat_writeIntstat s data⟩
    rw [exec_intstatWrite, whenLive_of_high _ hlive]
  case inten =>
    intro s data hlive
    refine ⟨s.writeInten data, ?_, rfl, readRegister_of_high (s := s.writeInten data) hlive _⟩
    rw [exec_intenWrite, whenLive_of_high _ hlive]
  case attn => exact fun s => (attnN_eq_low_iff s).trans and_ne_zero_iff_exists_getLsbD

end Sys2Proof.Machine
end

section
/-! PROOFS. The events of the part that leave both window records alone: those of the Intake, the Arbiter, the Core, the Context
Table, the Completion Queue and the pool and protect writes of the Operand Store, which reach no window (R143). -/

namespace Sys2Proof.Machine

/-! ### The ends of a command and its acquisitions -/

@[simp] theorem coreEndUninstalled_windows (s : State) (r : Runner) (c : CommandRecord) (status : Status) :
    (s.coreEndUninstalled r c status).windows = s.windows := by
  simp [State.coreEndUninstalled, State.endUninstalled]

@[simp] theorem installInto_windows (s : State) (f : SlotField) (sign : Sign) (pages : List PageId) (n : Nat) :
    (s.installInto f sign pages n).1.windows = s.windows := by
  unfold State.installInto
  split <;> rfl

@[simp] theorem freeSlot_windows (s : State) (f : SlotField) : (s.freeSlot f).1.windows = s.windows := by
  unfold State.freeSlot
  split <;> rfl

/-- A commit changes slots (R78). -/
@[simp] theorem commitSlots_windows (s : State) (c : CommandRecord) (j : Record) :
    (s.commitSlots c j).1.windows = s.windows := by
  unfold State.commitSlots
  cases c.kind.commitForm <;> simp

@[simp] theorem finish_windows (s : State) (r : Runner) (c : CommandRecord) (w : Work) :
    (s.finish r c w).windows = s.windows := by
  unfold State.finish
  cases w.endFault c.kind <;> simp

@[simp] theorem shortfall_windows (s : State) (r : Runner) (c : CommandRecord) (demand : Nat) :
    (s.shortfall r c demand).windows = s.windows := by
  unfold State.shortfall
  dsimp only
  split
  · simp
  · cases r with
    | urgent => simp
    | ctx n => dsimp only; split <;> simp

/-- An acquisition, granted or refused (R10, R12). -/
@[simp] theorem acquireStep_windows (s : State) (r : Runner) (c : CommandRecord) :
    (s.acquireStep r c).windows = s.windows := by
  cases hg : acquisitionGranted (.run r) (s.demandOf c (s.record r)) s with
  | false => rw [acquireStep_of_refused hg, shortfall_windows]
  | true => rw [acquireStep_of_granted hg]; simp

/-! ### Steps and selections -/

@[simp] theorem normalBoundary_windows (s : State) (n : CtxId) (c : CommandRecord) :
    (s.normalBoundary n c).windows = s.windows := by
  unfold State.normalBoundary
  dsimp only
  split
  · simp
  · split
    · simp
    · cases s.head .urgent with
      | none => simp
      | some u => dsimp only; split <;> simp

@[simp] theorem urgentBoundary_windows (s : State) (c : CommandRecord) : (s.urgentBoundary c).windows = s.windows := by
  unfold State.urgentBoundary
  split <;> simp

@[simp] theorem boundary_windows (s : State) (r : Runner) (c : CommandRecord) : (s.boundary r c).windows = s.windows := by
  cases r with
  | ctx n => exact normalBoundary_windows s n c
  | urgent => exact urgentBoundary_windows s c

@[simp] theorem beginStep_windows (s : State) (r : Runner) (c : CommandRecord) : (s.beginStep r c).windows = s.windows := by
  unfold State.beginStep
  dsimp only
  split
  · cases s.stepZeroFault c <;> simp
  · simp

@[simp] theorem endStep_windows (s : State) (r : Runner) (c : CommandRecord) : (s.endStep r c).windows = s.windows := by
  unfold State.endStep
  dsimp only
  split <;> simp

/-- STEP_BEGIN, with or without an owner to begin a step of (R67). -/
@[simp] theorem coreBegin_windows (s : State) : s.coreBegin.windows = s.windows := by
  unfold State.coreBegin
  split
  · rfl
  · split <;> simp

/-- STEP_END, with or without a running step (R65). -/
@[simp] theorem coreEnd_windows (s : State) : s.coreEnd.windows = s.windows := by
  unfold State.coreEnd
  split
  · rfl
  · split <;> simp

@[simp] theorem selectNormal_windows (s : State) : s.selectNormal.windows = s.windows := by
  unfold State.selectNormal
  split
  · split <;> simp
  · rfl

@[simp] theorem selectResume_windows (s : State) : s.selectResume.windows = s.windows := by
  unfold State.selectResume
  split <;> simp

@[simp] theorem selectWork_windows (s : State) : s.selectWork.windows = s.windows := by
  unfold State.selectWork
  split
  · split <;> simp
  · simp

@[simp] theorem select_windows (s : State) : s.select.windows = s.windows := by
  unfold State.select
  split <;> simp

/-! ### Context requests -/

/-- A request on a target leaves the windows when the request on each context does (R120). -/
theorem onTarget_windows (s : State) (target : BitVec 3) {f : CtxId → State} (hf : ∀ n, (f n).windows = s.windows) :
    (s.onTarget target f).windows = s.windows := by
  unfold State.onTarget
  split
  · rfl
  · exact hf _

@[simp] theorem park_windows (s : State) (n : CtxId) : (s.park n).windows = s.windows := by
  unfold State.park
  split <;> simp

@[simp] theorem resume_windows (s : State) (n : CtxId) : (s.resume n).windows = s.windows := by
  unfold State.resume
  split <;> simp

@[simp] theorem abortSuspended_windows (s : State) (n : CtxId) : (s.abortSuspended n).windows = s.windows := by
  unfold State.abortSuspended
  dsimp only
  split <;> simp [State.endUninstalled]

@[simp] theorem abort_windows (s : State) (n : CtxId) : (s.abort n).windows = s.windows := by
  unfold State.abort
  split <;> simp

@[simp] theorem abortUrgent_windows (s : State) : s.abortUrgent.windows = s.windows := by
  unfold State.abortUrgent
  split <;> rfl

/-- A CTXREQ write, whatever request its code names (R120). -/
@[simp] theorem writeCtxreq_windows (s : State) (data : Word) : (s.writeCtxreq data).windows = s.windows := by
  unfold State.writeCtxreq
  dsimp only
  split
  · exact onTarget_windows s _ (park_windows s)
  · exact onTarget_windows s _ (resume_windows s)
  · exact onTarget_windows s _ (abort_windows s)
  · exact abortUrgent_windows s
  · rfl

/-! ### The Intake, the Completion Queue and the Operand Store -/

@[simp] theorem flush_windows (s : State) (q : QueueId) : (s.flush q).windows = s.windows := by
  simp [State.flush]

@[simp] theorem clearLatch_windows (s : State) (q : QueueId) : (s.clearLatch q).windows = s.windows := by
  simp [State.clearLatch]

@[simp] theorem accept_windows (s : State) (c : CommandRecord) : (s.accept c).windows = s.windows := by
  unfold State.accept
  dsimp only
  split <;> simp

/-- A POST, accepted or refused (R25). -/
@[simp] theorem post_windows (s : State) : s.post.windows = s.windows := by
  obtain ⟨c, -, -, hpost⟩ | ⟨-, hpost⟩ := post_cases s
  · rw [hpost, accept_windows]
  · rw [hpost]

@[simp] theorem expire_windows (s : State) (q : QueueId) : (s.expire q).windows = s.windows := by
  unfold State.expire
  split <;> simp

@[simp] theorem pop_windows (s : State) : s.pop.windows = s.windows := by
  unfold State.pop
  split <;> rfl

@[simp] theorem writePoolres_windows (s : State) (data : Word) : (s.writePoolres data).windows = s.windows := by
  simp [State.writePoolres]

@[simp] theorem setProtect_windows (s : State) : s.setProtect.windows = s.windows := by
  unfold State.setProtect
  split
  · rfl
  · split <;> rfl

@[simp] theorem clearProtect_windows (s : State) : s.clearProtect.windows = s.windows := by
  unfold State.clearProtect
  split <;> rfl

@[simp] theorem writeSlotattr_windows (s : State) (data : Word) : (s.writeSlotattr data).windows = s.windows := by
  unfold State.writeSlotattr
  split <;> simp

end Sys2Proof.Machine
end

section
/-! PROOFS. WINnSTAT: the word in which the host reads a window record, the write that clears OVERRUN and PAST_END, and the two flags
staying set through every event but such a write and the resets (R143, R151, R155, R163). -/

namespace Sys2Proof.Machine

/-! ### The register -/

/-- WINnSTAT as the table of R163 lays it out. -/
theorem statWord_eq_fields (v : Window) :
    v.statWord =
      0#6 ++ BitVec.ofNat 10 v.declLength ++ (if v.declSign = .neg then 1#1 else 0#1) ++ 0#1 ++ BitVec.ofNat 6 v.slot.val ++ 0#1 ++
        BitVec.ofNat 3 v.lastResult.code ++ BitVec.ofBool v.pastEnd ++ BitVec.ofBool v.overrun ++ BitVec.ofNat 2 v.state.code := by
  simp only [← ofNat_ofFlag, ← ofNat_signCode]
  refine .trans ?_ (BitVec.setWidth_eq (n := 32) _)
  simp only [setWidth_append_ofNat, BitVec.shiftLeft_or_distrib, readField_shiftLeft]
  simp [Window.statWord, BitVec.or_assoc]

theorem registerWord_winstat (s : State) (w : WindowId) : s.registerWord (windowOffset w + 2) = (s.window w).statWord := by
  fin_cases w <;> rfl

theorem exec_winstatWrite (w : WindowId) (data : Word) (s : State) :
    exec (.winstatWrite w data) s = whenLive (fun t => t.writeWinstat w) s := rfl

/-! ### The resets -/

theorem softReset_window (s : State) (w : WindowId) : s.softReset.window w = Window.closed :=
  Vector.getElem_replicate w.isLt

theorem reset_window (w : WindowId) : State.reset.window w = Window.closed :=
  Vector.getElem_replicate w.isLt

/-! ### Flags that stay set -/

/-- From s to t, a window's sticky flags that are set stay set (R151). -/
def FlagsStay (w : WindowId) (s t : State) : Prop :=
  ((s.window w).overrun = true → (t.window w).overrun = true) ∧ ((s.window w).pastEnd = true → (t.window w).pastEnd = true)

theorem FlagsStay.trans {w : WindowId} {s t u : State} (hst : FlagsStay w s t) (htu : FlagsStay w t u) : FlagsStay w s u :=
  ⟨htu.1 ∘ hst.1, htu.2 ∘ hst.2⟩

theorem flagsStay_of_window_eq {w : WindowId} {s t : State} (h : t.window w = s.window w) : FlagsStay w s t :=
  ⟨fun ho => h ▸ ho, fun hp => h ▸ hp⟩

theorem flagsStay_of_windows_eq {w : WindowId} {s t : State} (h : t.windows = s.windows) : FlagsStay w s t :=
  flagsStay_of_window_eq (congrArg (fun v => v[w]) h)

/-- A window record that is replaced keeps its flags when the new record has those that the old one had. -/
theorem flagsStay_setWindow {s : State} {u w : WindowId} {v : Window} (ho : (s.window u).overrun = true → v.overrun = true)
    (hp : (s.window u).pastEnd = true → v.pastEnd = true) : FlagsStay w s (s.setWindow u v) := by
  unfold FlagsStay
  rw [window_setWindow]
  split
  · next h => subst h; exact ⟨ho, hp⟩
  · exact ⟨id, id⟩

/-- At either level of RESET_N the flags stay through a command whose event they stay through (R156). -/
theorem flagsStay_of_whenLive {w : WindowId} {f : State → State} {s t : State} (ht : whenLive f s = .next t)
    (hf : FlagsStay w s (f s)) : FlagsStay w s t := by
  rw [whenLive_eq_next_iff.1 ht]
  split
  · exact flagsStay_of_windows_eq rfl
  · exact hf

/-- An event that leaves the window records leaves the flags. -/
theorem flagsStay_of_whenLive_windows {w : WindowId} {f : State → State} {s t : State} (ht : whenLive f s = .next t)
    (hf : (f s).windows = s.windows) : FlagsStay w s t :=
  flagsStay_of_whenLive ht (flagsStay_of_windows_eq hf)

/-! ### The events of the windows -/

theorem flagsStay_locksChanged (s : State) (w : WindowId) : FlagsStay w s s.locksChanged :=
  flagsStay_of_window_eq (locksChanged_window s w)

theorem flagsStay_refuseWindow (s : State) (u : WindowId) (result : WindowResult) (w : WindowId) :
    FlagsStay w s (s.refuseWindow u result) := by
  have hset : FlagsStay w s (s.setWindow u { s.window u with lastResult := result }) := flagsStay_setWindow id id
  exact hset.trans (flagsStay_of_window_eq (raise_window _ _ w))

/-- An OPEN_READ opens with the flags of the sessions before (R146). -/
theorem flagsStay_openRead (s : State) (u : WindowId) (slot : SlotField) (w : WindowId) : FlagsStay w s (s.openRead u slot) := by
  unfold State.openRead
  split
  · exact flagsStay_refuseWindow s u _ w
  · next i _ =>
    have hlock : FlagsStay w s (s.setSlot i ((s.slot i).lockRead (.win u))) := flagsStay_of_window_eq (setSlot_window s i _ w)
    refine (hlock.trans ?_).trans (flagsStay_locksChanged _ w)
    exact flagsStay_setWindow id id

/-- An OPEN_WRITE opens with the flags of the sessions before (R147). -/
theorem flagsStay_openWrite (s : State) (u : WindowId) (slot : SlotField) (length : Nat) (sign : Sign) (w : WindowId) :
    FlagsStay w s (s.openWrite u slot length sign) := by
  unfold State.openWrite
  split
  · exact flagsStay_refuseWindow s u _ w
  · next i _ =>
    have hlock : FlagsStay w s ((s.takePages (pg length)).setSlot i ((s.slot i).lockWrite (.win u))) :=
      flagsStay_of_windows_eq rfl
    refine (hlock.trans ?_).trans (flagsStay_locksChanged _ w)
    exact flagsStay_setWindow id id

theorem flagsStay_seek (s : State) (u : WindowId) (index : Nat) (w : WindowId) : FlagsStay w s (s.seek u index) := by
  have hopen : FlagsStay w s
      (if Config.maxIndex ≤ index then s.refuseWindow u .badLength
        else s.setWindow u { s.window u with index := index, lastResult := .ok }) := by
    split
    · exact flagsStay_refuseWindow s u _ w
    · exact flagsStay_setWindow id id
  unfold State.seek
  split
  · exact flagsStay_refuseWindow s u _ w
  · exact hopen
  · exact hopen

/-- A data write can set OVERRUN and clears neither flag (R149). -/
theorem flagsStay_windowWrite (s : State) (u : WindowId) (data : Word) (w : WindowId) :
    FlagsStay w s (s.windowWrite u data) := by
  unfold State.windowWrite
  dsimp only
  split
  · split
    · have hstored : FlagsStay w s { s with mem := setLimbAt s.mem (s.window u).staging (s.window u).index data } :=
        flagsStay_of_windows_eq rfl
      exact hstored.trans (flagsStay_setWindow id id)
    · have hset : FlagsStay w s (s.setWindow u { s.window u with overrun := true }) :=
        flagsStay_setWindow (fun _ => rfl) id
      exact hset.trans (flagsStay_of_window_eq (raise_window _ _ w))
  · exact flagsStay_of_windows_eq rfl
  · exact flagsStay_of_windows_eq rfl

/-- A data read can set PAST_END and clears neither flag (R150). -/
theorem flagsStay_windowRead (s : State) (u : WindowId) (w : WindowId) : FlagsStay w s (s.windowRead u) := by
  have hdriven : FlagsStay w s { s with dataOut := s.windowWord u } := flagsStay_of_windows_eq rfl
  unfold State.windowRead
  dsimp only
  split
  · exact hdriven.trans (flagsStay_setWindow id fun hp => Bool.or_eq_true_iff.2 (.inl hp))
  · exact hdriven
  · exact hdriven

/-- The end of a session keeps the flags (R152 item 4). -/
theorem flagsStay_endSession (s : State) (u w : WindowId) : FlagsStay w s (s.endSession u) := by
  have hunlocked : FlagsStay w s (s.releaseLocks (.win u)) := flagsStay_of_window_eq (releaseLocks_window s _ w)
  refine (hunlocked.trans ?_).trans (flagsStay_locksChanged _ w)
  exact flagsStay_setWindow id id

theorem flagsStay_closeWindow (s : State) (u w : WindowId) : FlagsStay w s (s.closeWindow u) := by
  unfold State.closeWindow
  dsimp only
  split
  · exact flagsStay_refuseWindow s u _ w
  · exact flagsStay_endSession s u w
  · exact (flagsStay_of_window_eq ((release_window _ _ w).trans (setSlot_window s _ _ w))).trans (flagsStay_endSession _ u w)

theorem flagsStay_cancelWindow (s : State) (u w : WindowId) : FlagsStay w s (s.cancelWindow u) := by
  unfold State.cancelWindow
  dsimp only
  split
  · exact flagsStay_refuseWindow s u _ w
  · exact flagsStay_endSession s u w
  · exact (flagsStay_of_window_eq (release_window s _ w)).trans (flagsStay_endSession _ u w)

/-- A write to the WINnSTAT of one window leaves the other's flags (R151). -/
theorem flagsStay_writeWinstat_of_ne (s : State) {u w : WindowId} (h : w ≠ u) : FlagsStay w s (s.writeWinstat u) :=
  flagsStay_of_window_eq (by rw [State.writeWinstat, window_setWindow, if_neg h])

/-! ### The writes of the bus -/

/-- A WINnCTL write, whatever request its code names (R144). -/
theorem flagsStay_writeWinctl (s : State) (u : WindowId) (data : Word) (w : WindowId) :
    FlagsStay w s (s.writeWinctl u data) := by
  unfold State.writeWinctl
  dsimp only
  split
  · exact flagsStay_openRead s u _ w
  · exact flagsStay_openWrite s u _ _ _ w
  · exact flagsStay_seek s u _ w
  · exact flagsStay_closeWindow s u w
  · exact flagsStay_cancelWindow s u w
  · exact flagsStay_of_windows_eq rfl

/-- A window's flags stay through a host write at any offset but DEVCTL's, which can carry a soft reset, and the window's own WINnSTAT
(R151, R158, R161). The cases are the registers, in the order of busWrite. -/
theorem flagsStay_busWrite (s : State) {offset : Offset} {w : WindowId} (hdevctl : offset ≠ 0x00)
    (hwinstat : offset ≠ windowOffset w + 2) (data : Word) : FlagsStay w s (s.busWrite offset data) := by
  have hother {u : WindowId} (hu : offset.toNat = (windowOffset u + 2).toNat) : w ≠ u := by
    rintro rfl
    exact hwinstat (BitVec.eq_of_toNat_eq hu)
  unfold State.busWrite
  split
  next h => exact absurd (BitVec.eq_of_toNat_eq h) hdevctl
  next => exact flagsStay_of_windows_eq rfl
  next => exact flagsStay_of_windows_eq rfl
  next => exact flagsStay_of_windows_eq rfl
  next => exact flagsStay_of_windows_eq rfl
  next => exact flagsStay_of_windows_eq (writePoolres_windows s data)
  next => exact flagsStay_of_windows_eq rfl
  next => exact flagsStay_of_windows_eq rfl
  next => exact flagsStay_of_windows_eq rfl
  next => exact flagsStay_of_windows_eq rfl
  next => exact flagsStay_of_windows_eq (post_windows s)
  next => exact flagsStay_of_windows_eq (pop_windows s)
  next => exact flagsStay_of_windows_eq (writeCtxreq_windows s data)
  next => exact flagsStay_of_windows_eq rfl
  next => exact flagsStay_of_windows_eq rfl
  next => exact flagsStay_of_windows_eq (writeSlotattr_windows s data)
  next => exact flagsStay_writeWinctl s 0 data w
  next => exact flagsStay_windowWrite s 0 data w
  next h => exact flagsStay_writeWinstat_of_ne s (hother h)
  next => exact flagsStay_writeWinctl s 1 data w
  next => exact flagsStay_windowWrite s 1 data w
  next h => exact flagsStay_writeWinstat_of_ne s (hother h)
  next => exact flagsStay_of_windows_eq rfl

/-! ### Every event -/

theorem flagsStay_execWindowDataRead {s t : State} {u w : WindowId} (ht : execWindowDataRead u s = .next t) : FlagsStay w s t := by
  unfold execWindowDataRead at ht
  split at ht <;> cases ht
  · exact flagsStay_of_windows_eq rfl
  · exact flagsStay_windowRead s u w

/-- A window's flags stay through every command but the resets and the writes to its own WINnSTAT (R151). -/
theorem flagsStay_exec {c : Instr} {s t : State} {w : WindowId} (ht : exec c s = .next t)
    (hhard : ∀ level, c ≠ .hardwareReset level) (hsoft : c ≠ .softReset) (hdevctl : ∀ data, c ≠ .registerWrite 0x00 data)
    (hwinstat : ∀ data, c ≠ .winstatWrite w data) (hoffset : ∀ data, c ≠ .registerWrite (windowOffset w + 2) data) :
    FlagsStay w s t := by
  cases c with
  | hardwareReset level => exact absurd rfl (hhard level)
  | softReset => exact absurd rfl hsoft
  | flushN => exact flagsStay_of_whenLive_windows (f := fun x => x.flush .normal) ht (flush_windows s _)
  | flushU => exact flagsStay_of_whenLive_windows (f := fun x => x.flush .urgent) ht (flush_windows s _)
  | clearLatchN => exact flagsStay_of_whenLive_windows (f := fun x => x.clearLatch .normal) ht (clearLatch_windows s _)
  | clearLatchU => exact flagsStay_of_whenLive_windows (f := fun x => x.clearLatch .urgent) ht (clearLatch_windows s _)
  | post _ => exact flagsStay_of_whenLive_windows (f := State.post) ht (post_windows s)
  | cqpop _ => exact flagsStay_of_whenLive_windows (f := State.pop) ht (pop_windows s)
  | intstatWrite data => exact flagsStay_of_whenLive_windows (f := fun x => x.writeIntstat data) ht rfl
  | intenWrite data => exact flagsStay_of_whenLive_windows (f := fun x => x.writeInten data) ht rfl
  | tbdivWrite data => exact flagsStay_of_whenLive_windows (f := fun x => x.writeTbdiv data) ht rfl
  | holdlimWrite data => exact flagsStay_of_whenLive_windows (f := fun x => x.writeHoldlim data) ht rfl
  | poolresWrite data => exact flagsStay_of_whenLive_windows (f := fun x => x.writePoolres data) ht (writePoolres_windows s data)
  | registerWrite offset data =>
    have hd : offset ≠ 0x00 := fun h => hdevctl data (h ▸ rfl)
    have hw : offset ≠ windowOffset w + 2 := fun h => hoffset data (h ▸ rfl)
    exact flagsStay_of_whenLive (f := fun x => x.busWrite offset data) ht (flagsStay_busWrite s hd hw data)
  | park target =>
    exact flagsStay_of_whenLive_windows (f := fun x => x.onTarget target x.park) ht (onTarget_windows s target (park_windows s))
  | resume target =>
    exact flagsStay_of_whenLive_windows (f := fun x => x.onTarget target x.resume) ht (onTarget_windows s target (resume_windows s))
  | abort target =>
    exact flagsStay_of_whenLive_windows (f := fun x => x.onTarget target x.abort) ht (onTarget_windows s target (abort_windows s))
  | abortUrgent _ => exact flagsStay_of_whenLive_windows (f := State.abortUrgent) ht (abortUrgent_windows s)
  | setProtect => exact flagsStay_of_whenLive_windows (f := State.setProtect) ht (setProtect_windows s)
  | clearProtect => exact flagsStay_of_whenLive_windows (f := State.clearProtect) ht (clearProtect_windows s)
  | openRead u slot => exact flagsStay_of_whenLive (f := fun x => x.openRead u slot) ht (flagsStay_openRead s u slot w)
  | openWrite u slot length sign =>
    exact flagsStay_of_whenLive (f := fun x => x.openWrite u slot length.toNat sign) ht
      (flagsStay_openWrite s u slot length.toNat sign w)
  | seek u index => exact flagsStay_of_whenLive (f := fun x => x.seek u index.toNat) ht (flagsStay_seek s u _ w)
  | close u => exact flagsStay_of_whenLive (f := fun x => x.closeWindow u) ht (flagsStay_closeWindow s u w)
  | cancel u => exact flagsStay_of_whenLive (f := fun x => x.cancelWindow u) ht (flagsStay_cancelWindow s u w)
  | windowDataWrite u data =>
    exact flagsStay_of_whenLive (f := fun x => x.windowWrite u data) ht (flagsStay_windowWrite s u data w)
  | windowDataRead u => exact flagsStay_execWindowDataRead ht
  | winstatWrite u data =>
    have hne : w ≠ u := fun h => hwinstat data (h ▸ rfl)
    exact flagsStay_of_whenLive (f := fun x => x.writeWinstat u) ht (flagsStay_writeWinstat_of_ne s hne)
  | timebaseEvent => exact flagsStay_of_whenLive_windows (f := State.timebase) ht rfl
  | holdExpiry q => exact flagsStay_of_whenLive_windows (f := fun x => x.expire q) ht (expire_windows s q)
  | selection => exact flagsStay_of_whenLive_windows (f := State.select) ht (select_windows s)
  | stepBegin => exact flagsStay_of_whenLive_windows (f := State.coreBegin) ht (coreBegin_windows s)
  | stepEnd => exact flagsStay_of_whenLive_windows (f := State.coreEnd) ht (coreEnd_windows s)

/-! ### WINnSTAT -/

/-- Settles O33: the word by its layout, the write and the resets by the record they leave, and the sticky flags command by command. -/
theorem winstatFlagsAreSticky : Obligations.WinstatFlagsAreSticky := by
  refine ⟨?noEffect, ?word, rfl, rfl, ?write, ?softReset, ?reset, fun _ _ _ _ => flagsStay_exec⟩
  case noEffect =>
    intro w data
    refine hostAccess_read_eq_nil ?_ ?_ data <;> (revert w; decide)
  case word =>
    intro s w hlive
    rw [readRegister_of_high hlive, registerWord_winstat, statWord_eq_fields]
  case write =>
    intro s w data hlive
    rw [exec_winstatWrite, whenLive_of_high _ hlive]
    rfl
  case softReset =>
    intro s t w hlive ht
    rw [exec_softReset, whenLive_of_high _ hlive] at ht
    cases ht
    rw [softReset_window]
    exact ⟨rfl, rfl⟩
  case reset =>
    intro w
    rw [reset_window]
    exact ⟨rfl, rfl⟩

end Sys2Proof.Machine
end

section
/-! PROOFS. DEVCTL as it is read: the word of the two fault latches, which a read leaves as they are and either reset clears (R36, R156,
R162, R163). -/

namespace Sys2Proof.Machine

/-! ### The word -/

/-- DEVCTL as R162 lays it out: the latch of NQ in bit 0, that of UQ in bit 1, and zeros above them. -/
theorem registerWord_devctl (s : State) :
    s.registerWord 0x00 = 0#30 ++ BitVec.ofBool s.uq.latch ++ BitVec.ofBool s.nq.latch := by
  rw [← ofNat_ofFlag, ← ofNat_ofFlag]
  refine .trans ?_ (BitVec.setWidth_eq (n := 32) _)
  simp only [setWidth_append_ofNat, BitVec.setWidth_zero, BitVec.zero_shiftLeft, BitVec.or_zero, readField_shiftLeft]
  rfl

/-- While both latches are clear DEVCTL reads 0, at either level of RESET_N. -/
theorem readRegister_devctl_eq_zero {s : State} (hn : s.nq.latch = false) (hu : s.uq.latch = false) : s.readRegister 0x00 = 0 := by
  refine readRegister_eq_zero ?_
  rw [registerWord_devctl, hn, hu]
  rfl

/-! ### The resets -/

@[simp] theorem softReset_nq_latch (s : State) : s.softReset.nq.latch = false := rfl

@[simp] theorem softReset_uq_latch (s : State) : s.softReset.uq.latch = false := rfl

@[simp] theorem hardwareResetValues_nq_latch (s : State) (level : PinLevel) : (s.hardwareResetValues level).nq.latch = false := rfl

@[simp] theorem hardwareResetValues_uq_latch (s : State) (level : PinLevel) : (s.hardwareResetValues level).uq.latch = false := rfl

/-- The rise of RESET_N ends the hardware reset (R156). -/
theorem exec_hardwareReset_high_of_low {s : State} (h : s.resetN = .low) :
    exec (.hardwareReset .high) s = .next (s.hardwareResetValues .high) :=
  if_pos h

/-! ### DEVCTL -/

/-- Settles O10: the word by its layout, and after either reset by the two latches, which it clears. -/
theorem devctlReadsTheLatches : Obligations.DevctlReadsTheLatches := by
  refine ⟨?reads, ?softReset, ?hardwareReset⟩
  case reads =>
    intro s hlive
    exact ⟨(readRegister_of_high hlive _).trans (registerWord_devctl s), hostAccess_read_eq_nil (by decide) (by decide)⟩
  case softReset =>
    intro s t hlive ht
    rw [exec_softReset, whenLive_of_high _ hlive] at ht
    cases ht
    exact readRegister_devctl_eq_zero (softReset_nq_latch s) (softReset_uq_latch s)
  case hardwareReset =>
    intro s t hlow ht
    rw [exec_hardwareReset_high_of_low hlow] at ht
    cases ht
    exact readRegister_devctl_eq_zero (hardwareResetValues_nq_latch s .high) (hardwareResetValues_uq_latch s .high)

end Sys2Proof.Machine
end

section
/-! PROOFS. What one command can do to the part: every command but a hardware reset is one of the events below, each with what held
when it was taken (R24 to R161). What every step keeps is proved event by event from this one case split. -/

namespace Sys2Proof.Machine

/-! ### Parts that stay when the fields behind them do -/

theorem record_eq_of {s t : State} (hcontexts : t.contexts = s.contexts) (hurec : t.urec = s.urec) (r : Runner) :
    t.record r = s.record r := by
  cases r <;> simp [State.record, hcontexts, hurec]

theorem slot_eq_of {s t : State} (hslots : t.slots = s.slots) (i : SlotId) : t.slot i = s.slot i := by
  simp [State.slot, hslots]

theorem queue_eq_of {s t : State} (hnq : t.nq = s.nq) (huq : t.uq = s.uq) (q : QueueId) : t.queue q = s.queue q := by
  cases q <;> simp [State.queue, hnq, huq]

theorem window_eq_of {s t : State} (hwindows : t.windows = s.windows) (w : WindowId) : t.window w = s.window w := by
  simp [State.window, hwindows]

@[simp] theorem setRecord_record_self (s : State) (r : Runner) : s.setRecord r (s.record r) = s := by
  cases r with
  | urgent => rfl
  | ctx n => simp [State.setRecord, State.record]

/-! ### The events -/

/-- t is s but for the registers that no whole-machine condition reads. -/
def OnlyRegisters (s t : State) : Prop :=
  t = { s with
    dataOut := t.dataOut, subw := t.subw, tbdiv := t.tbdiv, timebaseLeft := t.timebaseLeft, inten := t.inten
    slotsel := t.slotsel, slotattr := t.slotattr, lastres := t.lastres, ctxreq := t.ctxreq, ctxsel := t.ctxsel
    intstat := t.intstat }

/-- The events of the Intake and the Completion Queue, which change the two queues, the credits and the records posted (R25 to R37,
R88 to R93, R136). -/
inductive IntakeEvent (s : State) : State → Prop where
  | flush (q : QueueId) : IntakeEvent s (s.flush q)
  | clearLatch (q : QueueId) : IntakeEvent s (s.clearLatch q)
  | accept (c : CommandRecord) (hjudge : s.judge (some c) = .accepted) : IntakeEvent s (s.accept c)
  | pop : IntakeEvent s s.pop
  | holdlim (data : Word) : IntakeEvent s (s.writeHoldlim data)
  | timebase : IntakeEvent s s.timebase
  | expire (q : QueueId) : IntakeEvent s (s.expire q)
  | notice : IntakeEvent s s.refreshPreempt

/-- The requests on contexts and the notice of a changed reserve (R14, R120 to R126). -/
inductive ContextEvent (s : State) : State → Prop where
  | poolres (data : Word) : ContextEvent s (s.writePoolres data)
  | requestPark (n : CtxId) (hstate : (s.record (.ctx n)).state = .active) :
    ContextEvent s { s.setRecord (.ctx n) { s.record (.ctx n) with parkPending := true } with ctxreq := .pending }
  | park (n : CtxId) (hstate : (s.record (.ctx n)).state = .resumable ∨ (s.record (.ctx n)).state = .spaceWait) :
    ContextEvent s { s.parkContext n with ctxreq := .ok }
  | resume (n : CtxId) (hstate : (s.record (.ctx n)).state = .parked) :
    ContextEvent s { s.setRecord (.ctx n) { s.record (.ctx n) with state := .resumable } with
      resumeList := s.resumeList ++ [n], ctxreq := .ok }
  | requestAbort (r : Runner) (hstate : (s.record r).state = .active) :
    ContextEvent s { s.setRecord r { s.record r with abortPending := true } with ctxreq := .pending }
  | abort (n : CtxId) (c : CommandRecord)
    (hstate : (s.record (.ctx n)).state = .resumable ∨ (s.record (.ctx n)).state = .parked ∨
      (s.record (.ctx n)).state = .spaceWait)
    (hcommand : (s.record (.ctx n)).command = some c) :
    ContextEvent s
      { ({ s with resumeList := s.resumeList.filter (· ≠ n) } : State).endUninstalled (.ctx n) c .aborted with ctxreq := .ok }
  | discard (n : CtxId)
    (hstate : (s.record (.ctx n)).state = .resumable ∨ (s.record (.ctx n)).state = .parked ∨
      (s.record (.ctx n)).state = .spaceWait)
    (hcommand : (s.record (.ctx n)).command = none) :
    ContextEvent s
      { ({ s with resumeList := s.resumeList.filter (· ≠ n) } : State).setRecord (.ctx n) Record.free with ctxreq := .ok }

/-- A request to protect a slot that no holder writes, or to clear the protection of any slot (R16, R17). -/
inductive ProtectEvent (s : State) : State → Prop where
  | set (i : SlotId) (b : Bool) (hwriter : b = true → (s.slot i).writer = none) :
    ProtectEvent s { s.setSlot i { s.slot i with protect := b } with slotattr := .ok }

/-- The requests and data accesses of a window (R144 to R153). -/
inductive WindowEvent (s : State) : State → Prop where
  | moved (w : WindowId) (v : Window) (t : State)
    (hwindow : v = { s.window w with
      index := v.index, overrun := v.overrun, pastEnd := v.pastEnd, lastResult := v.lastResult })
    (hindex : v.index = (s.window w).index ∨ ((s.window w).state ≠ .closed ∧ v.index ≤ Config.maxIndex))
    (hstate : t = { s.setWindow w v with intstat := t.intstat, dataOut := t.dataOut }) : WindowEvent s t
  | stored (w : WindowId) (data : Word) (hopen : (s.window w).state = .openWrite)
    (hindex : (s.window w).index < (s.window w).declLength) :
    WindowEvent s
      (({ s with mem := setLimbAt s.mem (s.window w).staging (s.window w).index data } : State).setWindow w
        { s.window w with index := (s.window w).index + 1 })
  | openedRead (w : WindowId) (i : SlotId) (hclosed : (s.window w).state = .closed) (hwriter : (s.slot i).writer = none) :
    WindowEvent s
      ((s.setSlot i ((s.slot i).lockRead (.win w))).setWindow w
        { s.window w with
          state := .openRead, slot := i, index := 0, declLength := 0, declSign := .pos, staging := []
          lastResult := .ok }).locksChanged
  | openedWrite (w : WindowId) (i : SlotId) (length : Nat) (sign : Sign) (hclosed : (s.window w).state = .closed)
    (hlength : length ≤ Config.maxSlotLimbs) (hunlocked : (s.slot i).unlocked = true)
    (hgranted : acquisitionGranted (.win w) (pg length) s = true) :
    WindowEvent s
      (((s.takePages (pg length)).setSlot i ((s.slot i).lockWrite (.win w))).setWindow w
        { s.window w with
          state := .openWrite, slot := i, index := 0, declLength := length, declSign := sign
          staging := s.nextPages (pg length), lastResult := .ok }).locksChanged
  | endedRead (w : WindowId) (hopen : (s.window w).state = .openRead) : WindowEvent s (s.endSession w)
  | cancelled (w : WindowId) (hopen : (s.window w).state = .openWrite) :
    WindowEvent s ((s.release (s.window w).staging).endSession w)
  | closed (w : WindowId) (hopen : (s.window w).state = .openWrite) :
    WindowEvent s
      (((s.setSlot (s.window w).slot ((s.slot (s.window w).slot).installed s.mem (s.window w).declSign (s.window w).staging
          (s.window w).declLength)).release
        ((s.slot (s.window w).slot).givenBack s.mem (s.window w).staging (s.window w).declLength)).endSession w)

/-- The owner's record once the checks of step 0 have passed (R69, log entry 13). -/
def State.checked (s : State) (r : Runner) : State :=
  s.setRecord r { s.record r with checksMade := if (s.record r).nextStep = 0 then true else (s.record r).checksMade }

/-- The record of a command whose step has ended, with the step's work on it (R65). -/
def State.workedRecord (s : State) (r : Runner) (c : CommandRecord) : Record :=
  { (s.stepWork c (s.record r)).job with
    nextStep := (s.record r).nextStep + 1, stepsDone := countStep (s.record r).stepsDone }

/-- The state at the end of a step, before the command's end or the boundary is taken (R65). -/
def State.worked (s : State) (r : Runner) (c : CommandRecord) : State :=
  { s.setRecord r (s.workedRecord r c) with mem := (s.stepWork c (s.record r)).mem, stepRunning := false }

/-- The step that has just ended was the command's last (R65, R76). -/
def State.atLastStep (s : State) (r : Runner) (c : CommandRecord) : Bool :=
  (s.stepWork c (s.record r)).lastStep c.kind (s.record r).nextStep

/-- What the Core makes of its owner's command when a step can begin: an end that installs nothing, a suspension, or the granted
acquisition of the next step (R105 to R109). -/
inductive CoreGoes (s : State) (r : Runner) (c : CommandRecord) : State → Prop where
  | ended (status : Status) (hstatus : status.setsLatch = true) : CoreGoes s r c (s.coreEndUninstalled r c status)
  | parked (n : CtxId) (hrunner : r = .ctx n) (habort : (s.record r).abortPending = false)
    (hpark : (s.record r).parkPending = true) : CoreGoes s r c (s.parkContext n).coreFree
  | waits (n : CtxId) (hrunner : r = .ctx n) (habort : (s.record r).abortPending = false)
    (hpark : (s.record r).parkPending = false)
    (hrefused : acquisitionGranted (.run r) (s.demandOf c (s.record r)) s = false) :
    CoreGoes s r c (s.enterSpaceWait n (s.demandOf c (s.record r))).coreFree
  | granted (hgranted : acquisitionGranted (.run r) (s.demandOf c (s.record r)) s = true) :
    CoreGoes s r c
      { (s.takePages (s.demandOf c (s.record r))).setRecord r
          ((s.record r).withPages (s.lackingPages c (s.record r)) (s.nextPages (s.demandOf c (s.record r)))) with
        stepRunning := true }

/-- The commit of a command whose last step has left its working values in the record j (R77, R78, R110). -/
def State.committed (s : State) (r : Runner) (c : CommandRecord) (j : Record) : State :=
  ((s.commitSlots c j).1.endCommand r (s.commitSlots c j).2
    (startedRecord c r .done (s.doneSummary (s.commitSlots c j).1 c) j.stepsDone) c.notify).coreFree

/-- The events of the Arbiter and the Core (R97 to R110). -/
inductive CoreEvent (s : State) : State → Prop where
  | started (q : QueueId) (r : Runner) (c : CommandRecord) (howner : s.owner = none) (hhead : s.head q = some c)
    (hstartable : s.startable c = true) (hqueue : q = r.queue) (hfree : ∀ n, r = .ctx n → (s.record r).state = .free) :
    CoreEvent s (s.start q r c)
  | resumed (n : CtxId) (howner : s.owner = none) (hlist : n ∈ s.resumeList) : CoreEvent s (s.resumeContext n)
  | failed (r : Runner) (c : CommandRecord) (status : Status) (howner : s.owner = some r)
    (hcommand : (s.record r).command = some c) (hrunning : s.stepRunning = false) (hstatus : status.setsLatch = true) :
    CoreEvent s ((s.setRecord r { s.record r with stepsDone := 1 }).coreEndUninstalled r c status)
  | begun (r : Runner) (c : CommandRecord) (t : State) (howner : s.owner = some r)
    (hcommand : (s.record r).command = some c) (hrunning : s.stepRunning = false)
    (hpassed : (s.record r).nextStep ≠ 0 ∨ (s.record r).checksMade = true ∨ s.stepZeroFault c = none)
    (hgoes : CoreGoes (s.checked r) r c t) : CoreEvent s t
  | boundary (r : Runner) (c : CommandRecord) (t : State) (howner : s.owner = some r)
    (hcommand : (s.record r).command = some c) (hrunning : s.stepRunning = true) (hlast : s.atLastStep r c = false)
    (hgoes : CoreGoes (s.worked r c) r c t) : CoreEvent s t
  | preempted (n : CtxId) (c u : CommandRecord) (howner : s.owner = some (.ctx n))
    (hcommand : (s.record (.ctx n)).command = some c) (hrunning : s.stepRunning = true)
    (hlast : s.atLastStep (.ctx n) c = false) (habort : (s.record (.ctx n)).abortPending = false)
    (hpark : (s.record (.ctx n)).parkPending = false) (hhead : s.head .urgent = some u) (hstartable : s.startable u = true) :
    CoreEvent s (((s.worked (.ctx n) c).preempted n).start .urgent .urgent u)
  | faulted (r : Runner) (c : CommandRecord) (status : Status) (howner : s.owner = some r)
    (hcommand : (s.record r).command = some c) (hrunning : s.stepRunning = true) (hlast : s.atLastStep r c = true)
    (hstatus : status.setsLatch = true) : CoreEvent s ((s.worked r c).coreEndUninstalled r c status)
  | committed (r : Runner) (c : CommandRecord) (howner : s.owner = some r) (hcommand : (s.record r).command = some c)
    (hrunning : s.stepRunning = true) (hlast : s.atLastStep r c = true)
    (hfault : (s.stepWork c (s.record r)).endFault c.kind = none) :
    CoreEvent s ((s.worked r c).committed r c (s.workedRecord r c))

/-- One event of the live part (R156). A DEVCTL write can carry several events of the Intake (R160). -/
inductive Event (s t : State) : Prop where
  | registers (h : OnlyRegisters s t)
  | softReset (h : t = s.softReset)
  | intake (h : Relation.ReflTransGen IntakeEvent s t)
  | context (h : ContextEvent s t)
  | protect (h : ProtectEvent s t)
  | window (h : WindowEvent s t)
  | core (h : CoreEvent s t)

theorem Event.stay (s : State) : Event s s := .registers rfl

theorem IntakeEvent.event {s t : State} (h : IntakeEvent s t) : Event s t := .intake (.single h)

/-! ### The Intake and the registers -/

theorem event_post (s : State) : Event s s.post := by
  obtain ⟨c, -, hjudge, hpost⟩ | ⟨-, hpost⟩ := post_cases s <;> rw [hpost]
  · exact (IntakeEvent.accept c hjudge).event
  · exact .registers rfl

/-- A request of a DEVCTL bit is an event of the Intake, or none (R160). -/
theorem intake_ite {s t u : State} {b : Bool} (h : Relation.ReflTransGen IntakeEvent s t) (hu : IntakeEvent t u) :
    Relation.ReflTransGen IntakeEvent s (if b then u else t) := by
  cases b
  · exact h
  · exact h.tail hu

theorem event_writeDevctl (s : State) (data : Word) : Event s (s.writeDevctl data) := by
  unfold State.writeDevctl
  split
  · exact .softReset rfl
  · exact .intake (intake_ite (intake_ite (intake_ite (intake_ite .refl (.flush _)) (.flush _)) (.clearLatch _)) (.clearLatch _))

/-! ### Context requests -/

theorem event_onTarget (s : State) (target : BitVec 3) {f : CtxId → State} (h : ∀ n, Event s (f n)) :
    Event s (s.onTarget target f) := by
  unfold State.onTarget
  split
  · exact .registers rfl
  · exact h _

theorem event_park (s : State) (n : CtxId) : Event s (s.park n) := by
  unfold State.park
  split
  next h => exact .context (.requestPark n h)
  next h => exact .context (.park n (.inl h))
  next h => exact .context (.park n (.inr h))
  next => exact .registers rfl
  next => exact .registers rfl

theorem event_resume (s : State) (n : CtxId) : Event s (s.resume n) := by
  unfold State.resume
  split
  next h => exact .context (.resume n h)
  all_goals exact .registers rfl

/-- The abort of a suspended context is that of its command; without a command its record is emptied (R125). -/
theorem event_abortSuspended (s : State) (n : CtxId)
    (hstate : (s.record (.ctx n)).state = .resumable ∨ (s.record (.ctx n)).state = .parked ∨
      (s.record (.ctx n)).state = .spaceWait) : Event s { s.abortSuspended n with ctxreq := .ok } := by
  unfold State.abortSuspended
  dsimp only
  split
  next c hcommand => exact .context (.abort n c hstate hcommand)
  next hcommand => exact .context (.discard n hstate hcommand)

theorem event_abort (s : State) (n : CtxId) : Event s (s.abort n) := by
  unfold State.abort
  split
  next h => exact .context (.requestAbort (.ctx n) h)
  next h => exact event_abortSuspended s n (.inl h)
  next h => exact event_abortSuspended s n (.inr (.inl h))
  next h => exact event_abortSuspended s n (.inr (.inr h))
  next => exact .registers rfl

theorem event_abortUrgent (s : State) : Event s s.abortUrgent := by
  unfold State.abortUrgent
  split
  next h => exact .context (.requestAbort .urgent h)
  next => exact .registers rfl

theorem event_writeCtxreq (s : State) (data : Word) : Event s (s.writeCtxreq data) := by
  unfold State.writeCtxreq
  dsimp only
  split
  · exact event_onTarget s _ (event_park s)
  · exact event_onTarget s _ (event_resume s)
  · exact event_onTarget s _ (event_abort s)
  · exact event_abortUrgent s
  · exact .stay s

/-! ### Protect requests -/

theorem event_setProtect (s : State) : Event s s.setProtect := by
  unfold State.setProtect
  split
  · exact .registers rfl
  · split
    next => exact .registers rfl
    next i _ h => exact .protect (.set i true fun _ => not_ne_iff.1 h)

theorem event_clearProtect (s : State) : Event s s.clearProtect := by
  unfold State.clearProtect
  split
  · exact .registers rfl
  · exact .protect (.set _ false nofun)

theorem event_writeSlotattr (s : State) (data : Word) : Event s (s.writeSlotattr data) := by
  unfold State.writeSlotattr
  split
  · exact event_setProtect s
  · exact event_clearProtect s
  · exact .stay s
  · exact .stay s

/-! ### Windows -/

theorem event_refuseWindow (s : State) (w : WindowId) (result : WindowResult) : Event s (s.refuseWindow w result) :=
  .window (.moved w { s.window w with lastResult := result } _ rfl (.inl rfl) rfl)

/-- An OPEN_READ that no test refuses finds the window CLOSED and the slot without a writer (R145). -/
theorem openReadTest_eq_ok {s : State} {w : WindowId} {slot : SlotField} {i : SlotId} (h : s.openReadTest w slot = .ok i) :
    (s.window w).state = .closed ∧ (s.slot i).writer = none := by
  unfold State.openReadTest at h
  split at h
  · cases h
  · next hclosed =>
    split at h
    · cases h
    · split at h <;> cases h
      next hwriter => exact ⟨not_ne_iff.1 hclosed, not_ne_iff.1 hwriter⟩

theorem event_openRead (s : State) (w : WindowId) (slot : SlotField) : Event s (s.openRead w slot) := by
  unfold State.openRead
  split
  · exact event_refuseWindow s w _
  · next i h => exact .window (.openedRead w i (openReadTest_eq_ok h).1 (openReadTest_eq_ok h).2)

/-- An OPEN_WRITE that no test refuses finds the window CLOSED, the slot without a lock and the pages granted (R145). -/
theorem openWriteTest_eq_ok {s : State} {w : WindowId} {slot : SlotField} {length : Nat} {i : SlotId}
    (h : s.openWriteTest w slot length = .ok i) :
    (s.window w).state = .closed ∧ length ≤ Config.maxSlotLimbs ∧ (s.slot i).unlocked = true ∧
      acquisitionGranted (.win w) (pg length) s = true := by
  unfold State.openWriteTest at h
  split at h
  · cases h
  · next hclosed =>
    split at h
    · cases h
    · split_ifs at h with hlength hunlocked hprotect hgranted
      cases h
      exact ⟨not_ne_iff.1 hclosed, not_lt.1 hlength, by simpa using hunlocked, by simpa using hgranted⟩

theorem event_openWrite (s : State) (w : WindowId) (slot : SlotField) (length : Nat) (sign : Sign) :
    Event s (s.openWrite w slot length sign) := by
  unfold State.openWrite
  split
  · exact event_refuseWindow s w _
  · next i h =>
    obtain ⟨hclosed, hlength, hunlocked, hgranted⟩ := openWriteTest_eq_ok h
    exact .window (.openedWrite w i length sign hclosed hlength hunlocked hgranted)

/-- A SEEK in an open window (R148). -/
theorem event_seek_open (s : State) (w : WindowId) (index : Nat) (hopen : (s.window w).state ≠ .closed) :
    Event s (if Config.maxIndex ≤ index then s.refuseWindow w .badLength
      else s.setWindow w { s.window w with index := index, lastResult := .ok }) := by
  split
  · exact event_refuseWindow s w _
  · next h => exact .window (.moved w _ _ rfl (.inr ⟨hopen, (not_le.1 h).le⟩) rfl)

theorem event_seek (s : State) (w : WindowId) (index : Nat) : Event s (s.seek w index) := by
  unfold State.seek
  split
  next => exact event_refuseWindow s w _
  next h => exact event_seek_open s w index (by simp [h])
  next h => exact event_seek_open s w index (by simp [h])

theorem event_windowWrite (s : State) (w : WindowId) (data : Word) : Event s (s.windowWrite w data) := by
  unfold State.windowWrite
  dsimp only
  split
  next hopen =>
    split
    next hindex => exact .window (.stored w data hopen hindex)
    next => exact .window (.moved w { s.window w with overrun := true } _ rfl (.inl rfl) rfl)
  all_goals exact .stay s

theorem event_windowRead (s : State) (w : WindowId) : Event s (s.windowRead w) := by
  unfold State.windowRead
  dsimp only
  split
  next hopen => exact .window (.moved w _ _ rfl (.inr ⟨by simp [hopen], Nat.min_le_right _ _⟩) rfl)
  all_goals exact .registers rfl

theorem event_writeWinstat (s : State) (w : WindowId) : Event s (s.writeWinstat w) :=
  .window (.moved w { s.window w with overrun := false, pastEnd := false } _ rfl (.inl rfl) rfl)

theorem event_closeWindow (s : State) (w : WindowId) : Event s (s.closeWindow w) := by
  unfold State.closeWindow
  dsimp only
  split
  next => exact event_refuseWindow s w _
  next hopen => exact .window (.endedRead w hopen)
  next hopen => exact .window (.closed w hopen)

theorem event_cancelWindow (s : State) (w : WindowId) : Event s (s.cancelWindow w) := by
  unfold State.cancelWindow
  dsimp only
  split
  next => exact event_refuseWindow s w _
  next hopen => exact .window (.endedRead w hopen)
  next hopen => exact .window (.cancelled w hopen)

theorem event_writeWinctl (s : State) (w : WindowId) (data : Word) : Event s (s.writeWinctl w data) := by
  unfold State.writeWinctl
  dsimp only
  split
  · exact event_openRead s w _
  · exact event_openWrite s w _ _ _
  · exact event_seek s w _
  · exact event_closeWindow s w
  · exact event_cancelWindow s w
  · exact .stay s

/-- A host write at any offset; the cases are the registers, in the order of busWrite (R158). -/
theorem event_busWrite (s : State) (offset : Offset) (data : Word) : Event s (s.busWrite offset data) := by
  unfold State.busWrite
  split
  · exact event_writeDevctl s data
  · exact .registers rfl
  · exact .registers rfl
  · exact .registers rfl
  · exact (IntakeEvent.holdlim data).event
  · exact .context (.poolres data)
  · exact .registers rfl
  · exact .registers rfl
  · exact .registers rfl
  · exact .registers rfl
  · exact event_post s
  · exact IntakeEvent.pop.event
  · exact event_writeCtxreq s data
  · exact .registers rfl
  · exact .registers rfl
  · exact event_writeSlotattr s data
  · exact event_writeWinctl s 0 data
  · exact event_windowWrite s 0 data
  · exact event_writeWinstat s 0
  · exact event_writeWinctl s 1 data
  · exact event_windowWrite s 1 data
  · exact event_writeWinstat s 1
  · exact .stay s

/-! ### Selection -/

theorem selectNormal_cases (s : State) :
    s.selectNormal = s ∨ ∃ c n, s.head .normal = some c ∧ s.startable c = true ∧ (s.record (.ctx n)).state = .free ∧
      s.selectNormal = s.start .normal (.ctx n) c := by
  unfold State.selectNormal
  split
  next c n hhead hfree =>
    split
    next hstartable =>
      have hstate := List.find?_some hfree
      exact .inr ⟨c, n, hhead, hstartable, by simpa using hstate, rfl⟩
    next => exact .inl rfl
  next => exact .inl rfl

theorem event_selectResume {s : State} (howner : s.owner = none) : Event s s.selectResume := by
  unfold State.selectResume
  split
  next n rest hlist => exact .core (.resumed n howner (by simp [hlist]))
  next =>
    obtain hstay | ⟨c, n, hhead, hstartable, hfree, hstart⟩ := selectNormal_cases s
    · rw [hstay]; exact .stay s
    · rw [hstart]
      exact .core (.started .normal (.ctx n) c howner hhead hstartable rfl fun _ _ => hfree)

theorem event_select (s : State) : Event s s.select := by
  unfold State.select
  split
  next howner =>
    unfold State.selectWork
    split
    next u hhead =>
      split
      next hstartable => exact .core (.started .urgent .urgent u howner hhead hstartable rfl nofun)
      next => exact event_selectResume howner
    next => exact event_selectResume howner
  next => exact IntakeEvent.notice.event

/-! ### The Core -/

theorem shortfall_cases {s : State} {r : Runner} {c : CommandRecord}
    (hrefused : acquisitionGranted (.run r) (s.demandOf c (s.record r)) s = false) :
    CoreGoes s r c (s.shortfall r c (s.demandOf c (s.record r))) := by
  unfold State.shortfall
  dsimp only
  split
  next => exact .ended .aborted rfl
  next habort =>
    cases r with
    | urgent => exact .ended .noSpace rfl
    | ctx n =>
      dsimp only
      split
      next hpark => exact .parked n rfl (by simpa using habort) hpark
      next hpark => exact .waits n rfl (by simpa using habort) (by simpa using hpark) hrefused

theorem acquireStep_cases (s : State) (r : Runner) (c : CommandRecord) : CoreGoes s r c (s.acquireStep r c) := by
  cases hg : acquisitionGranted (.run r) (s.demandOf c (s.record r)) s with
  | false => rw [acquireStep_of_refused hg]; exact shortfall_cases hg
  | true => rw [acquireStep_of_granted hg]; exact .granted hg

/-- A boundary takes the owner's command on, or gives the Core to a startable UQ head (R103, R105, R106). -/
theorem boundary_cases (s : State) (r : Runner) (c : CommandRecord) :
    CoreGoes s r c (s.boundary r c) ∨
      ∃ n u, r = .ctx n ∧ (s.record r).abortPending = false ∧ (s.record r).parkPending = false ∧ s.head .urgent = some u ∧
        s.startable u = true ∧ s.boundary r c = (s.preempted n).start .urgent .urgent u := by
  cases r with
  | urgent =>
    refine .inl ?_
    unfold State.boundary State.urgentBoundary
    dsimp only
    split
    · exact .ended .aborted rfl
    · exact acquireStep_cases s .urgent c
  | ctx n =>
    unfold State.boundary State.normalBoundary
    dsimp only
    split
    next => exact .inl (.ended .aborted rfl)
    next habort =>
      split
      next hpark => exact .inl (.parked n rfl (by simpa using habort) hpark)
      next hpark =>
        cases hhead : s.head .urgent with
        | none => exact .inl (acquireStep_cases s (.ctx n) c)
        | some u =>
          dsimp only
          split
          next hstartable =>
            exact .inr ⟨n, u, rfl, by simpa using habort, by simpa using hpark, rfl, hstartable, rfl⟩
          next => exact .inl (acquireStep_cases s (.ctx n) c)

/-- A fault of the checks of step 0 is a status that sets the latch (R35, R43). -/
theorem setsLatch_of_stepZeroFault {s : State} {c : CommandRecord} {status : Status} (h : s.stepZeroFault c = some status) :
    status.setsLatch = true := by
  have hmod : ∀ {m : Value} {e : Option Value}, modulusFault m e = some status → status.setsLatch = true := by
    intro m e hm
    unfold modulusFault at hm
    split_ifs at hm <;> cases hm <;> rfl
  unfold State.stepZeroFault at h
  split_ifs at h
  · cases h; rfl
  · dsimp only at h
    have hone : ∀ {p : Prop} [Decidable p] {x : Status}, x.setsLatch = true → (if p then some x else none) = some status →
        status.setsLatch = true := by
      intro p _ x hx hsome
      split_ifs at hsome
      cases hsome
      exact hx
    cases hkind : c.kind <;> simp only [hkind] at h
    case divmod => exact hone rfl h
    case mul => exact hone rfl h
    case shl => exact hone rfl h
    case modmul => exact hmod h
    case modexp => exact hmod h
    case modinv => exact hmod h
    all_goals cases h

/-- A fault found at the last step is a status that sets the latch (R35, R61). -/
theorem setsLatch_of_endFault {w : Work} {kind : Kind} {status : Status} (h : w.endFault kind = some status) :
    status.setsLatch = true := by
  unfold Work.endFault at h
  split_ifs at h <;> cases h <;> rfl

theorem checked_eq (s : State) (r : Runner) :
    s.checked r = if (s.record r).nextStep = 0 then s.setRecord r { s.record r with checksMade := true } else s := by
  unfold State.checked
  split
  · rfl
  · exact setRecord_record_self s r

theorem checked_eq_self {s : State} {r : Runner} (h : (s.record r).nextStep ≠ 0 ∨ (s.record r).checksMade = true) :
    s.checked r = s := by
  rw [checked_eq]
  split
  next h0 =>
    have hmade : (s.record r).checksMade = true := h.resolve_left (not_not.2 h0)
    rw [← hmade]
    exact setRecord_record_self s r
  next => rfl

theorem event_beginStep {s : State} {r : Runner} {c : CommandRecord} (howner : s.owner = some r)
    (hcommand : (s.record r).command = some c) (hrunning : s.stepRunning = false) : Event s (s.beginStep r c) := by
  unfold State.beginStep
  dsimp only
  split
  next hfirst =>
    have hfirst : (s.record r).nextStep = 0 ∧ (s.record r).checksMade = false := by simpa using hfirst
    split
    next status hfault => exact .core (.failed r c status howner hcommand hrunning (setsLatch_of_stepZeroFault hfault))
    next hfault =>
      refine .core (.begun r c _ howner hcommand hrunning (.inr (.inr hfault)) ?_)
      rw [checked_eq, if_pos hfirst.1]
      exact acquireStep_cases _ r c
  next hfirst =>
    have hmade : (s.record r).nextStep ≠ 0 ∨ (s.record r).checksMade = true := by
      by_contra h
      exact hfirst (by simpa using h)
    refine .core (.begun r c _ howner hcommand hrunning (hmade.imp_right .inl) ?_)
    rw [checked_eq_self hmade]
    exact acquireStep_cases s r c

theorem endStep_eq (s : State) (r : Runner) (c : CommandRecord) :
    s.endStep r c =
      if s.atLastStep r c then
        (s.worked r c).finish r c { s.stepWork c (s.record r) with job := s.workedRecord r c }
      else (s.worked r c).boundary r c := rfl

/-- A fault at the last step is read from the memory and the working values, which the counts of the step do not touch. -/
theorem endFault_workedRecord (s : State) (r : Runner) (c : CommandRecord) :
    ({ s.stepWork c (s.record r) with job := s.workedRecord r c } : Work).endFault c.kind =
      (s.stepWork c (s.record r)).endFault c.kind := rfl

theorem job_stepWork_eq (s : State) (r : Runner) (c : CommandRecord) :
    s.workedRecord r c = { s.record r with
      nextStep := (s.record r).nextStep + 1, stepsDone := countStep (s.record r).stepsDone
      carry := (s.workedRecord r c).carry
      wv0 := { (s.record r).wv0 with length := (s.workedRecord r c).wv0.length }
      wv1 := { (s.record r).wv1 with length := (s.workedRecord r c).wv1.length }
      wv2 := { (s.record r).wv2 with length := (s.workedRecord r c).wv2.length } } := by
  have h := (extends_stepWork s c (s.record r)).job
  unfold State.workedRecord
  rw [h]

@[simp] theorem workedRecord_workPages (s : State) (r : Runner) (c : CommandRecord) :
    (s.workedRecord r c).workPages = (s.record r).workPages := by
  rw [job_stepWork_eq]; rfl

@[simp] theorem worked_record_self (s : State) (r : Runner) (c : CommandRecord) :
    (s.worked r c).record r = s.workedRecord r c :=
  (record_eq_of rfl rfl r).trans (record_setRecord_self s r _)

theorem worked_record (s : State) (r x : Runner) (c : CommandRecord) :
    (s.worked r c).record x = if x = r then s.workedRecord r c else s.record x :=
  (record_eq_of rfl rfl x).trans (record_setRecord s r x _)

/-- The work of a step changes the memory, the owner's record and the running step (R41). -/
theorem worked_frame (s : State) (r : Runner) (c : CommandRecord) :
    s.worked r c = { s with
      mem := (s.worked r c).mem, stepRunning := false, contexts := (s.worked r c).contexts, urec := (s.worked r c).urec } := by
  rw [State.eq_iff]
  simp [State.worked]

theorem checked_frame (s : State) (r : Runner) :
    s.checked r = { s with contexts := (s.checked r).contexts, urec := (s.checked r).urec } := by
  rw [State.eq_iff]
  simp [State.checked]

theorem event_endStep {s : State} {r : Runner} {c : CommandRecord} (howner : s.owner = some r)
    (hcommand : (s.record r).command = some c) (hrunning : s.stepRunning = true) : Event s (s.endStep r c) := by
  rw [endStep_eq]
  split
  next hlast =>
    unfold State.finish
    rw [endFault_workedRecord]
    split
    next status hfault => exact .core (.faulted r c status howner hcommand hrunning hlast (setsLatch_of_endFault hfault))
    next hfault => exact .core (.committed r c howner hcommand hrunning hlast hfault)
  next hlast =>
    have hlast : s.atLastStep r c = false := by simpa using hlast
    obtain hgoes | ⟨n, u, rfl, habort, hpark, hhead, hstartable, hstart⟩ := boundary_cases (s.worked r c) r c
    · exact .core (.boundary r c _ howner hcommand hrunning hlast hgoes)
    · rw [hstart]
      have hhead : s.head .urgent = some u := by rwa [worked_frame] at hhead
      have hstartable : s.startable u = true := by
        rwa [startable_congr (s := s) fun i => by rw [worked_frame]; exact ⟨rfl, rfl⟩] at hstartable
      rw [worked_record_self, job_stepWork_eq] at habort hpark
      exact .core (.preempted n c u howner hcommand hrunning hlast habort hpark hhead hstartable)

/-- The Core's owner with the command its record holds. -/
theorem ownedCommand_eq_some {s : State} {r : Runner} {c : CommandRecord} (h : s.ownedCommand = some (r, c)) :
    s.owner = some r ∧ (s.record r).command = some c := by
  unfold State.ownedCommand at h
  split at h
  · cases h
  · next x howner =>
    obtain ⟨d, hcommand, heq⟩ := Option.map_eq_some_iff.1 h
    cases heq
    exact ⟨howner, hcommand⟩

theorem event_coreBegin (s : State) : Event s s.coreBegin := by
  unfold State.coreBegin
  split
  next => exact .stay s
  next r c h =>
    split
    next => exact .stay s
    next hrunning =>
      exact event_beginStep (ownedCommand_eq_some h).1 (ownedCommand_eq_some h).2 (by simpa using hrunning)

theorem event_coreEnd (s : State) : Event s s.coreEnd := by
  unfold State.coreEnd
  split
  next => exact .stay s
  next r c h =>
    split
    next hrunning => exact event_endStep (ownedCommand_eq_some h).1 (ownedCommand_eq_some h).2 hrunning
    next => exact .stay s

/-! ### Every command -/

theorem exists_event_of_whenLive {f : State → State} {s : State} (hf : Event s (f s)) :
    ∃ t, whenLive f s = .next t ∧ Event s t := by
  refine ⟨_, whenLive_eq_next_iff.2 rfl, ?_⟩
  split
  · exact .stay s
  · exact hf

/-- Every command but a hardware reset goes on by one event, or by none while RESET_N is low (R156). -/
theorem exists_event_of_exec (c : Instr) (s : State) (hhard : ∀ level, c ≠ .hardwareReset level) :
    ∃ t, exec c s = .next t ∧ Event s t := by
  cases c with
  | hardwareReset level => exact absurd rfl (hhard level)
  | softReset => exact exists_event_of_whenLive (f := State.softReset) (.softReset rfl)
  | flushN => exact exists_event_of_whenLive (f := fun x => x.flush .normal) (IntakeEvent.flush _).event
  | flushU => exact exists_event_of_whenLive (f := fun x => x.flush .urgent) (IntakeEvent.flush _).event
  | clearLatchN => exact exists_event_of_whenLive (f := fun x => x.clearLatch .normal) (IntakeEvent.clearLatch _).event
  | clearLatchU => exact exists_event_of_whenLive (f := fun x => x.clearLatch .urgent) (IntakeEvent.clearLatch _).event
  | post _ => exact exists_event_of_whenLive (f := State.post) (event_post s)
  | cqpop _ => exact exists_event_of_whenLive (f := State.pop) IntakeEvent.pop.event
  | intstatWrite data => exact exists_event_of_whenLive (f := fun x => x.writeIntstat data) (.registers rfl)
  | intenWrite data => exact exists_event_of_whenLive (f := fun x => x.writeInten data) (.registers rfl)
  | tbdivWrite data => exact exists_event_of_whenLive (f := fun x => x.writeTbdiv data) (.registers rfl)
  | holdlimWrite data => exact exists_event_of_whenLive (f := fun x => x.writeHoldlim data) (IntakeEvent.holdlim data).event
  | poolresWrite data => exact exists_event_of_whenLive (f := fun x => x.writePoolres data) (.context (.poolres data))
  | registerWrite offset data =>
    exact exists_event_of_whenLive (f := fun x => x.busWrite offset data) (event_busWrite s offset data)
  | park target =>
    exact exists_event_of_whenLive (f := fun x => x.onTarget target x.park) (event_onTarget s target (event_park s))
  | resume target =>
    exact exists_event_of_whenLive (f := fun x => x.onTarget target x.resume) (event_onTarget s target (event_resume s))
  | abort target =>
    exact exists_event_of_whenLive (f := fun x => x.onTarget target x.abort) (event_onTarget s target (event_abort s))
  | abortUrgent _ => exact exists_event_of_whenLive (f := State.abortUrgent) (event_abortUrgent s)
  | setProtect => exact exists_event_of_whenLive (f := State.setProtect) (event_setProtect s)
  | clearProtect => exact exists_event_of_whenLive (f := State.clearProtect) (event_clearProtect s)
  | openRead w slot => exact exists_event_of_whenLive (f := fun x => x.openRead w slot) (event_openRead s w slot)
  | openWrite w slot length sign =>
    exact exists_event_of_whenLive (f := fun x => x.openWrite w slot length.toNat sign) (event_openWrite s w slot length.toNat sign)
  | seek w index => exact exists_event_of_whenLive (f := fun x => x.seek w index.toNat) (event_seek s w _)
  | close w => exact exists_event_of_whenLive (f := fun x => x.closeWindow w) (event_closeWindow s w)
  | cancel w => exact exists_event_of_whenLive (f := fun x => x.cancelWindow w) (event_cancelWindow s w)
  | windowDataWrite w data => exact exists_event_of_whenLive (f := fun x => x.windowWrite w data) (event_windowWrite s w data)
  | windowDataRead w =>
    change ∃ t, execWindowDataRead w s = .next t ∧ Event s t
    unfold execWindowDataRead
    split
    · exact ⟨_, rfl, .registers rfl⟩
    · exact ⟨_, rfl, event_windowRead s w⟩
  | winstatWrite w _ => exact exists_event_of_whenLive (f := fun x => x.writeWinstat w) (event_writeWinstat s w)
  | timebaseEvent => exact exists_event_of_whenLive (f := State.timebase) IntakeEvent.timebase.event
  | holdExpiry q => exact exists_event_of_whenLive (f := fun x => x.expire q) (IntakeEvent.expire q).event
  | selection => exact exists_event_of_whenLive (f := State.select) (event_select s)
  | stepBegin => exact exists_event_of_whenLive (f := State.coreBegin) (event_coreBegin s)
  | stepEnd => exact exists_event_of_whenLive (f := State.coreEnd) (event_coreEnd s)

theorem event_of_exec {c : Instr} {s t : State} (ht : exec c s = .next t) (hhard : ∀ level, c ≠ .hardwareReset level) :
    Event s t := by
  obtain ⟨u, hu, hevent⟩ := exists_event_of_exec c s hhard
  cases hu.symm.trans ht
  exact hevent

/-- A hardware reset leaves the reset values with the level of RESET_N and the queue, or the state as it was (R156). -/
theorem exec_hardwareReset_cases {level : PinLevel} {s t : State} (ht : exec (.hardwareReset level) s = .next t) :
    t = s ∨ ∃ l, t = s.hardwareResetValues l := by
  change execHardwareReset level s = _ at ht
  unfold execHardwareReset at ht
  split at ht
  · cases ht; exact .inr ⟨_, rfl⟩
  · split at ht <;> cases ht
    · exact .inr ⟨_, rfl⟩
    · exact .inl rfl

theorem event_clockTick (s : State) : Event s s.clockTick := by
  unfold State.clockTick
  split
  · exact .stay s
  · split
    · exact IntakeEvent.timebase.event
    · exact .registers rfl

/-- A step is one event, or a hardware reset, on the state with the queue's rest. -/
theorem step_cases {s t : State} (ht : step s = .next t) :
    ∃ rest, Event { s with pending := rest } t ∨ ∃ level, t = ({ s with pending := rest } : State).hardwareResetValues level := by
  unfold step at ht
  split at ht
  next =>
    cases ht
    exact ⟨s.pending, .inl (event_clockTick s)⟩
  next c rest _ =>
    refine ⟨rest, ?_⟩
    by_cases hhard : ∃ level, c = .hardwareReset level
    · obtain ⟨level, rfl⟩ := hhard
      obtain rfl | hvalues := exec_hardwareReset_cases ht
      · exact .inl (.stay _)
      · exact .inr hvalues
    · exact .inl (event_of_exec ht fun level h => hhard ⟨level, h⟩)

/-- What the reset values have, what does not depend on the waiting commands and what every event keeps, every step keeps. -/
theorem step_keeps {P : State → Prop} (hreset : ∀ level l, P { State.reset with resetN := level, pending := l })
    (hpending : ∀ s l, P s → P { s with pending := l }) (hevent : ∀ s t, P s → Event s t → P t) {s t : State} (hs : P s)
    (ht : step s = .next t) : P t := by
  obtain ⟨rest, h | ⟨level, rfl⟩⟩ := step_cases ht
  · exact hevent _ t (hpending s rest hs) h
  · exact hreset level _

end Sys2Proof.Machine
end

section
/-! PROOFS. The limb memory and the queue of waiting commands through every event (R8, R156). -/

namespace Sys2Proof.Machine

/-! ### Frames of the events -/

/-- t is s but for the fields of the Intake, the Completion Queue and the registers that tell of them. -/
def OnlyIntake (s t : State) : Prop :=
  t = { s with
    nq := t.nq, uq := t.uq, cq := t.cq, credits := t.credits, intstat := t.intstat, preemptPending := t.preemptPending
    lastres := t.lastres, timebaseLeft := t.timebaseLeft }

theorem OnlyIntake.trans {s t u : State} (hst : OnlyIntake s t) (htu : OnlyIntake t u) : OnlyIntake s u := by
  unfold OnlyIntake at *
  rw [State.eq_iff] at *
  simp at *
  simp [hst, htu]

theorem accept_onlyIntake (s : State) (c : CommandRecord) : OnlyIntake s (s.accept c) := by
  unfold State.accept
  dsimp only
  split <;> (unfold OnlyIntake; rw [State.eq_iff]; simp)

theorem expire_onlyIntake (s : State) (q : QueueId) : OnlyIntake s (s.expire q) := by
  unfold State.expire
  split <;> (unfold OnlyIntake; rw [State.eq_iff]; simp)

theorem IntakeEvent.onlyIntake {s t : State} (h : IntakeEvent s t) : OnlyIntake s t := by
  cases h with
  | flush q => unfold OnlyIntake; rw [State.eq_iff]; simp [State.flush]
  | clearLatch q => unfold OnlyIntake; rw [State.eq_iff]; simp [State.clearLatch]
  | accept c _ => exact accept_onlyIntake s c
  | pop => unfold State.pop; split <;> rfl
  | holdlim data => rfl
  | timebase => rfl
  | expire q => exact expire_onlyIntake s q
  | notice => rfl

theorem onlyIntake_of_reflTransGen {s t : State} (h : Relation.ReflTransGen IntakeEvent s t) : OnlyIntake s t := by
  induction h with
  | refl => rfl
  | tail _ h ih => exact ih.trans h.onlyIntake

/-- A commit changes slots alone (R78). -/
theorem commitSlots_frame (s : State) (c : CommandRecord) (j : Record) :
    (s.commitSlots c j).1 = { s with slots := (s.commitSlots c j).1.slots } := by
  have hinstall : ∀ (u : State) (f : SlotField) (sign : Sign) (pages : List PageId) (n : Nat),
      (u.installInto f sign pages n).1 = { u with slots := (u.installInto f sign pages n).1.slots } := by
    intro u f sign pages n
    unfold State.installInto
    split <;> rfl
  unfold State.commitSlots
  cases c.kind.commitForm with
  | nothing => rfl
  | freed =>
    dsimp only
    unfold State.freeSlot
    split <;> rfl
  | one => exact hinstall _ _ _ _ _
  | two =>
    dsimp only
    rw [hinstall (s.installInto _ _ _ _).1, hinstall s]

/-- The end of a session changes locks, its window, and the indicators and timers of the queues (R152, R153). -/
theorem endSession_frame (s : State) (w : WindowId) :
    s.endSession w = { s with
      slots := (s.endSession w).slots, windows := (s.endSession w).windows, nq := (s.endSession w).nq
      uq := (s.endSession w).uq, preemptPending := (s.endSession w).preemptPending } := by
  rw [State.eq_iff]
  simp [State.endSession]

/-! ### The queue of waiting commands -/

@[simp] theorem endUninstalled_pending (s : State) (r : Runner) (c : CommandRecord) (status : Status) :
    (s.endUninstalled r c status).pending = s.pending := by
  simp [State.endUninstalled]

@[simp] theorem coreEndUninstalled_pending (s : State) (r : Runner) (c : CommandRecord) (status : Status) :
    (s.coreEndUninstalled r c status).pending = s.pending := by
  simp [State.coreEndUninstalled]

@[simp] theorem commitSlots_pending (s : State) (c : CommandRecord) (j : Record) :
    (s.commitSlots c j).1.pending = s.pending := by
  rw [commitSlots_frame]

@[simp] theorem worked_pending (s : State) (r : Runner) (c : CommandRecord) : (s.worked r c).pending = s.pending := by
  rw [worked_frame]

@[simp] theorem endSession_pending (s : State) (w : WindowId) : (s.endSession w).pending = s.pending := by
  rw [endSession_frame]

theorem CoreGoes.pending {s t : State} {r : Runner} {c : CommandRecord} (h : CoreGoes s r c t) : t.pending = s.pending := by
  cases h <;> simp

theorem CoreEvent.pending {s t : State} (h : CoreEvent s t) : t.pending = s.pending := by
  cases h with
  | started q r c => exact start_pending s q r c
  | resumed n => exact resumeContext_pending s n
  | failed => simp
  | begun r c t _ _ _ _ hgoes => rw [hgoes.pending, checked_frame]
  | boundary r c t _ _ _ _ hgoes => rw [hgoes.pending, worked_pending]
  | preempted => simp
  | faulted => simp
  | committed => simp [State.committed]

theorem WindowEvent.pending {s t : State} (h : WindowEvent s t) : t.pending = s.pending := by
  cases h with
  | moved _ _ _ _ _ hstate => rw [hstate]; rfl
  | stored => rfl
  | openedRead => simp
  | openedWrite => simp
  | endedRead => simp
  | cancelled => simp
  | closed => simp

theorem ContextEvent.pending {s t : State} (h : ContextEvent s t) : t.pending = s.pending := by
  cases h <;> simp [State.writePoolres]

theorem Event.pending {s t : State} (h : Event s t) : t.pending = s.pending := by
  cases h with
  | registers h => rw [h]
  | softReset h => rw [h]; rfl
  | intake h => rw [onlyIntake_of_reflTransGen h]
  | context h => exact h.pending
  | protect h => cases h; rfl
  | window h => exact h.pending
  | core h => exact h.pending

theorem exec_hardwareReset_eq (level : PinLevel) (s : State) :
    ∃ t, exec (.hardwareReset level) s = .next t ∧ t.pending = s.pending := by
  change ∃ t, execHardwareReset level s = .next t ∧ t.pending = s.pending
  unfold execHardwareReset
  split
  · exact ⟨_, rfl, rfl⟩
  · split <;> exact ⟨_, rfl, rfl⟩

/-- Settles O2: a hardware reset by its two levels, every other command as an event. -/
theorem everyCommandGoesOn : Obligations.EveryCommandGoesOn := by
  intro c s
  by_cases hhard : ∃ level, c = .hardwareReset level
  · obtain ⟨level, rfl⟩ := hhard
    exact exec_hardwareReset_eq level s
  · obtain ⟨t, ht, hevent⟩ := exists_event_of_exec c s fun level h => hhard ⟨level, h⟩
    exact ⟨t, ht, hevent.pending⟩

/-! ### The limb memory -/

@[simp] theorem endUninstalled_mem (s : State) (r : Runner) (c : CommandRecord) (status : Status) :
    (s.endUninstalled r c status).mem = s.mem := by
  simp [State.endUninstalled]

@[simp] theorem coreEndUninstalled_mem (s : State) (r : Runner) (c : CommandRecord) (status : Status) :
    (s.coreEndUninstalled r c status).mem = s.mem := by
  simp [State.coreEndUninstalled]

@[simp] theorem endSession_mem (s : State) (w : WindowId) : (s.endSession w).mem = s.mem := by
  rw [endSession_frame]

@[simp] theorem commitSlots_mem (s : State) (c : CommandRecord) (j : Record) : (s.commitSlots c j).1.mem = s.mem := by
  rw [commitSlots_frame]

@[simp] theorem committed_mem (s : State) (r : Runner) (c : CommandRecord) (j : Record) : (s.committed r c j).mem = s.mem := by
  simp [State.committed]

@[simp] theorem checked_mem (s : State) (r : Runner) : (s.checked r).mem = s.mem := by
  rw [checked_frame]

theorem MemoryCanonical.congr {s t : State} (hs : MemoryCanonical s) (h : t.mem = s.mem) : MemoryCanonical t := by
  unfold MemoryCanonical
  rwa [h]

theorem memoryCanonical_takePages {s : State} (d : Nat) (hs : MemoryCanonical s) : MemoryCanonical (s.takePages d) :=
  Memory.zeroPages_wf _ hs

theorem memoryCanonical_worked {s : State} {r : Runner} {c : CommandRecord} (hs : MemoryCanonical s) :
    MemoryCanonical (s.worked r c) :=
  (extends_stepWork s c (s.record r)).memWf hs

theorem CoreGoes.memoryCanonical {s t : State} {r : Runner} {c : CommandRecord} (hs : MemoryCanonical s)
    (h : CoreGoes s r c t) : MemoryCanonical t := by
  cases h with
  | granted _ => exact (memoryCanonical_takePages _ hs).congr (setRecord_mem _ _ _)
  | _ => exact hs.congr (by simp)

theorem CoreEvent.memoryCanonical {s t : State} (hs : MemoryCanonical s) (h : CoreEvent s t) : MemoryCanonical t := by
  cases h with
  | begun r c t _ _ _ _ hgoes => exact hgoes.memoryCanonical (hs.congr (checked_mem s r))
  | boundary r c t _ _ _ _ hgoes => exact hgoes.memoryCanonical (memoryCanonical_worked hs)
  | preempted n c => exact (memoryCanonical_worked (r := .ctx n) (c := c) hs).congr (by simp)
  | faulted r c => exact (memoryCanonical_worked (r := r) (c := c) hs).congr (by simp)
  | committed r c => exact (memoryCanonical_worked (r := r) (c := c) hs).congr (by simp)
  | _ => exact hs.congr (by simp)

/-- A store into a staging page and the zeroed pages of an OPEN_WRITE keep the form; no other event of a window writes a limb. -/
theorem WindowEvent.memoryCanonical {s t : State} (hs : MemoryCanonical s) (h : WindowEvent s t) : MemoryCanonical t := by
  cases h with
  | moved _ _ _ _ _ hstate => exact hs.congr (by rw [hstate]; rfl)
  | stored => exact setLimbAt_wf _ _ _ hs
  | openedWrite w i length =>
    exact (memoryCanonical_takePages (pg length) hs).congr (by simp)
  | _ => exact hs.congr (by simp)

theorem Event.memoryCanonical {s t : State} (hs : MemoryCanonical s) (h : Event s t) : MemoryCanonical t := by
  cases h with
  | registers h => exact hs.congr (by rw [h])
  | softReset h => exact hs.congr (by rw [h]; rfl)
  | intake h => exact hs.congr (by rw [onlyIntake_of_reflTransGen h])
  | context h => exact hs.congr (by cases h <;> simp [State.writePoolres])
  | protect h => exact hs.congr (by cases h; rfl)
  | window h => exact h.memoryCanonical hs
  | core h => exact h.memoryCanonical hs

/-- Settles O51: limbs are stored, and pages zeroed, by the operations of the limb memory alone. -/
theorem memoryCanonicalKept : Obligations.MemoryCanonicalKept :=
  fun _ _ hs ht => step_keeps (P := MemoryCanonical) (fun _ _ => Memory.wf_nil) (fun _ _ h => h)
    (fun _ _ h he => he.memoryCanonical h) hs ht

end Sys2Proof.Machine
end

section
/-! PROOFS. The window records through every event: each holds what its state calls for (R143). -/

namespace Sys2Proof.Machine

/-- What R143 gives for the state of one window record. -/
structure Window.Consistent (v : Window) : Prop where
  closedFields : v.state = .closed → v.slot = 0 ∧ v.index = 0 ∧ v.declLength = 0 ∧ v.declSign = .pos
  readFields : v.state = .openRead → v.declLength = 0 ∧ v.declSign = .pos
  staging : v.staging.length = if v.state = .openWrite then pg v.declLength else 0
  indexBound : v.index ≤ Config.maxIndex
  lengthBound : v.declLength ≤ Config.maxSlotLimbs

theorem windowsConsistent_iff {s : State} : WindowsConsistent s ↔ ∀ w, (s.window w).Consistent :=
  ⟨fun ⟨h1, h2, h3, h4, h5⟩ w => ⟨h1 w, h2 w, h3 w, h4 w, h5 w⟩,
    fun h => ⟨fun w => (h w).closedFields, fun w => (h w).readFields, fun w => (h w).staging, fun w => (h w).indexBound,
      fun w => (h w).lengthBound⟩⟩

theorem Window.consistent_closed : Window.closed.Consistent := by
  constructor <;> simp [Window.closed]

theorem Window.consistent_ended (v : Window) : v.ended.Consistent := by
  constructor <;> simp [Window.ended, Window.closed]

/-- A window that is not open for writing holds no page. -/
theorem WindowsConsistent.staging_eq_nil {s : State} (h : WindowsConsistent s) {w : WindowId}
    (hstate : (s.window w).state ≠ .openWrite) : (s.window w).staging = [] :=
  List.length_eq_zero_iff.1 (by rw [h.staging, if_neg hstate])

theorem WindowsConsistent.congr {s t : State} (hs : WindowsConsistent s) (h : t.windows = s.windows) :
    WindowsConsistent t := by
  rw [windowsConsistent_iff] at *
  exact fun w => window_eq_of h w ▸ hs w

theorem windowsConsistent_setWindow {s : State} {w : WindowId} {v : Window} (hs : WindowsConsistent s) (hv : v.Consistent) :
    WindowsConsistent (s.setWindow w v) := by
  rw [windowsConsistent_iff] at *
  intro u
  rw [window_setWindow]
  split
  · exact hv
  · exact hs u

theorem windowsConsistent_endSession {s : State} (w : WindowId) (hs : WindowsConsistent s) :
    WindowsConsistent (s.endSession w) := by
  have hunlocked : WindowsConsistent (s.releaseLocks (.win w)) := hs.congr (by simp)
  exact (windowsConsistent_setWindow (w := w) hunlocked (Window.consistent_ended (s.window w))).congr
    (by simp [State.endSession])

theorem WindowEvent.windowsConsistent {s t : State} (hs : WindowsConsistent s) (h : WindowEvent s t) : WindowsConsistent t := by
  have hwindow := windowsConsistent_iff.1 hs
  cases h with
  | moved w v t hv hindex hstate =>
    have hconsistent : v.Consistent := by
      obtain ⟨hclosed, hread, hstaging, hbound, hlength⟩ := hwindow w
      rw [hv]
      refine ⟨fun hc => ?_, hread, hstaging, ?_, hlength⟩
      · obtain hsame | ⟨hopen, -⟩ := hindex
        · exact hsame ▸ hclosed hc
        · exact absurd hc hopen
      · obtain hsame | ⟨-, hle⟩ := hindex
        · exact hsame ▸ hbound
        · exact hle
    exact (windowsConsistent_setWindow (w := w) hs hconsistent).congr (by rw [hstate])
  | stored w data hopen hindex =>
    obtain ⟨-, -, hstaging, -, hlength⟩ := hwindow w
    refine windowsConsistent_setWindow (hs.congr rfl) ⟨?_, ?_, hstaging, ?_, hlength⟩
    · simp [hopen]
    · simp [hopen]
    · exact hindex.trans_le hlength
  | openedRead w i hclosed =>
    refine (windowsConsistent_setWindow (hs.congr rfl) ?_).congr (locksChanged_windows _)
    constructor <;> simp
  | openedWrite w i length sign hclosed hlength hunlocked hgranted =>
    refine (windowsConsistent_setWindow (hs.congr rfl) ?_).congr (locksChanged_windows _)
    refine ⟨by simp, by simp, ?_, Nat.zero_le _, hlength⟩
    rw [if_pos rfl, length_nextPages hgranted]
  | endedRead w => exact windowsConsistent_endSession w hs
  | cancelled w => exact windowsConsistent_endSession w (hs.congr (release_windows _ _))
  | closed w =>
    exact windowsConsistent_endSession w
      (hs.congr ((release_windows _ _).trans (setSlot_windows _ _ _)))

/-! ### No event of another block reaches a window -/

@[simp] theorem endUninstalled_windows (s : State) (r : Runner) (c : CommandRecord) (status : Status) :
    (s.endUninstalled r c status).windows = s.windows := by
  simp [State.endUninstalled]

theorem CoreGoes.windows {s t : State} {r : Runner} {c : CommandRecord} (h : CoreGoes s r c t) : t.windows = s.windows := by
  cases h <;> simp

theorem CoreEvent.windows {s t : State} (h : CoreEvent s t) : t.windows = s.windows := by
  cases h with
  | begun r c t _ _ _ _ hgoes => rw [hgoes.windows, checked_frame]
  | boundary r c t _ _ _ _ hgoes => rw [hgoes.windows, worked_frame]
  | committed r c => simp [State.committed, State.worked]
  | _ => simp [State.worked]

theorem ContextEvent.windows {s t : State} (h : ContextEvent s t) : t.windows = s.windows := by
  cases h <;> simp [State.writePoolres]

theorem Event.windowsConsistent {s t : State} (hs : WindowsConsistent s) (h : Event s t) : WindowsConsistent t := by
  cases h with
  | registers h => exact hs.congr (by rw [h])
  | softReset h =>
    rw [windowsConsistent_iff, h]
    exact fun w => (softReset_window s w) ▸ Window.consistent_closed
  | intake h => exact hs.congr (by rw [onlyIntake_of_reflTransGen h])
  | context h => exact hs.congr h.windows
  | protect h => exact hs.congr (by cases h; rfl)
  | window h => exact h.windowsConsistent hs
  | core h => exact hs.congr h.windows

theorem windowsConsistent_reset : WindowsConsistent State.reset :=
  windowsConsistent_iff.2 fun w => (reset_window w) ▸ Window.consistent_closed

/-- Settles O57: only the events of the windows, and the resets, write a window record. -/
theorem windowsConsistentKept : Obligations.WindowsConsistentKept :=
  fun _ _ hs ht => step_keeps (P := WindowsConsistent)
    (fun _ _ => windowsConsistent_reset.congr rfl)
    (fun _ _ h => h.congr rfl) (fun _ _ h he => he.windowsConsistent h) hs ht

end Sys2Proof.Machine
end

section
/-! PROOFS. The records, the owner and the resume list through every event, and each command in its own queue (R31, R96 to R101, R113 to
R117). -/

namespace Sys2Proof.Machine

/-! ### One record -/

/-- What the state of a record calls for in its other fields (R113, R114). -/
structure Record.Consistent (j : Record) : Prop where
  freeIsEmpty : j.state = .free → j = Record.free
  hasCommand : j.state ≠ .free → j.command.isSome
  wanted : j.state ≠ .spaceWait → j.pagesWanted = 0
  requests : j.state ≠ .active → j.parkPending = false ∧ j.abortPending = false

theorem Record.consistent_free : Record.free.Consistent := by
  constructor <;> simp [Record.free]

theorem Record.consistent_started (c : CommandRecord) (total : Nat) : (Record.started c total).Consistent := by
  constructor <;> simp [Record.started, Record.free]

theorem RecordsConsistent.record {s : State} (hs : RecordsConsistent s) (r : Runner) : (s.record r).Consistent :=
  ⟨hs.freeIsEmpty r, hs.startedHasCommand r, hs.wantedOnlyWaiting r, hs.pendingOnlyActive r⟩

/-- A record that changes neither its state nor its command, and takes requests only while ACTIVE, stays consistent. -/
theorem Record.Consistent.of_eq {j k : Record} (hj : j.Consistent) (hstarted : j.state ≠ .free) (hstate : k.state = j.state)
    (hcommand : k.command = j.command) (hwanted : k.pagesWanted = j.pagesWanted)
    (hrequests : j.state ≠ .active → k.parkPending = j.parkPending ∧ k.abortPending = j.abortPending) : k.Consistent := by
  refine ⟨fun h => absurd (hstate ▸ h) hstarted, fun h => ?_, fun h => ?_, fun h => ?_⟩
  · rw [hcommand]; exact hj.hasCommand (hstate ▸ h)
  · rw [hwanted]; exact hj.wanted (hstate ▸ h)
  · obtain ⟨hpark, habort⟩ := hrequests (hstate ▸ h)
    rw [hpark, habort]
    exact hj.requests (hstate ▸ h)

/-! ### Updates of the records -/

theorem RecordsConsistent.congr {s t : State} (hs : RecordsConsistent s) (hrecord : ∀ r, t.record r = s.record r)
    (howner : t.owner = s.owner) (hlist : t.resumeList = s.resumeList) (hrunning : t.stepRunning = s.stepRunning) :
    RecordsConsistent t := by
  have hurec : t.urec = s.urec := hrecord .urgent
  obtain ⟨h1, h2, h3, h4, h5, h6, h7, h8, h9⟩ := hs
  constructor <;> simpa only [hrecord, howner, hlist, hrunning, hurec]

/-- One record is replaced, with the owner and the resume list to match. -/
theorem RecordsConsistent.update {s t : State} (hs : RecordsConsistent s) {r : Runner} {v : Record}
    (hrecord : ∀ x, t.record x = if x = r then v else s.record x) (hv : v.Consistent)
    (hurgent : r = .urgent → v.state = .free ∨ v.state = .active)
    (hactive : v.state = .active ↔ t.owner = some r) (hothers : ∀ x, x ≠ r → (s.owner = some x ↔ t.owner = some x))
    (hnodup : t.resumeList.Nodup)
    (hlist : ∀ n, n ∈ t.resumeList ↔ if r = .ctx n then v.state = .resumable else n ∈ s.resumeList)
    (hrunning : t.stepRunning = true → t.owner ≠ none) : RecordsConsistent t := by
  have hconsistent : ∀ x, (t.record x).Consistent := fun x => by
    rw [hrecord]
    split
    · exact hv
    · exact hs.record x
  refine ⟨fun x => ?_, ?_, fun x => (hconsistent x).freeIsEmpty, fun x => (hconsistent x).hasCommand, hnodup, fun n => ?_,
    fun x => (hconsistent x).wanted, fun x => (hconsistent x).requests, hrunning⟩
  · rw [hrecord]
    split
    next h => rw [h]; exact hactive
    next h => exact (hs.ownerActive x).trans (hothers x h)
  · change (t.record .urgent).state = _ ∨ (t.record .urgent).state = _
    rw [hrecord]
    split
    next h => exact hurgent h.symm
    next => exact hs.urgentStates
  · rw [hlist, hrecord]
    by_cases h : r = .ctx n
    · rw [if_pos h, if_pos h.symm]
    · rw [if_neg h, if_neg fun e => h e.symm]
      exact hs.listIsResumable n

/-- The record of a runner is replaced by one of the same state. -/
theorem RecordsConsistent.update_same {s t : State} (hs : RecordsConsistent s) {r : Runner} {v : Record}
    (hrecord : ∀ x, t.record x = if x = r then v else s.record x) (hv : v.Consistent) (hstate : v.state = (s.record r).state)
    (howner : t.owner = s.owner) (hlist : t.resumeList = s.resumeList) (hrunning : t.stepRunning = true → t.owner ≠ none) :
    RecordsConsistent t := by
  refine hs.update hrecord hv ?_ ?_ (fun x _ => by rw [howner]) (hlist ▸ hs.listNodup) (fun n => ?_) hrunning
  · rintro rfl
    rw [hstate]
    exact hs.urgentStates
  · rw [hstate, howner]
    exact hs.ownerActive r
  · rw [hlist]
    split
    next h => rw [hstate, h]; exact hs.listIsResumable n
    next => rfl

/-- The record of a runner is emptied: it stands on no list and owns the Core no longer (R110, R125). -/
theorem RecordsConsistent.emptied {s t : State} (hs : RecordsConsistent s) {r : Runner}
    (hrecord : ∀ x, t.record x = if x = r then Record.free else s.record x)
    (howner : t.owner = if s.owner = some r then none else s.owner)
    (hlist : t.resumeList = s.resumeList.filter fun n => r ≠ .ctx n) (hrunning : t.stepRunning = true → t.owner ≠ none) :
    RecordsConsistent t := by
  refine hs.update hrecord Record.consistent_free (fun _ => .inl rfl) ?_ (fun x hx => ?_) ?_ (fun n => ?_) hrunning
  · rw [howner]
    split <;> simp_all [Record.free]
  · rw [howner]
    split
    next h => simpa [h] using fun e => hx e.symm
    next => rfl
  · rw [hlist]
    exact hs.listNodup.filter _
  · rw [hlist, List.mem_filter]
    by_cases h : r = .ctx n <;> simp [h, Record.free]

/-- A command starts in an empty record while the Core is free (R99, R100). -/
theorem RecordsConsistent.started {s t : State} (hs : RecordsConsistent s) {r : Runner} {c : CommandRecord} {total : Nat}
    (hfree : (s.record r).state = .free) (hidle : s.owner = none)
    (hrecord : ∀ x, t.record x = if x = r then Record.started c total else s.record x) (howner : t.owner = some r)
    (hlist : t.resumeList = s.resumeList) : RecordsConsistent t := by
  refine hs.update hrecord (Record.consistent_started c total) (fun _ => .inr rfl) ?_ (fun x hx => ?_)
    (hlist ▸ hs.listNodup) (fun n => ?_) (fun _ => by simp [howner])
  · simp [howner, Record.started]
  · simpa [howner, hidle] using fun e => hx e.symm
  · rw [hlist]
    split
    next h =>
      have hnot : n ∉ s.resumeList := fun hmem => by
        have := (hs.listIsResumable n).1 hmem
        rw [← h, hfree] at this
        cases this
      simp [Record.started, hnot]
    next => rfl

/-- Contexts that wait for pages wake, and join the resume list (R119). -/
theorem RecordsConsistent.woken {s t : State} (hs : RecordsConsistent s) {woken : List CtxId} (hnodup : woken.Nodup)
    (hwaits : ∀ n ∈ woken, (s.record (.ctx n)).state = .spaceWait)
    (hrecord : ∀ n, t.record (.ctx n) = if n ∈ woken then (s.record (.ctx n)).woken else s.record (.ctx n))
    (hurec : t.urec = s.urec) (howner : t.owner = s.owner) (hlist : t.resumeList = s.resumeList ++ woken)
    (hrunning : t.stepRunning = true → t.owner ≠ none) : RecordsConsistent t := by
  have hstate : ∀ n ∈ woken, t.record (.ctx n) = (s.record (.ctx n)).woken := fun n h => by rw [hrecord, if_pos h]
  have hsame : ∀ x, (∃ n ∈ woken, x = .ctx n ∧ t.record x = (s.record x).woken) ∨ t.record x = s.record x := by
    intro x
    cases x with
    | urgent => exact .inr hurec
    | ctx n =>
      by_cases h : n ∈ woken
      · exact .inl ⟨n, h, rfl, hstate n h⟩
      · exact .inr (by rw [hrecord, if_neg h])
  have hconsistent : ∀ x, (t.record x).Consistent := fun x => by
    obtain ⟨n, h, rfl, e⟩ | e := hsame x <;> rw [e]
    · have hold := hs.record (.ctx n)
      have hwait := hwaits n h
      exact ⟨nofun, fun _ => hold.hasCommand (by simp [hwait]), fun _ => rfl, fun _ => hold.requests (by simp [hwait])⟩
    · exact hs.record x
  refine ⟨fun x => ?_, hurec ▸ hs.urgentStates, fun x => (hconsistent x).freeIsEmpty, fun x => (hconsistent x).hasCommand, ?_,
    fun n => ?_, fun x => (hconsistent x).wanted, fun x => (hconsistent x).requests, hrunning⟩
  · rw [howner, ← hs.ownerActive x]
    obtain ⟨n, h, rfl, e⟩ | e := hsame x <;> rw [e]
    simp [Record.woken, hwaits n h]
  · rw [hlist]
    refine hs.listNodup.append hnodup fun n hn hw => ?_
    have := (hs.listIsResumable n).1 hn
    rw [hwaits n hw] at this
    cases this
  · rw [hlist, List.mem_append, hs.listIsResumable n, hrecord]
    split
    next h => simp [h, Record.woken]
    next h => simp [h]

theorem nodup_wokenBy (s : State) (free reserve : Nat) : (s.wokenBy free reserve).Nodup :=
  (List.nodup_finRange _).filter _

theorem recordsConsistent_wake {s : State} (hs : RecordsConsistent s) : RecordsConsistent s.wake :=
  hs.woken (nodup_wokenBy s s.freeList.length s.reserve) (fun n hn => ((mem_wokenBy s _ _ n).1 hn).1)
    (fun n => by
      rw [record_wake_ctx]
      refine if_congr ?_ rfl rfl
      rw [← filter_wakes_eq]
      simp)
    (urec_wake s) (wake_owner s) (by rw [wake_frame, filter_wakes_eq]) (fun h => by simpa using hs.stepHasOwner (by simpa using h))

theorem recordsConsistent_release {s : State} (ps : List PageId) (hs : RecordsConsistent s) : RecordsConsistent (s.release ps) :=
  recordsConsistent_wake (hs.congr (fun r => record_eq_of rfl rfl r) rfl rfl rfl)

/-- The end of a command leaves the records, the owner and the list in agreement: u is s with the command's record emptied. -/
theorem recordsConsistent_of_commandEnds {s t u : State} {r : Runner} {c : CommandRecord} {rec : CompletionRecord}
    {gone : List PageId} {slots : SlotId → Slot} (hends : CommandEnds s t r c rec gone slots) (hu : RecordsConsistent u)
    (hrecord : ∀ x, u.record x = if x = r then Record.free else s.record x) (hlist : u.resumeList = s.resumeList)
    (howner : t.owner = u.owner) (hrunning : t.stepRunning = true → t.owner ≠ none) : RecordsConsistent t := by
  refine hu.woken (woken := (s.wokenBy (s.freeList.length + gone.length) s.reserve).filter fun n => r ≠ .ctx n)
    ((nodup_wokenBy _ _ _).filter _) (fun n hn => ?_) (fun n => ?_) ?_ howner (by rw [hends.resumeList, hlist]) hrunning
  · obtain ⟨hwoken, hne⟩ := List.mem_filter.1 hn
    rw [hrecord, if_neg fun e => by simp [e] at hne]
    exact ((mem_wokenBy s _ _ n).1 hwoken).1
  · rw [hends.contexts, hrecord]
    by_cases h : r = .ctx n
    · simp [h]
    · have h' : ¬ Runner.ctx n = r := fun e => h e.symm
      simp [h, h']
  · change _ = u.record .urgent
    rw [hends.urgent, hrecord]
    by_cases h : r = .urgent
    · simp [h]
    · have h' : ¬ Runner.urgent = r := fun e => h e.symm
      simp only [h, h', if_false]
      rfl

/-! ### Everything that an end of a command on the Core does -/

theorem commandEnds_ended (s : State) (r : Runner) (c : CommandRecord) {status : Status} (hstatus : status.setsLatch = true) :
    CommandEnds s (s.coreEndUninstalled r c status) r c (recordOfEnded status r c (s.record r).stepsDone)
      (s.record r).workPages s.slot :=
  commandEnds_coreEndUninstalled rfl (fun _ _ => rfl) hstatus

theorem commandEnds_committed (s : State) (r : Runner) (c : CommandRecord) (j : Record) :
    CommandEnds s (s.committed r c j) r c
      (startedRecord c r .done (s.doneSummary (s.commitSlots c j).1 c) j.stepsDone) (s.commitSlots c j).2
      (s.commitSlots c j).1.slot := by
  refine (commandEnds_endCommand (s := s) ?_ (fun x _ => ?_) rfl rfl).of_eq (t' := s.committed r c j) rfl
  · rw [commitSlots_frame]
  · exact record_eq_of (by rw [commitSlots_frame]) (by rw [commitSlots_frame]) x

@[simp] theorem coreEndUninstalled_owner (s : State) (r : Runner) (c : CommandRecord) (status : Status) :
    (s.coreEndUninstalled r c status).owner = none := rfl

@[simp] theorem coreEndUninstalled_stepRunning (s : State) (r : Runner) (c : CommandRecord) (status : Status) :
    (s.coreEndUninstalled r c status).stepRunning = false := rfl

@[simp] theorem committed_owner (s : State) (r : Runner) (c : CommandRecord) (j : Record) : (s.committed r c j).owner = none := rfl

@[simp] theorem committed_stepRunning (s : State) (r : Runner) (c : CommandRecord) (j : Record) :
    (s.committed r c j).stepRunning = false := rfl

/-- The end of the Core's command (R110). -/
theorem recordsConsistent_of_coreEnds {s t : State} {r : Runner} {c : CommandRecord} {rec : CompletionRecord}
    {gone : List PageId} {slots : SlotId → Slot} (hs : RecordsConsistent s) (howner : s.owner = some r)
    (hends : CommandEnds s t r c rec gone slots) (hidle : t.owner = none) (hrunning : t.stepRunning = false) :
    RecordsConsistent t := by
  have hrecord : ∀ x, ({ s.setRecord r Record.free with owner := none, stepRunning := false } : State).record x =
      if x = r then Record.free else s.record x := fun x => (record_eq_of rfl rfl x).trans (record_setRecord s r x _)
  have hlist : s.resumeList.filter (fun n => r ≠ .ctx n) = s.resumeList := by
    refine List.filter_eq_self.2 fun n hn => ?_
    have hstate := (hs.listIsResumable n).1 hn
    have hactive := (hs.ownerActive r).2 howner
    simpa using fun e : r = .ctx n => by rw [← e, hactive] at hstate; cases hstate
  have hu : RecordsConsistent ({ s.setRecord r Record.free with owner := none, stepRunning := false } : State) :=
    hs.emptied hrecord (by simp [howner]) ((setRecord_resumeList s r _).trans hlist.symm) nofun
  exact recordsConsistent_of_commandEnds hends hu hrecord (setRecord_resumeList s r _) hidle (by simp [hrunning])

/-! ### The events of the Core -/

/-- The owner's context is suspended: it leaves the Core for another state (R103, R107, R108). -/
theorem RecordsConsistent.suspended {s t : State} (hs : RecordsConsistent s) {n : CtxId} {v : Record}
    (howner : s.owner = some (.ctx n)) (hrecord : ∀ x, t.record x = if x = .ctx n then v else s.record x) (hv : v.Consistent)
    (hstate : v.state ≠ .active) (hidle : t.owner = none) (hnodup : t.resumeList.Nodup)
    (hlist : ∀ m, m ∈ t.resumeList ↔ if n = m then v.state = .resumable else m ∈ s.resumeList)
    (hrunning : t.stepRunning = false) : RecordsConsistent t := by
  refine hs.update hrecord hv nofun (by simp [hstate, hidle]) (fun x hx => ?_) hnodup (fun m => ?_) (by simp [hrunning])
  · simpa [hidle, howner] using fun e => hx e.symm
  · simpa using hlist m

/-- The owner's context stands on no list. -/
theorem RecordsConsistent.owner_not_mem {s : State} (hs : RecordsConsistent s) {n : CtxId} (howner : s.owner = some (.ctx n)) :
    n ∉ s.resumeList := by
  intro hmem
  have hstate := (hs.listIsResumable n).1 hmem
  rw [(hs.ownerActive (.ctx n)).2 howner] at hstate
  cases hstate

/-- A context whose acquisition the pool has refused waits: the wake test at its entry does not pass (R118, log entry 21). -/
theorem enterSpaceWait_of_refused {s : State} {n : CtxId} {d : Nat} (hrefused : acquisitionGranted (.run (.ctx n)) d s = false) :
    s.enterSpaceWait n d =
      (s.setRecord (.ctx n) { s.record (.ctx n) with state := .spaceWait, pagesWanted := d }).raise .space := by
  refine enterSpaceWait_of_short ?_
  unfold acquisitionGranted at hrefused
  have := (Bool.or_eq_false_iff.1 hrefused).2
  simpa using this

theorem CoreGoes.recordsConsistent {s t : State} {r : Runner} {c : CommandRecord} (hs : RecordsConsistent s)
    (howner : s.owner = some r) (h : CoreGoes s r c t) : RecordsConsistent t := by
  have hactive := (hs.ownerActive r).2 howner
  have hrecord := hs.record r
  cases h with
  | ended status hstatus => exact recordsConsistent_of_coreEnds hs howner (commandEnds_ended s r c hstatus) rfl rfl
  | parked n hrunner habort hpark =>
    subst hrunner
    refine hs.suspended howner (fun x => ?_)
      (v := { s.record (.ctx n) with state := .parked, pagesWanted := 0, parkPending := false })
      ⟨nofun, fun _ => hrecord.hasCommand (by simp [hactive]), fun _ => rfl, fun _ => ⟨rfl, habort⟩⟩ nofun rfl
      (hs.listNodup.filter _) (fun m => ?_) rfl
    · rw [coreFree_record, record_parkContext]
      split
      next h => rw [h]
      next => rfl
    · change m ∈ s.resumeList.filter (· ≠ n) ↔ _
      by_cases h : n = m
      · simp [h]
      · simp [h, Ne.symm h]
  | waits n hrunner habort hpark hrefused =>
    subst hrunner
    rw [enterSpaceWait_of_refused hrefused]
    refine hs.suspended howner (fun x => ?_)
      (v := { s.record (.ctx n) with state := .spaceWait, pagesWanted := s.demandOf c (s.record (.ctx n)) })
      ⟨nofun, fun _ => hrecord.hasCommand (by simp [hactive]), fun h => absurd rfl h, fun _ => ⟨hpark, habort⟩⟩ nofun rfl
      hs.listNodup (fun m => ?_) rfl
    · rw [coreFree_record, raise_record, record_setRecord]
    · change m ∈ s.resumeList ↔ _
      split
      next h => subst h; simp [hs.owner_not_mem howner]
      next => rfl
  | granted hgranted =>
    refine hs.update_same (r := r)
      (v := (s.record r).withPages (s.lackingPages c (s.record r)) (s.nextPages (s.demandOf c (s.record r)))) (fun x => ?_)
      (hrecord.of_eq (by simp [hactive]) rfl rfl rfl fun _ => ⟨rfl, rfl⟩) rfl (by simp) (by simp) (fun _ => by simp [howner])
    refine (record_eq_of rfl rfl x).trans ((record_setRecord _ r x _).trans ?_)
    rw [takePages_record]

theorem recordsConsistent_checked {s : State} {r : Runner} (hs : RecordsConsistent s) (howner : s.owner = some r) :
    RecordsConsistent (s.checked r) := by
  refine hs.update_same (fun x => record_setRecord s r x _)
    ((hs.record r).of_eq (by simp [(hs.ownerActive r).2 howner]) rfl rfl rfl fun _ => ⟨rfl, rfl⟩) rfl ?_ ?_ ?_ <;>
    rw [checked_frame]
  exact hs.stepHasOwner

/-- The work of a step changes none of the fields that the agreement of the records is about. -/
theorem workedRecord_fields (s : State) (r : Runner) (c : CommandRecord) :
    (s.workedRecord r c).state = (s.record r).state ∧ (s.workedRecord r c).command = (s.record r).command ∧
      (s.workedRecord r c).pagesWanted = (s.record r).pagesWanted ∧
      (s.workedRecord r c).parkPending = (s.record r).parkPending ∧
      (s.workedRecord r c).abortPending = (s.record r).abortPending := by
  rw [job_stepWork_eq]
  exact ⟨rfl, rfl, rfl, rfl, rfl⟩

@[simp] theorem worked_owner (s : State) (r : Runner) (c : CommandRecord) : (s.worked r c).owner = s.owner := by
  rw [worked_frame]

@[simp] theorem worked_resumeList (s : State) (r : Runner) (c : CommandRecord) :
    (s.worked r c).resumeList = s.resumeList := by
  rw [worked_frame]

@[simp] theorem checked_owner (s : State) (r : Runner) : (s.checked r).owner = s.owner := by
  rw [checked_frame]

theorem recordsConsistent_worked {s : State} {r : Runner} {c : CommandRecord} (hs : RecordsConsistent s)
    (howner : s.owner = some r) : RecordsConsistent (s.worked r c) := by
  obtain ⟨hstate, hcommand, hwanted, hpark, habort⟩ := workedRecord_fields s r c
  exact hs.update_same (fun x => worked_record s r x c)
    ((hs.record r).of_eq (by simp [(hs.ownerActive r).2 howner]) hstate hcommand hwanted fun _ => ⟨hpark, habort⟩) hstate
    (worked_owner s r c) (worked_resumeList s r c) nofun

/-- While no urgent command owns the Core the U record is empty (R114). -/
theorem RecordsConsistent.urec_free {s : State} (hs : RecordsConsistent s) (howner : s.owner ≠ some .urgent) :
    s.urec.state = .free :=
  hs.urgentStates.resolve_right fun h => howner ((hs.ownerActive .urgent).1 h)

/-- A preempted context is RESUMABLE, the Core is the urgent command's (R103). -/
theorem recordsConsistent_preempted {s : State} {n : CtxId} (u : CommandRecord) (hs : RecordsConsistent s)
    (howner : s.owner = some (.ctx n)) (habort : (s.record (.ctx n)).abortPending = false)
    (hpark : (s.record (.ctx n)).parkPending = false) : RecordsConsistent ((s.preempted n).start .urgent .urgent u) := by
  have hactive := (hs.ownerActive (.ctx n)).2 howner
  have hrecord := hs.record (.ctx n)
  have hidle : RecordsConsistent ({ s.preempted n with owner := none, stepRunning := false } : State) := by
    refine hs.suspended howner (v := { s.record (.ctx n) with state := .resumable }) (fun x => ?_)
      ⟨nofun, fun _ => hrecord.hasCommand (by simp [hactive]), fun _ => hrecord.wanted (by simp [hactive]),
        fun _ => ⟨hpark, habort⟩⟩ nofun rfl
      (List.nodup_cons.2 ⟨hs.owner_not_mem howner, hs.listNodup⟩) (fun m => ?_) rfl
    · refine (record_eq_of rfl rfl x).trans ((record_preempted s n x).trans ?_)
      split
      next h => rw [h]
      next => rfl
    · change m ∈ n :: s.resumeList ↔ _
      by_cases h : n = m
      · simp [h]
      · simp [h, Ne.symm h]
  refine hidle.started (r := .urgent) (c := u) (total := (s.preempted n).stepTotalOf u) ?_ rfl (fun x => ?_)
    (start_owner _ _ _ _) (start_resumeList _ _ _ _)
  · exact hs.urec_free (by simp [howner])
  · rw [record_start]
    split
    · rfl
    · exact (record_eq_of rfl rfl x).symm

@[simp] theorem resumeContext_owner (s : State) (n : CtxId) : (s.resumeContext n).owner = some (.ctx n) := rfl

@[simp] theorem resumeContext_stepRunning (s : State) (n : CtxId) : (s.resumeContext n).stepRunning = false := rfl

theorem resumeContext_resumeList (s : State) (n : CtxId) :
    (s.resumeContext n).resumeList = s.resumeList.filter (· ≠ n) := rfl

theorem CoreEvent.recordsConsistent {s t : State} (hs : RecordsConsistent s) (h : CoreEvent s t) : RecordsConsistent t := by
  cases h with
  | started q r c howner hhead hstartable hqueue hfree =>
    refine hs.started ?_ howner (fun x => record_start s q r x c) (start_owner s q r c) (start_resumeList s q r c)
    cases r with
    | urgent => exact hs.urec_free (by simp [howner])
    | ctx n => exact hfree n rfl
  | resumed n howner hlist =>
    have hresumable := (hs.listIsResumable n).1 hlist
    have hrecord := hs.record (.ctx n)
    refine hs.update (r := .ctx n) (v := { s.record (.ctx n) with state := .active }) (fun x => ?_)
      ⟨nofun, fun _ => hrecord.hasCommand (by simp [hresumable]), fun _ => hrecord.wanted (by simp [hresumable]),
        fun h => absurd rfl h⟩ nofun (by simp) (fun x hx => ?_)
      (by rw [resumeContext_resumeList]; exact hs.listNodup.filter _) (fun m => ?_) (by simp)
    · rw [record_resumeContext]
      split
      next h => rw [h]
      next => rfl
    · simpa [howner] using fun e => hx e.symm
    · rw [resumeContext_resumeList]
      by_cases h : n = m
      · simp [h]
      · simp [h, Ne.symm h]
  | failed r c status howner hcommand hrunning hstatus =>
    have hchanged : RecordsConsistent (s.setRecord r { s.record r with stepsDone := 1 }) :=
      hs.update_same (fun x => record_setRecord s r x _)
        ((hs.record r).of_eq (by simp [(hs.ownerActive r).2 howner]) rfl rfl rfl fun _ => ⟨rfl, rfl⟩) rfl (by simp) (by simp)
        (by simp [howner])
    exact recordsConsistent_of_coreEnds hchanged (by simpa using howner) (commandEnds_ended _ r c hstatus) rfl rfl
  | begun r c t howner _ _ _ hgoes => exact hgoes.recordsConsistent (recordsConsistent_checked hs howner) (by simpa using howner)
  | boundary r c t howner _ _ _ hgoes =>
    exact hgoes.recordsConsistent (recordsConsistent_worked hs howner) (by simpa using howner)
  | preempted n c u howner _ _ _ habort hpark =>
    obtain ⟨-, -, -, hpark', habort'⟩ := workedRecord_fields s (.ctx n) c
    refine recordsConsistent_preempted u (recordsConsistent_worked hs howner) (by simpa using howner) ?_ ?_ <;>
      rw [worked_record_self]
    · rw [habort', habort]
    · rw [hpark', hpark]
  | faulted r c status howner _ _ _ hstatus =>
    exact recordsConsistent_of_coreEnds (recordsConsistent_worked hs howner) (by simpa using howner)
      (commandEnds_ended _ r c hstatus) rfl rfl
  | committed r c howner =>
    exact recordsConsistent_of_coreEnds (recordsConsistent_worked hs howner) (by simpa using howner)
      (commandEnds_committed _ r c _) rfl rfl

/-! ### Context requests -/

theorem commandEnds_abort (s : State) (n : CtxId) (c : CommandRecord) :
    CommandEnds { s with resumeList := s.resumeList.filter (· ≠ n) }
      { ({ s with resumeList := s.resumeList.filter (· ≠ n) } : State).endUninstalled (.ctx n) c .aborted with ctxreq := .ok }
      (.ctx n) c (recordOfEnded .aborted (.ctx n) c (s.record (.ctx n)).stepsDone) (s.record (.ctx n)).workPages s.slot :=
  (commandEnds_endCommand (s := { s with resumeList := s.resumeList.filter (· ≠ n) })
    (s₁ := { s with resumeList := s.resumeList.filter (· ≠ n) }) (r := .ctx n) (c := c)
    (rec := recordOfEnded .aborted (.ctx n) c (s.record (.ctx n)).stepsDone) (gone := (s.record (.ctx n)).workPages)
    rfl (fun _ _ => rfl) rfl rfl).of_eq rfl

/-- A suspended context whose record is emptied, off the resume list (R125). -/
theorem recordsConsistent_discard {s t : State} {n : CtxId} (hs : RecordsConsistent s)
    (hstate : (s.record (.ctx n)).state ≠ .active)
    (hrecord : ∀ x, t.record x = if x = .ctx n then Record.free else s.record x) (howner : t.owner = s.owner)
    (hlist : t.resumeList = s.resumeList.filter (· ≠ n)) (hrunning : t.stepRunning = s.stepRunning) : RecordsConsistent t := by
  have hnot : s.owner ≠ some (.ctx n) := fun h => hstate ((hs.ownerActive _).2 h)
  refine hs.emptied hrecord (by rw [howner, if_neg hnot]) (hlist.trans (List.filter_congr fun m _ => ?_)) fun h => ?_
  · simp [eq_comm]
  · rw [howner]
    exact hs.stepHasOwner (hrunning ▸ h)

theorem ContextEvent.recordsConsistent {s t : State} (hs : RecordsConsistent s) (h : ContextEvent s t) : RecordsConsistent t := by
  cases h with
  | poolres data => exact recordsConsistent_wake (hs.congr (fun r => record_eq_of rfl rfl r) rfl rfl rfl)
  | requestPark n hstate =>
    refine hs.update_same (fun x => (record_eq_of rfl rfl x).trans (record_setRecord s _ x _))
      ((hs.record _).of_eq (by simp [hstate]) rfl rfl rfl fun h => absurd hstate h) rfl (by simp) (by simp) ?_
    simpa using hs.stepHasOwner
  | park n hstate =>
    have hrecord := hs.record (.ctx n)
    have hnot : (s.record (.ctx n)).state ≠ .active ∧ (s.record (.ctx n)).state ≠ .free := by
      obtain h | h := hstate <;> simp [h]
    refine hs.update (r := .ctx n) (v := { s.record (.ctx n) with state := .parked, pagesWanted := 0, parkPending := false }) (fun x => ?_)
      ⟨nofun, fun _ => hrecord.hasCommand hnot.2, fun _ => rfl, fun _ => ⟨rfl, (hrecord.requests hnot.1).2⟩⟩ nofun ?_
      (fun x _ => by simp) (hs.listNodup.filter _) (fun m => ?_) ?_
    · refine (record_eq_of rfl rfl x).trans ((record_parkContext s n x).trans ?_)
      split
      next h => rw [h]
      next => rfl
    · simpa using fun h => hnot.1 ((hs.ownerActive _).2 h)
    · change m ∈ s.resumeList.filter (· ≠ n) ↔ _
      by_cases h : n = m
      · simp [h]
      · simp [h, Ne.symm h]
    · simpa using hs.stepHasOwner
  | resume n hstate =>
    have hrecord := hs.record (.ctx n)
    have hnot : n ∉ s.resumeList := fun h => by
      have := (hs.listIsResumable n).1 h
      rw [hstate] at this
      cases this
    refine hs.update (r := .ctx n) (v := { s.record (.ctx n) with state := .resumable })
      (fun x => (record_eq_of rfl rfl x).trans (record_setRecord s _ x _))
      ⟨nofun, fun _ => hrecord.hasCommand (by simp [hstate]), fun _ => hrecord.wanted (by simp [hstate]),
        fun _ => hrecord.requests (by simp [hstate])⟩ nofun ?_ (fun x _ => by simp) ?_ (fun m => ?_) ?_
    · simpa using fun h => by
        have := (hs.ownerActive _).2 h
        rw [hstate] at this
        cases this
    · exact hs.listNodup.append (List.nodup_singleton n) (by simpa using hnot)
    · change m ∈ s.resumeList ++ [n] ↔ _
      by_cases h : n = m
      · simp [h]
      · simp [h, Ne.symm h]
    · simpa using hs.stepHasOwner
  | requestAbort r hstate =>
    refine hs.update_same (fun x => (record_eq_of rfl rfl x).trans (record_setRecord s _ x _))
      ((hs.record _).of_eq (by simp [hstate]) rfl rfl rfl fun h => absurd hstate h) rfl (by simp) (by simp) ?_
    simpa using hs.stepHasOwner
  | abort n c hstate hcommand =>
    have hnot : (s.record (.ctx n)).state ≠ .active := by obtain h | h | h := hstate <;> simp [h]
    have hrecord : ∀ x, (({ s with resumeList := s.resumeList.filter (· ≠ n) } : State).setRecord (.ctx n) Record.free).record x =
        if x = .ctx n then Record.free else s.record x := fun x => by
      rw [record_setRecord]
      split
      · rfl
      · exact record_eq_of rfl rfl x
    refine recordsConsistent_of_commandEnds (commandEnds_abort s n c)
      (recordsConsistent_discard hs hnot hrecord rfl rfl rfl) (fun x => (hrecord x).trans ?_) rfl ?_ ?_
    · exact if_congr Iff.rfl rfl (record_eq_of rfl rfl x).symm
    · simp [State.endUninstalled]
    · simpa [State.endUninstalled] using hs.stepHasOwner
  | discard n hstate hcommand =>
    have hnot : (s.record (.ctx n)).state ≠ .active := by obtain h | h | h := hstate <;> simp [h]
    exact recordsConsistent_discard hs hnot
      (fun x => (record_eq_of rfl rfl x).trans ((record_setRecord _ _ x _).trans (if_congr Iff.rfl rfl (record_eq_of rfl rfl x))))
      rfl rfl rfl

/-! ### Every event -/

/-- A session that gives pages back can wake contexts; no other event of a window reaches a record (R119). -/
theorem WindowEvent.recordsConsistent {s t : State} (hs : RecordsConsistent s) (h : WindowEvent s t) : RecordsConsistent t := by
  have hended : ∀ {u : State} (w : WindowId), RecordsConsistent u → RecordsConsistent (u.endSession w) := fun w hu =>
    hu.congr (record_eq_of (by rw [endSession_frame]) (by rw [endSession_frame])) (by rw [endSession_frame])
      (by rw [endSession_frame]) (by rw [endSession_frame])
  cases h with
  | moved _ _ _ _ _ hstate =>
    exact hs.congr (record_eq_of (by rw [hstate]; rfl) (by rw [hstate]; rfl)) (by rw [hstate]; rfl) (by rw [hstate]; rfl)
      (by rw [hstate]; rfl)
  | stored => exact hs.congr (record_eq_of rfl rfl) rfl rfl rfl
  | openedRead => exact hs.congr (record_eq_of (by simp) (by simp)) (by simp) (by simp) (by simp)
  | openedWrite => exact hs.congr (record_eq_of (by simp) (by simp)) (by simp) (by simp) (by simp)
  | endedRead w => exact hended w hs
  | cancelled w => exact hended w (recordsConsistent_release _ hs)
  | closed w =>
    exact hended w (recordsConsistent_release _ (hs.congr (record_eq_of (by simp) (by simp)) (by simp) (by simp) (by simp)))

theorem softReset_record (s : State) (r : Runner) : s.softReset.record r = Record.free := by
  cases r with
  | urgent => rfl
  | ctx n => exact Vector.getElem_replicate n.isLt

theorem reset_record (r : Runner) : State.reset.record r = Record.free := by
  cases r with
  | urgent => rfl
  | ctx n => exact Vector.getElem_replicate n.isLt

/-- With every record empty, no owner and an empty list the records agree. -/
theorem recordsConsistent_of_free {s : State} (hrecord : ∀ r, s.record r = Record.free) (howner : s.owner = none)
    (hlist : s.resumeList = []) (hrunning : s.stepRunning = false) : RecordsConsistent s := by
  have hurec : s.urec = Record.free := hrecord .urgent
  constructor <;> simp [hrecord, howner, hlist, hrunning, hurec, Record.free]

theorem Event.recordsConsistent {s t : State} (hs : RecordsConsistent s) (h : Event s t) : RecordsConsistent t := by
  cases h with
  | registers h =>
    exact hs.congr (record_eq_of (by rw [h]) (by rw [h])) (by rw [h]) (by rw [h]) (by rw [h])
  | softReset h =>
    rw [h]
    exact recordsConsistent_of_free (softReset_record s) rfl rfl rfl
  | intake h =>
    have h := onlyIntake_of_reflTransGen h
    exact hs.congr (record_eq_of (by rw [h]) (by rw [h])) (by rw [h]) (by rw [h]) (by rw [h])
  | context h => exact h.recordsConsistent hs
  | protect h => cases h; exact hs.congr (record_eq_of rfl rfl) rfl rfl rfl
  | window h => exact h.recordsConsistent hs
  | core h => exact h.recordsConsistent hs

theorem recordsConsistent_reset : RecordsConsistent State.reset := recordsConsistent_of_free reset_record rfl rfl rfl

end Sys2Proof.Machine
end

section
/-! PROOFS. Each waiting and each started command stands where its queue field says, through every event (R31, R96, R99, R100). -/

namespace Sys2Proof.Machine

/-! ### The commands that wait after each operation on the queues -/

theorem skipTest_entries_sublist (s : State) (q p : QueueId) :
    ((s.skipTest q).queue p).entries.Sublist (s.queue p).entries := by
  by_cases h : p = q
  · subst h
    rw [(queue_skipTest_self s p).1]
    exact List.drop_sublist _ _
  · rw [queue_skipTest_ne s h]

theorem newHead_entries_sublist (s : State) (q p : QueueId) :
    ((s.newHead q).queue p).entries.Sublist (s.queue p).entries := by
  obtain ⟨hself, -, -, hother, -, -⟩ := newHead_spec s q
  by_cases h : p = q
  · subst h
    rw [hself]
    split
    · exact (List.dropWhile_suffix _).sublist
    · exact List.Sublist.refl _
  · rw [hother p h]

theorem postRecord_entries_sublist (s : State) (rec : CompletionRecord) (notify : Bool) (p : QueueId) :
    ((s.postRecord rec notify).queue p).entries.Sublist (s.queue p).entries := by
  have happend : ∀ x, (s.appendRecords [rec] notify).queue x = s.queue x := appendRecords_queue s [rec] notify
  unfold State.postRecord
  split
  · refine List.Sublist.trans (skipTest_entries_sublist _ rec.queue p) ?_
    rw [raise_queue, queue_setQueue, happend, happend]
    split
    next h => rw [h]
    next => exact List.Sublist.refl _
  · rw [happend]

theorem headGone_entries (s : State) (q p : QueueId) : ((s.headGone q).queue p).entries = (s.queue p).entries := by
  rw [headGone_eq, queue_setQueue]
  split
  next h => rw [h]
  next => rfl

theorem dropHead_entries_sublist (s : State) (q p : QueueId) : ((s.dropHead q).queue p).entries.Sublist (s.queue p).entries := by
  rw [dropHead_eq, queue_setQueue]
  split
  next h => rw [h]; exact List.tail_sublist _
  next => exact List.Sublist.refl _

theorem locksChanged_entries (s : State) (q : QueueId) : (s.locksChanged.queue q).entries = (s.queue q).entries := by
  rw [queue_locksChanged]

theorem start_entries_sublist (s : State) (q : QueueId) (r : Runner) (c : CommandRecord) (p : QueueId) :
    ((s.start q r c).queue p).entries.Sublist (s.queue p).entries := by
  unfold State.start
  dsimp only
  rw [locksChanged_entries]
  refine List.Sublist.trans (newHead_entries_sublist _ q p) ?_
  have h := dropHead_entries_sublist (s.takeLocks (.run r) c.dests c.sources) q p
  rw [takeLocks_queue] at h
  rw [queue_eq_of (s := (s.takeLocks (.run r) c.dests c.sources).dropHead q) (by simp) (by simp)]
  exact h

theorem expire_entries_sublist (s : State) (q p : QueueId) : ((s.expire q).queue p).entries.Sublist (s.queue p).entries := by
  unfold State.expire
  split
  · rw [refreshPreempt_queue]
    refine List.Sublist.trans (newHead_entries_sublist _ q p) ?_
    rw [raise_queue]
    refine List.Sublist.trans (postRecord_entries_sublist _ _ _ p) ?_
    rw [headGone_entries]
    exact dropHead_entries_sublist s q p
  · exact List.Sublist.refl _

theorem flush_entries_sublist (s : State) (q p : QueueId) : ((s.flush q).queue p).entries.Sublist (s.queue p).entries := by
  unfold State.flush
  dsimp only
  rw [refreshPreempt_queue, headGone_entries, appendRecords_queue, queue_setQueue]
  split
  · exact List.nil_sublist _
  · exact List.Sublist.refl _

theorem accept_entries_sublist (s : State) (c : CommandRecord) (p : QueueId) :
    ((s.accept c).queue p).entries.Sublist (if p = c.queue then (s.queue p).entries ++ [c] else (s.queue p).entries) := by
  have htail : ((({ s with credits := s.credits - 1, lastres := .accepted } : State).setQueue c.queue
      { s.queue c.queue with entries := (s.queue c.queue).entries ++ [c] }).queue p).entries =
      if p = c.queue then (s.queue p).entries ++ [c] else (s.queue p).entries := by
    rw [queue_setQueue]
    split
    next h => rw [h]
    next => cases p <;> rfl
  unfold State.accept
  dsimp only
  split
  · rw [refreshPreempt_queue, ← htail]
    exact newHead_entries_sublist _ _ p
  · rw [htail]

theorem writeLimit_entries (k : IntakeQueue) (limit : BitVec 16) : (k.writeLimit limit).entries = k.entries := by
  unfold IntakeQueue.writeLimit
  split_ifs <;> rfl

theorem countTimebase_entries (k : IntakeQueue) : k.countTimebase.entries = k.entries := by
  unfold IntakeQueue.countTimebase
  split <;> rfl

theorem pop_nq (s : State) : s.pop.nq = s.nq := by
  unfold State.pop
  split <;> rfl

theorem pop_uq (s : State) : s.pop.uq = s.uq := by
  unfold State.pop
  split <;> rfl

/-! ### Each command in its queue -/

/-- Commands that leave, and none that come, leave the rest where they are. -/
theorem QueuesMatch.mono {s t : State} (hs : QueuesMatch s) (hentries : ∀ q, (t.queue q).entries.Sublist (s.queue q).entries)
    (hcommand : ∀ r c, (t.record r).command = some c → (s.record r).command = some c) : QueuesMatch t :=
  ⟨fun q c hc => hs.waiting q c ((hentries q).subset hc), fun r c hc => hs.started r c (hcommand r c hc)⟩

theorem QueuesMatch.congr {s t : State} (hs : QueuesMatch s) (hnq : t.nq.entries = s.nq.entries)
    (huq : t.uq.entries = s.uq.entries) (hcommand : ∀ r, (t.record r).command = (s.record r).command) : QueuesMatch t :=
  hs.mono (fun q => by cases q <;> simp [State.queue, hnq, huq]) fun r c hc => (hcommand r) ▸ hc

/-- A started command came from the head of the queue that its record is served from (R99, R100). -/
theorem QueuesMatch.started_of_head {s t : State} (hs : QueuesMatch s) {r : Runner} {c : CommandRecord} {total : Nat}
    (hhead : s.head r.queue = some c) (hentries : ∀ q, (t.queue q).entries.Sublist (s.queue q).entries)
    (hrecord : ∀ x, (t.record x).command = if x = r then (Record.started c total).command else (s.record x).command) :
    QueuesMatch t := by
  refine ⟨fun q d hd => hs.waiting q d ((hentries q).subset hd), fun x d hd => ?_⟩
  rw [hrecord] at hd
  split at hd
  next h =>
    cases hd
    rw [h]
    exact hs.waiting r.queue c (List.mem_of_mem_head? hhead)
  next => exact hs.started x d hd

theorem command_woken {j : Record} {p : Prop} [Decidable p] : (if p then j.woken else j).command = j.command := by
  split <;> rfl

theorem release_command (s : State) (ps : List PageId) (r : Runner) : ((s.release ps).record r).command = (s.record r).command := by
  cases r with
  | urgent => exact congrArg Record.command (urec_release s ps)
  | ctx n =>
    rw [record_release_ctx, ← woken_eq]
    exact command_woken

theorem wake_command (s : State) (r : Runner) : (s.wake.record r).command = (s.record r).command := by
  cases r with
  | urgent => exact congrArg Record.command (urec_wake s)
  | ctx n =>
    rw [record_wake_ctx, ← woken_eq]
    exact command_woken

/-- The end of a command empties its record and gives no other one a command (R110, R125). -/
theorem CommandEnds.command {s t : State} {r : Runner} {c : CommandRecord} {rec : CompletionRecord} {gone : List PageId}
    {slots : SlotId → Slot} (h : CommandEnds s t r c rec gone slots) (x : Runner) :
    (t.record x).command = if x = r then none else (s.record x).command := by
  cases x with
  | urgent =>
    change t.urec.command = _
    rw [h.urgent]
    by_cases e : r = .urgent
    · simp [e, Record.free]
    · rw [if_neg e, if_neg (fun h' => e h'.symm : ¬ Runner.urgent = r)]
      rfl
  | ctx n =>
    rw [h.contexts]
    by_cases e : r = .ctx n
    · simp [e, Record.free]
    · rw [if_neg e, if_neg (fun h' => e h'.symm : ¬ Runner.ctx n = r)]
      exact command_woken

theorem CommandEnds.entries_sublist {s t : State} {r : Runner} {c : CommandRecord} {rec : CompletionRecord} {gone : List PageId}
    {slots : SlotId → Slot} (h : CommandEnds s t r c rec gone slots) (q : QueueId) :
    (t.queue q).entries.Sublist (s.queue q).entries := by
  by_cases hq : q = c.queue
  · subst hq
    rw [h.skips]
    split
    · exact List.Sublist.refl _
    · exact (List.dropWhile_suffix _).sublist
  · rw [(h.otherQueue q hq).1]

theorem CommandEnds.queuesMatch {s t : State} {r : Runner} {c : CommandRecord} {rec : CompletionRecord} {gone : List PageId}
    {slots : SlotId → Slot} (h : CommandEnds s t r c rec gone slots) (hs : QueuesMatch s) : QueuesMatch t :=
  hs.mono h.entries_sublist fun x d hd => by
    rw [h.command] at hd
    split at hd
    · cases hd
    · exact hd

theorem worked_command (s : State) (r x : Runner) (c : CommandRecord) :
    ((s.worked r c).record x).command = (s.record x).command := by
  rw [worked_record]
  split
  next h => rw [h]; exact (workedRecord_fields s r c).2.1
  next => rfl

theorem setRecord_command {s : State} {r : Runner} {v : Record} (h : v.command = (s.record r).command) (x : Runner) :
    ((s.setRecord r v).record x).command = (s.record x).command := by
  rw [record_setRecord]
  split
  next e => rw [h, e]
  next => rfl

/-- A state whose records are those of s with one replaced by a record of the same command. -/
theorem command_of_setRecord {s t : State} {r : Runner} {v : Record} (hcontexts : t.contexts = (s.setRecord r v).contexts)
    (hurec : t.urec = (s.setRecord r v).urec) (hv : v.command = (s.record r).command) (x : Runner) :
    (t.record x).command = (s.record x).command :=
  (congrArg Record.command (record_eq_of hcontexts hurec x)).trans (setRecord_command hv x)

theorem checked_command (s : State) (r x : Runner) : ((s.checked r).record x).command = (s.record x).command := by
  exact command_of_setRecord (s := s) (t := s.checked r) (r := r) rfl rfl rfl x

@[simp] theorem worked_nq (s : State) (r : Runner) (c : CommandRecord) : (s.worked r c).nq = s.nq := by rw [worked_frame]

@[simp] theorem worked_uq (s : State) (r : Runner) (c : CommandRecord) : (s.worked r c).uq = s.uq := by rw [worked_frame]

@[simp] theorem checked_nq (s : State) (r : Runner) : (s.checked r).nq = s.nq := by rw [checked_frame]

@[simp] theorem checked_uq (s : State) (r : Runner) : (s.checked r).uq = s.uq := by rw [checked_frame]

theorem queuesMatch_worked {s : State} {r : Runner} {c : CommandRecord} (hs : QueuesMatch s) : QueuesMatch (s.worked r c) :=
  hs.congr (by simp) (by simp) fun x => worked_command s r x c

theorem parkContext_command (s : State) (n : CtxId) (x : Runner) :
    ((s.parkContext n).record x).command = (s.record x).command := by
  rw [record_parkContext]
  split <;> rfl

theorem preempted_command (s : State) (n : CtxId) (x : Runner) :
    ((s.preempted n).record x).command = (s.record x).command := by
  rw [record_preempted]
  split <;> rfl

theorem resumeContext_command (s : State) (n : CtxId) (x : Runner) :
    ((s.resumeContext n).record x).command = (s.record x).command := by
  rw [record_resumeContext]
  split <;> rfl

theorem enterSpaceWait_command (s : State) (n : CtxId) (d : Nat) (x : Runner) :
    ((s.enterSpaceWait n d).record x).command = (s.record x).command := by
  unfold State.enterSpaceWait
  rw [record_wakeContext, raise_record]
  have h := setRecord_command (s := s) (r := .ctx n) (v := { s.record (.ctx n) with state := .spaceWait, pagesWanted := d }) rfl x
  split <;> exact h

theorem granted_command (s : State) (r x : Runner) (d : Nat) (v : Record) (hv : v.command = (s.record r).command) :
    (({ (s.takePages d).setRecord r v with stepRunning := true } : State).record x).command = (s.record x).command := by
  refine (congrArg Record.command (record_eq_of (s := (s.takePages d).setRecord r v) rfl rfl x)).trans ?_
  rw [setRecord_command (by simpa using hv), takePages_record]

theorem CoreGoes.queuesMatch {s t : State} {r : Runner} {c : CommandRecord} (hs : QueuesMatch s) (h : CoreGoes s r c t) :
    QueuesMatch t := by
  cases h with
  | ended status hstatus => exact (commandEnds_ended s r c hstatus).queuesMatch hs
  | parked n => exact hs.congr (by simp) (by simp) fun x => by rw [coreFree_record, parkContext_command]
  | waits n => exact hs.congr (by simp) (by simp) fun x => by rw [coreFree_record, enterSpaceWait_command]
  | granted => exact hs.congr (by simp) (by simp) fun x => granted_command s r x _ _ rfl

theorem CoreEvent.queuesMatch {s t : State} (hs : QueuesMatch s) (h : CoreEvent s t) : QueuesMatch t := by
  cases h with
  | started q r c _ hhead _ hqueue =>
    refine hs.started_of_head (c := c) (total := s.stepTotalOf c) (hqueue ▸ hhead) (start_entries_sublist s q r c) fun x => ?_
    rw [record_start]
    split <;> rfl
  | resumed n => exact hs.congr (by simp) (by simp) (resumeContext_command s n)
  | failed r c status _ _ _ hstatus =>
    exact (commandEnds_ended _ r c hstatus).queuesMatch
      (hs.congr (by simp) (by simp) fun x => setRecord_command (by rfl) x)
  | begun r c t _ _ _ _ hgoes => exact hgoes.queuesMatch (hs.congr (by simp) (by simp) (checked_command s r))
  | boundary r c t _ _ _ _ hgoes => exact hgoes.queuesMatch (queuesMatch_worked hs)
  | preempted n c u _ _ _ _ _ _ hhead =>
    refine hs.started_of_head (r := .urgent) (c := u) (total := ((s.worked (.ctx n) c).preempted n).stepTotalOf u) hhead
      (fun q => ?_) fun x => ?_
    · refine List.Sublist.trans (start_entries_sublist _ _ _ _ q) ?_
      rw [preempted_queue, queue_eq_of (worked_nq s (.ctx n) c) (worked_uq s (.ctx n) c)]
    · rw [record_start]
      split
      · rfl
      · rw [preempted_command, worked_command]
  | faulted r c status _ _ _ _ hstatus =>
    exact (commandEnds_ended _ r c hstatus).queuesMatch (queuesMatch_worked hs)
  | committed r c => exact (commandEnds_committed _ r c _).queuesMatch (queuesMatch_worked hs)

theorem ContextEvent.queuesMatch {s t : State} (hs : QueuesMatch s) (h : ContextEvent s t) : QueuesMatch t := by
  cases h with
  | poolres data =>
    refine hs.congr (by simp [State.writePoolres]) (by simp [State.writePoolres]) fun r => ?_
    exact (wake_command _ r).trans (congrArg Record.command (record_eq_of rfl rfl r))
  | requestPark n => exact hs.congr (by simp) (by simp) (command_of_setRecord (s := s) (r := .ctx n) rfl rfl rfl)
  | park n =>
    exact hs.congr (by simp) (by simp) fun x => (congrArg Record.command (record_eq_of rfl rfl x)).trans (parkContext_command s n x)
  | resume n => exact hs.congr (by simp) (by simp) (command_of_setRecord (s := s) (r := .ctx n) rfl rfl rfl)
  | requestAbort r => exact hs.congr (by simp) (by simp) (command_of_setRecord (s := s) (r := r) rfl rfl rfl)
  | abort n c =>
    exact (commandEnds_abort s n c).queuesMatch
      (hs.congr rfl rfl fun x => congrArg Record.command (record_eq_of rfl rfl x))
  | discard n _ hcommand =>
    refine hs.congr (by simp) (by simp) fun x => (congrArg Record.command (record_eq_of rfl rfl x)).trans
      ((setRecord_command ?_ x).trans (congrArg Record.command (record_eq_of rfl rfl x)))
    exact hcommand.symm

theorem IntakeEvent.queuesMatch {s t : State} (hs : QueuesMatch s) (h : IntakeEvent s t) : QueuesMatch t := by
  have hframe := h.onlyIntake
  have hcommand : ∀ r c, (t.record r).command = some c → (s.record r).command = some c := fun r c hc => by
    rwa [record_eq_of (s := s) (t := t) (by rw [hframe]) (by rw [hframe])] at hc
  cases h with
  | flush q => exact hs.mono (flush_entries_sublist s q) hcommand
  | clearLatch q =>
    refine hs.mono (fun p => ?_) hcommand
    rw [State.clearLatch, queue_setQueue]
    split
    next e => rw [e]
    next => exact List.Sublist.refl _
  | accept c =>
    refine ⟨fun q d hd => ?_, fun r d hd => hs.started r d (hcommand r d hd)⟩
    have hmem := (accept_entries_sublist s c q).subset hd
    split at hmem
    next hq =>
      obtain hmem | hmem := List.mem_append.1 hmem
      · exact hs.waiting q d hmem
      · rw [List.mem_singleton.1 hmem, hq]
    next => exact hs.waiting q d hmem
  | pop =>
    refine hs.mono (fun p => ?_) hcommand
    rw [queue_eq_of (s := s) (pop_nq s) (pop_uq s)]
  | holdlim data =>
    refine hs.congr (writeLimit_entries _ _) (writeLimit_entries _ _) fun r => congrArg Record.command (record_eq_of rfl rfl r)
  | timebase =>
    exact hs.congr (countTimebase_entries _) (countTimebase_entries _) fun r => congrArg Record.command (record_eq_of rfl rfl r)
  | expire q => exact hs.mono (expire_entries_sublist s q) hcommand
  | notice => exact hs.mono (fun _ => by rw [refreshPreempt_queue]) hcommand

theorem WindowEvent.queuesMatch {s t : State} (hs : QueuesMatch s) (h : WindowEvent s t) : QueuesMatch t := by
  have hended : ∀ {u : State} (w : WindowId), QueuesMatch u → QueuesMatch (u.endSession w) := fun {u} w hu => by
    refine hu.mono (fun q => ?_) fun r c hc => ?_
    · unfold State.endSession
      rw [locksChanged_entries, setWindow_queue, releaseLocks_queue]
    · rwa [record_eq_of (s := u) (by rw [endSession_frame]) (by rw [endSession_frame])] at hc
  cases h with
  | moved _ _ _ _ _ hstate =>
    exact hs.congr (by rw [hstate]; rfl) (by rw [hstate]; rfl) fun r =>
      congrArg Record.command (record_eq_of (by rw [hstate]; rfl) (by rw [hstate]; rfl) r)
  | stored => exact hs.congr rfl rfl fun r => congrArg Record.command (record_eq_of rfl rfl r)
  | openedRead =>
    exact hs.mono (fun q => by simp [locksChanged_entries]) fun r c hc => by simpa using hc
  | openedWrite =>
    exact hs.mono (fun q => by simp [locksChanged_entries]) fun r c hc => by simpa using hc
  | endedRead w => exact hended w hs
  | cancelled w => exact hended w (hs.congr (by simp) (by simp) (release_command s _))
  | closed w =>
    exact hended w (hs.congr (by simp) (by simp) fun r => (release_command _ _ r).trans (by rw [setSlot_record]))

/-- With empty queues and empty records no command stands anywhere. -/
theorem queuesMatch_of_empty {s : State} (hentries : ∀ q, (s.queue q).entries = []) (hrecord : ∀ r, s.record r = Record.free) :
    QueuesMatch s :=
  ⟨fun q c hc => by simp [hentries] at hc, fun r c hc => by simp [hrecord, Record.free] at hc⟩

theorem Event.queuesMatch {s t : State} (hs : QueuesMatch s) (h : Event s t) : QueuesMatch t := by
  cases h with
  | registers h =>
    exact hs.congr (by rw [h]) (by rw [h]) fun r => congrArg Record.command (record_eq_of (by rw [h]) (by rw [h]) r)
  | softReset h =>
    rw [h]
    exact queuesMatch_of_empty (fun q => by cases q <;> rfl) (softReset_record s)
  | intake h =>
    induction h with
    | refl => exact hs
    | tail _ h ih => exact h.queuesMatch ih
  | context h => exact h.queuesMatch hs
  | protect h => cases h; exact hs.congr rfl rfl fun r => congrArg Record.command (record_eq_of rfl rfl r)
  | window h => exact h.queuesMatch hs
  | core h => exact h.queuesMatch hs

theorem queuesMatch_reset : QueuesMatch State.reset := queuesMatch_of_empty (fun q => by cases q <;> rfl) reset_record

/-- Settles O52: the records event by event, and the commands by the queue that each leaves or joins. -/
theorem recordsConsistentKept : Obligations.RecordsConsistentKept := by
  intro s t hs hq ht
  refine step_keeps (P := fun x => RecordsConsistent x ∧ QueuesMatch x) (fun _ _ => ⟨?_, ?_⟩) (fun x _ h => ⟨?_, ?_⟩)
    (fun _ _ h he => ⟨he.recordsConsistent h.1, he.queuesMatch h.2⟩) ⟨hs, hq⟩ ht
  · exact recordsConsistent_reset.congr (record_eq_of rfl rfl) rfl rfl rfl
  · exact queuesMatch_reset.congr rfl rfl fun r => congrArg Record.command (record_eq_of rfl rfl r)
  · exact h.1.congr (record_eq_of rfl rfl) rfl rfl rfl
  · exact h.2.congr rfl rfl fun r => congrArg Record.command (record_eq_of rfl rfl r)

end Sys2Proof.Machine
end

section
/-! PROOFS. The credit law and the bounds of the counts, through every event (R14, R29, R31, R133). -/

namespace Sys2Proof.Machine

/-! ### The commands that wait or have a record posted -/

/-- The commands in the two queues and in the Completion Queue. -/
def State.queuedCount (s : State) : Nat := s.nq.entries.length + s.uq.entries.length + s.cq.length

theorem creditLaw_iff {s : State} :
    CreditLaw s ↔ s.credits + s.queuedCount + s.startedCount = Config.creditCount := by
  unfold CreditLaw State.queuedCount
  constructor <;> intro h <;> omega

theorem queuedCount_congr {s t : State} (hnq : t.nq.entries = s.nq.entries) (huq : t.uq.entries = s.uq.entries)
    (hcq : t.cq = s.cq) : t.queuedCount = s.queuedCount := by
  simp only [State.queuedCount, hnq, huq, hcq]

theorem queuedCount_newHead (s : State) (q : QueueId) : (s.newHead q).queuedCount = s.queuedCount := count_newHead s q

theorem queuedCount_locksChanged (s : State) : s.locksChanged.queuedCount = s.queuedCount := count_locksChanged s

theorem queuedCount_postRecord (s : State) (rec : CompletionRecord) (notify : Bool) :
    (s.postRecord rec notify).queuedCount = s.queuedCount + 1 := count_postRecord s rec notify

theorem queuedCount_dropHead {s : State} {q : QueueId} {c : CommandRecord} (h : s.head q = some c) :
    (s.dropHead q).queuedCount + 1 = s.queuedCount := by
  obtain ⟨rest, he⟩ : ∃ rest, (s.queue q).entries = c :: rest := List.head?_eq_some_iff.1 h
  unfold State.queuedCount State.dropHead
  rw [he]
  cases q with
  | normal =>
    have he : s.nq.entries = c :: rest := he
    simp [State.setQueue, he]
    omega
  | urgent =>
    have he : s.uq.entries = c :: rest := he
    simp [State.setQueue, he]
    omega

theorem queuedCount_headGone (s : State) (q : QueueId) : (s.headGone q).queuedCount = s.queuedCount :=
  queuedCount_congr (headGone_entries s q .normal) (headGone_entries s q .urgent) (headGone_cq s q)

/-- A flush moves every waiting command of its queue into the Completion Queue (R34). -/
theorem queuedCount_flush (s : State) (q : QueueId) : (s.flush q).queuedCount = s.queuedCount := by
  have h : (s.flush q).queuedCount =
      ((s.setQueue q { s.queue q with entries := [] }).appendRecords ((s.queue q).entries.map (unstartedRecord .flushed))
        ((s.queue q).entries.any fun c => c.notify)).queuedCount := queuedCount_headGone _ q
  rw [h, appendRecords_frame]
  unfold State.queuedCount
  cases q <;> simp [State.setQueue, State.queue] <;> omega

/-- The expiry of a hold timer moves the head into the Completion Queue (R93). -/
theorem queuedCount_expire (s : State) (q : QueueId) : (s.expire q).queuedCount = s.queuedCount := by
  unfold State.expire
  split
  next c _ hhead =>
    have hposted := queuedCount_postRecord ((s.dropHead q).headGone q) (unstartedRecord .held c) c.notify
    rw [queuedCount_headGone] at hposted
    have hdropped := queuedCount_dropHead hhead
    refine (queuedCount_newHead _ q).trans ?_
    change (((s.dropHead q).headGone q).postRecord _ _).queuedCount = _
    omega
  next => rfl

/-- An accepted command joins its queue (R25). -/
theorem queuedCount_accept (s : State) (c : CommandRecord) : (s.accept c).queuedCount = s.queuedCount + 1 := by
  have htail : (({ s with credits := s.credits - 1, lastres := .accepted } : State).setQueue c.queue
      { s.queue c.queue with entries := (s.queue c.queue).entries ++ [c] }).queuedCount = s.queuedCount + 1 := by
    unfold State.queuedCount
    cases c.queue <;> simp [State.setQueue, State.queue] <;> omega
  unfold State.accept
  dsimp only
  split
  · exact (queuedCount_newHead _ _).trans htail
  · exact htail

theorem queuedCount_start {s : State} {q : QueueId} {c : CommandRecord} (r : Runner) (h : s.head q = some c) :
    (s.start q r c).queuedCount + 1 = s.queuedCount := by
  obtain ⟨rest, he⟩ : ∃ rest, (s.queue q).entries = c :: rest := List.head?_eq_some_iff.1 h
  have hcount := count_start s q r c
  simp only [he, List.length_cons, List.tail_cons] at hcount
  unfold State.queuedCount
  omega

/-- The commands that a skip takes from a list are posted (R37). -/
theorem length_skipRun_add (l : List CommandRecord) :
    (l.dropWhile fun d => d.policy = .skip).length + (skipRun l).length = l.length := by
  unfold skipRun
  rw [Nat.add_comm, ← List.length_append, List.takeWhile_append_dropWhile]

/-- The end of a command posts its record and moves no other command but by a skip (R29, R110). -/
theorem CommandEnds.queuedCount {s t : State} {r : Runner} {c : CommandRecord} {rec : CompletionRecord} {gone : List PageId}
    {slots : SlotId → Slot} (h : CommandEnds s t r c rec gone slots) : t.queuedCount = s.queuedCount + 1 := by
  have hskips := h.skips
  have hrecords := congrArg List.length h.records
  have hlengths := length_skipRun_add (s.queue c.queue).entries
  have hsplit : (t.queue c.queue).entries.length + t.cq.length = (s.queue c.queue).entries.length + s.cq.length + 1 := by
    rw [hskips, hrecords]
    split
    · simp; omega
    · simp; omega
  unfold State.queuedCount
  cases hq : c.queue with
  | normal =>
    have hother : t.uq.entries = s.uq.entries := (h.otherQueue .urgent (by simp [hq])).1
    rw [hq] at hsplit
    change t.nq.entries.length + _ = s.nq.entries.length + _ + 1 at hsplit
    rw [hother]
    omega
  | urgent =>
    have hother : t.nq.entries = s.nq.entries := (h.otherQueue .normal (by simp [hq])).1
    rw [hq] at hsplit
    change t.uq.entries.length + _ = s.uq.entries.length + _ + 1 at hsplit
    rw [hother]
    omega

/-! ### The commands that have started -/

theorem startedCount_of_setRecord {s t : State} {r : Runner} {v : Record}
    (hcontexts : t.contexts = (s.setRecord r v).contexts) (hurec : t.urec = (s.setRecord r v).urec)
    (hstate : v.state = .free ↔ (s.record r).state = .free) : t.startedCount = s.startedCount :=
  startedCount_congr fun x => by
    rw [record_eq_of hcontexts hurec, record_setRecord]
    split
    next h => rw [h]; exact hstate
    next => rfl

/-- A context that wakes was waiting: it had started before and has not ended (R119). -/
theorem startedCount_release (s : State) (ps : List PageId) : (s.release ps).startedCount = s.startedCount :=
  startedCount_congr fun x => by
    cases x with
    | urgent => exact iff_of_eq (congrArg (fun j : Record => j.state = .free) (urec_release s ps))
    | ctx n =>
      rw [record_release_ctx]
      split
      next h =>
        have hwaits : (s.record (.ctx n)).state = .spaceWait := by
          have := (Bool.and_eq_true_iff.1 h).1
          exact of_decide_eq_true this
        simp [hwaits]
      next => rfl

theorem startedCount_eq_of {s t : State} (hcontexts : t.contexts = s.contexts) (hurec : t.urec = s.urec) :
    t.startedCount = s.startedCount :=
  startedCount_congr fun x => by rw [record_eq_of hcontexts hurec]

/-- A command that ends is no longer started (R29). -/
theorem CommandEnds.startedCount {s t : State} {r : Runner} {c : CommandRecord} {rec : CompletionRecord} {gone : List PageId}
    {slots : SlotId → Slot} (h : CommandEnds s t r c rec gone slots) (hstarted : (s.record r).state ≠ .free) :
    t.startedCount + 1 = s.startedCount := by
  have hcongr : t.startedCount = (s.setRecord r Record.free).startedCount := startedCount_congr fun x => by
    rw [record_setRecord]
    cases x with
    | urgent =>
      change t.urec.state = _ ↔ _
      rw [h.urgent]
      by_cases e : r = .urgent
      · simp [e]
      · have e' : ¬ Runner.urgent = r := fun h => e h.symm
        rw [if_neg e, if_neg e']
        rfl
    | ctx n =>
      rw [h.contexts]
      by_cases e : r = .ctx n
      · simp [e]
      · have e' : ¬ Runner.ctx n = r := fun h => e h.symm
        rw [if_neg e, if_neg e']
        split
        next hw => simp [Record.woken, ((mem_wokenBy s _ _ n).1 hw).1]
        next => rfl
  have hset := startedCount_setRecord s r Record.free
  rw [if_neg hstarted] at hset
  simpa [hcongr, Record.free] using hset

theorem startedCount_start {s : State} (q : QueueId) {r : Runner} (c : CommandRecord) (hfree : (s.record r).state = .free) :
    (s.start q r c).startedCount = s.startedCount + 1 := by
  have hcongr : (s.start q r c).startedCount = (s.setRecord r (Record.started c (s.stepTotalOf c))).startedCount :=
    startedCount_congr fun x => by rw [record_start, record_setRecord]
  have hset := startedCount_setRecord s r (Record.started c (s.stepTotalOf c))
  rw [if_pos hfree] at hset
  simpa [hcongr, Record.started] using hset

/-! ### The credit law and the bounds -/

/-- The credit law of R29 with the bounds of the counts. -/
def CreditsKept (s : State) : Prop := CreditLaw s ∧ CountsBounded s

/-- An event that makes and loses no command, adds none to a queue and leaves the reserve. -/
theorem CreditsKept.of_count {s t : State} (hs : CreditsKept s)
    (hcount : t.credits + t.queuedCount + t.startedCount = s.credits + s.queuedCount + s.startedCount)
    (hreserve : t.reserve ≤ Config.maxReserve) (hnq : t.nq.entries.length ≤ Config.normalQueueSize)
    (huq : t.uq.entries.length ≤ Config.urgentQueueSize) : CreditsKept t := by
  have hlaw : CreditLaw t := creditLaw_iff.2 (hcount.trans (creditLaw_iff.1 hs.1))
  have hsum := hlaw
  unfold CreditLaw at hsum
  exact ⟨hlaw, hreserve, by omega, hnq, huq, by omega⟩

/-- The same, for an event that takes no command into a queue. -/
theorem CreditsKept.of_sublist {s t : State} (hs : CreditsKept s)
    (hcount : t.credits + t.queuedCount + t.startedCount = s.credits + s.queuedCount + s.startedCount)
    (hreserve : t.reserve = s.reserve) (hentries : ∀ q, ((t.queue q).entries).Sublist (s.queue q).entries) : CreditsKept t :=
  hs.of_count hcount (hreserve ▸ hs.2.reserve) ((hentries .normal).length_le.trans hs.2.nq)
    ((hentries .urgent).length_le.trans hs.2.uq)

theorem CreditsKept.congr {s t : State} (hs : CreditsKept s) (hcredits : t.credits = s.credits) (hnq : t.nq.entries = s.nq.entries)
    (huq : t.uq.entries = s.uq.entries) (hcq : t.cq = s.cq) (hstarted : t.startedCount = s.startedCount)
    (hreserve : t.reserve = s.reserve) : CreditsKept t :=
  hs.of_sublist (by rw [hcredits, queuedCount_congr hnq huq hcq, hstarted]) hreserve
    fun q => by cases q <;> simp [State.queue, hnq, huq]

theorem CommandEnds.creditsKept {s t : State} {r : Runner} {c : CommandRecord} {rec : CompletionRecord} {gone : List PageId}
    {slots : SlotId → Slot} (h : CommandEnds s t r c rec gone slots) (hs : CreditsKept s)
    (hstarted : (s.record r).state ≠ .free) : CreditsKept t := by
  have hqueued := h.queuedCount
  have hended := h.startedCount hstarted
  have hcredits : t.credits = s.credits := by rw [h.frame]
  exact hs.of_sublist (by omega) (by rw [h.frame]) h.entries_sublist

@[simp] theorem worked_cq (s : State) (r : Runner) (c : CommandRecord) : (s.worked r c).cq = s.cq := by rw [worked_frame]

@[simp] theorem worked_credits (s : State) (r : Runner) (c : CommandRecord) : (s.worked r c).credits = s.credits := by
  rw [worked_frame]

@[simp] theorem worked_reserve (s : State) (r : Runner) (c : CommandRecord) : (s.worked r c).reserve = s.reserve := by
  rw [worked_frame]

theorem startedCount_worked (s : State) (r : Runner) (c : CommandRecord) : (s.worked r c).startedCount = s.startedCount :=
  startedCount_of_setRecord (s := s) (t := s.worked r c) (r := r) rfl rfl (by rw [(workedRecord_fields s r c).1])

theorem creditsKept_worked {s : State} {r : Runner} {c : CommandRecord} (hs : CreditsKept s) : CreditsKept (s.worked r c) :=
  hs.congr (by simp) (by simp) (by simp) (by simp) (startedCount_worked s r c) (by simp)

theorem creditsKept_checked {s : State} {r : Runner} (hs : CreditsKept s) : CreditsKept (s.checked r) :=
  hs.congr (by rw [checked_frame]) (by simp) (by simp) (by rw [checked_frame])
    (startedCount_of_setRecord (s := s) (t := s.checked r) (r := r) rfl rfl Iff.rfl) (by rw [checked_frame])

theorem startedCount_parkContext {s : State} {n : CtxId} (hstarted : (s.record (.ctx n)).state ≠ .free) :
    (s.parkContext n).startedCount = s.startedCount :=
  startedCount_congr fun x => by
    rw [record_parkContext]
    split
    next h => rw [h]; simp [hstarted]
    next => rfl

theorem startedCount_preempted {s : State} {n : CtxId} (hstarted : (s.record (.ctx n)).state ≠ .free) :
    (s.preempted n).startedCount = s.startedCount :=
  startedCount_congr fun x => by
    rw [record_preempted]
    split
    next h => rw [h]; simp [hstarted]
    next => rfl

theorem startedCount_resumeContext {s : State} {n : CtxId} (hstarted : (s.record (.ctx n)).state ≠ .free) :
    (s.resumeContext n).startedCount = s.startedCount :=
  startedCount_congr fun x => by
    rw [record_resumeContext]
    split
    next h => rw [h]; simp [hstarted]
    next => rfl

theorem CoreGoes.creditsKept {s t : State} {r : Runner} {c : CommandRecord} (hs : CreditsKept s)
    (hstarted : (s.record r).state ≠ .free) (h : CoreGoes s r c t) : CreditsKept t := by
  cases h with
  | ended status hstatus => exact (commandEnds_ended s r c hstatus).creditsKept hs hstarted
  | parked n hrunner =>
    subst hrunner
    exact hs.congr (by simp) (by simp) (by simp) (by simp)
      ((startedCount_eq_of rfl rfl).trans (startedCount_parkContext hstarted)) (by simp)
  | waits n hrunner _ _ hrefused =>
    subst hrunner
    rw [enterSpaceWait_of_refused hrefused]
    exact hs.congr (by simp) (by simp) (by simp) (by simp)
      (startedCount_of_setRecord (s := s) (r := .ctx n) rfl rfl (by simp [hstarted])) (by simp)
  | granted =>
    refine hs.congr (by simp) (by simp) (by simp) (by simp) ?_ (by simp)
    refine (startedCount_of_setRecord (s := s.takePages (s.demandOf c (s.record r))) (r := r) rfl rfl ?_).trans
      (startedCount_eq_of rfl rfl)
    rw [takePages_record]
    rfl

/-- A command starts: one fewer waits, one more has started (R29). -/
theorem creditsKept_start {s : State} {q : QueueId} {r : Runner} {c : CommandRecord} (hs : CreditsKept s)
    (hhead : s.head q = some c) (hfree : (s.record r).state = .free) : CreditsKept (s.start q r c) := by
  have hqueued := queuedCount_start r hhead
  have hstarted := startedCount_start q c hfree
  have hcredits := start_credits s q r c
  exact hs.of_sublist (by omega) (by simp) (start_entries_sublist s q r c)

theorem RecordsConsistent.owner_started {s : State} (hs : RecordsConsistent s) {r : Runner} (howner : s.owner = some r) :
    (s.record r).state ≠ .free := by
  rw [(hs.ownerActive r).2 howner]
  nofun

theorem CoreEvent.creditsKept {s t : State} (hr : RecordsConsistent s) (hs : CreditsKept s) (h : CoreEvent s t) :
    CreditsKept t := by
  have hworked : ∀ {r : Runner} {c : CommandRecord}, s.owner = some r → ((s.worked r c).record r).state ≠ .free :=
    fun {r c} howner => (recordsConsistent_worked (c := c) hr howner).owner_started (by simpa using howner)
  cases h with
  | started q r c howner hhead _ hqueue hfree =>
    refine creditsKept_start hs hhead ?_
    cases r with
    | urgent => exact hr.urec_free (by simp [howner])
    | ctx n => exact hfree n rfl
  | resumed n _ hlist =>
    exact hs.congr (by simp) (by simp) (by simp) (by simp)
      (startedCount_resumeContext (by simp [(hr.listIsResumable n).1 hlist])) (by simp)
  | failed r c status howner _ _ hstatus =>
    refine (commandEnds_ended _ r c hstatus).creditsKept (hs.congr (by simp) (by simp) (by simp) (by simp) ?_ (by simp)) ?_
    · exact startedCount_of_setRecord (s := s) (r := r) rfl rfl Iff.rfl
    · simpa using hr.owner_started howner
  | begun r c t howner _ _ _ hgoes =>
    exact hgoes.creditsKept (creditsKept_checked hs)
      ((recordsConsistent_checked hr howner).owner_started (by simpa using howner))
  | boundary r c t howner _ _ _ hgoes => exact hgoes.creditsKept (creditsKept_worked hs) (hworked howner)
  | preempted n c u howner _ _ _ _ _ hhead =>
    have hsuspended : CreditsKept ((s.worked (.ctx n) c).preempted n) :=
      (creditsKept_worked (r := .ctx n) (c := c) hs).congr (by simp) (by simp) (by simp) (by simp)
        (startedCount_preempted (hworked howner)) (by simp)
    refine creditsKept_start hsuspended ?_ ?_
    · unfold State.head at hhead ⊢
      rwa [preempted_queue, queue_eq_of (worked_nq s (.ctx n) c) (worked_uq s (.ctx n) c)]
    · rw [record_preempted, if_neg (by simp), worked_record, if_neg (by simp)]
      exact hr.urec_free (by simp [howner])
  | faulted r c status howner _ _ _ hstatus =>
    exact (commandEnds_ended _ r c hstatus).creditsKept (creditsKept_worked hs) (hworked howner)
  | committed r c howner => exact (commandEnds_committed _ r c _).creditsKept (creditsKept_worked hs) (hworked howner)

theorem ContextEvent.creditsKept {s t : State} (hr : RecordsConsistent s) (hs : CreditsKept s) (h : ContextEvent s t) :
    CreditsKept t := by
  cases h with
  | poolres data =>
    refine hs.of_count ?_ ?_ ?_ ?_
    · have hstarted : (s.writePoolres data).startedCount = s.startedCount := by
        have hwake := startedCount_release { s with reserve := reserveOf (wordField data 0 7) } []
        simp only [State.release, List.append_nil] at hwake
        exact hwake.trans (startedCount_eq_of rfl rfl)
      rw [hstarted, queuedCount_congr (s := s)] <;> simp [State.writePoolres]
    · simp [State.writePoolres, reserveOf]
    · simpa [State.writePoolres] using hs.2.nq
    · simpa [State.writePoolres] using hs.2.uq
  | requestPark n =>
    exact hs.congr (by simp) (by simp) (by simp) (by simp)
      (startedCount_of_setRecord (s := s) (r := .ctx n) rfl rfl Iff.rfl) (by simp)
  | park n hstate =>
    have hstarted : (s.record (.ctx n)).state ≠ .free := by obtain h | h := hstate <;> simp [h]
    exact hs.congr (by simp) (by simp) (by simp) (by simp)
      ((startedCount_eq_of rfl rfl).trans (startedCount_parkContext hstarted)) (by simp)
  | resume n hstate =>
    exact hs.congr (by simp) (by simp) (by simp) (by simp)
      (startedCount_of_setRecord (s := s) (r := .ctx n) rfl rfl (by simp [hstate])) (by simp)
  | requestAbort r =>
    exact hs.congr (by simp) (by simp) (by simp) (by simp)
      (startedCount_of_setRecord (s := s) (r := r) rfl rfl Iff.rfl) (by simp)
  | abort n c hstate =>
    refine (commandEnds_abort s n c).creditsKept (hs.congr rfl rfl rfl rfl (startedCount_eq_of rfl rfl) rfl) ?_
    change (s.record (.ctx n)).state ≠ .free
    obtain h | h | h := hstate <;> simp [h]
  | discard n hstate hcommand =>
    have hstarted : (s.record (.ctx n)).state ≠ .free := by obtain h | h | h := hstate <;> simp [h]
    simpa [hcommand] using hr.startedHasCommand _ hstarted

/-- A judged POST finds a credit and room in its queue (R26). -/
theorem judge_eq_accepted {s : State} {c : CommandRecord} (h : s.judge (some c) = .accepted) :
    c.badSlot = false ∧ c.badForm = false ∧ s.credits ≠ 0 ∧ (s.queue c.queue).entries.length < queueSize c.queue := by
  unfold State.judge at h
  dsimp only at h
  split_ifs at h with h1 h2 h3 h4
  exact ⟨by simpa using h1, by simpa using h2, h3, not_le.1 h4⟩

theorem accept_credits (s : State) (c : CommandRecord) : (s.accept c).credits = s.credits - 1 := by
  unfold State.accept
  dsimp only
  split <;> simp

theorem pop_creditsKept {s : State} (hs : CreditsKept s) : CreditsKept s.pop := by
  cases hcq : s.cq with
  | nil => rw [pop_of_cq_nil hcq]; exact hs
  | cons oldest rest =>
    rw [pop_of_cq_cons hcq]
    refine hs.of_count ?_ hs.2.reserve hs.2.nq hs.2.uq
    have hstarted : ({ s with cq := rest, credits := s.credits + 1 } : State).startedCount = s.startedCount :=
      startedCount_eq_of rfl rfl
    simp only [State.queuedCount, hcq, List.length_cons, hstarted]
    omega

theorem IntakeEvent.creditsKept {s t : State} (hs : CreditsKept s) (h : IntakeEvent s t) : CreditsKept t := by
  have hframe := h.onlyIntake
  have hstarted : t.startedCount = s.startedCount := startedCount_eq_of (by rw [hframe]) (by rw [hframe])
  have hreserve : t.reserve = s.reserve := by rw [hframe]
  cases h with
  | flush q =>
    refine hs.of_sublist ?_ hreserve (flush_entries_sublist s q)
    rw [queuedCount_flush, hstarted]
    simp [State.flush]
  | clearLatch q =>
    exact hs.congr (by simp [State.clearLatch]) (by cases q <;> rfl) (by cases q <;> rfl) (by simp [State.clearLatch]) hstarted
      hreserve
  | accept c hjudge =>
    obtain ⟨-, -, hcredits, hroom⟩ := judge_eq_accepted hjudge
    have hlength : ∀ q, ((s.accept c).queue q).entries.length ≤ queueSize q := fun q => by
      have hle := (accept_entries_sublist s c q).length_le
      have hold : (s.queue q).entries.length ≤ queueSize q := by
        cases q with
        | normal => exact hs.2.nq
        | urgent => exact hs.2.uq
      split at hle
      next hq =>
        subst hq
        simp only [List.length_append, List.length_singleton] at hle
        omega
      next => exact hle.trans hold
    refine hs.of_count ?_ (hreserve ▸ hs.2.reserve) (hlength .normal) (hlength .urgent)
    rw [queuedCount_accept, accept_credits, hstarted]
    omega
  | pop => exact pop_creditsKept hs
  | holdlim data => exact hs.congr rfl (writeLimit_entries _ _) (writeLimit_entries _ _) rfl hstarted hreserve
  | timebase => exact hs.congr rfl (countTimebase_entries _) (countTimebase_entries _) rfl hstarted hreserve
  | expire q =>
    refine hs.of_sublist ?_ hreserve (expire_entries_sublist s q)
    rw [queuedCount_expire, hstarted]
    have hcredits : (s.expire q).credits = s.credits := by
      unfold State.expire
      split <;> simp
    omega
  | notice => exact hs.congr rfl rfl rfl rfl hstarted hreserve

theorem creditsKept_endSession {s : State} (w : WindowId) (hs : CreditsKept s) : CreditsKept (s.endSession w) := by
  refine hs.of_sublist ?_ (by rw [endSession_frame]) fun q => ?_
  · rw [startedCount_eq_of (s := s) (by rw [endSession_frame]) (by rw [endSession_frame])]
    have hqueued : (s.endSession w).queuedCount = s.queuedCount := queuedCount_locksChanged _
    rw [hqueued, endSession_frame]
  · unfold State.endSession
    rw [locksChanged_entries, setWindow_queue, releaseLocks_queue]

theorem WindowEvent.creditsKept {s t : State} (hs : CreditsKept s) (h : WindowEvent s t) : CreditsKept t := by
  have hnotices : ∀ u : State, CreditsKept u → CreditsKept u.locksChanged := fun u hu =>
    hu.congr (by simp) (locksChanged_entries u .normal) (locksChanged_entries u .urgent) (by simp)
      (startedCount_eq_of (by simp) (by simp)) (by simp)
  cases h with
  | moved _ _ _ _ _ hstate =>
    exact hs.congr (by rw [hstate]; rfl) (by rw [hstate]; rfl) (by rw [hstate]; rfl) (by rw [hstate]; rfl)
      (startedCount_eq_of (by rw [hstate]; rfl) (by rw [hstate]; rfl)) (by rw [hstate]; rfl)
  | stored => exact hs.congr rfl rfl rfl rfl (startedCount_eq_of rfl rfl) rfl
  | openedRead => exact hnotices _ (hs.congr rfl rfl rfl rfl (startedCount_eq_of rfl rfl) rfl)
  | openedWrite => exact hnotices _ (hs.congr rfl rfl rfl rfl (startedCount_eq_of rfl rfl) rfl)
  | endedRead w => exact creditsKept_endSession w hs
  | cancelled w =>
    exact creditsKept_endSession w
      (hs.congr (by simp) (by simp) (by simp) (by simp) (startedCount_release _ _) (by simp))
  | closed w =>
    exact creditsKept_endSession w
      (hs.congr (by simp) (by simp) (by simp) (by simp)
        ((startedCount_release _ _).trans (startedCount_eq_of rfl rfl)) (by simp))

/-- After a reset every credit is free (R29). -/
theorem creditsKept_of_empty {s : State} (hcredits : s.credits = Config.creditCount) (hnq : s.nq.entries = [])
    (huq : s.uq.entries = []) (hcq : s.cq = []) (hrecord : ∀ r, s.record r = Record.free)
    (hreserve : s.reserve ≤ Config.maxReserve) : CreditsKept s := by
  have hstarted : s.startedCount = 0 := by
    have hurec : s.urec = Record.free := hrecord .urgent
    simp [State.startedCount, hrecord, hurec, Record.free]
  refine ⟨?_, hreserve, hcredits.le, ?_, ?_, ?_⟩
  · simp [CreditLaw, hcredits, hnq, huq, hcq, hstarted]
  · simp [hnq]
  · simp [huq]
  · simp [hcq]

theorem Event.creditsKept {s t : State} (hr : RecordsConsistent s) (hs : CreditsKept s) (h : Event s t) : CreditsKept t := by
  cases h with
  | registers h =>
    exact hs.congr (by rw [h]) (by rw [h]) (by rw [h]) (by rw [h]) (startedCount_eq_of (by rw [h]) (by rw [h])) (by rw [h])
  | softReset h =>
    rw [h]
    exact creditsKept_of_empty rfl rfl rfl rfl (softReset_record s) hs.2.reserve
  | intake h =>
    induction h with
    | refl => exact hs
    | tail _ h ih => exact h.creditsKept ih
  | context h => exact h.creditsKept hr hs
  | protect h => cases h; exact hs.congr rfl rfl rfl rfl (startedCount_eq_of rfl rfl) rfl
  | window h => exact h.creditsKept hs
  | core h => exact h.creditsKept hr hs

theorem creditsKept_reset : CreditsKept State.reset :=
  creditsKept_of_empty rfl rfl rfl rfl reset_record (Nat.zero_le _)

/-- Settles O53: each event moves commands between the five places of the credit law, and only a POST lengthens a queue. -/
theorem creditLawKept : Obligations.CreditLawKept := by
  intro s t hr hlaw hbounds ht
  refine (step_keeps (P := fun x => RecordsConsistent x ∧ CreditsKept x) (fun _ _ => ⟨?_, ?_⟩) (fun x _ h => ⟨?_, ?_⟩)
    (fun _ _ h he => ⟨he.recordsConsistent h.1, he.creditsKept h.1 h.2⟩) ⟨hr, hlaw, hbounds⟩ ht).2
  · exact recordsConsistent_reset.congr (record_eq_of rfl rfl) rfl rfl rfl
  · exact creditsKept_reset.congr rfl rfl rfl rfl (startedCount_eq_of rfl rfl) rfl
  · exact h.1.congr (record_eq_of rfl rfl) rfl rfl rfl
  · exact h.2.congr rfl rfl rfl rfl (startedCount_eq_of rfl rfl) rfl

end Sys2Proof.Machine
end

section
/-! PROOFS. Every page in exactly one place, through every event and after a soft reset (R8, R13, R21, R165). -/

namespace Sys2Proof.Machine

/-! ### The page lists of the part -/

theorem toList_eq_map_finRange {α : Type} {n : Nat} (v : Vector α n) : v.toList = (List.finRange n).map fun i => v[i] :=
  List.ext_getElem (by simp) fun i h _ => by simp

theorem flatMap_eq_nil {α β : Type} (l : List α) : l.flatMap (fun _ => ([] : List β)) = [] :=
  List.flatMap_eq_nil_iff.2 fun _ _ => rfl

/-- The page lists of the part, each read through its number. -/
theorem allPages_eq (s : State) :
    s.allPages = s.freeList ++ ((List.finRange Config.slotCount).flatMap (fun i => (s.slot i).pages) ++
      ((List.finRange Config.contextCount).flatMap (fun n => (s.record (.ctx n)).workPages) ++
        ((s.record .urgent).workPages ++ (List.finRange Config.windowCount).flatMap fun w => (s.window w).staging))) := by
  unfold State.allPages
  rw [toList_eq_map_finRange s.slots, toList_eq_map_finRange s.contexts, toList_eq_map_finRange s.windows,
    List.flatMap_map, List.flatMap_map, List.flatMap_map]
  rfl

/-- Two states with the same page lists have the same pages in the same places. -/
theorem allPages_congr {s t : State} (hfree : t.freeList = s.freeList) (hslots : ∀ i, (t.slot i).pages = (s.slot i).pages)
    (hrecords : ∀ r, (t.record r).workPages = (s.record r).workPages)
    (hwindows : ∀ w, (t.window w).staging = (s.window w).staging) : t.allPages = s.allPages := by
  rw [allPages_eq, allPages_eq, hfree, hrecords]
  simp only [hslots, hrecords, hwindows]

theorem count_allPages_freeList (s : State) (l : List PageId) (p : PageId) :
    ({ s with freeList := l } : State).allPages.count p + s.freeList.count p = s.allPages.count p + l.count p := by
  simp only [State.allPages, List.count_append]
  omega

theorem PagesPartition.of_count {s t : State} (hs : PagesPartition s) (h : ∀ p, t.allPages.count p = s.allPages.count p) :
    PagesPartition t := by
  rw [pagesPartition_iff] at *
  exact fun p => (h p).trans (hs p)

theorem PagesPartition.congr {s t : State} (hs : PagesPartition s) (hfree : t.freeList = s.freeList)
    (hslots : ∀ i, (t.slot i).pages = (s.slot i).pages) (hrecords : ∀ r, (t.record r).workPages = (s.record r).workPages)
    (hwindows : ∀ w, (t.window w).staging = (s.window w).staging) : PagesPartition t :=
  hs.of_count fun p => by rw [allPages_congr hfree hslots hrecords hwindows]

/-- States with the same free list, tables and records hold the same pages. -/
theorem allPages_eq_of {s t : State} (hfree : t.freeList = s.freeList) (hslots : t.slots = s.slots)
    (hcontexts : t.contexts = s.contexts) (hurec : t.urec = s.urec) (hwindows : t.windows = s.windows) :
    t.allPages = s.allPages := by
  simp only [State.allPages, hfree, hslots, hcontexts, hurec, hwindows]

theorem PagesPartition.of_fields {s t : State} (hs : PagesPartition s) (hfree : t.freeList = s.freeList)
    (hslots : t.slots = s.slots) (hcontexts : t.contexts = s.contexts) (hurec : t.urec = s.urec)
    (hwindows : t.windows = s.windows) : PagesPartition t :=
  hs.of_count fun p => congrArg (List.count p) (allPages_eq_of hfree hslots hcontexts hurec hwindows)

/-! ### What each operation does to the page lists -/

@[simp] theorem workPages_free : Record.free.workPages = [] := rfl

@[simp] theorem workPages_started (c : CommandRecord) (total : Nat) : (Record.started c total).workPages = [] := rfl

@[simp] theorem workPages_woken (j : Record) : j.woken.workPages = j.workPages := rfl

@[simp] theorem pages_unlock (h : Holder) (v : Slot) : (v.unlock h).pages = v.pages := rfl

theorem wake_workPages (s : State) (r : Runner) : (s.wake.record r).workPages = (s.record r).workPages := by
  cases r with
  | urgent => exact congrArg Record.workPages (urec_wake s)
  | ctx n =>
    rw [record_wake_ctx]
    split <;> rfl

theorem allPages_wake (s : State) : s.wake.allPages = s.allPages :=
  allPages_congr (by simp) (fun i => by simp) (wake_workPages s) (fun w => by simp)

/-- The pages released join the free list (R13). -/
theorem count_allPages_release (s : State) (ps : List PageId) (p : PageId) :
    (s.release ps).allPages.count p = s.allPages.count p + ps.count p := by
  unfold State.release
  rw [allPages_wake]
  have h := count_allPages_freeList s (s.freeList ++ ps) p
  rw [List.count_append] at h
  omega

theorem count_nextPages_add (s : State) (d : Nat) (p : PageId) :
    (s.nextPages d).count p + (s.freeList.drop d).count p = s.freeList.count p := by
  rw [State.nextPages, ← List.count_append, List.take_append_drop]

/-- The pages of an acquisition leave the free list (R10). -/
theorem count_allPages_takePages (s : State) (d : Nat) (p : PageId) :
    (s.takePages d).allPages.count p + (s.nextPages d).count p = s.allPages.count p := by
  have hfree := count_allPages_freeList s (s.freeList.drop d) p
  have hsplit := count_nextPages_add s d p
  have hsame : (s.takePages d).allPages = ({ s with freeList := s.freeList.drop d } : State).allPages :=
    allPages_eq_of rfl rfl rfl rfl rfl
  rw [hsame]
  omega

theorem allPages_locksChanged (s : State) : s.locksChanged.allPages = s.allPages :=
  allPages_eq_of (by simp) (by simp) (by simp) (by simp) (by simp)

theorem allPages_releaseLocks (s : State) (h : Holder) : (s.releaseLocks h).allPages = s.allPages :=
  allPages_congr rfl (fun i => by rw [slot_releaseLocks, pages_unlock]) (fun r => by simp) (fun w => by simp)

/-- The end of a session drops the staging pages that the record still lists (R152). -/
theorem count_allPages_endSession (s : State) (w : WindowId) (p : PageId) :
    (s.endSession w).allPages.count p + (s.window w).staging.count p = s.allPages.count p := by
  have h := count_allPages_setWindow (s.releaseLocks (.win w)) w (s.window w).ended p
  rw [releaseLocks_window, allPages_releaseLocks] at h
  unfold State.endSession
  rw [allPages_locksChanged]
  simpa [Window.ended, Window.closed] using h

/-- The install of a value and the pages it gives back are the slot's old pages and the new ones (R6). -/
theorem count_allPages_install (s : State) (i : SlotId) (sign : Sign) (pages : List PageId) (n : Nat) (p : PageId) :
    (s.setSlot i ((s.slot i).installed s.mem sign pages n)).allPages.count p +
        ((s.slot i).givenBack s.mem pages n).count p = s.allPages.count p + pages.count p := by
  have hset := count_allPages_setSlot s i ((s.slot i).installed s.mem sign pages n) p
  have hperm := (install_pages_perm (s.slot i) s.mem sign pages n).count_eq p
  rw [List.count_append, List.count_append] at hperm
  omega

theorem count_allPages_installInto (s : State) (f : SlotField) (sign : Sign) (pages : List PageId) (n : Nat) (p : PageId) :
    (s.installInto f sign pages n).1.allPages.count p + (s.installInto f sign pages n).2.count p =
      s.allPages.count p + pages.count p := by
  unfold State.installInto
  split
  · exact count_allPages_install s _ sign pages n p
  · rfl

theorem count_allPages_freeSlot (s : State) (f : SlotField) (p : PageId) :
    (s.freeSlot f).1.allPages.count p + (s.freeSlot f).2.count p = s.allPages.count p := by
  unfold State.freeSlot
  split
  next i _ =>
    have h := count_allPages_setSlot s i { s.slot i with sign := .pos, length := 0, pages := [] } p
    simpa using h
  next => rfl

/-- What a commit takes into slots and what it gives back are the slots' old pages and the working pages (R78). -/
theorem count_allPages_commitSlots (s : State) (c : CommandRecord) (j : Record) (p : PageId) :
    (s.commitSlots c j).1.allPages.count p + (s.commitSlots c j).2.count p = s.allPages.count p + j.workPages.count p := by
  unfold State.commitSlots Record.workPages
  cases c.kind.commitForm with
  | nothing => rfl
  | freed =>
    have h := count_allPages_freeSlot s c.d p
    simp only [List.count_append]
    omega
  | one =>
    have h := count_allPages_installInto s c.d (s.resultSign c j) j.wv0.pages j.wv0.length p
    simp only [List.count_append]
    omega
  | two =>
    have h1 := count_allPages_installInto s c.d (s.resultSign c j) j.wv0.pages j.wv0.length p
    have h2 := count_allPages_installInto (s.installInto c.d (s.resultSign c j) j.wv0.pages j.wv0.length).1 c.d2
      (s.value c.a).sign j.wv1.pages j.wv1.length p
    simp only [List.count_append]
    omega

/-- The end of a command gives back the pages named, and its record holds no page after it; u is the state with the commit's slots
(R110, R125). -/
theorem CommandEnds.count_allPages {s t : State} {r : Runner} {c : CommandRecord} {rec : CompletionRecord} {gone : List PageId}
    {slots : SlotId → Slot} (h : CommandEnds s t r c rec gone slots) {u : State} (hfree : u.freeList = s.freeList)
    (hslots : ∀ i, (u.slot i).pages = (slots i).pages) (hrecord : ∀ x, (u.record x).workPages = (s.record x).workPages)
    (hwindows : u.windows = s.windows) (p : PageId) :
    t.allPages.count p + (s.record r).workPages.count p = u.allPages.count p + gone.count p := by
  have hset := count_allPages_setRecord u r Record.free p
  obtain ⟨v, hv⟩ : ∃ v, v = u.setRecord r Record.free := ⟨_, rfl⟩
  have hrelease := count_allPages_freeList v t.freeList p
  rw [← hv] at hset
  have hvfree : v.freeList = u.freeList := by rw [hv, setRecord_freeList]
  have hsame : t.allPages = ({ v with freeList := t.freeList } : State).allPages := by
    subst hv
    refine allPages_congr rfl (fun i => ?_) (fun x => ?_) (fun w => ?_)
    · rw [h.slots]
      exact ((hslots i).symm.trans (congrArg Slot.pages (setRecord_slot u r _ i)).symm)
    · refine Eq.trans ?_ (congrArg Record.workPages (record_eq_of (s := u.setRecord r Record.free) rfl rfl x).symm)
      rw [record_setRecord]
      cases x with
      | urgent =>
        change t.urec.workPages = _
        rw [h.urgent]
        by_cases e : r = .urgent
        · simp [e]
        · rw [if_neg e, if_neg fun e' => e e'.symm]
          exact (hrecord .urgent).symm
      | ctx n =>
        rw [h.contexts]
        by_cases e : r = .ctx n
        · simp [e]
        · rw [if_neg e, if_neg (fun e' => e e'.symm : ¬ Runner.ctx n = r), hrecord]
          split <;> rfl
    · refine (congrArg Window.staging (window_eq_of (s := u) (by rw [h.frame]; exact hwindows.symm) w)).trans ?_
      exact congrArg Window.staging (setRecord_window u r Record.free w).symm
  have hgone : t.freeList.count p = s.freeList.count p + gone.count p := by rw [h.pages, List.count_append]
  rw [hsame]
  rw [hvfree, hfree] at hrelease
  rw [hrecord, workPages_free, List.count_nil] at hset
  omega

theorem pagesPartition_ended {s t : State} {r : Runner} {c : CommandRecord} {rec : CompletionRecord} {slots : SlotId → Slot}
    (h : CommandEnds s t r c rec (s.record r).workPages slots) (hslots : ∀ i, (slots i).pages = (s.slot i).pages)
    (hs : PagesPartition s) : PagesPartition t :=
  hs.of_count fun p => by
    have hcount := h.count_allPages (u := s) rfl (fun i => (hslots i).symm) (fun _ => rfl) rfl p
    omega

/-- A commit leaves each page in one place: j is the ending command's record (R78, R110). -/
theorem pagesPartition_committed {s : State} {r : Runner} {c : CommandRecord} (hs : PagesPartition s) :
    PagesPartition (s.committed r c (s.record r)) :=
  hs.of_count fun p => by
    have hframe := commitSlots_frame s c (s.record r)
    have hends := (commandEnds_committed s r c (s.record r)).count_allPages (u := (s.commitSlots c (s.record r)).1)
      (by rw [hframe]) (fun _ => rfl) (fun x => by rw [record_eq_of (s := s) (by rw [hframe]) (by rw [hframe])])
      (by rw [hframe]) p
    have hcommit := count_allPages_commitSlots s c (s.record r) p
    omega

/-! ### The events of the Core -/

theorem workPages_setRecord {s : State} {r : Runner} {v : Record} (h : v.workPages = (s.record r).workPages) (x : Runner) :
    ((s.setRecord r v).record x).workPages = (s.record x).workPages := by
  rw [record_setRecord]
  split
  next e => rw [h, e]
  next => rfl

theorem workPages_of_setRecord {s t : State} {r : Runner} {v : Record} (hcontexts : t.contexts = (s.setRecord r v).contexts)
    (hurec : t.urec = (s.setRecord r v).urec) (hv : v.workPages = (s.record r).workPages) (x : Runner) :
    (t.record x).workPages = (s.record x).workPages :=
  (congrArg Record.workPages (record_eq_of hcontexts hurec x)).trans (workPages_setRecord hv x)

theorem workPages_parkContext (s : State) (n : CtxId) (x : Runner) :
    ((s.parkContext n).record x).workPages = (s.record x).workPages := by
  rw [record_parkContext]
  split <;> rfl

theorem workPages_preempted (s : State) (n : CtxId) (x : Runner) :
    ((s.preempted n).record x).workPages = (s.record x).workPages := by
  rw [record_preempted]
  split <;> rfl

theorem workPages_resumeContext (s : State) (n : CtxId) (x : Runner) :
    ((s.resumeContext n).record x).workPages = (s.record x).workPages := by
  rw [record_resumeContext]
  split <;> rfl

theorem workPages_worked (s : State) (r x : Runner) (c : CommandRecord) :
    ((s.worked r c).record x).workPages = (s.record x).workPages := by
  rw [worked_record]
  split
  next h => rw [h, workedRecord_workPages]
  next => rfl

@[simp] theorem worked_freeList (s : State) (r : Runner) (c : CommandRecord) : (s.worked r c).freeList = s.freeList := by
  rw [worked_frame]

@[simp] theorem worked_slot (s : State) (r : Runner) (c : CommandRecord) (i : SlotId) : (s.worked r c).slot i = s.slot i :=
  slot_eq_of (by rw [worked_frame]) i

@[simp] theorem worked_windows (s : State) (r : Runner) (c : CommandRecord) : (s.worked r c).windows = s.windows := by
  rw [worked_frame]

@[simp] theorem checked_slot (s : State) (r : Runner) (i : SlotId) : (s.checked r).slot i = s.slot i :=
  slot_eq_of (by rw [checked_frame]) i

@[simp] theorem checked_windows (s : State) (r : Runner) : (s.checked r).windows = s.windows := by
  rw [checked_frame]

theorem pagesPartition_worked {s : State} {r : Runner} {c : CommandRecord} (hs : PagesPartition s) :
    PagesPartition (s.worked r c) :=
  hs.congr (by simp) (fun i => by simp) (fun x => workPages_worked s r x c) fun w =>
    congrArg Window.staging (window_eq_of (worked_windows s r c) w)

theorem pagesPartition_checked {s : State} {r : Runner} (hs : PagesPartition s) : PagesPartition (s.checked r) :=
  hs.congr (by rw [checked_frame]) (fun i => by simp)
    (workPages_of_setRecord (s := s) (t := s.checked r) (r := r) rfl rfl rfl) fun w =>
    congrArg Window.staging (window_eq_of (checked_windows s r) w)

/-- A granted acquisition moves its pages from the free list into the record (R10, R67). -/
theorem pagesPartition_granted {s : State} {r : Runner} {c : CommandRecord} (hs : PagesPartition s)
    (hgranted : acquisitionGranted (.run r) (s.demandOf c (s.record r)) s = true) :
    PagesPartition { (s.takePages (s.demandOf c (s.record r))).setRecord r
      ((s.record r).withPages (s.lackingPages c (s.record r)) (s.nextPages (s.demandOf c (s.record r)))) with
      stepRunning := true } :=
  hs.of_count fun p => by
    have htake := count_allPages_takePages s (s.demandOf c (s.record r)) p
    have hset := count_allPages_setRecord (s.takePages (s.demandOf c (s.record r))) r
      ((s.record r).withPages (s.lackingPages c (s.record r)) (s.nextPages (s.demandOf c (s.record r)))) p
    have hperm := (withPages_pages (s.record r) (s.lackingPages c (s.record r)) _
      (length_nextPages_demandOf hgranted)).count_eq p
    rw [List.count_append] at hperm
    rw [takePages_record] at hset
    refine (congrArg (List.count p) (allPages_eq_of
      (s := (s.takePages (s.demandOf c (s.record r))).setRecord r
        ((s.record r).withPages (s.lackingPages c (s.record r)) (s.nextPages (s.demandOf c (s.record r)))))
      rfl rfl rfl rfl rfl)).trans ?_
    omega

/-- A start takes locks and fills a record that holds no page (R99). -/
theorem pagesPartition_start {s : State} {q : QueueId} {r : Runner} {c : CommandRecord} (hs : PagesPartition s)
    (hfree : s.record r = Record.free) : PagesPartition (s.start q r c) := by
  refine hs.congr (by simp) (fun i => ?_) (fun x => ?_) (fun w => by simp)
  · rw [slot_start, slot_takeLocks]
  · rw [record_start]
    split
    next h => rw [h, hfree]; rfl
    next => rfl

theorem CoreGoes.pagesPartition {s t : State} {r : Runner} {c : CommandRecord} (hs : PagesPartition s) (h : CoreGoes s r c t) :
    PagesPartition t := by
  cases h with
  | ended status hstatus => exact pagesPartition_ended (commandEnds_ended s r c hstatus) (fun _ => rfl) hs
  | parked n =>
    exact hs.congr (by simp) (fun i => by simp) (fun x => by rw [coreFree_record, workPages_parkContext]) (fun w => by simp)
  | waits n hrunner _ _ hrefused =>
    subst hrunner
    rw [enterSpaceWait_of_refused hrefused]
    exact hs.congr (by simp) (fun i => by simp)
      (workPages_of_setRecord (s := s) (r := .ctx n) rfl rfl rfl) (fun w => by simp)
  | granted hgranted => exact pagesPartition_granted hs hgranted

theorem CoreEvent.pagesPartition {s t : State} (hr : RecordsConsistent s) (hs : PagesPartition s) (h : CoreEvent s t) :
    PagesPartition t := by
  cases h with
  | started q r c howner _ _ _ hfree =>
    refine pagesPartition_start hs (hr.freeIsEmpty r ?_)
    cases r with
    | urgent => exact hr.urec_free (by simp [howner])
    | ctx n => exact hfree n rfl
  | resumed n => exact hs.congr (by simp) (fun i => by simp) (workPages_resumeContext s n) (fun w => by simp)
  | failed r c status _ _ _ hstatus =>
    refine pagesPartition_ended (s := s.setRecord r { s.record r with stepsDone := 1 }) (commandEnds_ended _ r c hstatus)
      (fun _ => rfl) ?_
    exact hs.congr (by simp) (fun i => by simp) (workPages_of_setRecord (s := s) (r := r) rfl rfl rfl) (fun w => by simp)
  | begun r c t _ _ _ _ hgoes => exact hgoes.pagesPartition (pagesPartition_checked hs)
  | boundary r c t _ _ _ _ hgoes => exact hgoes.pagesPartition (pagesPartition_worked hs)
  | preempted n c u howner =>
    have hsuspended : PagesPartition ((s.worked (.ctx n) c).preempted n) :=
      (pagesPartition_worked (r := .ctx n) (c := c) hs).congr (by simp) (fun i => by simp) (workPages_preempted _ n)
        (fun w => by simp)
    refine pagesPartition_start hsuspended ?_
    rw [record_preempted, if_neg (by simp), worked_record, if_neg (by simp)]
    exact hr.freeIsEmpty .urgent (hr.urec_free (by simp [howner]))
  | faulted r c status _ _ _ _ hstatus =>
    exact pagesPartition_ended (commandEnds_ended _ r c hstatus) (fun _ => rfl) (pagesPartition_worked hs)
  | committed r c =>
    have h := pagesPartition_committed (r := r) (c := c) (pagesPartition_worked (r := r) (c := c) hs)
    rwa [worked_record_self] at h

/-! ### The events of the other blocks -/

theorem ContextEvent.pagesPartition {s t : State} (hr : RecordsConsistent s) (hs : PagesPartition s) (h : ContextEvent s t) :
    PagesPartition t := by
  cases h with
  | poolres data =>
    refine hs.of_count fun p => congrArg (List.count p) ?_
    exact (allPages_wake _).trans (allPages_eq_of rfl rfl rfl rfl rfl)
  | requestPark n =>
    exact hs.congr (by simp) (fun i => congrArg Slot.pages (slot_eq_of rfl i)) (workPages_of_setRecord (s := s) (r := .ctx n) rfl rfl rfl)
      (fun w => congrArg Window.staging (window_eq_of rfl w))
  | park n =>
    exact hs.congr (by simp) (fun i => congrArg Slot.pages (slot_eq_of rfl i))
      (fun x => (congrArg Record.workPages (record_eq_of rfl rfl x)).trans (workPages_parkContext s n x))
      (fun w => congrArg Window.staging (window_eq_of rfl w))
  | resume n =>
    exact hs.congr (by simp) (fun i => congrArg Slot.pages (slot_eq_of rfl i)) (workPages_of_setRecord (s := s) (r := .ctx n) rfl rfl rfl)
      (fun w => congrArg Window.staging (window_eq_of rfl w))
  | requestAbort r =>
    exact hs.congr (by simp) (fun i => congrArg Slot.pages (slot_eq_of (setRecord_slots s r _) i)) (workPages_of_setRecord (s := s) (r := r) rfl rfl rfl)
      (fun w => congrArg Window.staging (window_eq_of (setRecord_windows s r _) w))
  | abort n c =>
    refine pagesPartition_ended (s := { s with resumeList := s.resumeList.filter (· ≠ n) }) (commandEnds_abort s n c)
      (fun _ => rfl) (hs.congr rfl (fun _ => rfl) (fun x => congrArg Record.workPages (record_eq_of rfl rfl x)) fun _ => rfl)
  | discard n hstate hcommand =>
    have hstarted : (s.record (.ctx n)).state ≠ .free := by obtain h | h | h := hstate <;> simp [h]
    simpa [hcommand] using hr.startedHasCommand _ hstarted

theorem allPages_setSlot_eq {s : State} {i : SlotId} {v : Slot} (h : v.pages = (s.slot i).pages) :
    (s.setSlot i v).allPages = s.allPages := by
  refine allPages_congr (by simp) (fun j => ?_) (fun r => by simp) (fun w => by simp)
  rw [slot_setSlot]
  split
  next e => rw [h, e]
  next => rfl

/-- A session opened locks a slot and lists its staging pages in a record that listed none (R147). -/
theorem count_allPages_opened {s : State} {i : SlotId} {w : WindowId} {v : Slot} (hv : v.pages = (s.slot i).pages)
    (hempty : (s.window w).staging = []) (u : Window) (p : PageId) :
    (((s.setSlot i v).setWindow w u).locksChanged).allPages.count p = s.allPages.count p + u.staging.count p := by
  have hset := count_allPages_setWindow (s.setSlot i v) w u p
  rw [setSlot_window, hempty, allPages_setSlot_eq hv, List.count_nil] at hset
  rw [allPages_locksChanged]
  exact hset

theorem WindowEvent.pagesPartition {s t : State} (hw : WindowsConsistent s) (hs : PagesPartition s) (h : WindowEvent s t) :
    PagesPartition t := by
  refine hs.of_count fun p => ?_
  cases h with
  | moved w v t hv hindex hstate =>
    have hset := count_allPages_setWindow s w v p
    rw [allPages_eq_of (s := s.setWindow w v) (t := t)] <;> try rw [hstate]
    have hstaging : v.staging = (s.window w).staging := by rw [hv]
    rw [hstaging] at hset
    omega
  | stored w data =>
    have hset := count_allPages_setWindow ({ s with mem := setLimbAt s.mem (s.window w).staging (s.window w).index data } : State)
      w { s.window w with index := (s.window w).index + 1 } p
    have hsame : ({ s with mem := setLimbAt s.mem (s.window w).staging (s.window w).index data } : State).allPages =
        s.allPages := allPages_eq_of rfl rfl rfl rfl rfl
    rw [hsame] at hset
    exact Nat.add_right_cancel hset
  | openedRead w i hclosed => exact count_allPages_opened (by rfl) (hw.staging_eq_nil (by simp [hclosed])) _ p
  | openedWrite w i length sign hclosed =>
    have hempty : ((s.takePages (pg length)).window w).staging = [] :=
      (congrArg Window.staging (takePages_window ..)).trans (hw.staging_eq_nil (by simp [hclosed]))
    have htake := count_allPages_takePages s (pg length) p
    exact (count_allPages_opened (by rfl) hempty _ p).trans htake
  | endedRead w hopen =>
    have hended := count_allPages_endSession s w p
    rw [hw.staging_eq_nil (w := w) (by simp [hopen]), List.count_nil] at hended
    omega
  | cancelled w =>
    have hended := count_allPages_endSession (s.release (s.window w).staging) w p
    rw [release_window, count_allPages_release] at hended
    omega
  | closed w =>
    have hinstall := count_allPages_install s (s.window w).slot (s.window w).declSign (s.window w).staging
      (s.window w).declLength p
    have hended := count_allPages_endSession
      ((s.setSlot (s.window w).slot ((s.slot (s.window w).slot).installed s.mem (s.window w).declSign (s.window w).staging
        (s.window w).declLength)).release
        ((s.slot (s.window w).slot).givenBack s.mem (s.window w).staging (s.window w).declLength)) w p
    rw [release_window, setSlot_window, count_allPages_release] at hended
    omega

/-! ### The soft reset -/

@[simp] theorem softReset_slot (s : State) (i : SlotId) :
    s.softReset.slot i = { s.slot i with writer := none, readers := [] } :=
  slot_clearLocks s i

/-- After a soft reset no page stands anywhere but in the free list and the slots (R21). -/
theorem allPages_softReset (s : State) :
    s.softReset.allPages =
      (s.freeList ++ s.softResetPages) ++ (List.finRange Config.slotCount).flatMap fun i => (s.slot i).pages := by
  rw [allPages_eq]
  simp only [softReset_record, softReset_window, softReset_slot, workPages_free, Window.closed]
  simp only [flatMap_eq_nil, List.append_nil, List.append_assoc]
  exact List.append_assoc s.freeList s.softResetPages _

/-- The pages that a soft reset releases are those of the records and of the staging lists (R21). -/
theorem allPages_perm_softReset (s : State) : s.softReset.allPages.Perm s.allPages := by
  have hcontexts : List.finRange Config.contextCount = [0, 1, 2, 3] := by decide
  have hwindows : List.finRange Config.windowCount = [0, 1] := by decide
  rw [allPages_softReset, allPages_eq, hcontexts, hwindows, List.perm_iff_count]
  intro p
  simp only [State.softResetPages, List.count_append, List.flatMap_cons, List.flatMap_nil, List.append_nil]
  change _ = s.freeList.count p + (_ + (_ + (s.urec.workPages.count p + _)))
  omega

theorem pagesPartition_softReset {s : State} (hs : PagesPartition s) : PagesPartition s.softReset :=
  (allPages_perm_softReset s).trans hs

/-- Settles O6: the soft reset releases the pages of every record and staging list, so that the others are in slots. -/
theorem softResetReturnsEveryPage : Obligations.SoftResetReturnsEveryPage := by
  intro s t hlive hs ht
  rw [exec_softReset, whenLive_of_high _ hlive] at ht
  cases ht
  have hpartition := pagesPartition_softReset hs
  refine ⟨hpartition, ?_⟩
  have hlength := hpartition.length_eq
  rw [allPages_softReset, List.length_append, List.length_flatMap, List.length_finRange] at hlength
  have hslots : (s.softReset.slots.toList.map fun v => v.pages.length) =
      (List.finRange Config.slotCount).map fun i => (s.slot i).pages.length := by
    rw [toList_eq_map_finRange, List.map_map]
    refine List.map_congr_left fun i _ => ?_
    have hpages : (s.softReset.slot i).pages = (s.slot i).pages := by rw [softReset_slot]
    exact congrArg List.length hpages
  rw [hslots]
  exact hlength

/-! ### Every event -/

theorem Event.pagesPartition {s t : State} (hr : RecordsConsistent s) (hw : WindowsConsistent s) (hs : PagesPartition s)
    (h : Event s t) : PagesPartition t := by
  cases h with
  | registers h => exact hs.of_count fun p => by rw [allPages_eq_of (s := s)] <;> rw [h]
  | softReset h => rw [h]; exact pagesPartition_softReset hs
  | intake h =>
    have h := onlyIntake_of_reflTransGen h
    exact hs.of_count fun p => by rw [allPages_eq_of (s := s)] <;> rw [h]
  | context h => exact h.pagesPartition hr hs
  | protect h =>
    cases h with
    | set i b =>
      exact hs.of_count fun p => congrArg (List.count p)
        ((allPages_eq_of rfl rfl rfl rfl rfl).trans (allPages_setSlot_eq (v := { s.slot i with protect := b }) rfl))
  | window h => exact h.pagesPartition hw hs
  | core h => exact h.pagesPartition hr hs

theorem reset_slot (i : SlotId) : State.reset.slot i = Slot.empty := Vector.getElem_replicate i.isLt

theorem reset_freeList : State.reset.freeList = List.finRange Config.pageCount := by rw [State.reset]

/-- After a hardware reset the free list holds every page (R20). -/
theorem pagesPartition_reset : PagesPartition State.reset := by
  unfold PagesPartition
  rw [allPages_eq]
  simp only [reset_record, reset_window, reset_slot, workPages_free, Window.closed, Slot.empty]
  simp only [flatMap_eq_nil, List.append_nil]
  rw [reset_freeList]

/-- Settles O54: each event moves pages between the lists, by the counts of a page in all of them together. -/
theorem pagesPartitionKept : Obligations.PagesPartitionKept := by
  intro s t hr hw hs ht
  refine (step_keeps (P := fun x => RecordsConsistent x ∧ WindowsConsistent x ∧ PagesPartition x) (fun _ _ => ⟨?_, ?_, ?_⟩)
    (fun _ _ h => ⟨?_, ?_, ?_⟩)
    (fun _ _ h he => ⟨he.recordsConsistent h.1, he.windowsConsistent h.2.1, he.pagesPartition h.1 h.2.1 h.2.2⟩)
    ⟨hr, hw, hs⟩ ht).2.2
  · exact recordsConsistent_reset.congr (record_eq_of rfl rfl) rfl rfl rfl
  · exact windowsConsistent_reset.congr rfl
  · exact pagesPartition_reset.of_fields (by rw [State.reset]) rfl rfl rfl rfl
  · exact h.1.congr (record_eq_of rfl rfl) rfl rfl rfl
  · exact h.2.1.congr rfl
  · exact h.2.2.of_fields rfl rfl rfl rfl rfl

end Sys2Proof.Machine
end

section
/-! PROOFS. The lock table through every event: exactly the locks of the started commands and of the open windows (R81, R84, R86). -/

namespace Sys2Proof.Machine

/-- The lock table is that of the holders, and a slot with a writer has no other readers. -/
def LocksKept (s : State) : Prop := LocksMatchHolders s ∧ LocksExclusive s

/-! ### What a commit does to one slot -/

theorem slot_installInto (s : State) (f : SlotField) (sign : Sign) (pages : List PageId) (n : Nat) (i : SlotId) :
    (s.installInto f sign pages n).1.slot i =
      if slotNumber f = some i then (s.slot i).installed s.mem sign pages n else s.slot i := by
  unfold State.installInto
  split
  next k hk =>
    rw [hk, slot_setSlot]
    by_cases e : i = k
    · subst e; simp
    · rw [if_neg e, if_neg fun h => e (Option.some.inj h).symm]
  next hk => simp [hk]

theorem slot_freeSlot (s : State) (f : SlotField) (i : SlotId) :
    (s.freeSlot f).1.slot i =
      if slotNumber f = some i then { s.slot i with sign := .pos, length := 0, pages := [] } else s.slot i := by
  unfold State.freeSlot
  split
  next k hk =>
    rw [hk, slot_setSlot]
    by_cases e : i = k
    · subst e; simp
    · rw [if_neg e, if_neg fun h => e (Option.some.inj h).symm]
  next hk => simp [hk]

@[simp] theorem installed_writer (v : Slot) (m : Memory) (sign : Sign) (pages : List PageId) (n : Nat) :
    (v.installed m sign pages n).writer = v.writer := rfl

@[simp] theorem installed_readers (v : Slot) (m : Memory) (sign : Sign) (pages : List PageId) (n : Nat) :
    (v.installed m sign pages n).readers = v.readers := rfl

theorem installInto_locks (s : State) (f : SlotField) (sign : Sign) (pages : List PageId) (n : Nat) (i : SlotId) :
    ((s.installInto f sign pages n).1.slot i).writer = (s.slot i).writer ∧
      ((s.installInto f sign pages n).1.slot i).readers = (s.slot i).readers := by
  rw [slot_installInto]
  split <;> exact ⟨rfl, rfl⟩

/-- A commit changes no lock (R78). -/
theorem commitSlots_locks (s : State) (c : CommandRecord) (j : Record) (i : SlotId) :
    ((s.commitSlots c j).1.slot i).writer = (s.slot i).writer ∧
      ((s.commitSlots c j).1.slot i).readers = (s.slot i).readers := by
  unfold State.commitSlots
  cases c.kind.commitForm with
  | nothing => exact ⟨rfl, rfl⟩
  | freed =>
    dsimp only
    rw [slot_freeSlot]
    split <;> exact ⟨rfl, rfl⟩
  | one => exact installInto_locks s _ _ _ _ i
  | two =>
    obtain ⟨hwriter, hreaders⟩ := installInto_locks s c.d (s.resultSign c j) j.wv0.pages j.wv0.length i
    obtain ⟨hwriter', hreaders'⟩ := installInto_locks (s.installInto c.d (s.resultSign c j) j.wv0.pages j.wv0.length).1 c.d2
      (s.value c.a).sign j.wv1.pages j.wv1.length i
    exact ⟨hwriter'.trans hwriter, hreaders'.trans hreaders⟩

/-! ### Lock tables that agree -/

/-- The claims of a holder: what its command or its window says that it holds. -/
theorem claims_congr {s t : State} (hcommand : ∀ r, (t.record r).command = (s.record r).command)
    (hwindow : ∀ w, (t.window w).state = (s.window w).state ∧ (t.window w).slot = (s.window w).slot) (i : SlotId) (h : Holder) :
    (t.claimsWrite i h ↔ s.claimsWrite i h) ∧ (t.claimsRead i h ↔ s.claimsRead i h) := by
  cases h with
  | run r => simp only [State.claimsWrite, State.claimsRead, hcommand, and_self]
  | win w => simp only [State.claimsWrite, State.claimsRead, hwindow, and_self]

theorem LocksKept.congr {s t : State} (hs : LocksKept s)
    (hlocks : ∀ i, (t.slot i).writer = (s.slot i).writer ∧ (t.slot i).readers = (s.slot i).readers)
    (hcommand : ∀ r, (t.record r).command = (s.record r).command)
    (hwindow : ∀ w, (t.window w).state = (s.window w).state ∧ (t.window w).slot = (s.window w).slot) : LocksKept t := by
  refine ⟨fun i h => ?_, fun i h hh x hx => ?_⟩
  · obtain ⟨hwriter, hreaders⟩ := hlocks i
    obtain ⟨hwrite, hread⟩ := claims_congr hcommand hwindow i h
    rw [hwriter, hreaders, hwrite, hread]
    exact hs.1 i h
  · obtain ⟨hwriter, hreaders⟩ := hlocks i
    rw [hwriter] at hh
    rw [hreaders] at hx
    exact hs.2 i h hh x hx

/-- States with the same slots, windows and started commands have the same lock table and the same claims. -/
theorem LocksKept.of_fields {s t : State} (hs : LocksKept s) (hslots : t.slots = s.slots) (hwindows : t.windows = s.windows)
    (hcommand : ∀ r, (t.record r).command = (s.record r).command) : LocksKept t :=
  hs.congr (fun i => by rw [slot_eq_of hslots]; exact ⟨rfl, rfl⟩) hcommand
    fun w => by rw [window_eq_of hwindows]; exact ⟨rfl, rfl⟩

/-- One holder gives up its locks and its claims; the other holders keep theirs (R84). -/
theorem LocksKept.unlocked {s t : State} {g : Holder} (hs : LocksKept s)
    (hlocks : ∀ i, (t.slot i).writer = ((s.slot i).unlock g).writer ∧ (t.slot i).readers = ((s.slot i).unlock g).readers)
    (hnone : ∀ i, ¬ t.claimsWrite i g ∧ ¬ t.claimsRead i g)
    (hothers : ∀ i h, h ≠ g → (t.claimsWrite i h ↔ s.claimsWrite i h) ∧ (t.claimsRead i h ↔ s.claimsRead i h)) :
    LocksKept t := by
  have hwriter : ∀ i h, (t.slot i).writer = some h ↔ (s.slot i).writer = some h ∧ h ≠ g := fun i h => by
    rw [(hlocks i).1]
    change (if (s.slot i).writer = some g then none else (s.slot i).writer) = some h ↔ _
    split <;> grind
  have hreaders : ∀ i h, h ∈ (t.slot i).readers ↔ h ∈ (s.slot i).readers ∧ h ≠ g := fun i h => by
    rw [(hlocks i).2]
    exact mem_dropReader
  refine ⟨fun i h => ?_, fun i h hh x hx => ?_⟩
  · rw [hwriter, hreaders]
    by_cases e : h = g
    · subst e
      simp [hnone i]
    · obtain ⟨hwrite, hread⟩ := hothers i h e
      rw [hwrite, hread]
      simpa [e] using hs.1 i h
  · exact hs.2 i h ((hwriter i h).1 hh).1 x ((hreaders i x).1 hx).1

/-- A holder without claims takes the locks it claims from now on, on slots without a writer, and without any lock where it writes
(R82, R83, R145). -/
theorem LocksKept.locked {s t : State} {g : Holder} (hs : LocksKept s)
    (hlocks : ∀ i, ((t.claimsWrite i g ∧ (t.slot i).writer = some g ∧ (s.slot i).writer = none ∧ (s.slot i).readers = []) ∨
        ¬ t.claimsWrite i g ∧ (t.slot i).writer = (s.slot i).writer) ∧
      ((t.claimsRead i g ∧ (t.slot i).readers = addReader g (s.slot i).readers ∧ (s.slot i).writer = none) ∨
        ¬ t.claimsRead i g ∧ (t.slot i).readers = (s.slot i).readers))
    (hnone : ∀ i, ¬ s.claimsWrite i g ∧ ¬ s.claimsRead i g)
    (hothers : ∀ i h, h ≠ g → (t.claimsWrite i h ↔ s.claimsWrite i h) ∧ (t.claimsRead i h ↔ s.claimsRead i h)) :
    LocksKept t := by
  have hfree : ∀ i, (s.slot i).writer ≠ some g ∧ g ∉ (s.slot i).readers := fun i =>
    ⟨fun h => (hnone i).1 ((hs.1 i g).1.1 h), fun h => (hnone i).2 ((hs.1 i g).2.1 h)⟩
  refine ⟨fun i h => ?_, fun i h hh x hx => ?_⟩
  · obtain ⟨hwrite, hread⟩ := hlocks i
    by_cases e : h = g
    · subst e
      constructor
      · obtain ⟨hclaim, hwriter, -⟩ | ⟨hclaim, hwriter⟩ := hwrite
        · simp [hclaim, hwriter]
        · simp [hclaim, hwriter, hfree i]
      · obtain ⟨hclaim, hreaders, -⟩ | ⟨hclaim, hreaders⟩ := hread
        · simp [hclaim, hreaders]
        · simp [hclaim, hreaders, hfree i]
    · obtain ⟨hwrite', hread'⟩ := hothers i h e
      rw [hwrite', hread', ← (hs.1 i h).1, ← (hs.1 i h).2]
      constructor
      · obtain ⟨-, hwriter, hwriter', -⟩ | ⟨-, hwriter⟩ := hwrite
        · simp [hwriter, hwriter', Ne.symm e]
        · rw [hwriter]
      · obtain ⟨-, hreaders, -⟩ | ⟨-, hreaders⟩ := hread
        · simp [hreaders, e]
        · rw [hreaders]
  · obtain ⟨⟨-, hwriter, hwriter', hreaders'⟩ | ⟨-, hwriter⟩, hread⟩ := hlocks i
    · obtain ⟨-, hreaders, -⟩ | ⟨-, hreaders⟩ := hread
      · rw [hwriter] at hh
        simpa [hreaders, hreaders', Option.some.inj hh] using hx
      · simp [hreaders, hreaders'] at hx
    · rw [hwriter] at hh
      obtain ⟨-, -, hnowriter⟩ | ⟨-, hreaders⟩ := hread
      · rw [hnowriter] at hh
        cases hh
      · rw [hreaders] at hx
        exact hs.2 i h hh x hx

/-! ### The events of the Core and of the contexts -/

/-- A command that ends gives up its locks (R84). -/
theorem CommandEnds.locksKept {s t : State} {r : Runner} {c : CommandRecord} {rec : CompletionRecord} {gone : List PageId}
    {slots : SlotId → Slot} (h : CommandEnds s t r c rec gone slots) (hs : LocksKept s)
    (hslots : ∀ i, (slots i).writer = (s.slot i).writer ∧ (slots i).readers = (s.slot i).readers) : LocksKept t := by
  have hwindows : t.windows = s.windows := by rw [h.frame]
  refine hs.unlocked (g := .run r) (fun i => ?_) (fun i => ?_) fun i x hx => ?_
  · obtain ⟨hwriter, hreaders⟩ := hslots i
    rw [h.slots, hwriter, hreaders]
    exact ⟨rfl, rfl⟩
  · simp [State.claimsWrite, State.claimsRead, h.command]
  · cases x with
    | run y =>
      have hy : y ≠ r := fun e => hx (congrArg Holder.run e)
      simp [State.claimsWrite, State.claimsRead, h.command, hy]
    | win w => simp only [State.claimsWrite, State.claimsRead, window_eq_of hwindows, and_self]

theorem locksKept_ended {s : State} {r : Runner} {c : CommandRecord} {status : Status} (hs : LocksKept s)
    (hstatus : status.setsLatch = true) : LocksKept (s.coreEndUninstalled r c status) :=
  (commandEnds_ended s r c hstatus).locksKept hs fun _ => ⟨rfl, rfl⟩

theorem locksKept_worked {s : State} {r : Runner} {c : CommandRecord} (hs : LocksKept s) : LocksKept (s.worked r c) :=
  hs.of_fields (by rw [worked_frame]) (by simp) fun x => worked_command s r x c

theorem locksKept_checked {s : State} {r : Runner} (hs : LocksKept s) : LocksKept (s.checked r) :=
  hs.of_fields (by rw [checked_frame]) (by simp) (checked_command s r)

/-- A start takes the locks of the command, which the startability test has found free (R82, R83). -/
theorem locksKept_start {s : State} {q : QueueId} {r : Runner} {c : CommandRecord} (hs : LocksKept s)
    (hstartable : s.startable c = true) (hfree : s.record r = Record.free) : LocksKept (s.start q r c) := by
  have hcommand : ∀ x, ((s.start q r c).record x).command = if x = r then some c else (s.record x).command := fun x => by
    rw [record_start]
    split <;> rfl
  have hclaims : ∀ i, ((s.start q r c).claimsWrite i (.run r) ↔ c.writes i) ∧
      ((s.start q r c).claimsRead i (.run r) ↔ c.reads i) := fun i => by
    simp [State.claimsWrite, State.claimsRead, hcommand]
  obtain ⟨hdests, hsources⟩ := startable_iff.1 hstartable
  refine hs.locked (g := .run r) (fun i => ?_) (fun i => ?_) fun i x hx => ?_
  · rw [(hclaims i).1, (hclaims i).2, slot_start, slot_takeLocks]
    constructor
    · by_cases hw : c.writes i
      · obtain ⟨f, hf, hi⟩ := hw
        exact .inl ⟨⟨f, hf, hi⟩, if_pos ⟨f, hf, hi⟩, hdests f hf i (slotNumber_eq_some.1 hi)⟩
      · exact .inr ⟨hw, if_neg hw⟩
    · by_cases hr : c.reads i
      · obtain ⟨f, hf, hi⟩ := hr
        exact .inl ⟨⟨f, hf, hi⟩, if_pos ⟨f, hf, hi⟩, hsources f hf i (slotNumber_eq_some.1 hi)⟩
      · exact .inr ⟨hr, if_neg hr⟩
  · simp [State.claimsWrite, State.claimsRead, hfree, Record.free]
  · cases x with
    | run y =>
      have hy : y ≠ r := fun e => hx (congrArg Holder.run e)
      simp [State.claimsWrite, State.claimsRead, hcommand, hy]
    | win w => simp [State.claimsWrite, State.claimsRead]

theorem CoreGoes.locksKept {s t : State} {r : Runner} {c : CommandRecord} (hs : LocksKept s) (h : CoreGoes s r c t) :
    LocksKept t := by
  cases h with
  | ended status hstatus => exact locksKept_ended hs hstatus
  | parked n => exact hs.of_fields (by simp) (by simp) fun x => by rw [coreFree_record, parkContext_command]
  | waits n => exact hs.of_fields (by simp) (by simp) fun x => by rw [coreFree_record, enterSpaceWait_command]
  | granted => exact hs.of_fields (by simp) (by simp) fun x => granted_command s r x _ _ rfl

theorem CoreEvent.locksKept {s t : State} (hr : RecordsConsistent s) (hs : LocksKept s) (h : CoreEvent s t) : LocksKept t := by
  cases h with
  | started q r c howner _ hstartable _ hfree =>
    refine locksKept_start hs hstartable (hr.freeIsEmpty r ?_)
    cases r with
    | urgent => exact hr.urec_free (by simp [howner])
    | ctx n => exact hfree n rfl
  | resumed n => exact hs.of_fields (by simp) (by simp) (resumeContext_command s n)
  | failed r c status _ _ _ hstatus =>
    exact locksKept_ended (hs.of_fields (by simp) (by simp) fun x => setRecord_command (by rfl) x) hstatus
  | begun r c t _ _ _ _ hgoes => exact hgoes.locksKept (locksKept_checked hs)
  | boundary r c t _ _ _ _ hgoes => exact hgoes.locksKept (locksKept_worked hs)
  | preempted n c u howner _ _ _ _ _ _ hstartable =>
    have hsuspended : LocksKept ((s.worked (.ctx n) c).preempted n) :=
      (locksKept_worked (r := .ctx n) (c := c) hs).of_fields (by simp) (by simp) (preempted_command _ n)
    refine locksKept_start hsuspended ?_ ?_
    · have hslots : ((s.worked (.ctx n) c).preempted n).slots = s.slots := by rw [preempted_slots, worked_frame]
      rwa [startable_congr fun i => by rw [slot_eq_of hslots i]; exact ⟨rfl, rfl⟩]
    · rw [record_preempted, if_neg (by simp), worked_record, if_neg (by simp)]
      exact hr.freeIsEmpty .urgent (hr.urec_free (by simp [howner]))
  | faulted r c status _ _ _ _ hstatus => exact locksKept_ended (locksKept_worked hs) hstatus
  | committed r c => exact (commandEnds_committed _ r c _).locksKept (locksKept_worked hs) (commitSlots_locks _ _ _)

theorem ContextEvent.locksKept {s t : State} (hs : LocksKept s) (h : ContextEvent s t) : LocksKept t := by
  cases h with
  | poolres data =>
    exact hs.of_fields (by simp [State.writePoolres]) (by simp [State.writePoolres]) fun r =>
      (wake_command _ r).trans (congrArg Record.command (record_eq_of rfl rfl r))
  | requestPark n => exact hs.of_fields (by simp) (by simp) (command_of_setRecord (s := s) (r := .ctx n) rfl rfl rfl)
  | park n =>
    exact hs.of_fields (by simp) (by simp) fun x =>
      (congrArg Record.command (record_eq_of rfl rfl x)).trans (parkContext_command s n x)
  | resume n => exact hs.of_fields (by simp) (by simp) (command_of_setRecord (s := s) (r := .ctx n) rfl rfl rfl)
  | requestAbort r => exact hs.of_fields (by simp) (by simp) (command_of_setRecord (s := s) (r := r) rfl rfl rfl)
  | abort n c =>
    exact (commandEnds_abort s n c).locksKept
      (hs.of_fields rfl rfl fun x => congrArg Record.command (record_eq_of rfl rfl x)) fun _ => ⟨rfl, rfl⟩
  | discard n _ hcommand =>
    refine hs.of_fields (by simp) (by simp) fun x => (congrArg Record.command (record_eq_of rfl rfl x)).trans
      ((setRecord_command ?_ x).trans (congrArg Record.command (record_eq_of rfl rfl x)))
    exact hcommand.symm

/-! ### The events of the windows -/

/-- The end of a session gives up the window's lock (R152). -/
theorem locksKept_endSession {s : State} (w : WindowId) (hs : LocksKept s) : LocksKept (s.endSession w) := by
  have hwindow : ∀ v, (s.endSession w).window v = if v = w then (s.window w).ended else s.window v := fun v => by
    unfold State.endSession
    rw [locksChanged_window, window_setWindow, releaseLocks_window]
  refine hs.unlocked (g := .win w) (fun i => ?_) (fun i => ?_) fun i x hx => ?_
  · unfold State.endSession
    rw [locksChanged_slot, setWindow_slot, slot_releaseLocks]
    exact ⟨rfl, rfl⟩
  · simp [State.claimsWrite, State.claimsRead, hwindow, Window.ended, Window.closed]
  · cases x with
    | run y => simp [State.claimsWrite, State.claimsRead, State.endSession]
    | win v =>
      have hv : v ≠ w := fun e => hx (congrArg Holder.win e)
      simp [State.claimsWrite, State.claimsRead, hwindow, hv]

theorem WindowEvent.locksKept {s t : State} (hs : LocksKept s) (h : WindowEvent s t) : LocksKept t := by
  cases h with
  | moved w v t hv _ hstate =>
    refine hs.congr (fun i => ?_) (fun r => ?_) fun u => ?_
    · rw [hstate]; exact ⟨rfl, rfl⟩
    · rw [hstate]; exact congrArg Record.command (record_eq_of rfl rfl r)
    · rw [hstate]
      change ((s.setWindow w v).window u).state = _ ∧ ((s.setWindow w v).window u).slot = _
      rw [window_setWindow]
      split
      next e => rw [e, hv]; exact ⟨rfl, rfl⟩
      next => exact ⟨rfl, rfl⟩
  | stored w data =>
    refine hs.congr (fun i => ⟨rfl, rfl⟩) (fun r => congrArg Record.command (record_eq_of rfl rfl r)) fun u => ?_
    rw [window_setWindow]
    split
    next e => rw [e]; exact ⟨rfl, rfl⟩
    next => exact ⟨rfl, rfl⟩
  | openedRead w i hclosed hwriter =>
    refine hs.locked (g := .win w) (fun j => ?_) (fun j => ?_) fun j x hx => ?_
    · by_cases e : j = i
      · subst e
        simp [State.claimsWrite, State.claimsRead, hwriter, Slot.lockRead]
      · simp [State.claimsWrite, State.claimsRead, Ne.symm e, slot_setSlot, e]
    · simp [State.claimsWrite, State.claimsRead, hclosed]
    · cases x with
      | run y => simp [State.claimsWrite, State.claimsRead]
      | win v =>
        have hv : v ≠ w := fun e => hx (congrArg Holder.win e)
        simp [State.claimsWrite, State.claimsRead, window_setWindow, hv]
  | openedWrite w i length sign hclosed _ hunlocked =>
    obtain ⟨hwriter, hreaders⟩ := unlocked_iff.1 hunlocked
    refine hs.locked (g := .win w) (fun j => ?_) (fun j => ?_) fun j x hx => ?_
    · by_cases e : j = i
      · subst e
        simp [State.claimsWrite, State.claimsRead, hwriter, hreaders, Slot.lockWrite]
      · simp [State.claimsWrite, State.claimsRead, Ne.symm e, slot_setSlot, e]
    · simp [State.claimsWrite, State.claimsRead, hclosed]
    · cases x with
      | run y => simp [State.claimsWrite, State.claimsRead]
      | win v =>
        have hv : v ≠ w := fun e => hx (congrArg Holder.win e)
        simp [State.claimsWrite, State.claimsRead, window_setWindow, hv]
  | endedRead w => exact locksKept_endSession w hs
  | cancelled w => exact locksKept_endSession w (hs.of_fields (by simp) (by simp) (release_command s _))
  | closed w =>
    refine locksKept_endSession w (hs.congr (fun i => ?_) (fun r => ?_) fun u => by simp)
    · rw [release_slot, slot_setSlot]
      split
      next e => rw [e]; exact ⟨rfl, rfl⟩
      next => exact ⟨rfl, rfl⟩
    · rw [release_command, setSlot_record]

/-! ### Every event -/

/-- With every lock free, every record empty and every window closed, no lock is held and none is claimed. -/
theorem locksKept_of_empty {s : State} (hslot : ∀ i, (s.slot i).writer = none ∧ (s.slot i).readers = [])
    (hrecord : ∀ r, s.record r = Record.free) (hwindow : ∀ w, (s.window w).state = .closed) : LocksKept s := by
  refine ⟨fun i h => ?_, fun i h hh => ?_⟩
  · cases h <;> simp [State.claimsWrite, State.claimsRead, hslot, hrecord, hwindow, Record.free]
  · simp [(hslot i).1] at hh

theorem Event.locksKept {s t : State} (hr : RecordsConsistent s) (hs : LocksKept s) (h : Event s t) : LocksKept t := by
  cases h with
  | registers h =>
    exact hs.of_fields (by rw [h]) (by rw [h]) fun r => congrArg Record.command (record_eq_of (by rw [h]) (by rw [h]) r)
  | softReset h =>
    rw [h]
    exact locksKept_of_empty (fun i => by rw [softReset_slot]; exact ⟨rfl, rfl⟩) (softReset_record s)
      fun w => by rw [softReset_window]; rfl
  | intake h =>
    have h := onlyIntake_of_reflTransGen h
    exact hs.of_fields (by rw [h]) (by rw [h]) fun r => congrArg Record.command (record_eq_of (by rw [h]) (by rw [h]) r)
  | context h => exact h.locksKept hs
  | protect h =>
    cases h with
    | set i b =>
      refine hs.congr (fun j => ?_) (fun r => congrArg Record.command (record_eq_of rfl rfl r)) fun w => ⟨rfl, rfl⟩
      change ((s.setSlot i _).slot j).writer = _ ∧ ((s.setSlot i _).slot j).readers = _
      rw [slot_setSlot]
      split
      next e => rw [e]; exact ⟨rfl, rfl⟩
      next => exact ⟨rfl, rfl⟩
  | window h => exact h.locksKept hs
  | core h => exact h.locksKept hr hs

theorem locksKept_reset : LocksKept State.reset :=
  locksKept_of_empty (fun i => by rw [reset_slot]; exact ⟨rfl, rfl⟩) reset_record fun w => by rw [reset_window]; rfl

/-- Settles O55: a start and an open take the locks that the new holder claims, and each end gives them up with the claim. -/
theorem locksMatchHoldersKept : Obligations.LocksMatchHoldersKept := by
  intro s t hr hmatch hexclusive ht
  refine (step_keeps (P := fun x => RecordsConsistent x ∧ LocksKept x) (fun _ _ => ⟨?_, ?_⟩) (fun _ _ h => ⟨?_, ?_⟩)
    (fun _ _ h he => ⟨he.recordsConsistent h.1, he.locksKept h.1 h.2⟩) ⟨hr, hmatch, hexclusive⟩ ht).2
  · exact recordsConsistent_reset.congr (record_eq_of rfl rfl) rfl rfl rfl
  · exact locksKept_reset.of_fields rfl rfl fun r => congrArg Record.command (record_eq_of rfl rfl r)
  · exact h.1.congr (record_eq_of rfl rfl) rfl rfl rfl
  · exact h.2.of_fields rfl rfl fun r => congrArg Record.command (record_eq_of rfl rfl r)

end Sys2Proof.Machine
end

section
/-! PROOFS. The indicators through every event: preemption pending, the blocked indicators and the hold timers (R88, R89, R92, R102). -/

namespace Sys2Proof.Machine

/-- A hold timer runs exactly while its queue's head is blocked under a nonzero limit (R92). -/
def IntakeQueue.TimerTrue (k : IntakeQueue) : Prop := k.timer ≠ .stopped ↔ k.blocked = true ∧ k.limit ≠ 0

/-- The indicator and the timer of one queue say what they stand for (R88, R89, R92). -/
def State.QueueTrue (s : State) (q : QueueId) : Prop := (s.queue q).blocked = s.headBlocked q ∧ (s.queue q).TimerTrue

theorem indicatorsTrue_iff {s : State} :
    IndicatorsTrue s ↔ s.preemptPending = s.preemptDue ∧ ∀ q, s.QueueTrue q :=
  ⟨fun ⟨hpreempt, hblocked, htimer⟩ => ⟨hpreempt, fun q => ⟨hblocked q, htimer q⟩⟩,
    fun ⟨hpreempt, h⟩ => ⟨hpreempt, fun q => (h q).1, fun q => (h q).2⟩⟩

/-! ### One queue -/

theorem timerTrue_stopped {k : IntakeQueue} (hblocked : k.blocked = false) (htimer : k.timer = .stopped) : k.TimerTrue := by
  simp [IntakeQueue.TimerTrue, hblocked, htimer]

/-- The timer of a head that stays, after its blocked test (R89, R92). -/
theorem timerTrue_after {k k' : IntakeQueue} (hk : k.TimerTrue) (hlimit : k'.limit = k.limit)
    (htimer : k'.timer = k.timerAfter k'.blocked) : k'.TimerTrue := by
  unfold IntakeQueue.TimerTrue at *
  rw [htimer, hlimit, IntakeQueue.timerAfter]
  cases hb : k'.blocked with
  | false => simp
  | true =>
    cases hold : k.blocked with
    | true => simpa [hold] using hk
    | false => by_cases hl : k.limit = 0 <;> simp [hl]

/-- The timer of a new head, after its blocked test (R92). -/
theorem timerTrue_ofNewHead {k k' : IntakeQueue} (hlimit : k'.limit = k.limit) (htimer : k'.timer = k.timerOfNewHead k'.blocked) :
    k'.TimerTrue := by
  unfold IntakeQueue.TimerTrue
  rw [htimer, hlimit, IntakeQueue.timerOfNewHead]
  split <;> simp_all

theorem State.QueueTrue.congr {s t : State} {q : QueueId} (hs : s.QueueTrue q)
    (hslots : ∀ i, (t.slot i).writer = (s.slot i).writer ∧ (t.slot i).readers = (s.slot i).readers)
    (hqueue : t.queue q = s.queue q) : t.QueueTrue q := by
  have hblocked : t.headBlocked q = s.headBlocked q := headBlocked_congr hslots (by rw [hqueue])
  unfold State.QueueTrue
  rw [hqueue, hblocked]
  exact hs

theorem State.QueueTrue.of_slots {s t : State} {q : QueueId} (hs : s.QueueTrue q) (hslots : t.slots = s.slots)
    (hqueue : t.queue q = s.queue q) : t.QueueTrue q :=
  hs.congr (fun i => by rw [slot_eq_of hslots]; exact ⟨rfl, rfl⟩) hqueue

/-- A queue that keeps its head, its indicator, its limit and the truth of its timer (R33). -/
theorem State.QueueTrue.of_queue {s t : State} {q : QueueId} (hs : s.QueueTrue q) (hslots : t.slots = s.slots)
    (hhead : (t.queue q).entries.head? = (s.queue q).entries.head?) (hblocked : (t.queue q).blocked = (s.queue q).blocked)
    (htimer : (t.queue q).TimerTrue) : t.QueueTrue q := by
  refine ⟨?_, htimer⟩
  rw [hblocked, hs.1]
  exact (headBlocked_congr (fun i => by rw [slot_eq_of hslots]; exact ⟨rfl, rfl⟩) hhead).symm

theorem queueTrue_of_empty {s : State} {q : QueueId} (hentries : (s.queue q).entries = [])
    (hblocked : (s.queue q).blocked = false) (htimer : (s.queue q).timer = .stopped) : s.QueueTrue q :=
  ⟨by simp [hblocked, State.headBlocked, State.head, hentries], timerTrue_stopped hblocked htimer⟩

theorem queueTrue_newHead_self (s : State) (q : QueueId) : (s.newHead q).QueueTrue q := by
  obtain ⟨hblocked, htimer⟩ := timer_newHead s q
  obtain ⟨-, -, hlimit, -⟩ := newHead_spec s q
  exact ⟨hblocked, timerTrue_ofNewHead hlimit (by rw [htimer, hblocked, IntakeQueue.timerOfNewHead])⟩

theorem queueTrue_newHead_of_ne {s : State} {q p : QueueId} (hs : s.QueueTrue p) (hp : p ≠ q) : (s.newHead q).QueueTrue p := by
  obtain ⟨-, -, -, hothers, -⟩ := newHead_spec s q
  exact hs.of_slots (newHead_slots s q) (hothers p hp)

theorem queueTrue_skipTest {s : State} {q : QueueId} (p : QueueId) (hs : s.QueueTrue q) : (s.skipTest p).QueueTrue q := by
  by_cases hq : q = p
  · subst hq
    obtain ⟨hblocked, htimer⟩ := timer_skipTest hs.1
    obtain ⟨-, -, hlimit⟩ := queue_skipTest_self s q
    refine ⟨hblocked, ?_⟩
    by_cases hskip : (s.queue q).skipped = []
    · rw [skipTest_of_skipped_eq_nil hskip]
      exact hs.2
    · rw [if_neg hskip] at htimer
      exact timerTrue_ofNewHead hlimit (by rw [htimer, hblocked])
  · exact hs.of_slots (skipTest_slots s p) (queue_skipTest_ne s hq)

/-- The posting of a record tests the head of the record's own queue at most (R35, R133). -/
theorem queueTrue_postRecord {s : State} {q : QueueId} (rec : CompletionRecord) (notify : Bool) (hs : s.QueueTrue q) :
    (s.postRecord rec notify).QueueTrue q := by
  have happend : (s.appendRecords [rec] notify).QueueTrue q :=
    hs.of_slots (appendRecords_slots s _ _) (by rw [appendRecords_frame]; cases q <;> rfl)
  unfold State.postRecord State.setLatch
  split
  · refine queueTrue_skipTest _ (happend.of_queue ?_ ?_ ?_ ?_)
    · rw [raise_slots, setQueue_slots]
    all_goals rw [raise_queue, queue_setQueue]; split
    case refine_2.isTrue e => rw [e]
    case refine_3.isTrue e => rw [e]
    case refine_4.isTrue e => rw [← e]; exact happend.2
    case refine_4.isFalse => exact happend.2
    all_goals rfl
  · exact happend

theorem queueTrue_locksChanged {s : State} {q : QueueId} (hs : (s.queue q).TimerTrue) : s.locksChanged.QueueTrue q := by
  have hblocked : s.locksChanged.headBlocked q = s.headBlocked q :=
    headBlocked_congr (fun i => by simp) (by rw [queue_locksChanged])
  have htrue : (s.locksChanged.queue q).blocked = s.locksChanged.headBlocked q := by rw [hblocked, queue_locksChanged]
  refine ⟨htrue, timerTrue_after hs (by rw [queue_locksChanged]) ?_⟩
  rw [timer_locksChanged, htrue]

/-! ### Preemption pending -/

theorem preemptPending_refreshPreempt (s : State) : s.refreshPreempt.preemptPending = s.refreshPreempt.preemptDue := rfl

theorem preempt_locksChanged (s : State) : s.locksChanged.preemptPending = s.locksChanged.preemptDue := rfl

theorem preempt_coreFree (s : State) : s.coreFree.preemptPending = s.coreFree.preemptDue := rfl

/-- After the notice of R102 the indicators are true when those of the queues are. -/
theorem indicatorsTrue_refreshPreempt {s : State} (h : ∀ q, s.QueueTrue q) : IndicatorsTrue s.refreshPreempt :=
  indicatorsTrue_iff.2 ⟨preemptPending_refreshPreempt s, fun q => (h q).of_slots rfl (refreshPreempt_queue s q)⟩

theorem indicatorsTrue_locksChanged {s : State} (h : ∀ q, (s.queue q).TimerTrue) : IndicatorsTrue s.locksChanged :=
  indicatorsTrue_iff.2 ⟨preempt_locksChanged s, fun q => queueTrue_locksChanged (h q)⟩

theorem indicatorsTrue_coreFree {s : State} (h : ∀ q, s.QueueTrue q) : IndicatorsTrue s.coreFree :=
  indicatorsTrue_iff.2 ⟨preempt_coreFree s, fun q => (h q).of_slots rfl (coreFree_queue s q)⟩

theorem IndicatorsTrue.queueTrue {s : State} (h : IndicatorsTrue s) (q : QueueId) : s.QueueTrue q :=
  (indicatorsTrue_iff.1 h).2 q

/-- The indicators depend on the queues, the locks, the owner and themselves. -/
theorem IndicatorsTrue.congr {s t : State} (hs : IndicatorsTrue s)
    (hslots : ∀ i, (t.slot i).writer = (s.slot i).writer ∧ (t.slot i).readers = (s.slot i).readers) (hnq : t.nq = s.nq)
    (huq : t.uq = s.uq) (howner : t.owner = s.owner) (hpreempt : t.preemptPending = s.preemptPending) : IndicatorsTrue t := by
  refine indicatorsTrue_iff.2 ⟨?_, fun q => (hs.queueTrue q).congr hslots (queue_eq_of hnq huq q)⟩
  rw [hpreempt, hs.preempt, preemptDue_congr hslots (by rw [huq]) howner]

theorem IndicatorsTrue.of_fields {s t : State} (hs : IndicatorsTrue s) (hslots : t.slots = s.slots) (hnq : t.nq = s.nq)
    (huq : t.uq = s.uq) (howner : t.owner = s.owner) (hpreempt : t.preemptPending = s.preemptPending) : IndicatorsTrue t :=
  hs.congr (fun i => by rw [slot_eq_of hslots]; exact ⟨rfl, rfl⟩) hnq huq howner hpreempt

/-! ### The events of the Intake -/

theorem timerTrue_writeLimit {k : IntakeQueue} (limit : BitVec 16) (hk : k.TimerTrue) : (k.writeLimit limit).TimerTrue := by
  unfold IntakeQueue.TimerTrue at *
  unfold IntakeQueue.writeLimit
  split
  · exact hk
  · split
    next h => simp [h]
    next h =>
      split
      next hb => simpa [hb.2] using h
      next hb =>
        by_cases hz : k.limit = 0
        · have hblocked : k.blocked = false := by simpa [hz] using hb
          simpa [hz, hblocked] using hk
        · have hsame : (limit ≠ 0) = (k.limit ≠ 0) := propext ⟨fun _ => hz, fun _ => h⟩
          simpa only [hsame] using hk

theorem writeLimit_blocked (k : IntakeQueue) (limit : BitVec 16) : (k.writeLimit limit).blocked = k.blocked := by
  unfold IntakeQueue.writeLimit
  split_ifs <;> rfl

theorem timerTrue_countTimebase {k : IntakeQueue} (hk : k.TimerTrue) : k.countTimebase.TimerTrue := by
  unfold IntakeQueue.TimerTrue at *
  unfold IntakeQueue.countTimebase
  split
  · exact hk
  · next n hn =>
    have hrunning : k.blocked = true ∧ k.limit ≠ 0 := hk.1 (by simp [hn])
    split <;> simpa using hrunning
  · exact hk

theorem countTimebase_blocked (k : IntakeQueue) : k.countTimebase.blocked = k.blocked := by
  unfold IntakeQueue.countTimebase
  split <;> rfl

theorem indicatorsTrue_flush {s : State} (q : QueueId) (hs : IndicatorsTrue s) : IndicatorsTrue (s.flush q) := by
  refine indicatorsTrue_refreshPreempt fun p => ?_
  by_cases hp : p = q
  · subst hp
    apply queueTrue_of_empty <;> rw [headGone_eq, queue_setQueue_self, appendRecords_frame]
    cases p <;> rfl
  · refine (hs.queueTrue p).of_slots (by simp) ?_
    rw [headGone_eq, queue_setQueue, if_neg hp, appendRecords_queue, queue_setQueue, if_neg hp]

theorem indicatorsTrue_clearLatch {s : State} (q : QueueId) (hs : IndicatorsTrue s) : IndicatorsTrue (s.clearLatch q) := by
  have hentries : ∀ p, ((s.clearLatch q).queue p).entries = (s.queue p).entries := fun p => by
    rw [State.clearLatch, queue_setQueue]
    split
    next e => rw [e]
    next => rfl
  refine indicatorsTrue_iff.2 ⟨?_, fun p => (hs.queueTrue p).of_queue (setQueue_slots s q _) (by rw [hentries]) ?_ ?_⟩
  · have hdue := preemptDue_congr (s := s) (t := s.clearLatch q) (fun i => by simp [State.clearLatch])
      (by rw [show (s.clearLatch q).uq.entries = s.uq.entries from hentries .urgent]) (by simp [State.clearLatch])
    rw [hdue, ← hs.preempt]
    simp [State.clearLatch]
  all_goals rw [State.clearLatch, queue_setQueue]; split
  case refine_2.isTrue e => rw [e]
  case refine_3.isTrue e => exact (hs.queueTrue q).2
  case refine_3.isFalse => exact (hs.queueTrue p).2
  case refine_2.isFalse => rfl

/-- A record accepted behind other commands changes no head; the first of its queue is tested as the new head (R25, R33). -/
theorem indicatorsTrue_accept {s : State} (c : CommandRecord) (hs : IndicatorsTrue s) : IndicatorsTrue (s.accept c) := by
  unfold State.accept
  dsimp only
  split
  next hempty =>
    refine indicatorsTrue_refreshPreempt fun p => ?_
    by_cases hp : p = c.queue
    · subst hp
      exact queueTrue_newHead_self _ c.queue
    · refine queueTrue_newHead_of_ne ((hs.queueTrue p).of_slots (by simp) ?_) hp
      rw [queue_setQueue, if_neg hp]
      cases p <;> rfl
  next hfilled =>
    have hqueue : ∀ p, ((({ s with credits := s.credits - 1, lastres := .accepted } : State).setQueue c.queue
        { s.queue c.queue with entries := (s.queue c.queue).entries ++ [c] }).queue p) =
        { s.queue p with entries := (s.queue p).entries ++ if p = c.queue then [c] else [] } := fun p => by
      rw [queue_setQueue]
      split
      next e => rw [e]
      next => rw [List.append_nil]; cases p <;> rfl
    have hhead : ∀ p, ((s.queue p).entries ++ if p = c.queue then [c] else []).head? = (s.queue p).entries.head? := fun p => by
      split
      next e => rw [e, List.head?_append_of_ne_nil _ hfilled]
      next => rw [List.append_nil]
    refine indicatorsTrue_iff.2 ⟨?_, fun p => (hs.queueTrue p).of_queue (by simp) ?_ ?_ ?_⟩
    · rw [preemptDue_congr (s := s) (fun i => by rw [setQueue_slot]; exact ⟨rfl, rfl⟩)
        ((congrArg (fun k => k.entries.head?) (hqueue .urgent)).trans (hhead .urgent))
        (by simp), ← hs.preempt]
      simp
    · rw [hqueue]; exact hhead p
    · rw [hqueue]
    · rw [hqueue]; exact (hs.queueTrue p).2

/-- A head that expires leaves its queue with its record posted, and the command behind is tested as the new head (R93). -/
theorem indicatorsTrue_expire {s : State} (q : QueueId) (hs : IndicatorsTrue s) : IndicatorsTrue (s.expire q) := by
  unfold State.expire
  split
  · refine indicatorsTrue_refreshPreempt fun p => ?_
    by_cases hp : p = q
    · subst hp
      exact queueTrue_newHead_self _ p
    · have hleft : ((s.dropHead q).headGone q).QueueTrue p :=
        (hs.queueTrue p).of_slots (by simp) (by rw [headGone_eq, queue_setQueue, if_neg hp, dropHead_eq, queue_setQueue, if_neg hp])
      exact queueTrue_newHead_of_ne ((queueTrue_postRecord _ _ hleft).of_slots (raise_slots _ _) (raise_queue _ _ p)) hp
  · exact hs

theorem IntakeEvent.indicatorsTrue {s t : State} (hs : IndicatorsTrue s) (h : IntakeEvent s t) : IndicatorsTrue t := by
  cases h with
  | flush q => exact indicatorsTrue_flush q hs
  | clearLatch q => exact indicatorsTrue_clearLatch q hs
  | accept c => exact indicatorsTrue_accept c hs
  | pop =>
    unfold State.pop
    split
    · exact hs
    · exact hs.of_fields rfl rfl rfl rfl rfl
  | holdlim data =>
    refine indicatorsTrue_iff.2 ⟨?_, fun q => (hs.queueTrue q).of_queue rfl ?_ ?_ ?_⟩
    · exact hs.preempt.trans (preemptDue_congr (s := s) (t := s.writeHoldlim data) (fun i => ⟨rfl, rfl⟩)
        (congrArg List.head? (writeLimit_entries s.uq _)) rfl).symm
    · cases q <;> exact congrArg List.head? (writeLimit_entries _ _)
    · cases q <;> exact writeLimit_blocked _ _
    · cases q
      · exact timerTrue_writeLimit _ (hs.queueTrue .normal).2
      · exact timerTrue_writeLimit _ (hs.queueTrue .urgent).2
  | timebase =>
    refine indicatorsTrue_iff.2 ⟨?_, fun q => (hs.queueTrue q).of_queue rfl ?_ ?_ ?_⟩
    · exact hs.preempt.trans (preemptDue_congr (s := s) (t := s.timebase) (fun i => ⟨rfl, rfl⟩)
        (congrArg List.head? (countTimebase_entries s.uq)) rfl).symm
    · cases q <;> exact congrArg List.head? (countTimebase_entries _)
    · cases q <;> exact countTimebase_blocked _
    · cases q
      · exact timerTrue_countTimebase (hs.queueTrue .normal).2
      · exact timerTrue_countTimebase (hs.queueTrue .urgent).2
  | expire q => exact indicatorsTrue_expire q hs
  | notice => exact indicatorsTrue_refreshPreempt hs.queueTrue

/-! ### The events of the Core and of the contexts -/

theorem CommandEnds.queueTrue {s t : State} {r : Runner} {c : CommandRecord} {rec : CompletionRecord} {gone : List PageId}
    {slots : SlotId → Slot} (h : CommandEnds s t r c rec gone slots) {q : QueueId} (hs : (s.queue q).TimerTrue) :
    t.QueueTrue q := by
  have hblocked := h.blocked q
  have htimer := h.timers q
  rw [← hblocked] at htimer
  refine ⟨hblocked, ?_⟩
  split at htimer
  · exact timerTrue_ofNewHead (h.limits q) htimer
  · exact timerTrue_after hs (h.limits q) htimer

theorem indicatorsTrue_ended {s : State} {r : Runner} {c : CommandRecord} {status : Status} (hs : ∀ q, (s.queue q).TimerTrue)
    (hstatus : status.setsLatch = true) : IndicatorsTrue (s.coreEndUninstalled r c status) :=
  indicatorsTrue_iff.2 ⟨preempt_coreFree _, fun q => (commandEnds_ended s r c hstatus).queueTrue (hs q)⟩

theorem indicatorsTrue_start {s : State} {q : QueueId} {r : Runner} {c : CommandRecord} (hs : ∀ q, (s.queue q).TimerTrue)
    (hhead : s.head q = some c) : IndicatorsTrue (s.start q r c) := by
  obtain ⟨rest, hentries⟩ : ∃ rest, (s.queue q).entries = c :: rest :=
    ⟨_, (List.cons_head?_tail (Option.mem_def.2 hhead)).symm⟩
  obtain ⟨-, -, -, -, -, -, -, hqueues, hpreempt, -⟩ := start_spec s q r c rest hentries
  refine indicatorsTrue_iff.2 ⟨hpreempt, fun p => ?_⟩
  obtain ⟨-, hlimit, hblocked, htimer⟩ := hqueues p
  rw [← hblocked] at htimer
  refine ⟨hblocked, ?_⟩
  split at htimer
  · exact timerTrue_ofNewHead hlimit htimer
  · exact timerTrue_after (hs p) hlimit htimer

theorem CoreGoes.indicatorsTrue {s t : State} {r : Runner} {c : CommandRecord} (hs : IndicatorsTrue s) (h : CoreGoes s r c t) :
    IndicatorsTrue t := by
  cases h with
  | ended status hstatus => exact indicatorsTrue_ended (fun q => (hs.queueTrue q).2) hstatus
  | parked n => exact indicatorsTrue_coreFree fun q => (hs.queueTrue q).of_slots (by simp) (by simp)
  | waits n => exact indicatorsTrue_coreFree fun q => (hs.queueTrue q).of_slots (by simp) (by simp)
  | granted => exact hs.of_fields (by simp) (by simp) (by simp) (by simp) (by simp)

theorem indicatorsTrue_worked {s : State} {r : Runner} {c : CommandRecord} (hs : IndicatorsTrue s) :
    IndicatorsTrue (s.worked r c) :=
  hs.of_fields (by rw [worked_frame]) (by simp) (by simp) (by rw [worked_frame]) (by rw [worked_frame])

theorem indicatorsTrue_checked {s : State} {r : Runner} (hs : IndicatorsTrue s) : IndicatorsTrue (s.checked r) :=
  hs.of_fields (by rw [checked_frame]) (by simp) (by simp) (by rw [checked_frame]) (by rw [checked_frame])

theorem CoreEvent.indicatorsTrue {s t : State} (hs : IndicatorsTrue s) (h : CoreEvent s t) : IndicatorsTrue t := by
  cases h with
  | started q r c _ hhead => exact indicatorsTrue_start (fun q => (hs.queueTrue q).2) hhead
  | resumed n => exact indicatorsTrue_refreshPreempt fun q => (hs.queueTrue q).of_slots (by simp) (by cases q <;> rfl)
  | failed r c status _ _ _ hstatus =>
    exact indicatorsTrue_ended (fun q => by rw [setRecord_queue]; exact (hs.queueTrue q).2) hstatus
  | begun r c t _ _ _ _ hgoes => exact hgoes.indicatorsTrue (indicatorsTrue_checked hs)
  | boundary r c t _ _ _ _ hgoes => exact hgoes.indicatorsTrue (indicatorsTrue_worked hs)
  | preempted n c u _ _ _ _ _ _ hhead =>
    have hqueue : ∀ q, (((s.worked (.ctx n) c).preempted n).queue q) = s.queue q := fun q => by
      rw [preempted_queue, queue_eq_of (worked_nq s (.ctx n) c) (worked_uq s (.ctx n) c)]
    refine indicatorsTrue_start (fun q => by rw [hqueue]; exact (hs.queueTrue q).2) ?_
    rwa [State.head, hqueue]
  | faulted r c status _ _ _ _ hstatus =>
    exact indicatorsTrue_ended (fun q => ((indicatorsTrue_worked hs).queueTrue q).2) hstatus
  | committed r c =>
    exact indicatorsTrue_iff.2 ⟨preempt_coreFree _,
      fun q => (commandEnds_committed _ r c _).queueTrue ((indicatorsTrue_worked hs).queueTrue q).2⟩

theorem ContextEvent.indicatorsTrue {s t : State} (hs : IndicatorsTrue s) (h : ContextEvent s t) : IndicatorsTrue t := by
  cases h with
  | abort n c =>
    refine indicatorsTrue_iff.2 ⟨rfl, fun q => (commandEnds_abort s n c).queueTrue ?_⟩
    exact (queue_eq_of (s := s) rfl rfl q) ▸ (hs.queueTrue q).2
  | poolres data =>
    exact hs.of_fields (by simp [State.writePoolres]) (by simp [State.writePoolres]) (by simp [State.writePoolres])
      (by simp [State.writePoolres]) (by simp [State.writePoolres])
  | _ => exact hs.of_fields (by simp) (by simp) (by simp) (by simp) (by simp)

/-! ### The events of the windows -/

theorem indicatorsTrue_endSession {s : State} (w : WindowId) (hs : ∀ q, (s.queue q).TimerTrue) :
    IndicatorsTrue (s.endSession w) :=
  indicatorsTrue_locksChanged fun q => by rw [setWindow_queue, releaseLocks_queue]; exact hs q

theorem WindowEvent.indicatorsTrue {s t : State} (hs : IndicatorsTrue s) (h : WindowEvent s t) : IndicatorsTrue t := by
  have htimers : ∀ q, (s.queue q).TimerTrue := fun q => (hs.queueTrue q).2
  cases h with
  | moved w v t hv _ hstate =>
    exact hs.of_fields (by rw [hstate]; rfl) (by rw [hstate]; rfl) (by rw [hstate]; rfl) (by rw [hstate]; rfl)
      (by rw [hstate]; rfl)
  | stored w data => exact hs.of_fields rfl rfl rfl rfl rfl
  | openedRead w i => exact indicatorsTrue_locksChanged fun q => by simpa using htimers q
  | openedWrite w i => exact indicatorsTrue_locksChanged fun q => by simpa using htimers q
  | endedRead w => exact indicatorsTrue_endSession w htimers
  | cancelled w => exact indicatorsTrue_endSession w fun q => by simpa using htimers q
  | closed w => exact indicatorsTrue_endSession w fun q => by simpa using htimers q

/-! ### Every event -/

/-- With empty queues and no owner, nothing is blocked and nothing pending. -/
theorem indicatorsTrue_of_idle {s : State} (howner : s.owner = none) (hpreempt : s.preemptPending = false)
    (hqueue : ∀ q, (s.queue q).entries = [] ∧ (s.queue q).blocked = false ∧ (s.queue q).timer = .stopped) : IndicatorsTrue s := by
  refine indicatorsTrue_iff.2 ⟨?_, fun q => ?_⟩
  · simp [hpreempt, State.preemptDue, howner]
  · obtain ⟨hentries, hblocked, htimer⟩ := hqueue q
    exact queueTrue_of_empty hentries hblocked htimer

theorem Event.indicatorsTrue {s t : State} (hs : IndicatorsTrue s) (h : Event s t) : IndicatorsTrue t := by
  cases h with
  | registers h => exact hs.of_fields (by rw [h]) (by rw [h]) (by rw [h]) (by rw [h]) (by rw [h])
  | softReset h =>
    rw [h]
    exact indicatorsTrue_of_idle rfl rfl fun q => by cases q <;> exact ⟨rfl, rfl, rfl⟩
  | intake h =>
    induction h with
    | refl => exact hs
    | tail _ h ih => exact h.indicatorsTrue ih
  | context h => exact h.indicatorsTrue hs
  | protect h =>
    cases h with
    | set i b =>
      refine hs.congr (fun j => ?_) rfl rfl rfl rfl
      change ((s.setSlot i _).slot j).writer = _ ∧ ((s.setSlot i _).slot j).readers = _
      rw [slot_setSlot]
      split
      next e => rw [e]; exact ⟨rfl, rfl⟩
      next => exact ⟨rfl, rfl⟩
  | window h => exact h.indicatorsTrue hs
  | core h => exact h.indicatorsTrue hs

theorem indicatorsTrue_reset : IndicatorsTrue State.reset :=
  indicatorsTrue_of_idle rfl rfl fun q => by cases q <;> exact ⟨rfl, rfl, rfl⟩

/-- Settles O56: every event that changes a head, a lock or the owner ends in the test or the notice of the rule. -/
theorem indicatorsTrueKept : Obligations.IndicatorsTrueKept :=
  fun _ _ hs ht => step_keeps (P := IndicatorsTrue)
    (fun _ _ => indicatorsTrue_reset.of_fields rfl rfl rfl rfl rfl)
    (fun _ _ h => h.of_fields rfl rfl rfl rfl rfl) (fun _ _ h he => he.indicatorsTrue h) hs ht

end Sys2Proof.Machine
end

section
/-! PROOFS. Which limbs and which slots an event can change: no page list but those of the owner's working values, of the windows'
staging pages and of the free list is written, and a slot changes only under its writer's commit (R8, R41, R81). -/

namespace Sys2Proof.Machine

/-! ### The places of pages -/

/-- A place that holds pages: the free list, a slot, a record's working values, a window's staging list (R8). -/
inductive Place where
  | free
  | slot (i : SlotId)
  | work (r : Runner)
  | staging (w : WindowId)
  deriving DecidableEq

/-- The pages in one place. -/
def State.pagesAt (s : State) : Place → List PageId
  | .free => s.freeList
  | .slot i => (s.slot i).pages
  | .work r => (s.record r).workPages
  | .staging w => (s.window w).staging

theorem PagesPartition.nodup_allPages {s : State} (h : PagesPartition s) : s.allPages.Nodup :=
  h.nodup_iff.2 (List.nodup_finRange _)

/-- Every place, in the order in which the part's pages are listed. -/
def Place.all : List Place :=
  .free :: ((List.finRange Config.slotCount).map .slot ++ ((List.finRange Config.contextCount).map (fun n => .work (.ctx n)) ++
    (.work .urgent :: (List.finRange Config.windowCount).map .staging)))

theorem Place.mem_all (a : Place) : a ∈ Place.all := by
  cases a with
  | work r => cases r <;> simp [Place.all]
  | _ => simp [Place.all]

theorem allPages_eq_flatMap (s : State) : s.allPages = Place.all.flatMap s.pagesAt := by
  rw [allPages_eq]
  simp only [Place.all, List.flatMap_cons, List.flatMap_append, List.flatMap_map]
  rfl

/-- No page stands twice in one place (R8). -/
theorem PagesPartition.nodup {s : State} (h : PagesPartition s) (a : Place) : (s.pagesAt a).Nodup := by
  have hall := h.nodup_allPages
  rw [allPages_eq_flatMap, List.nodup_flatMap] at hall
  exact hall.1 a a.mem_all

/-- No page stands in two places (R8). -/
theorem PagesPartition.disjoint {s : State} (h : PagesPartition s) {a b : Place} (hne : a ≠ b) :
    (s.pagesAt a).Disjoint (s.pagesAt b) := by
  have hall := h.nodup_allPages
  rw [allPages_eq_flatMap, List.nodup_flatMap] at hall
  have hsymm : Std.Symm (Function.onFun List.Disjoint s.pagesAt) := ⟨fun _ _ hd => hd.symm⟩
  exact hall.2.forall a.mem_all b.mem_all hne

/-! ### The limbs that an event leaves alone -/

/-- A page list with no free page and no staging page. -/
structure State.Untouched (s : State) (ps : List PageId) : Prop where
  free : s.freeList.Disjoint ps
  staging : ∀ w, (s.window w).staging.Disjoint ps

/-- A page list with no page of a step that runs. -/
def State.NotRunning (s : State) (ps : List PageId) : Prop :=
  ∀ r, s.owner = some r → s.stepRunning = true → (s.record r).workPages.Disjoint ps

theorem limbAt_takePages {s : State} {ps : List PageId} (h : s.freeList.Disjoint ps) (d k : Nat) :
    limbAt (s.takePages d).mem ps k = limbAt s.mem ps k :=
  limbAt_zeroPages_of_disjoint (List.disjoint_of_subset_left (List.take_subset _ _) h)

theorem limbAt_worked {s : State} {r : Runner} {c : CommandRecord} {ps : List PageId}
    (h : (s.record r).workPages.Disjoint ps) (k : Nat) : limbAt (s.worked r c).mem ps k = limbAt s.mem ps k :=
  (extends_stepWork s c (s.record r)).limbs h k

theorem CoreGoes.limbs {s t : State} {r : Runner} {c : CommandRecord} (h : CoreGoes s r c t) {ps : List PageId}
    (hfree : s.freeList.Disjoint ps) (k : Nat) : limbAt t.mem ps k = limbAt s.mem ps k := by
  cases h with
  | granted =>
    rw [show ∀ v : State, ({ v with stepRunning := true } : State).mem = v.mem from fun _ => rfl, setRecord_mem]
    exact limbAt_takePages hfree _ k
  | _ => simp

theorem CoreEvent.limbs {s t : State} (h : CoreEvent s t) {ps : List PageId} (hps : s.Untouched ps) (hrun : s.NotRunning ps)
    (k : Nat) : limbAt t.mem ps k = limbAt s.mem ps k := by
  cases h with
  | begun r c t _ _ _ _ hgoes =>
    rw [hgoes.limbs (by rw [checked_frame]; exact hps.free), checked_mem]
  | boundary r c t howner _ hrunning _ hgoes =>
    rw [hgoes.limbs (by rw [worked_freeList]; exact hps.free), limbAt_worked (hrun r howner hrunning)]
  | preempted n c u howner _ hrunning =>
    rw [start_mem, preempted_mem, limbAt_worked (hrun _ howner hrunning)]
  | faulted r c status howner _ hrunning =>
    rw [coreEndUninstalled_mem, limbAt_worked (hrun r howner hrunning)]
  | committed r c howner _ hrunning => rw [committed_mem, limbAt_worked (hrun r howner hrunning)]
  | _ => simp

theorem WindowEvent.limbs {s t : State} (h : WindowEvent s t) {ps : List PageId} (hps : s.Untouched ps) (k : Nat) :
    limbAt t.mem ps k = limbAt s.mem ps k := by
  cases h with
  | moved _ _ _ _ _ hstate => rw [hstate]; rfl
  | stored w data => exact limbAt_setLimbAt_of_disjoint (hps.staging w)
  | openedWrite w i length =>
    rw [locksChanged_mem, setWindow_mem, setSlot_mem]
    exact limbAt_takePages hps.free _ k
  | _ => simp

theorem Event.limbs {s t : State} (h : Event s t) {ps : List PageId} (hps : s.Untouched ps)
    (hrun : CoreEvent s t → s.NotRunning ps) (k : Nat) : limbAt t.mem ps k = limbAt s.mem ps k := by
  cases h with
  | registers h => rw [h]
  | softReset h => rw [h]; rfl
  | intake h => rw [onlyIntake_of_reflTransGen h]
  | context h => cases h <;> simp [State.writePoolres]
  | protect h => cases h; rfl
  | window h => exact h.limbs hps k
  | core h => exact h.limbs hps (hrun h) k

theorem PagesPartition.untouched_slot {s : State} (h : PagesPartition s) (i : SlotId) : s.Untouched (s.slot i).pages :=
  ⟨h.disjoint (a := .free) (b := .slot i) (by simp), fun w => h.disjoint (a := .staging w) (b := .slot i) (by simp)⟩

theorem PagesPartition.notRunning_slot {s : State} (h : PagesPartition s) (i : SlotId) : s.NotRunning (s.slot i).pages :=
  fun r _ _ => h.disjoint (a := .work r) (b := .slot i) (by simp)

theorem PagesPartition.untouched_work {s : State} (h : PagesPartition s) (x : Runner) :
    s.Untouched (s.record x).workPages :=
  ⟨h.disjoint (a := .free) (b := .work x) (by simp), fun w => h.disjoint (a := .staging w) (b := .work x) (by simp)⟩

/-- The working pages of a record whose step does not run are not written by one that does. -/
theorem PagesPartition.notRunning_work {s : State} (h : PagesPartition s) {x : Runner}
    (hx : s.stepRunning = true → s.owner ≠ some x) : s.NotRunning (s.record x).workPages :=
  fun r hr hrunning => h.disjoint (a := .work r) (b := .work x) fun e => hx hrunning (by cases e; exact hr)

/-! ### The slots that an event leaves alone -/

/-- Two slots hold the same value in the same pages; the locks and the protection can differ. -/
def Slot.SameValue (u v : Slot) : Prop := u.sign = v.sign ∧ u.length = v.length ∧ u.pages = v.pages

theorem Slot.SameValue.refl (v : Slot) : v.SameValue v := ⟨rfl, rfl, rfl⟩

theorem Slot.SameValue.of_eq {u v : Slot} (h : u = v) : u.SameValue v := h ▸ .refl u

theorem sameValue_setSlot {s : State} {k : SlotId} {v : Slot} (h : v.SameValue (s.slot k)) (i : SlotId) :
    ((s.setSlot k v).slot i).SameValue (s.slot i) := by
  rw [slot_setSlot]
  split
  next e => rw [e]; exact h
  next => exact .refl _

theorem slot_installInto_of_ne {s : State} {f : SlotField} {i : SlotId} (h : slotNumber f ≠ some i) (sign : Sign)
    (pages : List PageId) (n : Nat) : (s.installInto f sign pages n).1.slot i = s.slot i := by
  rw [slot_installInto, if_neg h]

/-- A commit writes the destinations of its kind alone (R23, R78). -/
theorem slot_commitSlots_of_not_writes {s : State} {c : CommandRecord} {i : SlotId} (h : ¬ c.writes i) (j : Record) :
    (s.commitSlots c j).1.slot i = s.slot i := by
  have hdest : ∀ f ∈ c.dests, slotNumber f ≠ some i := fun f hf hi => h ⟨f, hf, hi⟩
  rw [dests_eq_ite] at hdest
  unfold State.commitSlots
  cases hform : c.kind.commitForm with
  | nothing => rfl
  | freed =>
    have hd : slotNumber c.d ≠ some i := hdest c.d (by cases hk : c.kind <;> simp_all [Kind.commitForm])
    exact (slot_freeSlot s c.d i).trans (if_neg hd)
  | one =>
    have hd : slotNumber c.d ≠ some i := hdest c.d (by cases hk : c.kind <;> simp_all [Kind.commitForm])
    exact slot_installInto_of_ne hd _ _ _
  | two =>
    have hkind : c.kind = .divmod := by cases hk : c.kind <;> simp_all [Kind.commitForm]
    have hd : slotNumber c.d ≠ some i := hdest c.d (by simp [hkind])
    have hd2 : slotNumber c.d2 ≠ some i := hdest c.d2 (by simp [hkind])
    exact (slot_installInto_of_ne hd2 _ _ _).trans (slot_installInto_of_ne hd _ _ _)

theorem CommandEnds.sameValue {s t : State} {r : Runner} {c : CommandRecord} {rec : CompletionRecord} {gone : List PageId}
    {slots : SlotId → Slot} (h : CommandEnds s t r c rec gone slots) {i : SlotId} {v : Slot} (hslots : (slots i).SameValue v) :
    (t.slot i).SameValue v := by
  rw [h.slots]
  exact hslots

theorem CoreGoes.sameValue {s t : State} {r : Runner} {c : CommandRecord} (h : CoreGoes s r c t) (i : SlotId) :
    (t.slot i).SameValue (s.slot i) := by
  cases h with
  | ended status hstatus => exact (commandEnds_ended s r c hstatus).sameValue (.refl _)
  | _ => exact .of_eq (slot_eq_of (by simp) i)

theorem sameValue_start (s : State) (q : QueueId) (r : Runner) (c : CommandRecord) (i : SlotId) :
    ((s.start q r c).slot i).SameValue (s.slot i) := by
  rw [slot_start, slot_takeLocks]
  exact ⟨rfl, rfl, rfl⟩

/-- The state after a window closes on its slot, with its value installed (R151). -/
def State.closedWindow (s : State) (w : WindowId) : State :=
  ((s.setSlot (s.window w).slot ((s.slot (s.window w).slot).installed s.mem (s.window w).declSign (s.window w).staging
      (s.window w).declLength)).release
    ((s.slot (s.window w).slot).givenBack s.mem (s.window w).staging (s.window w).declLength)).endSession w

/-- An end that installs a value into a slot: a command's commit, or the close of a write window (R78, R151). -/
inductive ChangedBy (s t : State) (i : SlotId) : Prop where
  | committed (r : Runner) (c : CommandRecord) (howner : s.owner = some r) (hcommand : (s.record r).command = some c)
    (hrunning : s.stepRunning = true) (hfault : (s.stepWork c (s.record r)).endFault c.kind = none) (hwrites : c.writes i)
    (hstate : t = (s.worked r c).committed r c (s.workedRecord r c))
  | closed (w : WindowId) (hopen : (s.window w).state = .openWrite) (hslot : (s.window w).slot = i)
    (hstate : t = s.closedWindow w)

theorem CoreEvent.sameValue {s t : State} (h : CoreEvent s t) (i : SlotId) :
    (t.slot i).SameValue (s.slot i) ∨ ChangedBy s t i := by
  cases h with
  | started q r c => exact .inl (sameValue_start s q r c i)
  | resumed n => exact .inl (.of_eq (slot_eq_of (by simp) i))
  | failed r c status _ _ _ hstatus =>
    exact .inl ((commandEnds_ended _ r c hstatus).sameValue (.of_eq (slot_eq_of (by simp) i)))
  | begun r c t _ _ _ _ hgoes => exact .inl (checked_slot s r i ▸ hgoes.sameValue i)
  | boundary r c t _ _ _ _ hgoes => exact .inl (worked_slot s r c i ▸ hgoes.sameValue i)
  | preempted n c u =>
    have hstart := sameValue_start ((s.worked (.ctx n) c).preempted n) .urgent .urgent u i
    rw [preempted_slot, worked_slot] at hstart
    exact .inl hstart
  | faulted r c status _ _ _ _ hstatus => exact .inl ((commandEnds_ended _ r c hstatus).sameValue (.of_eq (worked_slot s r c i)))
  | committed r c howner hcommand hrunning hlast hfault =>
    have hends := commandEnds_committed (s.worked r c) r c (s.workedRecord r c)
    by_cases hwrites : c.writes i
    · exact .inr (.committed r c howner hcommand hrunning hfault hwrites rfl)
    · refine .inl (hends.sameValue (.of_eq ?_))
      rw [slot_commitSlots_of_not_writes hwrites, worked_slot]

theorem ContextEvent.sameValue {s t : State} (h : ContextEvent s t) (i : SlotId) : (t.slot i).SameValue (s.slot i) := by
  cases h with
  | abort n c => exact (commandEnds_abort s n c).sameValue (.refl _)
  | poolres data => exact .of_eq (slot_eq_of (by simp [State.writePoolres]) i)
  | _ => exact .of_eq (slot_eq_of (by simp) i)

theorem sameValue_endSession (s : State) (w : WindowId) (i : SlotId) : ((s.endSession w).slot i).SameValue (s.slot i) := by
  unfold State.endSession
  rw [locksChanged_slot, setWindow_slot, slot_releaseLocks]
  exact ⟨rfl, rfl, rfl⟩

theorem sameValue_closedWindow {s : State} {w : WindowId} {i : SlotId} (hi : i ≠ (s.window w).slot) :
    ((s.closedWindow w).slot i).SameValue (s.slot i) := by
  have h := sameValue_endSession ((s.setSlot (s.window w).slot ((s.slot (s.window w).slot).installed s.mem
    (s.window w).declSign (s.window w).staging (s.window w).declLength)).release
      ((s.slot (s.window w).slot).givenBack s.mem (s.window w).staging (s.window w).declLength)) w i
  rwa [release_slot, slot_setSlot_ne _ _ hi] at h

theorem WindowEvent.sameValue {s t : State} (h : WindowEvent s t) (i : SlotId) :
    (t.slot i).SameValue (s.slot i) ∨ ChangedBy s t i := by
  cases h with
  | moved _ _ _ _ _ hstate => exact .inl (.of_eq (slot_eq_of (by rw [hstate]; rfl) i))
  | stored => exact .inl (.refl _)
  | openedRead w k =>
    refine .inl ?_
    rw [locksChanged_slot, setWindow_slot]
    exact sameValue_setSlot (by exact ⟨rfl, rfl, rfl⟩) i
  | openedWrite w k length =>
    refine .inl ?_
    have hlock : ((s.slot k).lockWrite (.win w)).SameValue ((s.takePages (pg length)).slot k) := by
      rw [takePages_slot]
      exact ⟨rfl, rfl, rfl⟩
    have h := sameValue_setSlot hlock i
    rw [takePages_slot] at h
    rwa [locksChanged_slot, setWindow_slot]
  | endedRead w => exact .inl (sameValue_endSession s w i)
  | cancelled w =>
    have h := sameValue_endSession (s.release (s.window w).staging) w i
    rw [release_slot] at h
    exact .inl h
  | closed w hopen =>
    by_cases hi : (s.window w).slot = i
    · exact .inr (.closed w hopen hi rfl)
    · exact .inl (sameValue_closedWindow (Ne.symm hi))

/-- Every event but an end that installs leaves a slot's value and pages; what such an end changes, its holder claimed (R41, R81). -/
theorem Event.sameValue {s t : State} (h : Event s t) (i : SlotId) :
    (t.slot i).SameValue (s.slot i) ∨ ChangedBy s t i := by
  cases h with
  | registers h => exact .inl (.of_eq (slot_eq_of (by rw [h]) i))
  | softReset h =>
    rw [h, softReset_slot]
    exact .inl ⟨rfl, rfl, rfl⟩
  | intake h => exact .inl (.of_eq (slot_eq_of (by rw [onlyIntake_of_reflTransGen h]) i))
  | context h => exact .inl (h.sameValue i)
  | protect h =>
    cases h with
    | set k b => exact .inl (sameValue_setSlot (s := s) (v := { s.slot k with protect := b }) (by exact ⟨rfl, rfl, rfl⟩) i)
  | window h => exact h.sameValue i
  | core h => exact h.sameValue i

/-- The holder whose end changes a slot is the slot's writer (R81). -/
theorem ChangedBy.writer {s t : State} {i : SlotId} (h : ChangedBy s t i) (hlocks : LocksMatchHolders s) :
    ∃ g, (s.slot i).writer = some g ∧ ∀ r, g = .run r → (t.record r).command = none := by
  cases h with
  | committed r c _ hcommand _ _ hwrites hstate =>
    refine ⟨.run r, (hlocks i _).1.2 ⟨c, hcommand, hwrites⟩, fun x hx => ?_⟩
    cases hx
    rw [hstate, (commandEnds_committed _ r c _).command, if_pos rfl]
  | closed w hopen hslot => exact ⟨.win w, (hlocks i _).1.2 ⟨hopen, hslot⟩, fun x hx => by cases hx⟩

/-- A slot whose value and pages stay reads as before. -/
theorem Event.slotValue {s t : State} (h : Event s t) (hpages : PagesPartition s) {i : SlotId}
    (hsame : (t.slot i).SameValue (s.slot i)) : t.slotValue i = s.slotValue i := by
  obtain ⟨hsign, hlength, hpage⟩ := hsame
  have hmag : magnitude t.mem (t.slot i).pages (t.slot i).length = magnitude s.mem (s.slot i).pages (s.slot i).length := by
    rw [hlength, hpage]
    exact magnitude_congr fun k _ => h.limbs (hpages.untouched_slot i) (fun _ => hpages.notRunning_slot i) k
  unfold State.slotValue
  rw [hsign, hmag, hlength]

/-- Settles O59: a slot that an event changes has a writer, and the limbs of the others are in pages that no event writes. -/
theorem unwrittenSlotKeepsItsValue : Obligations.UnwrittenSlotKeepsItsValue := by
  intro c s t i _ _ hpages hlocks hwriter hhard ht
  have hevent := event_of_exec ht hhard
  obtain hsame | hchanged := hevent.sameValue i
  · exact ⟨hevent.slotValue hpages hsame, hsame.2.2⟩
  · obtain ⟨g, hg, -⟩ := hchanged.writer hlocks
    rw [hwriter] at hg
    cases hg

end Sys2Proof.Machine
end

section
/-! PROOFS. Bounds of values: what a working value can hold, that an install leaves a normalized slot, and that a step keeps the working
values of its command in bounds (R2, R6, R61, R63, R73 to R76). -/

namespace Sys2Proof.Machine

/-! ### Stored magnitudes and trimmed lengths -/

/-- After limbs of x have been stored from position 0 on, each reads as x's limb or, beyond the pages, as zero. -/
theorem limbAt_putLimbs_zero_cases {m : Memory} {pages : List PageId} (hm : m.wf) (hn : pages.Nodup) (x : Nat) {n k : Nat}
    (hk : k < n) :
    limbAt (putLimbs m pages x 0 n) pages k = limbOfNat x k ∨ limbAt (putLimbs m pages x 0 n) pages k = 0 := by
  by_cases hroom : k < Config.pageLimbs * pages.length
  · left
    induction n with
    | zero => omega
    | succ n ih =>
      rw [putLimbs, Nat.zero_add]
      by_cases he : k = n
      · subst he
        exact limbAt_setLimbAt_self (putLimbs_wf _ _ _ _ hm) hroom
      · rw [limbAt_setLimbAt_ne hn he]
        exact ih (by omega)
  · exact .inr (limbAt_eq_zero (Nat.le_of_not_lt hroom))

/-- A list whose limbs are those of x or zero holds at most x. -/
theorem magnitude_le_of_limbs {m : Memory} {pages : List PageId} {x n : Nat}
    (h : ∀ k < n, limbAt m pages k = limbOfNat x k ∨ limbAt m pages k = 0) : magnitude m pages n ≤ x := by
  have hmod : magnitude m pages n ≤ x % 2 ^ (32 * n) := by
    induction n with
    | zero => simp
    | succ n ih =>
      have hlimb : (limbAt m pages n).toNat ≤ x / 2 ^ (32 * n) % 2 ^ 32 := by
        obtain h | h := h n (by omega)
        · rw [h, limbOfNat_toNat]
        · simp [h]
      rw [magnitude_succ, Nat.mul_succ, Nat.pow_add, Nat.mod_mul]
      exact Nat.add_le_add (ih fun k hk => h k (by omega)) (Nat.mul_le_mul_left _ hlimb)
  exact hmod.trans (Nat.mod_le _ _)

/-- A value below 2^(32n) is trimmed to at most n limbs (R2). -/
theorem trimmedLength_le_of_magnitude_lt {m : Memory} {pages : List PageId} {n k : Nat}
    (h : magnitude m pages n < 2 ^ (32 * k)) : trimmedLength m pages n ≤ k := by
  by_contra hlong
  obtain ⟨l, hl⟩ : ∃ l, trimmedLength m pages n = l + 1 := ⟨trimmedLength m pages n - 1, by omega⟩
  have htop : limbAt m pages l ≠ 0 := by
    have h := limbAt_trimmedLength (m := m) (pages := pages) (n := n) (by omega)
    rwa [hl, Nat.add_sub_cancel] at h
  have hpos : 1 ≤ (limbAt m pages l).toNat :=
    Nat.one_le_iff_ne_zero.2 fun hzero => htop (BitVec.eq_of_toNat_eq (by simpa using hzero))
  rw [← magnitude_trimmedLength, hl, magnitude_succ] at h
  have hweight : 2 ^ (32 * k) ≤ 2 ^ (32 * l) := Nat.pow_le_pow_right (by decide) (by omega)
  have hge := Nat.mul_le_mul_left (2 ^ (32 * l)) hpos
  omega

/-! ### Normalized slots -/

/-- What R2 and R4 ask of the value in one slot. -/
structure Slot.Normalized (v : Slot) (m : Memory) : Prop where
  lengthBound : v.length ≤ Config.maxSlotLimbs
  pageCount : v.pages.length = pg v.length
  zeroIsPos : v.length = 0 → v.sign = .pos
  topLimb : v.length ≠ 0 → limbAt m v.pages (v.length - 1) ≠ 0

theorem slotsNormalized_iff {s : State} : SlotsNormalized s ↔ ∀ i, (s.slot i).Normalized s.mem :=
  ⟨fun ⟨h1, h2, h3, h4⟩ i => ⟨h1 i, h2 i, h3 i, h4 i⟩,
    fun h => ⟨fun i => (h i).lengthBound, fun i => (h i).pageCount, fun i => (h i).zeroIsPos, fun i => (h i).topLimb⟩⟩

theorem normalized_of_empty {v : Slot} {m : Memory} (hsign : v.sign = .pos) (hlength : v.length = 0) (hpages : v.pages = []) :
    v.Normalized m := by
  constructor <;> simp [hsign, hlength, hpages, pg]

theorem Slot.Normalized.congr {u v : Slot} {m m' : Memory} (hv : v.Normalized m) (hsame : u.SameValue v)
    (hlimbs : ∀ k, limbAt m' v.pages k = limbAt m v.pages k) : u.Normalized m' := by
  obtain ⟨hsign, hlength, hpages⟩ := hsame
  obtain ⟨h1, h2, h3, h4⟩ := hv
  constructor
  · rw [hlength]; exact h1
  · rw [hlength, hpages]; exact h2
  · rw [hlength, hsign]; exact h3
  · rw [hlength, hpages, hlimbs]; exact h4

/-- An install of a value of at most 512 limbs leaves a normalized slot (R2, R6). -/
theorem normalized_installed {v : Slot} {m : Memory} {sign : Sign} {pages : List PageId} {n : Nat}
    (h : trimmedLength m pages n ≤ Config.maxSlotLimbs) : (v.installed m sign pages n).Normalized m := by
  have hroom : pg (trimmedLength m pages n) ≤ pages.length := pg_le (trimmedLength_le_pages m pages n)
  refine ⟨h, ?_, fun hzero => if_pos hzero, fun hne => ?_⟩
  · change (pages.take (pg (trimmedLength m pages n))).length = _
    rw [List.length_take, Nat.min_eq_left hroom]
    rfl
  · change limbAt m (pages.take (pg (trimmedLength m pages n))) (trimmedLength m pages n - 1) ≠ 0
    have hkept : limbAt m (pages.take (pg (trimmedLength m pages n))) (trimmedLength m pages n - 1) =
        limbAt m pages (trimmedLength m pages n - 1) := by
      have hentry : (trimmedLength m pages n - 1) / Config.pageLimbs < pg (trimmedLength m pages n) := by
        change trimmedLength m pages n ≠ 0 at hne
        simp only [Config.pageLimbs, pg]
        omega
      unfold limbAt limbAddress
      rw [List.getElem?_take_of_lt hentry]
    rw [hkept]
    exact limbAt_trimmedLength hne

theorem normalized_installInto {s : State} {f : SlotField} {sign : Sign} {pages : List PageId} {n : Nat} {i : SlotId}
    (hi : (s.slot i).Normalized s.mem) (h : trimmedLength s.mem pages n ≤ Config.maxSlotLimbs) :
    ((s.installInto f sign pages n).1.slot i).Normalized s.mem := by
  rw [slot_installInto]
  split
  · exact normalized_installed h
  · exact hi

theorem installInto_mem (s : State) (f : SlotField) (sign : Sign) (pages : List PageId) (n : Nat) :
    (s.installInto f sign pages n).1.mem = s.mem := by
  unfold State.installInto
  split <;> rfl

/-! ### Values in bounds -/

/-- A value that a slot could hold: at most 512 limbs (R4). -/
structure Value.Bounded (v : Value) : Prop where
  length : v.length ≤ Config.maxSlotLimbs
  mag : v.mag < 2 ^ (32 * Config.maxSlotLimbs)

theorem SlotsNormalized.bounded {s : State} (h : SlotsNormalized s) (f : SlotField) : (s.value f).Bounded := by
  unfold State.value
  split
  · next i _ =>
    have hlength := h.lengthBound i
    refine ⟨hlength, (magnitude_lt _ _ _).trans_le (Nat.pow_le_pow_right (by decide) ?_)⟩
    exact Nat.mul_le_mul_left 32 hlength
  · exact ⟨Nat.zero_le _, Nat.two_pow_pos _⟩

/-- The bounds that a started command's working values keep: room in a slot for every result that is not measured at commit (R61,
R63). -/
structure Record.Bounded (j : Record) (m : Memory) (c : CommandRecord) : Prop where
  resultLength : c.kind.checkedAtCommit = false → c.kind ≠ .gcd → j.wv0.length ≤ Config.maxSlotLimbs
  divisors : c.kind = .gcd → magnitude m j.wv0.pages j.wv0.length < 2 ^ (32 * Config.maxSlotLimbs)
  remainder : c.kind = .gcd ∨ c.kind = .divmod → magnitude m j.wv1.pages j.wv1.length < 2 ^ (32 * Config.maxSlotLimbs)

theorem Record.Bounded.congr {j j' : Record} {m m' : Memory} {c : CommandRecord} (h : j.Bounded m c)
    (hlength : j'.wv0.length = j.wv0.length)
    (hdivisor : magnitude m' j'.wv0.pages j'.wv0.length = magnitude m j.wv0.pages j.wv0.length)
    (hremainder : magnitude m' j'.wv1.pages j'.wv1.length = magnitude m j.wv1.pages j.wv1.length) : j'.Bounded m' c := by
  obtain ⟨h1, h2, h3⟩ := h
  exact ⟨hlength ▸ h1, hdivisor ▸ h2, hremainder ▸ h3⟩

/-! ### The work of a step -/

/-- Setting a working value to x leaves it at most x, whatever pages it has. -/
theorem Work.mag_setMag_le {w : Work} {i : Wv} {x len : Nat} (hm : Memory.wf w.mem) (hn : (w.job.wv i).pages.Nodup) :
    (w.setMag i x len).mag i ≤ x := by
  simp only [Work.mag, Work.setMag, Work.fill, Record.wv_setWv_self, Nat.sub_zero]
  exact magnitude_le_of_limbs fun k hk => limbAt_putLimbs_zero_cases hm hn x hk

/-- Working values whose page lists share no page, over a memory in its form. -/
structure Work.Separate (w : Work) : Prop where
  memWf : Memory.wf w.mem
  nodup : ∀ i, (w.job.wv i).pages.Nodup
  disjoint : ∀ i k, i ≠ k → (w.job.wv i).pages.Disjoint (w.job.wv k).pages

theorem Work.separate_of_nodup {w : Work} (hm : Memory.wf w.mem) (hn : w.job.workPages.Nodup) : w.Separate := by
  obtain ⟨n01, n2, d012⟩ := List.nodup_append'.1 hn
  obtain ⟨n0, n1, d01⟩ := List.nodup_append'.1 n01
  have d02 : w.job.wv0.pages.Disjoint w.job.wv2.pages := fun p h h' => d012 (List.mem_append_left _ h) h'
  have d12 : w.job.wv1.pages.Disjoint w.job.wv2.pages := fun p h h' => d012 (List.mem_append_right _ h) h'
  refine ⟨hm, fun i => ?_, fun i k hik => ?_⟩
  · cases i
    exacts [n0, n1, n2]
  · cases i <;> cases k
    case wv0.wv1 => exact d01
    case wv0.wv2 => exact d02
    case wv1.wv0 => exact d01.symm
    case wv1.wv2 => exact d12
    case wv2.wv0 => exact d02.symm
    case wv2.wv1 => exact d12.symm
    all_goals exact absurd rfl hik

theorem Work.Separate.extends {w w' : Work} (h : w.Separate) (he : w.Extends w') : w'.Separate := by
  refine ⟨he.memWf h.memWf, fun i => ?_, fun i k hik => ?_⟩
  · rw [he.pages]; exact h.nodup i
  · rw [he.pages, he.pages]; exact h.disjoint i k hik

theorem Work.Separate.setMag {w : Work} (h : w.Separate) (i : Wv) (x len : Nat) : (w.setMag i x len).Separate :=
  h.extends (w.extends_setMag i x len)

theorem Work.Separate.mag_le {w : Work} (h : w.Separate) (i : Wv) (x len : Nat) : (w.setMag i x len).mag i ≤ x :=
  Work.mag_setMag_le h.memWf (h.nodup i)

theorem Work.Separate.mag_other {w : Work} (h : w.Separate) {i k : Wv} (hik : k ≠ i) (x len : Nat) :
    (w.setMag i x len).mag k = w.mag k :=
  Work.mag_setMag_of_ne hik (h.disjoint i k (Ne.symm hik))

/-- GCD's pair stays below any bound of its operands (R76). -/
theorem Work.Separate.gcdStep_lt {w : Work} (h : w.Separate) {a b : Value} {bound : Nat} (step : Nat) (ha : a.mag < bound)
    (hb : b.mag < bound) (h0 : w.mag .wv0 < bound) (h1 : w.mag .wv1 < bound) :
    (w.gcdStep a b step).mag .wv0 < bound ∧ (w.gcdStep a b step).mag .wv1 < bound := by
  unfold Work.gcdStep
  dsimp only
  split
  · have hs0 := h.setMag .wv0 a.mag (max a.length b.length + 1)
    have hs1 := hs0.setMag .wv1 b.mag (max a.length b.length + 1)
    constructor
    · rw [hs1.mag_other (by decide), hs0.mag_other (by decide)]
      exact (h.mag_le _ _ _).trans_lt ha
    · rw [hs1.mag_other (by decide)]
      exact (hs0.mag_le _ _ _).trans_lt hb
  · have hs2 := h.setMag .wv2 (w.mag .wv0 % w.mag .wv1) (max a.length b.length + 1)
    have hs0 := hs2.setMag .wv0 (w.mag .wv1) (max a.length b.length + 1)
    constructor
    · rw [hs0.mag_other (by decide)]
      exact (hs2.mag_le _ _ _).trans_lt h1
    · refine (hs0.mag_le _ _ _).trans_lt ((h.mag_le _ _ _).trans_lt ?_)
      exact (Nat.mod_le _ _).trans_lt h0

/-- DIVMOD's remainder only falls (R74). -/
theorem Work.Separate.divStep_le {w : Work} (h : w.Separate) (a b : Value) (step : Nat) :
    (w.divStep a b step).mag .wv1 ≤ w.mag .wv1 := by
  unfold Work.divStep
  dsimp only
  rw [(h.setMag .wv1 _ _).mag_other (by decide)]
  exact (h.mag_le _ _ _).trans (Nat.sub_le _ _)

/-- The length of WV0 after a step of the modular kinds: that of the modulus, or as it was (R75, R76). -/
theorem Work.wv0_length_modmulStep (w : Work) (a b m : Value) (step : Nat) :
    (w.modmulStep a b m step).job.wv0.length = m.length ∨ (w.modmulStep a b m step).job.wv0.length = w.job.wv0.length := by
  unfold Work.modmulStep
  split_ifs
  · exact .inl rfl
  · exact .inr rfl
  · exact .inl rfl
  · exact .inr rfl

theorem Work.wv0_length_modexpStep (w : Work) (a e m : Value) (step : Nat) :
    (w.modexpStep a e m step).job.wv0.length = m.length := by
  unfold Work.modexpStep
  dsimp only
  split_ifs <;> rfl

theorem Work.wv0_length_modinvStep (w : Work) (a m : Value) (step : Nat) :
    (w.modinvStep a m step).job.wv0.length = m.length := by
  unfold Work.modinvStep Work.recordSearch
  dsimp only
  split_ifs <;> rfl

/-- A DIVMOD past its checks has a divisor of at least one limb, so that its quotient has at most as many limbs as the dividend
(R43, R66). -/
theorem divmod_step_le {s : State} {c : CommandRecord} {step : Nat} (hkind : c.kind = .divmod)
    (hchecked : s.stepZeroFault c = none) (hstep : step < s.stepTotalOf c) :
    step ≤ (s.value c.a).length := by
  have hdivisor : (s.value c.b).mag ≠ 0 := by
    simp only [State.stepZeroFault, hkind] at hchecked
    split at hchecked
    · cases hchecked
    · intro hzero
      simp [hzero] at hchecked
  have hlength : (s.value c.b).length ≠ 0 := by
    intro hzero
    apply hdivisor
    unfold State.value State.slotValue at hzero ⊢
    split at hzero <;> simp_all
  simp only [State.stepTotalOf, hkind] at hstep
  split at hstep <;> omega

/-- A step of a command within its step total and past its checks keeps the bounds of its working values (R61, R63, R73 to R76). -/
theorem bounded_stepWork {s : State} {c : CommandRecord} {j : Record} (hslots : SlotsNormalized s) (hm : MemoryCanonical s)
    (hn : j.workPages.Nodup) (hj : j.Bounded s.mem c) (hstep : c.kind = .divmod → j.nextStep < s.stepTotalOf c)
    (hchecked : s.stepZeroFault c = none) : (s.stepWork c j).job.Bounded (s.stepWork c j).mem c := by
  have ha := hslots.bounded c.a
  have hb := hslots.bounded c.b
  have hmod := hslots.bounded c.m
  have hsep : (Work.mk s.mem j).Separate := Work.separate_of_nodup hm hn
  have hlengthOnly : ∀ {w : Work}, c.kind ≠ .gcd → c.kind ≠ .divmod → w.job.wv0.length ≤ Config.maxSlotLimbs →
      w.job.Bounded w.mem c := fun hg hd hl => ⟨fun _ _ => hl, fun h => absurd h hg, fun h => (h.elim hg hd).elim⟩
  have hunchecked : ∀ {w : Work}, c.kind.checkedAtCommit = true → w.job.Bounded w.mem c := fun hk =>
    ⟨fun h => by simp [hk] at h, fun h => by simp [h, Kind.checkedAtCommit] at hk,
      fun h => by obtain h | h := h <;> simp [h, Kind.checkedAtCommit] at hk⟩
  unfold State.stepWork
  dsimp only
  cases hk : c.kind with
  | copy =>
    dsimp only
    split
    · exact hj
    · exact hlengthOnly (by simp [hk]) (by simp [hk]) ((Nat.min_le_right _ _).trans ha.length)
  | seti =>
    dsimp only
    split
    · exact hj
    · exact hlengthOnly (by simp [hk]) (by simp [hk]) (show 1 ≤ Config.maxSlotLimbs by decide)
  | add => exact hunchecked (by simp [hk, Kind.checkedAtCommit])
  | sub => exact hunchecked (by simp [hk, Kind.checkedAtCommit])
  | shl => exact hunchecked (by simp [hk, Kind.checkedAtCommit])
  | shr =>
    dsimp only
    split
    · exact hj
    · refine hlengthOnly (by simp [hk]) (by simp [hk]) ((Nat.min_le_right _ _).trans ?_)
      exact (Nat.sub_le _ _).trans ha.length
  | mul => exact hunchecked (by simp [hk, Kind.checkedAtCommit])
  | divmod =>
    dsimp only
    split
    · split
      · refine ⟨fun h1 h2 => hj.resultLength h1 h2, fun h => by simp [hk] at h, fun _ => ?_⟩
        exact (hsep.mag_le _ _ _).trans_lt ha.mag
      · exact hj
    · refine ⟨fun _ _ => ?_, fun h => by simp [hk] at h, fun h => ?_⟩
      · exact (divmod_step_le hk hchecked (hstep hk)).trans ha.length
      · exact (hsep.divStep_le _ _ _).trans_lt (hj.remainder h)
  | modmul =>
    dsimp only
    split
    · exact hj
    · refine hlengthOnly (by simp [hk]) (by simp [hk]) ?_
      obtain h | h := Work.wv0_length_modmulStep (Work.mk s.mem j) (s.value c.a) (s.value c.b) (s.value c.m) j.nextStep
      · rw [h]; exact hmod.length
      · rw [h]; exact hj.resultLength (by simp [hk, Kind.checkedAtCommit]) (by simp [hk])
  | modexp =>
    dsimp only
    split
    · exact hj
    · exact hlengthOnly (by simp [hk]) (by simp [hk]) (by rw [Work.wv0_length_modexpStep]; exact hmod.length)
  | modinv =>
    dsimp only
    split
    · exact hj
    · exact hlengthOnly (by simp [hk]) (by simp [hk]) (by rw [Work.wv0_length_modinvStep]; exact hmod.length)
  | gcd =>
    obtain ⟨h0, h1⟩ := hsep.gcdStep_lt j.nextStep ha.mag hb.mag (hj.divisors hk) (hj.remainder (.inl hk))
    exact ⟨fun _ h => absurd hk h, fun _ => h0, fun _ => h1⟩
  | cmp => exact hj
  | bitlen => exact hj
  | free => exact hj

/-- A command that reaches its commit installs values of at most 512 limbs (R61, R78). -/
theorem commit_lengths {s : State} {c : CommandRecord} {j : Record} (hj : j.Bounded s.mem c)
    (hfault : (Work.mk s.mem j).endFault c.kind = none) :
    trimmedLength s.mem j.wv0.pages j.wv0.length ≤ Config.maxSlotLimbs ∧
      (c.kind = .divmod → trimmedLength s.mem j.wv1.pages j.wv1.length ≤ Config.maxSlotLimbs) := by
  refine ⟨?_, fun hk => trimmedLength_le_of_magnitude_lt (hj.remainder (.inr hk))⟩
  by_cases hmeasured : c.kind.checkedAtCommit = true
  · unfold Work.endFault at hfault
    by_contra hlong
    rw [hmeasured, Bool.true_and, if_pos (by simpa using hlong)] at hfault
    cases hfault
  · by_cases hk : c.kind = .gcd
    · exact trimmedLength_le_of_magnitude_lt (hj.divisors hk)
    · exact (trimmedLength_le _ _ _).trans (hj.resultLength (by simpa using hmeasured) hk)

/-- A commit leaves every slot normalized (R2, R6, R78). -/
theorem normalized_commitSlots {s : State} {c : CommandRecord} {j : Record} (hslots : ∀ i, (s.slot i).Normalized s.mem)
    (hj : j.Bounded s.mem c) (hfault : (Work.mk s.mem j).endFault c.kind = none) (i : SlotId) :
    ((s.commitSlots c j).1.slot i).Normalized s.mem := by
  obtain ⟨hfirst, hsecond⟩ := commit_lengths hj hfault
  unfold State.commitSlots
  cases hform : c.kind.commitForm with
  | nothing => exact hslots i
  | freed =>
    dsimp only
    rw [slot_freeSlot]
    split
    · exact normalized_of_empty rfl rfl rfl
    · exact hslots i
  | one => exact normalized_installInto (hslots i) hfirst
  | two =>
    have hkind : c.kind = .divmod := by cases hk : c.kind <;> simp_all [Kind.commitForm]
    have hmem := installInto_mem s c.d (s.resultSign c j) j.wv0.pages j.wv0.length
    have hone := normalized_installInto (f := c.d) (sign := s.resultSign c j) (hslots i) hfirst
    have htwo := normalized_installInto (s := (s.installInto c.d (s.resultSign c j) j.wv0.pages j.wv0.length).1) (f := c.d2)
      (sign := (s.value c.a).sign) (pages := j.wv1.pages) (n := j.wv1.length) (i := i)
    rw [hmem] at htwo
    exact htwo hone (hsecond hkind)

end Sys2Proof.Machine
end

section
/-! PROOFS. The slots and the started commands through every event: normalized values, step totals and checks that still hold, and
working values in bounds (R2, R4, R41, R43, R61, R63, R66). -/

namespace Sys2Proof.Machine

/-! ### What a started command reads stays -/

/-- Two states in which a command finds the same sources. -/
theorem stepTotalOf_congr {s t : State} {c : CommandRecord} (h : ∀ f ∈ c.sources, t.value f = s.value f) :
    t.stepTotalOf c = s.stepTotalOf c := by
  unfold State.stepTotalOf
  unfold CommandRecord.sources at h
  cases hk : c.kind <;> simp_all

/-- The checks of step 0 pass again on the same sources, when no destination has been protected since (R43). -/
theorem stepZeroFault_eq_none_of {s t : State} {c : CommandRecord} (h : ∀ f ∈ c.sources, t.value f = s.value f)
    (hprotect : ∀ f ∈ c.dests, t.isProtected f = true → s.isProtected f = true) (hs : s.stepZeroFault c = none) :
    t.stepZeroFault c = none := by
  have hopen : ¬ c.dests.any s.isProtected = true := by
    intro hany
    rw [State.stepZeroFault, if_pos hany] at hs
    cases hs
  have hopen' : ¬ c.dests.any t.isProtected = true := by
    intro hany
    obtain ⟨f, hf, hp⟩ := List.any_eq_true.1 hany
    exact hopen (List.any_eq_true.2 ⟨f, hf, hprotect f hf hp⟩)
  rw [State.stepZeroFault, if_neg hopen] at hs
  rw [State.stepZeroFault, if_neg hopen']
  unfold CommandRecord.sources at h
  cases hk : c.kind <;> simp_all

theorem commitSlots_protect (s : State) (c : CommandRecord) (j : Record) (i : SlotId) :
    ((s.commitSlots c j).1.slot i).protect = (s.slot i).protect := by
  have hinstall : ∀ (u : State) f sign pages n, ((u.installInto f sign pages n).1.slot i).protect = (u.slot i).protect := by
    intro u f sign pages n
    rw [slot_installInto]
    split <;> rfl
  unfold State.commitSlots
  cases c.kind.commitForm with
  | nothing => rfl
  | freed =>
    dsimp only
    rw [slot_freeSlot]
    split <;> rfl
  | one => exact hinstall s _ _ _ _
  | two => exact (hinstall _ _ _ _ _).trans (hinstall s _ _ _ _)

theorem CommandEnds.protect {s t : State} {r : Runner} {c : CommandRecord} {rec : CompletionRecord} {gone : List PageId}
    {slots : SlotId → Slot} (h : CommandEnds s t r c rec gone slots) (i : SlotId) : (t.slot i).protect = (slots i).protect := by
  rw [h.slots]

theorem CoreGoes.protect {s t : State} {r : Runner} {c : CommandRecord} (h : CoreGoes s r c t) (i : SlotId) :
    (t.slot i).protect = (s.slot i).protect := by
  cases h with
  | ended status hstatus => exact (commandEnds_ended s r c hstatus).protect i
  | _ => exact congrArg Slot.protect (slot_eq_of (by simp) i)

theorem protect_start (s : State) (q : QueueId) (r : Runner) (c : CommandRecord) (i : SlotId) :
    ((s.start q r c).slot i).protect = (s.slot i).protect := by
  rw [slot_start, slot_takeLocks]

theorem CoreEvent.protect {s t : State} (h : CoreEvent s t) (i : SlotId) : (t.slot i).protect = (s.slot i).protect := by
  cases h with
  | started q r c => exact protect_start s q r c i
  | resumed n => exact congrArg Slot.protect (slot_eq_of (by simp) i)
  | failed r c status _ _ _ hstatus =>
    exact ((commandEnds_ended _ r c hstatus).protect i).trans (congrArg Slot.protect (slot_eq_of (by simp) i))
  | begun r c t _ _ _ _ hgoes => rw [hgoes.protect, checked_slot]
  | boundary r c t _ _ _ _ hgoes => rw [hgoes.protect, worked_slot]
  | preempted n c u => rw [protect_start, preempted_slot, worked_slot]
  | faulted r c status _ _ _ _ hstatus => rw [(commandEnds_ended _ r c hstatus).protect, worked_slot]
  | committed r c => rw [(commandEnds_committed _ r c _).protect, commitSlots_protect, worked_slot]

theorem ContextEvent.protect {s t : State} (h : ContextEvent s t) (i : SlotId) : (t.slot i).protect = (s.slot i).protect := by
  cases h with
  | abort n c => exact (commandEnds_abort s n c).protect i
  | poolres data => exact congrArg Slot.protect (slot_eq_of (by simp [State.writePoolres]) i)
  | _ => exact congrArg Slot.protect (slot_eq_of (by simp) i)

theorem protect_setSlot {s : State} {k : SlotId} {v : Slot} (hv : v.protect = (s.slot k).protect) (i : SlotId) :
    ((s.setSlot k v).slot i).protect = (s.slot i).protect := by
  rw [slot_setSlot]
  split
  next e => rw [e, hv]
  next => rfl

theorem protect_endSession (s : State) (w : WindowId) (i : SlotId) :
    ((s.endSession w).slot i).protect = (s.slot i).protect := by
  unfold State.endSession
  rw [locksChanged_slot, setWindow_slot, slot_releaseLocks]
  rfl

theorem WindowEvent.protect {s t : State} (h : WindowEvent s t) (i : SlotId) : (t.slot i).protect = (s.slot i).protect := by
  cases h with
  | moved _ _ _ _ _ hstate => exact congrArg Slot.protect (slot_eq_of (by rw [hstate]; rfl) i)
  | stored => rfl
  | openedRead w k =>
    rw [locksChanged_slot, setWindow_slot]
    exact protect_setSlot (by rfl) i
  | openedWrite w k length =>
    rw [locksChanged_slot, setWindow_slot, protect_setSlot (by rw [takePages_slot]; rfl), takePages_slot]
  | endedRead w => exact protect_endSession s w i
  | cancelled w => rw [protect_endSession, release_slot]
  | closed w =>
    rw [protect_endSession, release_slot]
    exact protect_setSlot (by rfl) i

/-- A slot that a holder writes is not protected by any event (R16, R17). -/
theorem Event.protected_of {s t : State} (h : Event s t) {i : SlotId} (hwriter : (s.slot i).writer ≠ none)
    (ht : (t.slot i).protect = true) : (s.slot i).protect = true := by
  cases h with
  | registers h => rwa [slot_eq_of (s := s) (by rw [h])] at ht
  | softReset h => rwa [h, softReset_slot] at ht
  | intake h => rwa [slot_eq_of (s := s) (by rw [onlyIntake_of_reflTransGen h])] at ht
  | context h => rwa [h.protect] at ht
  | protect h =>
    cases h with
    | set k b hfree =>
      change ((s.setSlot k { s.slot k with protect := b }).slot i).protect = true at ht
      rw [slot_setSlot] at ht
      split at ht
      next e =>
        subst e
        exact absurd (hfree ht) hwriter
      next => exact ht
  | window h => rwa [h.protect] at ht
  | core h => rwa [h.protect] at ht

/-- A started command that goes on finds its sources as they were (R41, R81). -/
theorem Event.value_source {s t : State} (h : Event s t) (hpages : PagesPartition s) (hlocks : LocksKept s) {x : Runner}
    {c : CommandRecord} (hcommand : (s.record x).command = some c) (hstays : (t.record x).command ≠ none) {f : SlotField}
    (hf : f ∈ c.sources) : t.value f = s.value f := by
  unfold State.value
  split
  next i hi =>
    obtain hsame | hchanged := h.sameValue i
    · exact h.slotValue hpages hsame
    · obtain ⟨g, hwriter, hended⟩ := hchanged.writer hlocks.1
      have hreads : .run x ∈ (s.slot i).readers := (hlocks.1 i _).2.2 ⟨c, hcommand, f, hf, hi⟩
      exact absurd (hended x (hlocks.2 i g hwriter _ hreads).symm) hstays
  next => rfl

/-- A started command finds no destination protected that was not before (R17). -/
theorem Event.isProtected_dest {s t : State} (h : Event s t) (hlocks : LocksKept s) {x : Runner} {c : CommandRecord}
    (hcommand : (s.record x).command = some c) {f : SlotField} (hf : f ∈ c.dests) (ht : t.isProtected f = true) :
    s.isProtected f = true := by
  unfold State.isProtected at *
  split at ht
  next i hi =>
    have hwriter : (s.slot i).writer = some (.run x) := (hlocks.1 i _).1.2 ⟨c, hcommand, f, hf, hi⟩
    exact h.protected_of (by rw [hwriter]; simp) ht
  next => cases ht

/-! ### One started command -/

/-- The fields of a record that its command's work depends on are the same. -/
structure Record.SameWork (u v : Record) : Prop where
  command : u.command = v.command
  nextStep : u.nextStep = v.nextStep
  stepTotal : u.stepTotal = v.stepTotal
  checksMade : u.checksMade = v.checksMade
  wv0 : u.wv0 = v.wv0
  wv1 : u.wv1 = v.wv1

theorem Record.SameWork.refl (j : Record) : j.SameWork j := ⟨rfl, rfl, rfl, rfl, rfl, rfl⟩

theorem Record.SameWork.of_eq {u v : Record} (h : u = v) : u.SameWork v := h ▸ .refl u

theorem sameWork_woken (j : Record) : j.woken.SameWork j := ⟨rfl, rfl, rfl, rfl, rfl, rfl⟩

/-- What holds of the record of a started command (R41, R43, R61, R63, R66): its step total and the outcome of its checks stand as
values here, and `running` says that its step runs. -/
structure Record.WorkOk (j : Record) (m : Memory) (c : CommandRecord) (total : Nat) (fault : Option Status) (running : Prop) :
    Prop where
  total : j.stepTotal = total
  next : c.kind ≠ .gcd → c.kind ≠ .modinv → j.nextStep < j.stepTotal
  begun : j.nextStep ≠ 0 ∨ running → j.checksMade = true
  checked : j.checksMade = true → fault = none
  bounded : j.Bounded m c

theorem workConsistent_iff {s : State} :
    WorkConsistent s ↔ ∀ r c, (s.record r).command = some c →
      (s.record r).WorkOk s.mem c (s.stepTotalOf c) (s.stepZeroFault c) (s.stepRunning = true ∧ s.owner = some r) :=
  ⟨fun ⟨h1, h2, h3, h4, h5, h6, h7⟩ r c hc => ⟨h1 r c hc, h2 r c hc, h3 r c hc, h4 r c hc, h5 r c hc, h6 r c hc, h7 r c hc⟩,
    fun h => ⟨fun r c hc => (h r c hc).total, fun r c hc => (h r c hc).next, fun r c hc => (h r c hc).begun,
      fun r c hc => (h r c hc).checked, fun r c hc => (h r c hc).bounded.resultLength,
      fun r c hc => (h r c hc).bounded.divisors, fun r c hc => (h r c hc).bounded.remainder⟩⟩

/-- The record's work stands when its fields and the limbs of its working values do. -/
theorem Record.WorkOk.same {j j' : Record} {m m' : Memory} {c : CommandRecord} {total : Nat} {fault : Option Status}
    {running running' : Prop} (h : j.WorkOk m c total fault running) (hsame : j'.SameWork j)
    (hlimbs : ∀ i k, limbAt m' (j.wv i).pages k = limbAt m (j.wv i).pages k) (hrun : running' → running) :
    j'.WorkOk m' c total fault running' := by
  obtain ⟨-, hnext, htotal, hchecks, hwv0, hwv1⟩ := hsame
  obtain ⟨h1, h2, h3, h4, h5⟩ := h
  refine ⟨htotal.trans h1, ?_, ?_, ?_, h5.congr (by rw [hwv0]) ?_ ?_⟩
  · rw [hnext, htotal]; exact h2
  · rw [hnext, hchecks]; exact fun hr => h3 (hr.imp id hrun)
  · rw [hchecks]; exact h4
  · rw [hwv0]; exact magnitude_congr fun k _ => hlimbs .wv0 k
  · rw [hwv1]; exact magnitude_congr fun k _ => hlimbs .wv1 k

/-- A kind with a step total has at least step 0 (R66). -/
theorem stepTotalOf_pos {s : State} {c : CommandRecord} (hgcd : c.kind ≠ .gcd) (hmodinv : c.kind ≠ .modinv) :
    0 < s.stepTotalOf c := by
  unfold State.stepTotalOf
  cases hk : c.kind
  case gcd => exact absurd hk hgcd
  case modinv => exact absurd hk hmodinv
  all_goals grind

/-- A command just started has done no step and holds no page (R99). -/
theorem workOk_started (m : Memory) (s : State) (c : CommandRecord) (fault : Option Status) :
    (Record.started c (s.stepTotalOf c)).WorkOk m c (s.stepTotalOf c) fault False := by
  refine ⟨rfl, fun hg hm => ?_, fun h => by simp [Record.started, Record.free] at h, nofun, ⟨fun _ _ => Nat.zero_le _, ?_, ?_⟩⟩
  · exact stepTotalOf_pos hg hm
  · exact fun _ => Nat.two_pow_pos _
  · exact fun _ => Nat.two_pow_pos _

/-- The checks of step 0, passed or made before (R43, R69). -/
theorem Record.WorkOk.checksPassed {j : Record} {m : Memory} {c : CommandRecord} {total : Nat} {fault : Option Status} {running : Prop}
    (h : j.WorkOk m c total fault running) (hpassed : j.nextStep ≠ 0 ∨ j.checksMade = true ∨ fault = none) :
    ({ j with checksMade := if j.nextStep = 0 then true else j.checksMade } : Record).WorkOk m c total fault True := by
  obtain ⟨h1, h2, h3, h4, h5⟩ := h
  have hmade : (if j.nextStep = 0 then true else j.checksMade) = true := by
    split
    · rfl
    · next hstep => exact h3 (.inl hstep)
  refine ⟨h1, h2, fun _ => hmade, fun _ => ?_, ⟨h5.resultLength, h5.divisors, h5.remainder⟩⟩
  obtain hstep | hmade | hnone := hpassed
  · exact h4 (h3 (.inl hstep))
  · exact h4 hmade
  · exact hnone

/-- The working values after a step of a command that may run it. -/
theorem bounded_worked {s : State} {r : Runner} {c : CommandRecord} {running : Prop} (hslots : SlotsNormalized s)
    (hm : MemoryCanonical s) (hpages : PagesPartition s)
    (hj : (s.record r).WorkOk s.mem c (s.stepTotalOf c) (s.stepZeroFault c) running) (hrun : running) :
    (s.workedRecord r c).Bounded (s.worked r c).mem c := by
  have h := bounded_stepWork hslots hm (hpages.nodup (.work r)) hj.bounded
    (fun hk => hj.total ▸ hj.next (by simp [hk]) (by simp [hk])) (hj.checked (hj.begun (.inr hrun)))
  exact ⟨h.resultLength, h.divisors, h.remainder⟩

/-- A step that is not the last leaves another one to do (R65, R66). -/
theorem next_worked {s : State} {r : Runner} {c : CommandRecord} (hlast : s.atLastStep r c = false) (hgcd : c.kind ≠ .gcd)
    (hmodinv : c.kind ≠ .modinv) (hnext : (s.record r).nextStep < (s.record r).stepTotal) :
    (s.record r).nextStep + 1 < (s.record r).stepTotal := by
  have htotal : (s.stepWork c (s.record r)).job.stepTotal = (s.record r).stepTotal := by
    rw [(extends_stepWork s c (s.record r)).job]
  have hne : (s.record r).nextStep + 1 ≠ (s.record r).stepTotal := by
    unfold State.atLastStep Work.lastStep at hlast
    rw [← htotal]
    cases hk : c.kind <;> simp_all
  omega

theorem workOk_worked {s : State} {r : Runner} {c : CommandRecord} {running : Prop} (hslots : SlotsNormalized s)
    (hm : MemoryCanonical s) (hpages : PagesPartition s)
    (hj : (s.record r).WorkOk s.mem c (s.stepTotalOf c) (s.stepZeroFault c) running) (hrun : running)
    (hlast : s.atLastStep r c = false) :
    (s.workedRecord r c).WorkOk (s.worked r c).mem c (s.stepTotalOf c) (s.stepZeroFault c) True := by
  have hfields := job_stepWork_eq s r c
  have hmade : (s.workedRecord r c).checksMade = true := by rw [hfields]; exact hj.begun (.inr hrun)
  refine ⟨by rw [hfields]; exact hj.total, fun hg hi => ?_, fun _ => hmade, fun _ => hj.checked (hj.begun (.inr hrun)),
    bounded_worked hslots hm hpages hj hrun⟩
  rw [hfields]
  exact next_worked hlast hg hi (hj.next hg hi)

/-- Zeroed pages behind a list read as the positions beyond it did (R10, R63). -/
theorem limbAt_append_zeroed {m : Memory} {pages more zeroed : List PageId} (hmore : more ⊆ zeroed) (hd : zeroed.Disjoint pages)
    (k : Nat) : limbAt (m.zeroPages zeroed) (pages ++ more) k = limbAt m pages k := by
  by_cases hk : k / Config.pageLimbs < pages.length
  · have haddress : limbAddress (pages ++ more) k = limbAddress pages k := by
      unfold limbAddress
      rw [List.getElem?_append_left hk]
    have hsame : limbAt (m.zeroPages zeroed) (pages ++ more) k = limbAt (m.zeroPages zeroed) pages k := by
      unfold limbAt
      rw [haddress]
    rw [hsame, limbAt_zeroPages_of_disjoint hd]
  · have hbeyond : Config.pageLimbs * pages.length ≤ k := by
      simp only [Config.pageLimbs] at *
      omega
    rw [limbAt_eq_zero hbeyond]
    unfold limbAt
    cases haddress : limbAddress (pages ++ more) k with
    | none => rfl
    | some a =>
      obtain ⟨p, hp, rfl⟩ := Option.map_eq_some_iff.1 haddress
      rw [List.getElem?_append_right (Nat.le_of_not_lt hk)] at hp
      exact Memory.read_zeroPages_of_mem (hmore (List.mem_of_getElem? hp)) (by
        have hlt : k % Config.pageLimbs < Config.pageLimbs := Nat.mod_lt _ (by decide)
        simp only [Config.pageLimbs] at *
        omega)

/-- A granted acquisition adds zeroed pages behind the working values, so that they hold what they held (R10, R67). -/
theorem workOk_granted {u : State} {r : Runner} {c : CommandRecord} {total : Nat} {fault : Option Status}
    (hpages : PagesPartition u) (hj : (u.record r).WorkOk u.mem c total fault True) (d : Nat) (lack : Nat × Nat × Nat) :
    ((u.record r).withPages lack (u.nextPages d)).WorkOk (u.takePages d).mem c total fault True := by
  have hd : (u.nextPages d).Disjoint (u.record r).workPages :=
    List.disjoint_of_subset_left (List.take_subset _ _) (hpages.disjoint (a := .free) (b := .work r) (by simp))
  have hd0 : (u.nextPages d).Disjoint (u.record r).wv0.pages :=
    List.disjoint_of_subset_right (subset_workPages (u.record r) .wv0) hd
  have hd1 : (u.nextPages d).Disjoint (u.record r).wv1.pages :=
    List.disjoint_of_subset_right (subset_workPages (u.record r) .wv1) hd
  obtain ⟨h1, h2, h3, h4, h5⟩ := hj
  refine ⟨h1, h2, h3, h4, h5.congr rfl (magnitude_congr fun k _ => ?_) (magnitude_congr fun k _ => ?_)⟩
  · exact limbAt_append_zeroed (List.take_subset _ _) hd0 k
  · exact limbAt_append_zeroed (fun _ hp => List.mem_of_mem_drop (List.mem_of_mem_take hp)) hd1 k

/-! ### The records after each event -/

theorem sameWork_setRecord {s : State} {r : Runner} {v : Record} (hv : v.SameWork (s.record r)) (x : Runner) :
    ((s.setRecord r v).record x).SameWork (s.record x) := by
  rw [record_setRecord]
  split
  next e => rw [e]; exact hv
  next => exact .refl _

theorem sameWork_of_setRecord {s t : State} {r : Runner} {v : Record} (hcontexts : t.contexts = (s.setRecord r v).contexts)
    (hurec : t.urec = (s.setRecord r v).urec) (hv : v.SameWork (s.record r)) (x : Runner) :
    (t.record x).SameWork (s.record x) := by
  rw [record_eq_of hcontexts hurec]
  exact sameWork_setRecord hv x

theorem sameWork_wake (s : State) (x : Runner) : (s.wake.record x).SameWork (s.record x) := by
  cases x with
  | urgent => exact .of_eq (urec_wake s)
  | ctx n =>
    rw [record_wake_ctx]
    split
    · exact sameWork_woken _
    · exact .refl _

theorem sameWork_release (s : State) (ps : List PageId) (x : Runner) : ((s.release ps).record x).SameWork (s.record x) := by
  have h := sameWork_wake { s with freeList := s.freeList ++ ps } x
  rwa [record_eq_of (s := s) (t := { s with freeList := s.freeList ++ ps }) rfl rfl x] at h

/-- The end of a command leaves the work of the others (R110, R125). -/
theorem CommandEnds.sameWork {s t : State} {r : Runner} {c : CommandRecord} {rec : CompletionRecord} {gone : List PageId}
    {slots : SlotId → Slot} (h : CommandEnds s t r c rec gone slots) {x : Runner} (hx : (t.record x).command ≠ none) :
    (t.record x).SameWork (s.record x) := by
  have hne : x ≠ r := fun e => hx (by rw [h.command, if_pos e])
  cases x with
  | urgent =>
    change t.urec.SameWork _
    rw [h.urgent, if_neg fun e => hne e.symm]
    exact .refl _
  | ctx n =>
    rw [h.contexts, if_neg (fun e => hne e.symm : ¬ r = .ctx n)]
    split
    · exact sameWork_woken _
    · exact .refl _

theorem sameWork_parkContext (s : State) (n : CtxId) (x : Runner) : ((s.parkContext n).record x).SameWork (s.record x) := by
  rw [record_parkContext]
  split
  next e => rw [e]; exact ⟨rfl, rfl, rfl, rfl, rfl, rfl⟩
  next => exact .refl _

theorem ContextEvent.sameWork {s t : State} (h : ContextEvent s t) {x : Runner} (hx : (t.record x).command ≠ none) :
    (t.record x).SameWork (s.record x) := by
  cases h with
  | poolres data =>
    unfold State.writePoolres
    obtain ⟨u, hu⟩ : ∃ u : State, u = { s with reserve := reserveOf (wordField data 0 7) } := ⟨_, rfl⟩
    have hrecord : u.record x = s.record x := record_eq_of (by rw [hu]) (by rw [hu]) x
    rw [← hu, ← hrecord]
    exact sameWork_wake u x
  | requestPark n => exact sameWork_of_setRecord (s := s) (r := .ctx n) rfl rfl (by exact ⟨rfl, rfl, rfl, rfl, rfl, rfl⟩) x
  | park n =>
    have h := sameWork_parkContext s n x
    rwa [← record_eq_of (s := s.parkContext n) (t := { s.parkContext n with ctxreq := .ok }) rfl rfl x] at h
  | resume n => exact sameWork_of_setRecord (s := s) (r := .ctx n) rfl rfl (by exact ⟨rfl, rfl, rfl, rfl, rfl, rfl⟩) x
  | requestAbort r => exact sameWork_of_setRecord (s := s) (r := r) rfl rfl (by exact ⟨rfl, rfl, rfl, rfl, rfl, rfl⟩) x
  | abort n c => exact (commandEnds_abort s n c).sameWork hx
  | discard n hstate hcommand =>
    have hrecord := record_setRecord ({ s with resumeList := s.resumeList.filter (· ≠ n) } : State) (.ctx n) x Record.free
    by_cases e : x = .ctx n
    · rw [if_pos e] at hrecord
      exact absurd (congrArg Record.command hrecord) hx
    · rw [if_neg e] at hrecord
      exact .of_eq (hrecord.trans (record_eq_of rfl rfl x))

theorem WindowEvent.sameWork {s t : State} (h : WindowEvent s t) (x : Runner) : (t.record x).SameWork (s.record x) := by
  have hended : ∀ (u : State) (w : WindowId), (u.endSession w).record x = u.record x := fun u w =>
    record_eq_of (by rw [endSession_frame]) (by rw [endSession_frame]) x
  cases h with
  | moved _ _ _ _ _ hstate => exact .of_eq (record_eq_of (by rw [hstate]; rfl) (by rw [hstate]; rfl) x)
  | stored => exact .of_eq (record_eq_of rfl rfl x)
  | openedRead => exact .of_eq (by simp)
  | openedWrite => exact .of_eq (by simp)
  | endedRead w => exact .of_eq (hended s w)
  | cancelled w =>
    rw [hended]
    exact sameWork_release s _ x
  | closed w =>
    rw [hended]
    have h := sameWork_release (s.setSlot (s.window w).slot ((s.slot (s.window w).slot).installed s.mem (s.window w).declSign
      (s.window w).staging (s.window w).declLength))
      ((s.slot (s.window w).slot).givenBack s.mem (s.window w).staging (s.window w).declLength) x
    rwa [setSlot_record] at h

/-- What holds of a started command in the terms of the state before an event holds in those of the state after it (R41). -/
theorem Event.workOk_after {s t : State} (h : Event s t) (hpages : PagesPartition s) (hlocks : LocksKept s) {x : Runner}
    {c : CommandRecord} (hcommand : (s.record x).command = some c) (hstays : (t.record x).command ≠ none) {j : Record}
    {m : Memory} {running : Prop} (hj : j.WorkOk m c (s.stepTotalOf c) (s.stepZeroFault c) running) :
    j.WorkOk m c (t.stepTotalOf c) (t.stepZeroFault c) running := by
  have hsources : ∀ f ∈ c.sources, t.value f = s.value f := fun f hf => h.value_source hpages hlocks hcommand hstays hf
  obtain ⟨h1, h2, h3, h4, h5⟩ := hj
  refine ⟨(stepTotalOf_congr hsources) ▸ h1, h2, h3, fun hmade => ?_, h5⟩
  exact stepZeroFault_eq_none_of hsources (fun f hf => h.isProtected_dest hlocks hcommand hf) (h4 hmade)

theorem PagesPartition.untouched_wv {s : State} (h : PagesPartition s) (x : Runner) (i : Wv) :
    s.Untouched ((s.record x).wv i).pages := by
  have hsub := subset_workPages (s.record x) i
  obtain ⟨hfree, hstaging⟩ := h.untouched_work x
  exact ⟨List.disjoint_of_subset_right hsub hfree, fun w => List.disjoint_of_subset_right hsub (hstaging w)⟩

theorem PagesPartition.notRunning_wv {s : State} (h : PagesPartition s) {x : Runner}
    (hx : s.stepRunning = true → s.owner ≠ some x) (i : Wv) : s.NotRunning ((s.record x).wv i).pages :=
  fun r hr hrunning => List.disjoint_of_subset_right (subset_workPages (s.record x) i) (h.notRunning_work hx r hr hrunning)

/-- A command whose fields and limbs stay through an event keeps its work (R41). -/
theorem Event.workOk_same {s t : State} (h : Event s t) (hpages : PagesPartition s) (hlocks : LocksKept s)
    (hwork : WorkConsistent s) {x : Runner} {c : CommandRecord} (hcommand : (t.record x).command = some c)
    (hsame : (t.record x).SameWork (s.record x))
    (hrun : t.stepRunning = true ∧ t.owner = some x → s.stepRunning = true ∧ s.owner = some x)
    (hlimbs : ∀ i k, limbAt t.mem ((s.record x).wv i).pages k = limbAt s.mem ((s.record x).wv i).pages k) :
    (t.record x).WorkOk t.mem c (t.stepTotalOf c) (t.stepZeroFault c) (t.stepRunning = true ∧ t.owner = some x) := by
  have hcommand' : (s.record x).command = some c := hsame.command ▸ hcommand
  have hstays : (t.record x).command ≠ none := by simp [hcommand]
  have hold := workConsistent_iff.1 hwork x c hcommand'
  exact h.workOk_after hpages hlocks hcommand' hstays (hold.same hsame hlimbs hrun)

/-- The work of the owner's command after the Core has made what it makes of it (R105 to R109): u is the state with the checks made or
with the step's work done. -/
theorem CoreGoes.workOk {u t : State} {r : Runner} {c : CommandRecord} (h : CoreGoes u r c t) (hpages : PagesPartition u)
    {total : Nat} {fault : Option Status} (hu : (u.record r).WorkOk u.mem c total fault True)
    (hstays : (t.record r).command ≠ none) : (t.record r).WorkOk t.mem c total fault True := by
  cases h with
  | ended status hstatus => exact absurd (by rw [(commandEnds_ended u r c hstatus).command, if_pos rfl]) hstays
  | parked n =>
    have hsame := sameWork_parkContext u n r
    rw [← coreFree_record] at hsame
    exact hu.same hsame (fun _ _ => by simp) id
  | waits n hrunner _ _ hrefused =>
    subst hrunner
    rw [enterSpaceWait_of_refused hrefused]
    have hsame := sameWork_setRecord (s := u) (r := .ctx n)
      (v := { u.record (.ctx n) with state := .spaceWait, pagesWanted := u.demandOf c (u.record (.ctx n)) })
      ⟨rfl, rfl, rfl, rfl, rfl, rfl⟩ (.ctx n)
    rw [← raise_record (f := .space), ← coreFree_record] at hsame
    exact hu.same hsame (fun _ _ => by simp) id
  | granted hgranted =>
    have hgrown := workOk_granted hpages hu (u.demandOf c (u.record r)) (u.lackingPages c (u.record r))
    have hrecord := record_setRecord_self (u.takePages (u.demandOf c (u.record r))) r
      ((u.record r).withPages (u.lackingPages c (u.record r)) (u.nextPages (u.demandOf c (u.record r))))
    rw [← hrecord, ← setRecord_mem (u.takePages (u.demandOf c (u.record r))) r] at hgrown
    exact record_eq_of (s := (u.takePages (u.demandOf c (u.record r))).setRecord r _) rfl rfl r ▸ hgrown

/-- The commands of the other records go on as they were (R41). -/
theorem CoreGoes.sameWork {u t : State} {r : Runner} {c : CommandRecord} (h : CoreGoes u r c t) {x : Runner} (hx : x ≠ r)
    (hstays : (t.record x).command ≠ none) : (t.record x).SameWork (u.record x) := by
  cases h with
  | ended status hstatus => exact (commandEnds_ended u r c hstatus).sameWork hstays
  | parked n => exact coreFree_record _ x ▸ sameWork_parkContext u n x
  | waits n hrunner _ _ hrefused =>
    subst hrunner
    rw [enterSpaceWait_of_refused hrefused, coreFree_record, raise_record, record_setRecord, if_neg hx]
    exact .refl _
  | granted =>
    refine .of_eq ((record_eq_of (s := (u.takePages (u.demandOf c (u.record r))).setRecord r
      ((u.record r).withPages (u.lackingPages c (u.record r)) (u.nextPages (u.demandOf c (u.record r))))) rfl rfl x).trans ?_)
    rw [record_setRecord, if_neg hx, takePages_record]

theorem CoreGoes.owner {u t : State} {r : Runner} {c : CommandRecord} (h : CoreGoes u r c t) (hrunning : t.stepRunning = true) :
    t.owner = u.owner := by
  cases h with
  | granted => simp
  | _ => simp [State.coreFree, State.coreEndUninstalled] at hrunning

end Sys2Proof.Machine
end

section
/-! PROOFS. Normalized slots and started commands, kept by every step (R2, R4, R41, R43, R61, R63, R66). -/

namespace Sys2Proof.Machine

/-- A start changes no value (R83, R99). -/
theorem value_start (s : State) (q : QueueId) (r : Runner) (c : CommandRecord) (f : SlotField) :
    (s.start q r c).value f = s.value f := by
  have hslot : ∀ i, (s.start q r c).slotValue i = s.slotValue i := fun i => by
    obtain ⟨hsign, hlength, hpages⟩ := sameValue_start s q r c i
    unfold State.slotValue
    rw [start_mem, hsign, hlength, hpages]
  unfold State.value
  split
  · exact hslot _
  · rfl

/-- The record that a start fills (R99). -/
theorem workOk_start (s : State) (q : QueueId) (r : Runner) (c : CommandRecord) :
    ((s.start q r c).record r).WorkOk (s.start q r c).mem c ((s.start q r c).stepTotalOf c) ((s.start q r c).stepZeroFault c)
      ((s.start q r c).stepRunning = true ∧ (s.start q r c).owner = some r) := by
  have hrecord : (s.start q r c).record r = Record.started c (s.stepTotalOf c) := by rw [record_start, if_pos rfl]
  obtain ⟨h1, h2, h3, h4, h5⟩ := workOk_started (s.start q r c).mem s c ((s.start q r c).stepZeroFault c)
  rw [hrecord]
  refine ⟨?_, h2, fun h => h3 (h.imp id fun hrun => ?_), h4, h5⟩
  · rw [stepTotalOf_congr (s := s) fun f _ => value_start s q r c f]
    exact h1
  · rw [start_stepRunning] at hrun
    exact absurd hrun.1 (by simp)

/-- The conditions that the values of slots and of started commands stand on. -/
structure State.Sound (s : State) : Prop where
  records : RecordsConsistent s
  windows : WindowsConsistent s
  pages : PagesPartition s
  memory : MemoryCanonical s
  locks : LocksKept s
  slots : SlotsNormalized s
  work : WorkConsistent s

/-- What WorkConsistent says of the command c of one record. -/
def State.WorkOkAt (s : State) (x : Runner) (c : CommandRecord) : Prop :=
  (s.record x).WorkOk s.mem c (s.stepTotalOf c) (s.stepZeroFault c) (s.stepRunning = true ∧ s.owner = some x)

/-! ### The events of the Core -/

/-- A command that is not the owner's, and whose fields stay. -/
theorem CoreEvent.workOkAt_of_ne {s t : State} (h : CoreEvent s t) (hs : s.Sound) {r x : Runner} {c : CommandRecord}
    (howner : s.owner = some r) (hx : x ≠ r) (hcommand : (t.record x).command = some c)
    (hsame : (t.record x).SameWork (s.record x)) (hidle : t.stepRunning = true → t.owner ≠ some x) : t.WorkOkAt x c := by
  refine (Event.core h).workOk_same hs.pages hs.locks hs.work hcommand hsame (fun hrun => ?_)
    fun i k => h.limbs (hs.pages.untouched_wv x i) (hs.pages.notRunning_wv (fun _ ho => ?_) i) k
  · exact absurd hrun.2 (hidle hrun.1)
  · rw [howner] at ho
    exact hx (Option.some.inj ho).symm

/-- The commands that stay when the owner's ends. -/
theorem CoreEvent.workOkAt_of_ends {s t u : State} (h : CoreEvent s t) (hs : s.Sound) {r x : Runner} {c d : CommandRecord}
    {rec : CompletionRecord} {gone : List PageId} {slots : SlotId → Slot} (howner : s.owner = some r)
    (hends : CommandEnds u t r d rec gone slots) (hrecords : ∀ y, y ≠ r → u.record y = s.record y)
    (hidle : t.stepRunning = false) (hcommand : (t.record x).command = some c) : t.WorkOkAt x c := by
  have hstays : (t.record x).command ≠ none := by simp [hcommand]
  have hx : x ≠ r := fun e => hstays (by rw [hends.command, if_pos e])
  refine h.workOkAt_of_ne hs howner hx hcommand ?_ (by simp [hidle])
  rw [← hrecords x hx]
  exact hends.sameWork hstays

theorem CoreGoes.command {u t : State} {r : Runner} {c d : CommandRecord} (h : CoreGoes u r c t) {x : Runner}
    (hx : (t.record x).command = some d) : (u.record x).command = some d := by
  cases h with
  | ended status hstatus =>
    rw [(commandEnds_ended u r c hstatus).command] at hx
    split at hx
    · cases hx
    · exact hx
  | parked n => rwa [coreFree_record, parkContext_command] at hx
  | waits n => rwa [coreFree_record, enterSpaceWait_command] at hx
  | granted => exact (granted_command u r x _ _ (by rfl)).symm.trans hx

/-- The commands after the Core has made something of its owner's: u is the state with the checks made or with the step's work
done. -/
theorem CoreEvent.workOkAt_of_goes {s t u : State} (h : CoreEvent s t) (hs : s.Sound) {r x : Runner} {c d : CommandRecord}
    (howner : s.owner = some r) (hgoes : CoreGoes u r d t) (hrecords : ∀ y, y ≠ r → u.record y = s.record y)
    (huowner : u.owner = s.owner) (hupages : PagesPartition u) (hd : (s.record r).command = some d)
    (hud : (u.record r).command = some d) (hu : (u.record r).WorkOk u.mem d (s.stepTotalOf d) (s.stepZeroFault d) True)
    (hcommand : (t.record x).command = some c) : t.WorkOkAt x c := by
  have hstays : (t.record x).command ≠ none := by simp [hcommand]
  by_cases hx : x = r
  · subst hx
    have hdc : d = c := Option.some.inj (hud.symm.trans (hgoes.command hcommand))
    subst hdc
    have hwork := hgoes.workOk hupages hu hstays
    obtain ⟨h1, h2, h3, h4, h5⟩ := (Event.core h).workOk_after hs.pages hs.locks hd hstays hwork
    exact ⟨h1, h2, fun _ => h3 (.inr trivial), h4, h5⟩
  · refine h.workOkAt_of_ne hs howner hx hcommand (hrecords x hx ▸ hgoes.sameWork hx hstays) fun hrun ho => ?_
    rw [hgoes.owner hrun, huowner, howner] at ho
    exact hx (Option.some.inj ho).symm

theorem checked_record_of_ne {s : State} {r x : Runner} (hx : x ≠ r) : (s.checked r).record x = s.record x := by
  rw [State.checked, record_setRecord, if_neg hx]

theorem worked_record_of_ne {s : State} {r x : Runner} {c : CommandRecord} (hx : x ≠ r) :
    (s.worked r c).record x = s.record x := by
  rw [worked_record, if_neg hx]

/-- The record of a running step is that of a command past its checks. -/
theorem State.Sound.running {s : State} (hs : s.Sound) {r : Runner} {c : CommandRecord} (howner : s.owner = some r)
    (hrunning : s.stepRunning = true) (hcommand : (s.record r).command = some c) :
    (s.record r).WorkOk s.mem c (s.stepTotalOf c) (s.stepZeroFault c) True := by
  obtain ⟨h1, h2, h3, h4, h5⟩ := workConsistent_iff.1 hs.work r c hcommand
  exact ⟨h1, h2, fun _ => h3 (.inr ⟨hrunning, howner⟩), h4, h5⟩

/-- The commands after a preemption: the urgent command starts, and the context's command stands after its step (R103). -/
theorem CoreEvent.workOkAt_of_preempted {s : State} {n : CtxId} {d u : CommandRecord}
    (h : CoreEvent s (((s.worked (.ctx n) d).preempted n).start .urgent .urgent u)) (hs : s.Sound)
    (howner : s.owner = some (.ctx n)) (hd : (s.record (.ctx n)).command = some d) (hrunning : s.stepRunning = true)
    (hlast : s.atLastStep (.ctx n) d = false) {x : Runner} {c : CommandRecord}
    (hcommand : ((((s.worked (.ctx n) d).preempted n).start .urgent .urgent u).record x).command = some c) :
    (((s.worked (.ctx n) d).preempted n).start .urgent .urgent u).WorkOkAt x c := by
  obtain ⟨v, hv⟩ : ∃ v, v = (s.worked (.ctx n) d).preempted n := ⟨_, rfl⟩
  have hvrecord : ∀ y, v.record y = if y = .ctx n then { s.workedRecord (.ctx n) d with state := .resumable } else s.record y :=
    fun y => by
      rw [hv, record_preempted]
      split
      next hy => rw [hy, worked_record_self]
      next hy => exact worked_record_of_ne hy
  have hvmem : v.mem = (s.worked (.ctx n) d).mem := by rw [hv, preempted_mem]
  rw [← hv] at h hcommand ⊢
  have hrecord : ∀ y, (v.start .urgent .urgent u).record y =
      if y = .urgent then Record.started u (v.stepTotalOf u) else v.record y := fun y => record_start v .urgent .urgent y u
  have hcommand' := hcommand
  rw [hrecord] at hcommand'
  by_cases hx : x = .urgent
  · subst hx
    obtain rfl : u = c := Option.some.inj hcommand'
    exact workOk_start v .urgent .urgent u
  rw [if_neg hx, hvrecord] at hcommand'
  by_cases hn : x = .ctx n
  · subst hn
    obtain rfl : d = c := by
      rw [if_pos rfl] at hcommand'
      exact Option.some.inj (hd.symm.trans ((workedRecord_fields s (.ctx n) d).2.1.symm.trans hcommand'))
    have hu := workOk_worked hs.slots hs.memory hs.pages (hs.running howner hrunning hd) trivial hlast
    refine (Event.core h).workOk_after hs.pages hs.locks hd (by simp [hcommand])
      (hu.same (?_ : Record.SameWork _ _) (fun _ _ => ?_) fun _ => trivial)
    · rw [hrecord, if_neg hx, hvrecord, if_pos rfl]
      exact ⟨rfl, rfl, rfl, rfl, rfl, rfl⟩
    · rw [start_mem, hvmem]
  · refine h.workOkAt_of_ne hs howner hn hcommand (.of_eq ?_) fun hrun => ?_
    · rw [hrecord, if_neg hx, hvrecord, if_neg hn]
    · rw [start_stepRunning] at hrun
      cases hrun

/-- What an event of the Core leaves of each started command (R65 to R67, R99 to R110). -/
theorem CoreEvent.workOkAt {s t : State} (h : CoreEvent s t) (hs : s.Sound) {x : Runner} {c : CommandRecord}
    (hcommand : (t.record x).command = some c) : t.WorkOkAt x c := by
  have hevent := h
  cases h with
  | started q r d howner =>
    by_cases hx : x = r
    · subst hx
      rw [record_start, if_pos rfl] at hcommand
      cases hcommand
      exact workOk_start s q x _
    · refine (Event.core hevent).workOk_same hs.pages hs.locks hs.work hcommand (.of_eq ?_) (fun hrun => ?_)
        fun i k => by rw [start_mem]
      · rw [record_start, if_neg hx]
      · rw [start_stepRunning] at hrun
        exact absurd hrun.1 (by simp)
  | resumed n howner =>
    refine (Event.core hevent).workOk_same hs.pages hs.locks hs.work hcommand ?_ (fun hrun => ?_) fun i k => by simp
    · rw [record_resumeContext]
      split
      next e => rw [e]; exact ⟨rfl, rfl, rfl, rfl, rfl, rfl⟩
      next => exact .refl _
    · simp [State.resumeContext] at hrun
  | failed r d status howner _ _ hstatus =>
    exact hevent.workOkAt_of_ends hs howner (commandEnds_ended _ r d hstatus)
      (fun y hy => by rw [record_setRecord, if_neg hy]) (by simp [State.coreEndUninstalled, State.coreFree]) hcommand
  | begun r d t howner hd hrunning hpassed hgoes =>
    have hold := workConsistent_iff.1 hs.work r d hd
    have hu := hold.checksPassed hpassed
    refine hevent.workOkAt_of_goes hs howner hgoes (fun _ hy => checked_record_of_ne hy) (by rw [checked_frame])
      (pagesPartition_checked hs.pages) hd ((checked_command s r r).trans hd) ?_ hcommand
    rw [checked_mem, State.checked, record_setRecord_self]
    exact hu
  | boundary r d t howner hd hrunning hlast hgoes =>
    have hu := workOk_worked hs.slots hs.memory hs.pages (hs.running howner hrunning hd) trivial hlast
    refine hevent.workOkAt_of_goes hs howner hgoes (fun _ hy => worked_record_of_ne hy) (worked_owner s r d)
      (pagesPartition_worked hs.pages) hd ((worked_command s r r d).trans hd) ?_ hcommand
    rwa [worked_record_self]
  | preempted n d u howner hd hrunning hlast =>
    exact hevent.workOkAt_of_preempted hs howner hd hrunning hlast hcommand
  | faulted r d status howner _ _ _ hstatus =>
    exact hevent.workOkAt_of_ends hs howner (commandEnds_ended _ r d hstatus) (fun _ hy => worked_record_of_ne hy)
      (by simp [State.coreEndUninstalled, State.coreFree]) hcommand
  | committed r d howner =>
    exact hevent.workOkAt_of_ends hs howner (commandEnds_committed _ r d _) (fun _ hy => worked_record_of_ne hy)
      (by simp [State.committed, State.coreFree]) hcommand

/-! ### The events of the other blocks -/

/-- A command whose fields and limbs stay through an event that leaves the Core. -/
theorem Event.workOkAt_of_same {s t : State} (h : Event s t) (hs : s.Sound) {x : Runner} {c : CommandRecord}
    (hcommand : (t.record x).command = some c) (hsame : (t.record x).SameWork (s.record x)) (howner : t.owner = s.owner)
    (hrunning : t.stepRunning = s.stepRunning)
    (hlimbs : ∀ ps, s.Untouched ps → ∀ k, limbAt t.mem ps k = limbAt s.mem ps k) : t.WorkOkAt x c :=
  h.workOk_same hs.pages hs.locks hs.work hcommand hsame (fun hrun => by rwa [howner, hrunning] at hrun)
    fun i => hlimbs _ (hs.pages.untouched_wv x i)

/-- One event keeps the work of each started command (R41, R61, R63). -/
theorem Event.workOkAt {s t : State} (h : Event s t) (hs : s.Sound) {x : Runner} {c : CommandRecord}
    (hcommand : (t.record x).command = some c) : t.WorkOkAt x c := by
  have hevent := h
  have hstays : (t.record x).command ≠ none := by simp [hcommand]
  cases h with
  | registers h =>
    exact hevent.workOkAt_of_same hs hcommand (.of_eq (record_eq_of (by rw [h]) (by rw [h]) x)) (by rw [h]) (by rw [h])
      fun _ _ _ => by rw [h]
  | softReset h =>
    rw [h, softReset_record] at hcommand
    cases hcommand
  | intake h =>
    have h := onlyIntake_of_reflTransGen h
    exact hevent.workOkAt_of_same hs hcommand (.of_eq (record_eq_of (by rw [h]) (by rw [h]) x)) (by rw [h]) (by rw [h])
      fun _ _ _ => by rw [h]
  | context h =>
    refine hevent.workOkAt_of_same hs hcommand (h.sameWork hstays) ?_ ?_ fun _ _ _ => ?_
    all_goals cases h <;> simp [State.writePoolres, State.endUninstalled]
  | protect h =>
    cases h
    exact hevent.workOkAt_of_same hs hcommand (.of_eq (record_eq_of rfl rfl x)) rfl rfl fun _ _ _ => rfl
  | window h =>
    refine hevent.workOkAt_of_same hs hcommand (h.sameWork x) ?_ ?_ fun _ hps => h.limbs hps
    · cases h with
      | moved _ _ _ _ _ hstate => rw [hstate]; rfl
      | _ => simp [State.endSession]
    · cases h with
      | moved _ _ _ _ _ hstate => rw [hstate]; rfl
      | _ => simp [State.endSession]
  | core h => exact h.workOkAt hs hcommand

/-! ### Every slot -/

theorem normalized_closedWindow {s : State} (hs : WindowsConsistent s) (w : WindowId) :
    ((s.closedWindow w).slot (s.window w).slot).Normalized (s.closedWindow w).mem := by
  obtain ⟨u, hu⟩ : ∃ u, u = (s.setSlot (s.window w).slot ((s.slot (s.window w).slot).installed s.mem (s.window w).declSign
    (s.window w).staging (s.window w).declLength)).release
      ((s.slot (s.window w).slot).givenBack s.mem (s.window w).staging (s.window w).declLength) := ⟨_, rfl⟩
  have hclosed : s.closedWindow w = u.endSession w := by rw [hu]; rfl
  have hslot : u.slot (s.window w).slot = (s.slot (s.window w).slot).installed s.mem (s.window w).declSign (s.window w).staging
      (s.window w).declLength := by rw [hu, release_slot, slot_setSlot_self]
  have hmem : u.mem = s.mem := by rw [hu, release_mem, setSlot_mem]
  have hnormal : (u.slot (s.window w).slot).Normalized u.mem := by
    rw [hslot, hmem]
    exact normalized_installed ((trimmedLength_le _ _ _).trans (hs.lengthBound w))
  rw [hclosed, endSession_mem]
  exact hnormal.congr (sameValue_endSession u w _) fun _ => rfl

/-- One event keeps every slot normalized: a slot that it changes has just received a value of at most 512 limbs (R2, R4, R6). -/
theorem Event.normalized {s t : State} (h : Event s t) (hs : s.Sound) (i : SlotId) : (t.slot i).Normalized t.mem := by
  have hold := slotsNormalized_iff.1 hs.slots
  have hkept : (t.slot i).SameValue (s.slot i) → (t.slot i).Normalized t.mem := fun hsame =>
    (hold i).congr hsame fun k => h.limbs (hs.pages.untouched_slot i) (fun _ => hs.pages.notRunning_slot i) k
  obtain hsame | hchanged := h.sameValue i
  · exact hkept hsame
  · cases hchanged with
    | committed r c howner hcommand hrunning hfault _ hstate =>
      have hbounded := bounded_worked hs.slots hs.memory hs.pages (hs.running howner hrunning hcommand) trivial
      have hworked : ∀ k, ((s.worked r c).slot k).Normalized (s.worked r c).mem := fun k =>
        (hold k).congr (.of_eq (worked_slot s r c k)) (limbAt_worked (hs.pages.notRunning_slot k r howner hrunning))
      have hcommit := normalized_commitSlots hworked hbounded (by rwa [← endFault_workedRecord] at hfault) i
      rw [hstate, committed_mem]
      exact hcommit.congr ((commandEnds_committed _ r c _).sameValue (.refl _)) fun _ => rfl
    | closed w _ hslot hstate =>
      subst hslot
      rw [hstate]
      exact normalized_closedWindow hs.windows w

theorem Event.sound {s t : State} (h : Event s t) (hs : s.Sound) : t.Sound :=
  { records := h.recordsConsistent hs.records
    windows := h.windowsConsistent hs.windows
    pages := h.pagesPartition hs.records hs.windows hs.pages
    memory := h.memoryCanonical hs.memory
    locks := h.locksKept hs.records hs.locks
    slots := slotsNormalized_iff.2 (h.normalized hs)
    work := workConsistent_iff.2 fun _ _ hcommand => h.workOkAt hs hcommand }

/-! ### Every step -/

/-- With the records empty, the slots of value zero and the rest in agreement, the values are sound. -/
theorem sound_of_empty {s : State} (hrecords : RecordsConsistent s) (hwindows : WindowsConsistent s) (hpages : PagesPartition s)
    (hmemory : MemoryCanonical s) (hlocks : LocksKept s) (hslot : ∀ i, s.slot i = Slot.empty)
    (hrecord : ∀ r, s.record r = Record.free) : s.Sound :=
  { records := hrecords, windows := hwindows, pages := hpages, memory := hmemory, locks := hlocks
    slots := slotsNormalized_iff.2 fun i => by rw [hslot]; exact normalized_of_empty rfl rfl rfl
    work := workConsistent_iff.2 fun r c hcommand => by rw [hrecord] at hcommand; cases hcommand }

theorem slotsNormalized_congr {s t : State} (hs : SlotsNormalized s) (hslots : t.slots = s.slots) (hmem : t.mem = s.mem) :
    SlotsNormalized t := by
  rw [slotsNormalized_iff] at *
  intro i
  rw [slot_eq_of hslots, hmem]
  exact hs i

/-- The conditions do not read the level of RESET_N or the waiting commands. -/
theorem State.Sound.withQueue {s : State} (hs : s.Sound) (level : PinLevel) (l : List Instr) :
    ({ s with resetN := level, pending := l } : State).Sound := by
  obtain ⟨hrecords, hwindows, hpages, hmemory, hlocks, hslots, hwork⟩ := hs
  exact
    { records := hrecords.congr (record_eq_of rfl rfl) rfl rfl rfl
      windows := hwindows.congr rfl
      pages := hpages.of_fields rfl rfl rfl rfl rfl
      memory := hmemory
      locks := hlocks.of_fields rfl rfl fun r => congrArg Record.command (record_eq_of rfl rfl r)
      slots := slotsNormalized_congr hslots rfl rfl
      work := ⟨hwork.total, hwork.next, hwork.begun, hwork.checked, hwork.resultLength, hwork.divisors, hwork.remainder⟩ }

theorem sound_reset : State.reset.Sound :=
  sound_of_empty recordsConsistent_reset windowsConsistent_reset pagesPartition_reset Memory.wf_nil locksKept_reset reset_slot
    reset_record

/-- Settles O58: an event writes a slot only by an install of a value in bounds, and the sources and destinations of a started command
stay as its checks found them. -/
theorem slotsNormalizedKept : Obligations.SlotsNormalizedKept := by
  intro s t hrecords hwindows hpages hmemory hmatch hexclusive hslots hwork ht
  have hsound := step_keeps (P := State.Sound) (fun level l => sound_reset.withQueue level l)
    (fun s l hs => hs.withQueue s.resetN l) (fun _ _ hs he => he.sound hs)
    ⟨hrecords, hwindows, hpages, hmemory, ⟨hmatch, hexclusive⟩, hslots, hwork⟩ ht
  exact ⟨hsound.slots, hsound.work⟩

end Sys2Proof.Machine
end

section
/-! PROOFS. The queue of waiting commands, the two resets, the timebase and what holds right after a hardware reset (R20, R39, R90, R92,
R156, R159, R161). -/

namespace Sys2Proof.Machine

/-! ### The front of the queue -/

theorem step_of_pending_cons {s : State} {c : Instr} {rest : List Instr} (h : s.pending = c :: rest) :
    step s = exec c { s with pending := rest } := by
  rw [step, h]

/-- Settles O1. -/
theorem stepTakesFrontCommand : Obligations.StepTakesFrontCommand := fun _ _ _ h => step_of_pending_cons h

/-! ### The resets -/

theorem reset_queue (q : QueueId) : State.reset.queue q = IntakeQueue.empty := by cases q <;> rfl

/-- Settles O3: each table of the reset state repeats one entry. -/
theorem resetStateValues : Obligations.ResetStateValues := by
  refine ⟨reset_slot, ?_, rfl, rfl, rfl, reset_queue, rfl, rfl, fun k => Vector.getElem_replicate k.isLt, rfl, rfl, rfl, rfl, rfl,
    reset_record, rfl, rfl, rfl, rfl, rfl, by decide, reset_window⟩
  rw [reset_freeList]
  exact List.map_coe_finRange_eq_range

theorem whenLive_of_low {s : State} (f : State → State) (h : s.resetN = .low) : whenLive f s = .next s := if_pos h

/-- What a command of the host or an event of the part does while RESET_N is high (R156). -/
def liveEffect : Instr → State → State
  | .hardwareReset _ => id
  | .softReset => State.softReset
  | .flushN => fun t => t.flush .normal
  | .flushU => fun t => t.flush .urgent
  | .clearLatchN => fun t => t.clearLatch .normal
  | .clearLatchU => fun t => t.clearLatch .urgent
  | .post _ => State.post
  | .cqpop _ => State.pop
  | .intstatWrite data => fun t => t.writeIntstat data
  | .intenWrite data => fun t => t.writeInten data
  | .tbdivWrite data => fun t => t.writeTbdiv data
  | .holdlimWrite data => fun t => t.writeHoldlim data
  | .poolresWrite data => fun t => t.writePoolres data
  | .registerWrite offset data => fun t => t.busWrite offset data
  | .park target => fun t => t.onTarget target t.park
  | .resume target => fun t => t.onTarget target t.resume
  | .abort target => fun t => t.onTarget target t.abort
  | .abortUrgent _ => State.abortUrgent
  | .setProtect => State.setProtect
  | .clearProtect => State.clearProtect
  | .openRead w slot => fun t => t.openRead w slot
  | .openWrite w slot length sign => fun t => t.openWrite w slot length.toNat sign
  | .seek w index => fun t => t.seek w index.toNat
  | .close w => fun t => t.closeWindow w
  | .cancel w => fun t => t.cancelWindow w
  | .windowDataWrite w data => fun t => t.windowWrite w data
  | .windowDataRead w => fun t => t.windowRead w
  | .winstatWrite w _ => fun t => t.writeWinstat w
  | .timebaseEvent => State.timebase
  | .holdExpiry q => fun t => t.expire q
  | .selection => State.select
  | .stepBegin => State.coreBegin
  | .stepEnd => State.coreEnd

/-- Every command but the pin itself and the read of a window's data waits for the end of the hardware reset (R156). -/
theorem exec_eq_whenLive {c : Instr} (hpin : ∀ level, c ≠ .hardwareReset level) (hread : ∀ w, c ≠ .windowDataRead w) (s : State) :
    exec c s = whenLive (liveEffect c) s := by
  cases c with
  | hardwareReset level => exact absurd rfl (hpin level)
  | windowDataRead w => exact absurd rfl (hread w)
  | _ => rfl

theorem exec_of_low {s : State} (hlow : s.resetN = .low) {c : Instr} (hpin : ∀ level, c ≠ .hardwareReset level)
    (hread : ∀ w, c ≠ .windowDataRead w) : exec c s = .next s :=
  (exec_eq_whenLive hpin hread s).trans (whenLive_of_low _ hlow)

/-- What a command does once the hardware reset has ended. -/
theorem exec_of_live {s : State} (hlive : s.resetN = .high) (c : Instr) (hpin : ∀ level, c ≠ .hardwareReset level := by nofun) :
    exec c s = .next (liveEffect c s) := by
  by_cases hread : ∃ w, c = .windowDataRead w
  · obtain ⟨w, rfl⟩ := hread
    exact if_neg (by simp [hlive])
  · exact (exec_eq_whenLive hpin (fun w h => hread ⟨w, h⟩) s).trans (whenLive_of_high _ hlive)

theorem exec_windowDataRead (w : WindowId) (s : State) :
    exec (.windowDataRead w) s = if s.resetN = .low then .next { s with dataOut := 0 } else .next (s.windowRead w) := rfl

/-- Settles O4. -/
theorem hardwareResetPin : Obligations.HardwareResetPin := by
  refine fun s => ⟨rfl, by simp [State.attnN, State.attnAsserted, State.reset], fun hhigh => ?_, fun hlow => ⟨?_, fun offset => if_pos hlow, fun w => ?_,
    fun c hpin hread => exec_of_low hlow hpin hread⟩⟩
  · exact if_neg (by simp [hhigh])
  · exact exec_hardwareReset_high_of_low hlow
  · rw [exec_windowDataRead, if_pos hlow]

/-- Settles O5. -/
theorem softResetState : Obligations.SoftResetState := fun s hlive =>
  ⟨s.softReset, exec_of_live hlive _, softReset_slot s, by
    rw [State.eq_iff]
    simp [State.softReset, State.clearLocks, State.softResetPages, IntakeQueue.softReset, IntakeQueue.empty, State.reset,
      Config.creditCount], by simp [State.attnN, State.attnAsserted, State.softReset]⟩

/-! ### The timebase -/

/-- An idle CLK period that does not end a timebase period. -/
theorem step_of_idle {s : State} (hlive : s.resetN = .high) (hidle : s.pending = []) (hleft : 1 < s.timebaseLeft) :
    step s = .next { s with timebaseLeft := s.timebaseLeft - 1 } := by
  simp [step, hidle, State.clockTick, hlive, Nat.not_le.2 hleft]

/-- The idle CLK period in which the timebase event is due. -/
theorem step_of_due {s : State} (hlive : s.resetN = .high) (hidle : s.pending = []) (hleft : s.timebaseLeft ≤ 1) :
    step s = .next s.timebase := by
  simp [step, hidle, State.clockTick, hlive, hleft]

theorem stepTimes_succ_of_next {s t : State} (h : step s = .next t) (n : Nat) : stepTimes (n + 1) s = stepTimes n t := by
  rw [stepTimes, h]

/-- Idle CLK periods before the timebase event is due only bring it nearer (R90). -/
theorem stepTimes_of_lt (k : Nat) {s : State} (hlive : s.resetN = .high) (hidle : s.pending = []) (hk : k < s.timebaseLeft) :
    stepTimes k s = .next { s with timebaseLeft := s.timebaseLeft - k } := by
  induction k generalizing s with
  | zero => rfl
  | succ k ih =>
    rw [stepTimes_succ_of_next (step_of_idle hlive hidle (by omega)),
      ih (s := { s with timebaseLeft := s.timebaseLeft - 1 }) hlive hidle (Nat.lt_sub_of_add_lt hk), Nat.sub_sub,
      Nat.add_comm 1 k]

/-- The timebase event comes when as many idle CLK periods have passed as were left (R90). -/
theorem stepTimes_timebaseLeft (n : Nat) {s : State} (hlive : s.resetN = .high) (hidle : s.pending = [])
    (hn : s.timebaseLeft = n + 1) : stepTimes (n + 1) s = .next s.timebase := by
  induction n generalizing s with
  | zero => rw [stepTimes_succ_of_next (step_of_due hlive hidle hn.le), stepTimes]
  | succ n ih =>
    rw [stepTimes_succ_of_next (step_of_idle hlive hidle (by omega))]
    exact ih hlive hidle (by simp [hn])

/-- Settles O7. -/
theorem tbdivWriteRestartsTimebase : Obligations.TbdivWriteRestartsTimebase := by
  intro s data hlive hidle
  have hlive' : (s.writeTbdiv data).resetN = .high := hlive
  refine ⟨s.writeTbdiv data, exec_of_live hlive _, rfl, readRegister_of_high hlive' _, fun k hk => ?_, ?_⟩
  · exact stepTimes_of_lt k hlive' hidle hk
  · have hpos : 0 < 16 * ((s.writeTbdiv data).tbdiv.toNat + 1) := by omega
    obtain ⟨n, hn⟩ := Nat.exists_eq_succ_of_ne_zero hpos.ne'
    rw [exec_of_live hlive' .timebaseEvent, hn]
    exact stepTimes_timebaseLeft n hlive' hidle hn

theorem countTimebase_frame (k : IntakeQueue) : k.countTimebase = { k with timer := k.countTimebase.timer } := by
  unfold IntakeQueue.countTimebase
  split <;> rfl

theorem queue_timebase (s : State) (q : QueueId) : s.timebase.queue q = (s.queue q).countTimebase := by cases q <;> rfl

theorem timer_countTimebase_running {k : IntakeQueue} {n : Nat} (h : k.timer = .running n) :
    k.countTimebase.timer = if k.limit.toNat ≤ n + 1 then .expiring else .running (n + 1) := by
  simp [IntakeQueue.countTimebase, h]

theorem countTimebase_of_stopped {k : IntakeQueue} (h : k.timer = .stopped) : k.countTimebase = k := by
  simp [IntakeQueue.countTimebase, h]

theorem countTimebase_of_expiring {k : IntakeQueue} (h : k.timer = .expiring) : k.countTimebase = k := by
  simp [IntakeQueue.countTimebase, h]

/-- Settles O8. -/
theorem timebaseEventCounts : Obligations.TimebaseEventCounts := by
  refine fun s hlive => ⟨s.timebase, exec_of_live hlive _, ?frame, fun q => ?timers⟩
  case frame =>
    rw [State.eq_iff]
    simpa [State.timebase, Config.timebasePeriod] using ⟨countTimebase_frame s.nq, countTimebase_frame s.uq⟩
  case timers =>
    rw [queue_timebase]
    refine ⟨fun h => ?_, fun h => ?_, fun n h => ⟨fun hlimit => ?_, fun hlimit => ?_⟩⟩
    · rw [countTimebase_of_stopped h, h]
    · rw [countTimebase_of_expiring h, h]
    · rw [timer_countTimebase_running h, if_pos hlimit]
    · rw [timer_countTimebase_running h, if_neg (Nat.not_le.2 hlimit)]

/-! ### Right after a hardware reset -/

/-- Settles O60. -/
theorem conditionsHoldAtReset : Obligations.ConditionsHoldAtReset :=
  ⟨Memory.wf_nil, recordsConsistent_reset, creditsKept_reset.1, creditsKept_reset.2, queuesMatch_reset, pagesPartition_reset,
    locksKept_reset.2, locksKept_reset.1, indicatorsTrue_reset, windowsConsistent_reset, sound_reset.slots, sound_reset.work⟩

end Sys2Proof.Machine
end

section
/-! PROOFS. The Command Intake: flushes, the record a POST takes and its refusals, what an accepted command does to its queue, the hold
limits and the expiry of a hold timer (R22, R25 to R27, R33, R34, R36, R37, R91, R93). -/

namespace Sys2Proof.Machine

/-! ### A queue by its fields -/

theorem IntakeQueue.eq_of_fields {k k' : IntakeQueue} (hentries : k.entries = k'.entries) (hlatch : k.latch = k'.latch)
    (hblocked : k.blocked = k'.blocked) (htimer : k.timer = k'.timer) (hlimit : k.limit = k'.limit) : k = k' := by
  cases k
  cases k'
  simp_all

@[simp] theorem appendRecords_cq (s : State) (rs : List CompletionRecord) (notify : Bool) :
    (s.appendRecords rs notify).cq = s.cq ++ rs := by
  rw [appendRecords_frame]

/-! ### Flushes -/

theorem queue_flush_self (s : State) (q : QueueId) :
    (s.flush q).queue q = { s.queue q with entries := [], blocked := false, timer := .stopped } := by
  simp [State.flush, headGone_eq]

theorem queue_flush_of_ne (s : State) {q p : QueueId} (hp : p ≠ q) : (s.flush q).queue p = s.queue p := by
  simp [State.flush, headGone_eq, queue_setQueue, hp]

theorem flush_frame (s : State) (q : QueueId) :
    s.flush q = { s with
      nq := (s.flush q).nq, uq := (s.flush q).uq
      cq := s.cq ++ (s.queue q).entries.map (recordOfUnstarted .flushed)
      intstat := s.intstat ||| notifyBit (s.queue q).entries
      preemptPending := (s.flush q).preemptDue } := by
  rw [State.eq_iff]
  refine ⟨by simp [State.flush], ?_⟩
  simp [State.flush, intstat_appendRecords_any, preemptDue_refreshPreempt, unstartedRecord_eq]

theorem preemptDue_flush_normal (s : State) : (s.flush .normal).preemptDue = s.preemptDue :=
  preemptDue_congr (fun i => by simp [State.flush]) (congrArg _ (congrArg _ (queue_flush_of_ne s (q := .normal) (p := .urgent) nofun)))
    (by simp [State.flush])

theorem preemptDue_of_uq_nil {s : State} (h : s.uq.entries = []) : s.preemptDue = false := by
  have hhead : s.head .urgent = none := by simp [State.head, State.queue, h]
  unfold State.preemptDue
  split <;> simp [State.headStartable, hhead]

/-- Settles O9. -/
theorem flushCompletesWaitingCommands : Obligations.FlushCompletesWaitingCommands := by
  refine fun s hlive => ⟨fun hpreempt => ?normal, ?urgent, exec_of_live hlive _, exec_of_live hlive _⟩
  case normal =>
    have hnq : (s.flush .normal).nq = _ := queue_flush_self s .normal
    have huq : (s.flush .normal).uq = s.uq := queue_flush_of_ne s (q := .normal) (p := .urgent) nofun
    refine (exec_of_live hlive .flushN).trans (congrArg _ ((flush_frame s .normal).trans ?_))
    rw [hnq, huq, preemptDue_flush_normal, ← hpreempt]
    rfl
  case urgent =>
    have huq : (s.flush .urgent).uq = _ := queue_flush_self s .urgent
    have hnq : (s.flush .urgent).nq = s.nq := queue_flush_of_ne s (q := .urgent) (p := .normal) nofun
    refine (exec_of_live hlive .flushU).trans (congrArg _ ((flush_frame s .urgent).trans ?_))
    rw [preemptDue_of_uq_nil (by rw [huq]), hnq, huq]
    rfl

/-! ### The staged record -/

/-- The kind codes: 0 and those above 15 name no kind, every other one the kind of that code (R163). -/
theorem kindOfCode_cases (code : BitVec 5) :
    (kindOfCode code = none ∧ (code.toNat = 0 ∨ 15 < code.toNat)) ∨
      ∃ kind, kindOfCode code = some kind ∧ kind.code = code.toNat ∧ 1 ≤ code.toNat ∧ code.toNat ≤ 15 := by
  have hsome : ∀ code : BitVec 5, (kindOfCode code).all (fun kind => kind.code = code.toNat) = true := by decide
  have hnone : ∀ code : BitVec 5, (kindOfCode code).isNone = decide (code.toNat = 0 ∨ 15 < code.toNat) := by decide
  have hs := hsome code
  have hn := hnone code
  cases h : kindOfCode code with
  | none => exact .inl ⟨rfl, by simpa [h] using hn⟩
  | some kind =>
    refine .inr ⟨kind, rfl, by simpa [h] using hs, ?_⟩
    have hbounds : ¬ (code.toNat = 0 ∨ 15 < code.toNat) := by simpa [h] using hn
    omega

theorem toNat_wordField_zero (x : Word) (width : Nat) : (wordField x 0 width).toNat = x.toNat % 2 ^ width := by
  simp [wordField]

theorem stagedRecord_of_kind {s : State} {kind : Kind} (h : kindOfCode (wordField s.subw[0] 0 5) = some kind) :
    s.stagedRecord = some
      { kind := kind
        queue := if s.subw[0].getLsbD 8 then .urgent else .normal
        policy := if s.subw[0].getLsbD 9 then .skip else .run
        notify := s.subw[0].getLsbD 10, tag := s.subw[0].extractLsb' 16 16
        d := s.subw[1].extractLsb' 0 6, d2 := s.subw[1].extractLsb' 8 6
        a := s.subw[1].extractLsb' 16 6, b := s.subw[1].extractLsb' 24 6
        m := s.subw[2].extractLsb' 0 6, imm := s.subw[3] } := by
  rw [State.stagedRecord, recordOfWords, h]
  rfl

/-- The record that the staging words spell, or none (R22, R163). -/
theorem stagedRecord_cases (s : State) :
    (s.stagedRecord = none ∧ (s.subw[0].toNat % 32 = 0 ∨ 15 < s.subw[0].toNat % 32)) ∨
      ∃ c, s.stagedRecord = some c ∧ c.kind.code = s.subw[0].toNat % 32 ∧ (1 ≤ s.subw[0].toNat % 32 ∧ s.subw[0].toNat % 32 ≤ 15) ∧
      c.queue = (if s.subw[0].getLsbD 8 then .urgent else .normal) ∧
      c.policy = (if s.subw[0].getLsbD 9 then .skip else .run) ∧
      c.notify = s.subw[0].getLsbD 10 ∧ c.tag = s.subw[0].extractLsb' 16 16 ∧
      c.d = s.subw[1].extractLsb' 0 6 ∧ c.d2 = s.subw[1].extractLsb' 8 6 ∧
      c.a = s.subw[1].extractLsb' 16 6 ∧ c.b = s.subw[1].extractLsb' 24 6 ∧
      c.m = s.subw[2].extractLsb' 0 6 ∧ c.imm = s.subw[3] := by
  have hcode : (wordField s.subw[0] 0 5).toNat = s.subw[0].toNat % 32 := toNat_wordField_zero _ 5
  rw [← hcode]
  obtain ⟨hnone, hcodes⟩ | ⟨kind, hkind, hkcode, hbounds⟩ := kindOfCode_cases (wordField s.subw[0] 0 5)
  · exact .inl ⟨by simp [State.stagedRecord, recordOfWords, hnone], hcodes⟩
  · exact .inr ⟨_, stagedRecord_of_kind hkind, hkcode, hbounds, rfl, rfl, rfl, rfl, rfl, rfl, rfl, rfl, rfl, rfl⟩

/-! ### The checks of a POST -/

theorem badSlot_iff {c : CommandRecord} : c.badSlot = true ↔ ∃ f ∈ c.dests ++ c.sources, 48 ≤ f.toNat := by
  simp only [CommandRecord.badSlot, List.any_eq_true, decide_eq_true_eq, slotNumber_eq_none]

theorem badForm_iff {c : CommandRecord} :
    c.badForm = true ↔ (c.kind = .divmod ∧ c.d = c.d2) ∨ ((c.kind = .shl ∨ c.kind = .shr) ∧ 16384 < c.imm.toNat) := by
  unfold CommandRecord.badForm CommandRecord.shift
  split <;> rename_i h <;> simp [h]

theorem queueSize_le_iff {s : State} {c : CommandRecord} :
    queueSize c.queue ≤ (s.queue c.queue).entries.length ↔
      (c.queue = .normal ∧ 12 ≤ s.nq.entries.length) ∨ (c.queue = .urgent ∧ 4 ≤ s.uq.entries.length) := by
  cases h : c.queue <;> simp [queueSize, State.queue]

/-- A refused POST changes LASTRES alone (R25). -/
theorem exec_post_refused {s : State} (hlive : s.resetN = .high) {result : PostResult} (hresult : s.judge s.stagedRecord = result)
    (hrefused : result ≠ .accepted) (data : Word) : exec (.post data) s = .next { s with lastres := result } := by
  rw [exec_of_live hlive (.post data)]
  obtain ⟨c, hstaged, hjudge, -⟩ | ⟨-, hpost⟩ := post_cases s
  · rw [hstaged] at hresult
    exact absurd (hresult.symm.trans hjudge) hrefused
  · exact congrArg _ (hpost.trans (by rw [hresult]))

theorem exec_post_accepted {s : State} (hlive : s.resetN = .high) {c : CommandRecord} (hstaged : s.stagedRecord = some c)
    (hjudge : s.judge (some c) = .accepted) (data : Word) : exec (.post data) s = .next (s.accept c) := by
  rw [exec_of_live hlive (.post data)]
  obtain ⟨d, hd, -, hpost⟩ | ⟨hrefused, -⟩ := post_cases s
  · obtain rfl : d = c := Option.some.inj (hd.symm.trans hstaged)
    exact congrArg _ hpost
  · exact absurd (hstaged ▸ hjudge) hrefused

/-- Settles O12. -/
theorem postRefusalsInOrder : Obligations.PostRefusalsInOrder := by
  refine ⟨fun s => ?spelled, fun s data hlive => ⟨fun hnone => ?badKind, fun c hstaged => ?_⟩⟩
  case spelled =>
    obtain ⟨hnone, hcodes⟩ | ⟨c, hsome, hcode, hbounds, hfields⟩ := stagedRecord_cases s
    · exact ⟨fun _ => hnone, fun _ _ => by omega⟩
    · exact ⟨fun _ => by omega, fun _ _ => ⟨c, hsome, hcode, hfields⟩⟩
  case badKind => exact exec_post_refused hlive (result := .badKind) (by rw [hnone]; rfl) nofun data
  intro badSlot badForm full
  have hslot : c.badSlot = true ↔ badSlot := badSlot_iff
  have hform : c.badForm = true ↔ badForm := badForm_iff
  have hfull : queueSize c.queue ≤ (s.queue c.queue).entries.length ↔ full := queueSize_le_iff
  have hjudge : s.judge s.stagedRecord = if c.badSlot then .badSlot else if c.badForm then .badForm else if s.credits = 0 then .noCredit
      else if queueSize c.queue ≤ (s.queue c.queue).entries.length then .queueFull else .accepted := by rw [hstaged]; rfl
  refine ⟨fun h1 => ?_, fun h1 h2 => ?_, fun h1 h2 h3 => ?_, fun h1 h2 h3 h4 => ?_⟩
  · exact exec_post_refused hlive (hjudge.trans (if_pos (hslot.2 h1))) nofun data
  · exact exec_post_refused hlive (result := .badForm) (by rw [hjudge, if_neg (mt hslot.1 h1), if_pos (hform.2 h2)]) nofun data
  · exact exec_post_refused hlive (result := .noCredit)
      (by rw [hjudge, if_neg (mt hslot.1 h1), if_neg (mt hform.1 h2), if_pos h3]) nofun data
  · exact exec_post_refused hlive (result := .queueFull)
      (by rw [hjudge, if_neg (mt hslot.1 h1), if_neg (mt hform.1 h2), if_neg h3, if_pos (hfull.2 h4)]) nofun data

/-! ### An accepted command -/

theorem registerWord_post (s : State) :
    s.registerWord 0x0C =
      0#5 ++ BitVec.ofNat 3 s.uq.entries.length ++ 0#4 ++ BitVec.ofNat 4 s.nq.entries.length ++ 0#3 ++ BitVec.ofNat 5 s.credits ++
        0#5 ++ BitVec.ofNat 3 s.lastres.code := by
  refine .trans ?_ (BitVec.setWidth_eq (n := 32) _)
  simp only [setWidth_append_ofNat, BitVec.shiftLeft_or_distrib, readField_shiftLeft, BitVec.setWidth_zero,
    BitVec.zero_shiftLeft, BitVec.or_zero]
  change s.readPost = _
  simp [State.readPost, BitVec.or_assoc]

/-- The state in which an accepted command stands at the tail of its queue, before any test of a new head (R25). -/
def State.joined (s : State) (c : CommandRecord) : State :=
  ({ s with credits := s.credits - 1, lastres := .accepted } : State).setQueue c.queue
    { s.queue c.queue with entries := (s.queue c.queue).entries ++ [c] }

theorem queue_joined_self (s : State) (c : CommandRecord) :
    (s.joined c).queue c.queue = { s.queue c.queue with entries := (s.queue c.queue).entries ++ [c] } := queue_setQueue_self _ _ _

theorem queue_joined_of_ne (s : State) (c : CommandRecord) {q : QueueId} (h : q ≠ c.queue) :
    (s.joined c).queue q = s.queue q := by
  rw [State.joined, queue_setQueue, if_neg h]
  cases q <;> rfl

theorem accept_of_ne_nil {s : State} {c : CommandRecord} (h : (s.queue c.queue).entries ≠ []) : s.accept c = s.joined c := if_neg h

theorem accept_of_nil {s : State} {c : CommandRecord} (h : (s.queue c.queue).entries = []) :
    s.accept c = ((s.joined c).newHead c.queue).refreshPreempt := if_pos h

theorem headBlocked_of_cons {s : State} {q : QueueId} {c : CommandRecord} {rest : List CommandRecord}
    (h : (s.queue q).entries = c :: rest) : s.headBlocked q = !s.startable c := by
  simp [State.headBlocked, State.head, h]

theorem headBlocked_of_nil {s : State} {q : QueueId} (h : (s.queue q).entries = []) : s.headBlocked q = false := by
  simp [State.headBlocked, State.head, h]

theorem joined_frame (s : State) (c : CommandRecord) :
    s.joined c = { s with credits := s.credits - 1, lastres := .accepted, nq := (s.joined c).nq, uq := (s.joined c).uq } := by
  unfold State.joined
  cases c.queue <;> rfl

theorem accept_of_nil_frame (s : State) (c : CommandRecord) :
    (((s.joined c).newHead c.queue).refreshPreempt) =
      { s with
        credits := s.credits - 1, lastres := .accepted
        nq := (((s.joined c).newHead c.queue).refreshPreempt).nq, uq := (((s.joined c).newHead c.queue).refreshPreempt).uq
        cq := (((s.joined c).newHead c.queue).refreshPreempt).cq
        intstat := (((s.joined c).newHead c.queue).refreshPreempt).intstat
        preemptPending := (((s.joined c).newHead c.queue).refreshPreempt).preemptPending } := by
  obtain ⟨t, ht⟩ : ∃ t, t = (s.joined c).newHead c.queue := ⟨_, rfl⟩
  have hframe := newHead_frame (s.joined c) c.queue
  rw [← ht] at hframe ⊢
  rw [joined_frame] at hframe
  unfold State.refreshPreempt
  rw [hframe]

/-- A command accepted into an empty queue whose latch skips it (R33, R37). -/
theorem queue_newHead_of_skip {s : State} {q : QueueId} {c : CommandRecord} (hentries : (s.queue q).entries = [c])
    (hlatch : (s.queue q).latch = true) (hskip : c.policy = .skip) :
    (s.newHead q).queue q = { s.queue q with entries := [], blocked := false, timer := .stopped } ∧
      (s.newHead q).cq = s.cq ++ [recordOfUnstarted .skipped c] ∧ (s.newHead q).intstat = s.intstat ||| notifyBit [c] := by
  obtain ⟨hnew, hnlatch, hnlimit, -, hcq, hint⟩ := newHead_spec s q
  obtain ⟨hblocked, htimer⟩ := timer_newHead s q
  have hnil : ((s.newHead q).queue q).entries = [] := by rw [hnew, if_pos hlatch, hentries]; simp [hskip]
  rw [headBlocked_of_nil hnil] at hblocked htimer
  have hrun : skipRun [c] = [c] := by simp [skipRun, hskip]
  refine ⟨IntakeQueue.eq_of_fields hnil hnlatch hblocked (by simpa using htimer) hnlimit, ?_, ?_⟩
  · rw [hcq, if_pos hlatch, hentries, hrun]; rfl
  · rw [hint, if_pos hlatch, hentries, hrun]

/-- A command accepted into an empty queue that is not skipped (R33, R37). -/
theorem queue_newHead_of_not_skip {s : State} {q : QueueId} {c : CommandRecord} (hentries : (s.queue q).entries = [c])
    (hskip : ¬ ((s.queue q).latch = true ∧ c.policy = .skip)) :
    (s.newHead q).queue q = { s.queue q with
        blocked := !s.startable c
        timer := if s.startable c ∨ (s.queue q).limit = 0 then .stopped else .running 0 } ∧
      (s.newHead q).cq = s.cq ∧ (s.newHead q).intstat = s.intstat := by
  obtain ⟨hnew, hnlatch, hnlimit, -, hcq, hint⟩ := newHead_spec s q
  obtain ⟨hblocked, htimer⟩ := timer_newHead s q
  have hone : ((s.newHead q).queue q).entries = [c] := by
    rw [hnew, hentries]
    split
    next hlatch =>
      have hrun : c.policy ≠ .skip := fun h => hskip ⟨hlatch, h⟩
      simp [hrun]
    next => rfl
  have hrun : (if (s.queue q).latch then skipRun (s.queue q).entries else []) = [] := by
    split
    next hlatch =>
      have hrun : c.policy ≠ .skip := fun h => hskip ⟨hlatch, h⟩
      simp [skipRun, hentries, hrun]
    next => rfl
  have hstartable : (s.newHead q).startable c = s.startable c := startable_congr (fun i => by simp) c
  rw [headBlocked_of_cons hone, hstartable] at hblocked htimer
  refine ⟨IntakeQueue.eq_of_fields (hone.trans hentries.symm) hnlatch hblocked (htimer.trans ?_) hnlimit, ?_, ?_⟩
  · cases s.startable c <;> by_cases hlimit : (s.queue q).limit = 0 <;> simp [hlimit]
  · rw [hcq, hrun]; simp
  · rw [hint, hrun]; simp [notifyBit_nil]

/-- Settles O13. -/
theorem postAcceptedTakesACredit : Obligations.PostAcceptedTakesACredit := by
  refine ⟨fun s data hlive => ⟨hostAccess_read_eq_nil (by decide) (by decide) data, ?_⟩, rfl,
    fun s data c hlive hstaged hslots hform hcredits hroom => ?_⟩
  · rw [readRegister_of_high hlive, registerWord_post]
  have hjudge : s.judge (some c) = .accepted := by
    have hslot : ¬ c.badSlot = true := fun h => by
      obtain ⟨f, hf, hle⟩ := badSlot_iff.1 h
      exact absurd (hslots f hf) (by omega)
    have hnotFull : ¬ queueSize c.queue ≤ (s.queue c.queue).entries.length := by
      refine Nat.not_le.2 (hroom.trans_eq ?_)
      cases c.queue <;> rfl
    simp only [State.judge]
    rw [if_neg hslot, if_neg (mt badForm_iff.1 hform), if_neg hcredits, if_neg hnotFull]
  refine ⟨fun hbehind => ?behind, fun hempty => ?first⟩
  case behind =>
    rw [exec_post_accepted hlive hstaged hjudge, accept_of_ne_nil hbehind]
    unfold State.joined
    cases c.queue <;> rfl
  case first =>
    have hjoined : ((s.joined c).queue c.queue).entries = [c] := by rw [queue_joined_self, hempty]; rfl
    have hqueue : (s.joined c).queue c.queue = { s.queue c.queue with entries := [c] } := by rw [queue_joined_self, hempty]; rfl
    have hcq : (s.joined c).cq = s.cq := by rw [joined_frame]
    have hint : (s.joined c).intstat = s.intstat := by rw [joined_frame]
    have hstart : (s.joined c).startable c = s.startable c :=
      startable_congr (fun i => by rw [slot_eq_of (show (s.joined c).slots = s.slots by rw [joined_frame])]; exact ⟨rfl, rfl⟩) c
    refine ⟨_, (exec_post_accepted hlive hstaged hjudge data).trans (by rw [accept_of_nil hempty]), accept_of_nil_frame s c, rfl,
      fun q hq => ?_, fun ⟨hlatch, hskip⟩ => ?_, fun hskip => ?_⟩
    · rw [refreshPreempt_queue, (newHead_spec _ _).2.2.2.1 q hq, queue_joined_of_ne s c hq]
    · obtain ⟨h1, h2, h3⟩ := queue_newHead_of_skip hjoined (by rw [hqueue]; exact hlatch) hskip
      rw [refreshPreempt_queue, refreshPreempt_cq, refreshPreempt_intstat, h1, h2, h3, hcq, hint, hqueue, ← hempty]
      exact ⟨rfl, rfl, rfl⟩
    · obtain ⟨h1, h2, h3⟩ := queue_newHead_of_not_skip hjoined (by rw [hqueue]; exact hskip)
      rw [refreshPreempt_queue, refreshPreempt_cq, refreshPreempt_intstat, h1, h2, h3, hcq, hint, hqueue, hstart]
      exact ⟨rfl, rfl, rfl⟩

end Sys2Proof.Machine
end

section
/-! PROOFS. The hold limits and the expiry of a hold timer; the pool reserve and the protect requests (R14, R16, R17, R91, R93, R119). -/

namespace Sys2Proof.Machine

/-! ### The hold limits -/

theorem writeLimit_frame (k : IntakeQueue) (limit : BitVec 16) :
    k.writeLimit limit = { k with limit := limit, timer := (k.writeLimit limit).timer } := by
  unfold IntakeQueue.writeLimit
  split
  next h => subst h; rfl
  next => split <;> [rfl; (split <;> rfl)]

/-- The table of R91. -/
theorem timer_writeLimit (k : IntakeQueue) (limit : BitVec 16) :
    (limit = k.limit → (k.writeLimit limit).timer = k.timer) ∧
      (k.limit ≠ 0 → limit = 0 → (k.writeLimit limit).timer = .stopped) ∧
      (k.limit = 0 → limit ≠ 0 → k.blocked = true → (k.writeLimit limit).timer = .running 0) ∧
      (k.limit = 0 → limit ≠ 0 → k.blocked = false → (k.writeLimit limit).timer = k.timer) ∧
      (k.limit ≠ 0 → limit ≠ 0 → (k.writeLimit limit).timer = k.timer) := by
  unfold IntakeQueue.writeLimit
  refine ⟨fun h => by rw [if_pos h], fun h h0 => ?_, fun h h0 hb => ?_, fun h h0 hb => ?_, fun h h0 => ?_⟩
  · have hne : limit ≠ k.limit := by rw [h0]; exact h.symm
    rw [if_neg hne, if_pos h0]
  · have hne : limit ≠ k.limit := by rw [h]; exact h0
    rw [if_neg hne, if_neg h0, if_pos ⟨h, hb⟩]
  · have hne : limit ≠ k.limit := by rw [h]; exact h0
    rw [if_neg hne, if_neg h0, if_neg (by simp [hb])]
  · have hne : ¬ (k.limit = 0 ∧ k.blocked = true) := fun hk => h hk.1
    rw [if_neg h0, if_neg hne]
    split <;> rfl

theorem queue_writeHoldlim (s : State) (data : Word) (q : QueueId) :
    (s.writeHoldlim data).queue q =
      (s.queue q).writeLimit (if q = .normal then data.extractLsb' 0 16 else data.extractLsb' 16 16) := by
  cases q <;> rfl

theorem registerWord_holdlim {s : State} {data : Word} (hn : s.nq.limit = data.extractLsb' 0 16)
    (hu : s.uq.limit = data.extractLsb' 16 16) : s.registerWord 0x05 = data := by
  change readField 0 16 s.nq.limit.toNat ||| readField 16 16 s.uq.limit.toNat = data
  refine BitVec.eq_of_getLsbD_eq fun i hi => ?_
  rw [hn, hu, BitVec.getLsbD_or, getLsbD_readField, getLsbD_readField, BitVec.testBit_toNat, BitVec.testBit_toNat,
    BitVec.getLsbD_extractLsb', BitVec.getLsbD_extractLsb']
  by_cases h : i < 16
  · simp [h, Nat.not_le.2 h, hi]
  · have hle : 16 ≤ i := by omega
    simp [h, hle, hi, show i - 16 < 16 by omega]

/-- Settles O15. -/
theorem holdlimWriteSetsLimits : Obligations.HoldlimWriteSetsLimits := by
  intro s data hlive
  have hnq : (s.writeHoldlim data).nq = s.nq.writeLimit (data.extractLsb' 0 16) := rfl
  have huq : (s.writeHoldlim data).uq = s.uq.writeLimit (data.extractLsb' 16 16) := rfl
  have hlimit (q : QueueId) : ((s.writeHoldlim data).queue q).limit =
      if q = .normal then data.extractLsb' 0 16 else data.extractLsb' 16 16 := by
    rw [queue_writeHoldlim, writeLimit_frame]
  refine ⟨s.writeHoldlim data, exec_of_live hlive _, ?frame, ?read, fun q => ?timer⟩
  case frame =>
    rw [State.eq_iff]
    simpa [State.writeHoldlim] using ⟨writeLimit_frame s.nq _, writeLimit_frame s.uq _⟩
  case read =>
    refine (readRegister_of_high (by exact hlive) _).trans (registerWord_holdlim ?_ ?_)
    · exact hlimit .normal
    · exact hlimit .urgent
  case timer =>
    intro old new
    have hnew : new = if q = .normal then data.extractLsb' 0 16 else data.extractLsb' 16 16 := hlimit q
    rw [queue_writeHoldlim, ← hnew]
    exact timer_writeLimit old new

/-! ### The expiry of a hold timer -/

theorem skipRun_dropWhile (l : List CommandRecord) : skipRun (l.dropWhile fun d => d.policy = .skip) = [] := by
  induction l with
  | nil => rfl
  | cons c l ih =>
    rw [List.dropWhile_cons]
    split
    next => exact ih
    next h => simpa [skipRun] using h

theorem dropWhile_skip_idem (l : List CommandRecord) :
    (l.dropWhile fun d => d.policy = .skip).dropWhile (fun d => d.policy = .skip) = l.dropWhile fun d => d.policy = .skip :=
  List.dropWhile_idempotent _ l

theorem expire_of_not_expiring {s : State} {q : QueueId} (h : (s.queue q).timer ≠ .expiring) : s.expire q = s := by
  unfold State.expire
  split
  next ht _ => exact absurd ht h
  next => rfl

/-- The state after the head of a queue has been HELD, before the head behind it is tested (R93). -/
def State.held (s : State) (c : CommandRecord) : State :=
  ((((s.dropHead c.queue).headGone c.queue).postRecord (unstartedRecord .held c) c.notify).raise .held)

theorem expire_of_expiring {s : State} {c : CommandRecord} {rest : List CommandRecord}
    (htimer : (s.queue c.queue).timer = .expiring) (hentries : (s.queue c.queue).entries = c :: rest) :
    s.expire c.queue = ((s.held c).newHead c.queue).refreshPreempt := by
  simp [State.expire, State.held, State.head, htimer, hentries]

theorem held_spec {s : State} {c : CommandRecord} {rest : List CommandRecord} (hentries : (s.queue c.queue).entries = c :: rest) :
    ((s.held c).queue c.queue).latch = true ∧ ((s.held c).queue c.queue).limit = (s.queue c.queue).limit ∧
      ((s.held c).queue c.queue).entries = rest.dropWhile (fun d => d.policy = .skip) ∧
      (∀ p, p ≠ c.queue → (s.held c).queue p = s.queue p) ∧
      (s.held c).cq = s.cq ++ recordOfUnstarted .held c :: (skipRun rest).map (recordOfUnstarted .skipped) ∧
      (s.held c).intstat = s.intstat ||| IntFlag.latch.mask ||| IntFlag.held.mask ||| notifyBit (c :: skipRun rest) := by
  obtain ⟨u, hu⟩ : ∃ u, u = (s.dropHead c.queue).headGone c.queue := ⟨_, rfl⟩
  have hqueue : u.queue c.queue = { s.queue c.queue with entries := rest, blocked := false, timer := .stopped } := by
    rw [hu, headGone_eq, queue_setQueue_self, dropHead_eq, queue_setQueue_self, hentries]
    rfl
  have hother (p : QueueId) (hp : p ≠ c.queue) : u.queue p = s.queue p := by
    rw [hu, headGone_eq, queue_setQueue, if_neg hp, dropHead_eq, queue_setQueue, if_neg hp]
  have hcq : u.cq = s.cq := by rw [hu]; simp
  have hint : u.intstat = s.intstat := by rw [hu]; simp
  obtain ⟨hlatch, hlimit, hnew, hothers, hposted, hflags⟩ := postRecord_spec u (unstartedRecord .held c) c rfl
  have hsets : (unstartedRecord .held c).status.setsLatch = true := rfl
  simp only [hqueue, hsets, if_true, Bool.or_true] at hlatch hlimit hnew hposted hflags
  have hheld : s.held c = (u.postRecord (unstartedRecord .held c) c.notify).raise .held := by rw [hu]; rfl
  rw [hheld]
  refine ⟨?_, ?_, ?_, fun p hp => ?_, ?_, ?_⟩
  · rw [raise_queue, hlatch]
  · rw [raise_queue, hlimit]
  · rw [raise_queue, hnew]
  · rw [raise_queue, hothers p hp, hother p hp]
  · rw [raise_cq, hposted, hcq, unstartedRecord_eq]
  · rw [State.raise, hflags, hint]
    simp only [BitVec.or_assoc]
    rw [BitVec.or_comm (notifyBit _)]

/-- Settles O16. -/
theorem holdExpiryHoldsTheHead : Obligations.HoldExpiryHoldsTheHead := by
  refine fun s q hlive => ⟨fun h => ?_, fun c rest htimer hentries hq => ?_⟩
  · exact (exec_of_live hlive (.holdExpiry q)).trans (congrArg _ (expire_of_not_expiring h))
  subst hq
  obtain ⟨v, hv⟩ : ∃ v, v = s.held c := ⟨_, rfl⟩
  obtain ⟨hlatch, hlimit, hentries', hothers, hcq, hint⟩ := held_spec hentries
  rw [← hv] at hlatch hlimit hentries' hothers hcq hint
  obtain ⟨t, ht⟩ : ∃ t, t = (v.newHead c.queue).refreshPreempt := ⟨_, rfl⟩
  obtain ⟨hnew, hnlatch, hnlimit, hnothers, hncq, hnint⟩ := newHead_spec v c.queue
  obtain ⟨hblocked, hntimer⟩ := timer_newHead v c.queue
  have hskip : (if (v.queue c.queue).latch then skipRun (v.queue c.queue).entries else []) = [] := by
    rw [if_pos hlatch, hentries', skipRun_dropWhile]
  have htqueue (p : QueueId) : t.queue p = (v.newHead c.queue).queue p := by rw [ht, refreshPreempt_queue]
  have hthead : t.headBlocked c.queue = (v.newHead c.queue).headBlocked c.queue :=
    headBlocked_congr (fun i => by rw [ht]; exact ⟨rfl, rfl⟩) (by rw [htqueue])
  refine ⟨t, (exec_of_live hlive (.holdExpiry c.queue)).trans (congrArg _ ?_), ?_, fun p hp => ?_, ?_, ?_, ?_, ?_, ?_, ?_, ?_, ?_⟩
  · exact (expire_of_expiring htimer hentries).trans (by rw [ht, hv])
  · rw [ht, State.eq_iff]
    simp [hv, State.held]
  · rw [htqueue, hnothers p hp, hothers p hp]
  · rw [htqueue, hnew, if_pos hlatch, hentries', dropWhile_skip_idem]
  · rw [htqueue, hnlatch, hlatch]
  · rw [htqueue, hnlimit, hlimit]
  · rw [htqueue, hthead, hblocked]
  · rw [htqueue, hthead, hntimer, hlimit]
  · rw [ht, refreshPreempt_cq, hncq, hskip, hcq, List.map_nil, List.append_nil]
  · rw [ht, refreshPreempt_intstat, hnint, hskip, notifyBit_nil, hint]
    simp
  · rw [ht]
    rfl

/-! ### The pool reserve -/

theorem registerWord_poolstat (s : State) :
    s.registerWord 0x06 = 0#9 ++ BitVec.ofNat 7 s.reserve ++ 0#7 ++ BitVec.ofNat 9 s.freeList.length := by
  refine .trans ?_ (BitVec.setWidth_eq (n := 32) _)
  simp only [setWidth_append_ofNat, BitVec.shiftLeft_or_distrib, readField_shiftLeft, BitVec.setWidth_zero,
    BitVec.zero_shiftLeft, BitVec.or_zero]
  change readField 0 9 s.freeCount ||| readField 16 7 s.reserve = _
  simp [State.freeCount]

theorem reserveOf_eq (written : BitVec 7) : reserveOf written = if 64 < written.toNat then 64 else written.toNat := by
  unfold reserveOf
  split <;> simp only [Config.maxReserve] <;> omega

/-- Settles O19. -/
theorem poolresWriteWakes : Obligations.PoolresWriteWakes := by
  refine ⟨fun s data hlive => ⟨hostAccess_read_eq_nil (by decide) (by decide) data, ?_⟩, fun s data hlive => ?_⟩
  · rw [readRegister_of_high hlive, registerWord_poolstat]
  obtain ⟨u, hu⟩ : ∃ u, u = ({ s with reserve := reserveOf (wordField data 0 7) } : State) := ⟨_, rfl⟩
  have hwrite : s.writePoolres data = u.wake := by rw [hu]; rfl
  have hreserve : (s.writePoolres data).reserve = reserveOf (data.extractLsb' 0 7) := by rw [hwrite, wake_reserve, hu]; rfl
  have hrecord (r : Runner) : u.record r = s.record r := record_eq_of (by rw [hu]) (by rw [hu]) r
  have hwakes : (List.finRange Config.contextCount).filter u.wakes = s.wokenBy s.freeList.length (reserveOf (data.extractLsb' 0 7)) := by
    rw [hu]; exact filter_wakes_eq _
  refine ⟨s.writePoolres data, exec_of_live hlive _, hreserve.trans (reserveOf_eq _), ?_, fun n => ?_⟩
  · have hframe := wake_frame u
    rw [← hwrite, hwakes] at hframe
    rw [hreserve]
    exact hframe.trans (by rw [hu]; rfl)
  · have hmem : n ∈ s.wokenBy s.freeList.length (reserveOf (data.extractLsb' 0 7)) ↔ u.wakes n = true := by
      rw [← hwakes, List.mem_filter]
      exact and_iff_right (List.mem_finRange n)
    rw [hreserve, hwrite, record_wake_ctx, hrecord]
    exact if_congr hmem.symm rfl rfl

/-! ### The protect requests -/

theorem registerWord_slotattr (s : State) : s.registerWord 0x1F = 0#30 ++ BitVec.ofNat 2 s.slotattr.code := by
  refine .trans ?_ (BitVec.setWidth_eq (n := 32) _)
  rw [setWidth_append_ofNat, BitVec.setWidth_zero, BitVec.zero_shiftLeft, BitVec.or_zero]
  rfl

theorem setProtect_of_le {s : State} (h : 48 ≤ s.slotsel.toNat) : s.setProtect = { s with slotattr := .badSlot } := by
  rw [State.setProtect, slotNumber_eq_none.2 h]

theorem clearProtect_of_le {s : State} (h : 48 ≤ s.slotsel.toNat) : s.clearProtect = { s with slotattr := .badSlot } := by
  rw [State.clearProtect, slotNumber_eq_none.2 h]

theorem setProtect_of_selected {s : State} {i : SlotId} (h : s.slotsel.toNat = i.val) :
    s.setProtect = if (s.slot i).writer ≠ none then { s with slotattr := .slotBusy }
      else { s.setSlot i { s.slot i with protect := true } with slotattr := .ok } := by
  rw [State.setProtect, slotNumber_eq_some.2 h]

theorem clearProtect_of_selected {s : State} {i : SlotId} (h : s.slotsel.toNat = i.val) :
    s.clearProtect = { s.setSlot i { s.slot i with protect := false } with slotattr := .ok } := by
  rw [State.clearProtect, slotNumber_eq_some.2 h]

/-- Settles O21. -/
theorem protectRequests : Obligations.ProtectRequests := by
  refine ⟨fun s data hlive => ⟨hostAccess_read_eq_nil (by decide) (by decide) data, ?_⟩, rfl,
    fun s hlive => ⟨fun h => ⟨?_, ?_⟩, fun i h => ⟨fun hwriter => ?_, fun hwriter => ?_, ?_⟩⟩⟩
  · rw [readRegister_of_high hlive, registerWord_slotattr]
  · exact (exec_of_live hlive .setProtect).trans (congrArg _ (setProtect_of_le h))
  · exact (exec_of_live hlive .clearProtect).trans (congrArg _ (clearProtect_of_le h))
  · exact (exec_of_live hlive .setProtect).trans (congrArg _ ((setProtect_of_selected h).trans (if_pos hwriter)))
  · exact (exec_of_live hlive .setProtect).trans (congrArg _ ((setProtect_of_selected h).trans (if_neg (not_not.2 hwriter))))
  · exact (exec_of_live hlive .clearProtect).trans (congrArg _ (clearProtect_of_selected h))

end Sys2Proof.Machine
end

section
/-! PROOFS. The operand windows: the requests that open, move and end a session, and the data accesses in one (R143 to R153). -/

namespace Sys2Proof.Machine

/-! ### Reads of a window's index -/

theorem registerWord_winidx (s : State) (w : WindowId) :
    s.registerWord (windowOffset w + 3) = 0#22 ++ BitVec.ofNat 10 (s.window w).index := by
  have hword : s.registerWord (windowOffset w + 3) = readField 0 10 (s.window w).index := by
    match w with
    | 0 => rfl
    | 1 => rfl
  rw [hword]
  refine .trans ?_ (BitVec.setWidth_eq (n := 32) _)
  rw [setWidth_append_ofNat, BitVec.setWidth_zero, BitVec.zero_shiftLeft, BitVec.or_zero]

theorem hostAccess_read_winidx (w : WindowId) (data : Word) : hostAccess .low .low .high (windowOffset w + 3) data = [] :=
  hostAccess_read_eq_nil (by revert w; decide) (by revert w; decide) data

/-! ### Refused requests -/

theorem seek_of_closed {s : State} {w : WindowId} (h : (s.window w).state = .closed) (index : Nat) :
    s.seek w index = s.refuseWindow w .refusedState := by
  rw [State.seek, h]

theorem seek_of_open {s : State} {w : WindowId} (h : (s.window w).state ≠ .closed) (index : Nat) :
    s.seek w index = if Config.maxIndex ≤ index then s.refuseWindow w .badLength
      else s.setWindow w { s.window w with index := index, lastResult := .ok } := by
  rw [State.seek]
  split
  next hclosed => exact absurd hclosed h
  all_goals rfl

theorem closeWindow_of_closed {s : State} {w : WindowId} (h : (s.window w).state = .closed) :
    s.closeWindow w = s.refuseWindow w .refusedState := by
  simp [State.closeWindow, h]

theorem cancelWindow_of_closed {s : State} {w : WindowId} (h : (s.window w).state = .closed) :
    s.cancelWindow w = s.refuseWindow w .refusedState := by
  simp [State.cancelWindow, h]

/-- Settles O29. -/
theorem seekRequest : Obligations.SeekRequest := by
  refine ⟨fun s w data hlive => ⟨hostAccess_read_winidx w data, ?_⟩, fun s w index hlive => ?_⟩
  · rw [readRegister_of_high hlive, registerWord_winidx]
  refine ⟨fun h => ⟨?_, ?_, ?_⟩, fun h => ⟨fun hindex => ?_, fun hindex => ?_⟩⟩
  · exact (exec_of_live hlive (.seek w index)).trans (congrArg _ (seek_of_closed h _))
  · exact (exec_of_live hlive (.close w)).trans (congrArg _ (closeWindow_of_closed h))
  · exact (exec_of_live hlive (.cancel w)).trans (congrArg _ (cancelWindow_of_closed h))
  · exact (exec_of_live hlive (.seek w index)).trans (congrArg _ ((seek_of_open h _).trans (if_pos hindex)))
  · exact (exec_of_live hlive (.seek w index)).trans (congrArg _ ((seek_of_open h _).trans (if_neg (Nat.not_le.2 (by
      simpa [Config.maxIndex] using Nat.lt_succ_of_le hindex)))))

/-! ### Data accesses -/

theorem windowRead_of_not_openRead {s : State} {w : WindowId} (h : (s.window w).state ≠ .openRead) :
    s.windowRead w = { s with dataOut := 0 } := by
  unfold State.windowRead State.windowWord
  cases hstate : (s.window w).state with
  | openRead => exact absurd hstate h
  | _ => simp only [hstate]

theorem windowRead_of_openRead {s : State} {w : WindowId} (h : (s.window w).state = .openRead) :
    s.windowRead w =
      { s.setWindow w { s.window w with
          index := min ((s.window w).index + 1) 512
          pastEnd := (s.window w).pastEnd || (s.slot (s.window w).slot).length ≤ (s.window w).index } with
        dataOut := if (s.window w).index < (s.slot (s.window w).slot).length then
          limbAt s.mem (s.slot (s.window w).slot).pages (s.window w).index else 0 } := by
  unfold State.windowRead State.windowWord
  simp only [h]
  rfl

/-- Settles O32. -/
theorem windowDataReadSteps : Obligations.WindowDataReadSteps := by
  refine fun s w hlive => ⟨fun h => ?_, fun h => ⟨fun hindex => ?_, fun hindex => ?_⟩⟩
  · exact (exec_of_live hlive (.windowDataRead w)).trans (congrArg _ (windowRead_of_not_openRead h))
  · refine (exec_of_live hlive (.windowDataRead w)).trans (congrArg _ ((windowRead_of_openRead h).trans ?_))
    rw [if_pos hindex]
    simp [Nat.not_le.2 hindex]
  · refine (exec_of_live hlive (.windowDataRead w)).trans (congrArg _ ((windowRead_of_openRead h).trans ?_))
    rw [if_neg (Nat.not_lt.2 hindex)]
    simp [hindex]

theorem windowWrite_of_not_openWrite {s : State} {w : WindowId} (h : (s.window w).state ≠ .openWrite) (data : Word) :
    s.windowWrite w data = s := by
  unfold State.windowWrite
  cases hstate : (s.window w).state with
  | openWrite => exact absurd hstate h
  | _ => simp only [hstate]

theorem windowWrite_of_openWrite {s : State} {w : WindowId} (h : (s.window w).state = .openWrite) (data : Word) :
    s.windowWrite w data =
      if (s.window w).index < (s.window w).declLength then
        ({ s with mem := setLimbAt s.mem (s.window w).staging (s.window w).index data } : State).setWindow w
          { s.window w with index := (s.window w).index + 1 }
      else (s.setWindow w { s.window w with overrun := true }).raise .winerr := by
  unfold State.windowWrite
  simp only [h]

/-- A limb stored through a page list lies in the page and at the position that its index names, and no other limb changes (R5). -/
theorem read_setLimbAt {m : Memory} (hm : m.wf) {pages : List PageId} {k : Nat} (hk : k < Config.pageLimbs * pages.length)
    (v : Limb) :
    ∃ p, pages[k / 16]? = some p ∧ (setLimbAt m pages k v).read (16 * p.val + k % 16) = v ∧
      ∀ a, a ≠ 16 * p.val + k % 16 → (setLimbAt m pages k v).read a = m.read a := by
  obtain ⟨p, hp, haddress⟩ := limbAddress_eq_some hk
  have hset : setLimbAt m pages k v = m.write (16 * p.val + k % 16) v := by rw [setLimbAt, haddress]
  exact ⟨p, hp, by rw [hset, Memory.read_write_self hm], fun a ha => by rw [hset, Memory.read_write_ne ha]⟩

/-- Settles O31. -/
theorem windowDataWriteStores : Obligations.WindowDataWriteStores := by
  refine fun s w data hlive hmem hwindows => ⟨fun h => ?_, fun h hindex => ?_, fun h hindex => ?_⟩
  · exact (exec_of_live hlive (.windowDataWrite w data)).trans (congrArg _ (windowWrite_of_not_openWrite h data))
  · exact (exec_of_live hlive (.windowDataWrite w data)).trans
      (congrArg _ ((windowWrite_of_openWrite h data).trans (if_neg (Nat.not_lt.2 hindex))))
  · have hlength : (s.window w).staging.length = pg (s.window w).declLength := by rw [hwindows.staging w, if_pos h]
    have hk : (s.window w).index < Config.pageLimbs * (s.window w).staging.length := by
      rw [hlength]
      exact hindex.trans_le (le_pageLimbs_mul_pg _)
    exact ⟨_, (exec_of_live hlive (.windowDataWrite w data)).trans
      (congrArg _ ((windowWrite_of_openWrite h data).trans (if_pos hindex))), rfl, read_setLimbAt hmem hk data⟩

/-! ### The notices of a lock change -/

/-- Both queues after the notices of a lock change: the same commands, each head tested (R86, R89, R92). -/
theorem tested_locksChanged (u : State) (q : QueueId) :
    (u.locksChanged.queue q).entries = (u.queue q).entries ∧ (u.locksChanged.queue q).blocked = u.locksChanged.headBlocked q ∧
      (u.locksChanged.queue q).timer = (u.queue q).timerAfter (u.locksChanged.headBlocked q) := by
  refine ⟨locksChanged_entries u q, ?_, timer_locksChanged u q⟩
  have hhead : u.locksChanged.headBlocked q = u.headBlocked q :=
    headBlocked_congr (fun i => by simp) (by rw [locksChanged_entries])
  rw [hhead, queue_locksChanged]

theorem queue_locksChanged_frame (u : State) (q : QueueId) :
    u.locksChanged.queue q =
      { u.queue q with blocked := (u.locksChanged.queue q).blocked, timer := (u.locksChanged.queue q).timer } := by
  rw [queue_locksChanged]

theorem locksChanged_eq (u : State) :
    u.locksChanged =
      { u with
        nq := { u.nq with blocked := u.locksChanged.nq.blocked, timer := u.locksChanged.nq.timer }
        uq := { u.uq with blocked := u.locksChanged.uq.blocked, timer := u.locksChanged.uq.timer }
        preemptPending := u.locksChanged.preemptPending } := by
  rw [State.eq_iff]
  simpa using ⟨queue_locksChanged_frame u .normal, queue_locksChanged_frame u .urgent⟩

/-! ### OPEN_READ -/

theorem openRead_of_error {s : State} {w : WindowId} {slot : SlotField} {result : WindowResult}
    (h : s.openReadTest w slot = .error result) : s.openRead w slot = s.refuseWindow w result := by
  rw [State.openRead, h]

theorem openRead_of_ok {s : State} {w : WindowId} {slot : SlotField} {i : SlotId} (h : s.openReadTest w slot = .ok i) :
    s.openRead w slot = ((s.setSlot i ((s.slot i).lockRead (.win w))).setWindow w
      { s.window w with
        state := .openRead, slot := i, index := 0, declLength := 0, declSign := .pos, staging := []
        lastResult := .ok }).locksChanged := by
  rw [State.openRead, h]

theorem openReadTest_of_closed {s : State} {w : WindowId} (h : (s.window w).state = .closed) {slot : SlotField} {i : SlotId}
    (hi : slot.toNat = i.val) :
    s.openReadTest w slot = if (s.slot i).writer ≠ none then .error .refusedLocked else .ok i := by
  rw [State.openReadTest, if_neg (not_not.2 h), slotNumber_eq_some.2 hi]

/-- Settles O27. -/
theorem openReadRequest : Obligations.OpenReadRequest := by
  intro s w slot hlive
  have hexec := exec_of_live hlive (.openRead w slot)
  refine ⟨fun h => ?_, fun h => ⟨fun hslot => ?_, fun i hi => ⟨fun hwriter => ?_, fun hwriter => ?_⟩⟩⟩
  · exact hexec.trans (congrArg _ (openRead_of_error (if_pos h)))
  · refine hexec.trans (congrArg _ (openRead_of_error ?_))
    rw [State.openReadTest, if_neg (not_not.2 h), slotNumber_eq_none.2 hslot]
  · exact hexec.trans (congrArg _ (openRead_of_error ((openReadTest_of_closed h hi).trans (if_pos hwriter))))
  · obtain ⟨u, hu⟩ : ∃ u, u = (s.setSlot i ((s.slot i).lockRead (.win w))).setWindow w
        { s.window w with
          state := .openRead, slot := i, index := 0, declLength := 0, declSign := .pos, staging := []
          lastResult := .ok } := ⟨_, rfl⟩
    have hqueue (q : QueueId) : u.queue q = s.queue q := by rw [hu]; simp
    have hopened : s.openRead w slot = u.locksChanged :=
      (openRead_of_ok ((openReadTest_of_closed h hi).trans (if_neg (not_not.2 hwriter)))).trans (by rw [hu])
    refine ⟨u.locksChanged, hexec.trans (congrArg _ hopened), fun k hk => ?_, ?_, fun x => ?_, fun v hv => ?_, ?_,
      fun q => ?_, preempt_locksChanged u, ?_⟩
    · rw [locksChanged_slot, hu, setWindow_slot, slot_setSlot_ne _ _ hk]
    · rw [locksChanged_slot, hu, setWindow_slot, slot_setSlot_self]
      rfl
    · rw [locksChanged_slot, hu, setWindow_slot, slot_setSlot_self]
      exact mem_addReader
    · rw [locksChanged_window, hu, window_setWindow, if_neg hv]
      rfl
    · rw [locksChanged_window, hu, window_setWindow_self]
    · have htested := tested_locksChanged u q
      rwa [hqueue] at htested
    · refine (locksChanged_eq u).trans ?_
      rw [State.eq_iff]
      simp [hu]

/-! ### OPEN_WRITE -/

/-- An acquisition is granted exactly when its demand is 0 or there is room for it (R10, R11). -/
theorem acquisitionGranted_iff {h : Holder} {d : Nat} {s : State} :
    acquisitionGranted h d s = true ↔
      d = 0 ∨ (h = .run .urgent ∧ d ≤ s.freeList.length) ∨ d + s.reserve ≤ s.freeList.length := by
  unfold acquisitionGranted State.freeCount
  split
  next hu =>
    simp only [Bool.or_eq_true, decide_eq_true_eq, hu, true_and]
    omega
  next hu => simp [hu]

theorem openWrite_of_error {s : State} {w : WindowId} {slot : SlotField} {length : Nat} {sign : Sign} {result : WindowResult}
    (h : s.openWriteTest w slot length = .error result) : s.openWrite w slot length sign = s.refuseWindow w result := by
  rw [State.openWrite, h]

theorem openWrite_of_ok {s : State} {w : WindowId} {slot : SlotField} {length : Nat} {sign : Sign} {i : SlotId}
    (h : s.openWriteTest w slot length = .ok i) :
    s.openWrite w slot length sign = (((s.takePages (pg length)).setSlot i ((s.slot i).lockWrite (.win w))).setWindow w
      { s.window w with
        state := .openWrite, slot := i, index := 0, declLength := length, declSign := sign
        staging := s.nextPages (pg length), lastResult := .ok }).locksChanged := by
  rw [State.openWrite, h]

theorem openWriteTest_of_closed {s : State} {w : WindowId} (h : (s.window w).state = .closed) {slot : SlotField} {i : SlotId}
    (hi : slot.toNat = i.val) (length : Nat) :
    s.openWriteTest w slot length =
      if 512 < length then .error .badLength
      else if !(s.slot i).unlocked then .error .refusedLocked
      else if (s.slot i).protect then .error .refusedProtected
      else if !acquisitionGranted (.win w) (pg length) s then .error .refusedSpace
      else .ok i := by
  rw [State.openWriteTest, if_neg (not_not.2 h), slotNumber_eq_some.2 hi]

/-- The limbs of the acquired pages read 0 and no others change (R10). -/
theorem read_takePages (s : State) (d : Nat) :
    (∀ p ∈ s.freeList.take d, ∀ k < 16, (s.takePages d).mem.read (16 * p.val + k) = 0) ∧
      ∀ a, (∀ p ∈ s.freeList.take d, p.val ≠ a / 16) → (s.takePages d).mem.read a = s.mem.read a := by
  refine ⟨fun p hp k hk => ?_, fun a ha => ?_⟩
  · exact Memory.read_zeroPages_of_mem hp (by simp only [Config.pageLimbs]; omega)
  · exact Memory.read_zeroPages_of_not_mem ha

/-- Settles O28. -/
theorem openWriteRequest : Obligations.OpenWriteRequest := by
  intro s w slot length sign hlive refused answer d
  have hexec : answer = .next (s.openWrite w slot length.toNat sign) := exec_of_live hlive (.openWrite w slot length sign)
  refine ⟨fun h => ?_, fun h => ⟨fun hslot => ?_, fun i hi => ?_⟩⟩
  · exact hexec.trans (congrArg _ (openWrite_of_error (if_pos h)))
  · refine hexec.trans (congrArg _ (openWrite_of_error ?_))
    rw [State.openWriteTest, if_neg (not_not.2 h), slotNumber_eq_none.2 hslot]
  intro locked room
  have htest := openWriteTest_of_closed h hi length.toNat
  have hlocked : (!(s.slot i).unlocked) = true ↔ locked := by
    rw [Bool.not_eq_true', ← Bool.not_eq_true, unlocked_iff]
    exact Decidable.not_and_iff_not_or_not
  have hroom : acquisitionGranted (.win w) (pg length.toNat) s = true ↔ room := by
    rw [acquisitionGranted_iff]
    simp [room, d]
  refine ⟨fun h1 => ?_, fun h1 h2 => ?_, fun h1 h2 h3 => ?_, fun h1 h2 h3 h4 => ?_, fun h1 h2 h3 h4 => ?_⟩
  · exact hexec.trans (congrArg _ (openWrite_of_error (htest.trans (if_pos h1))))
  · refine hexec.trans (congrArg _ (openWrite_of_error (htest.trans ?_)))
    rw [if_neg (Nat.not_lt.2 h1), if_pos (hlocked.2 h2)]
  · refine hexec.trans (congrArg _ (openWrite_of_error (htest.trans ?_)))
    rw [if_neg (Nat.not_lt.2 h1), if_neg (mt hlocked.1 h2), if_pos h3]
  · refine hexec.trans (congrArg _ (openWrite_of_error (htest.trans ?_)))
    rw [if_neg (Nat.not_lt.2 h1), if_neg (mt hlocked.1 h2), if_neg (by simp [h3]), if_pos (by simpa using mt hroom.1 h4)]
  · have hok : s.openWriteTest w slot length.toNat = .ok i := by
      rw [htest, if_neg (Nat.not_lt.2 h1), if_neg (mt hlocked.1 h2), if_neg (by simp [h3]), if_neg (by simpa using hroom.2 h4)]
    obtain ⟨u, hu⟩ : ∃ u, u = ((s.takePages d).setSlot i ((s.slot i).lockWrite (.win w))).setWindow w
        { s.window w with
          state := .openWrite, slot := i, index := 0, declLength := length.toNat, declSign := sign
          staging := s.nextPages d, lastResult := .ok } := ⟨_, rfl⟩
    have hqueue (q : QueueId) : u.queue q = s.queue q := by rw [hu]; simp
    have hmem : u.locksChanged.mem = (s.takePages d).mem := by rw [locksChanged_mem, hu]; rfl
    have hopened : s.openWrite w slot length.toNat sign = u.locksChanged := (openWrite_of_ok hok).trans (by rw [hu])
    obtain ⟨hzeroed, hkept⟩ := read_takePages s d
    refine ⟨u.locksChanged, hexec.trans (congrArg _ hopened), ?_, ?_, ?_, fun k => ?_, fun v hv => ?_, ?_, fun q => ?_,
      preempt_locksChanged u, ?_⟩
    · rw [locksChanged_freeList, hu]; rfl
    · rw [hmem]; exact hzeroed
    · rw [hmem]; exact hkept
    · rw [locksChanged_slot, hu, setWindow_slot, slot_setSlot, takePages_slot]; rfl
    · rw [locksChanged_window, hu, window_setWindow, if_neg hv]; rfl
    · rw [locksChanged_window, hu, window_setWindow_self]; rfl
    · have htested := tested_locksChanged u q
      rwa [hqueue] at htested
    · refine (locksChanged_eq u).trans ?_
      rw [State.eq_iff]
      simp [hu]

end Sys2Proof.Machine
end

section
/-! PROOFS. The end of a window's session, of either kind (R6, R13, R86, R152, R153), and the requests on contexts (R120 to R126). -/

namespace Sys2Proof.Machine

/-! ### A release of pages -/

/-- A release joins the pages to the free list and wakes the contexts whose pages wanted now fit (R13, R119). -/
theorem record_release_wokenBy (s : State) (ps : List PageId) (n : CtxId) :
    (s.release ps).record (.ctx n) =
      if n ∈ s.wokenBy (s.release ps).freeList.length s.reserve then (s.record (.ctx n)).woken else s.record (.ctx n) := by
  have hwakes : (List.finRange Config.contextCount).filter ({ s with freeList := s.freeList ++ ps } : State).wakes =
      s.wokenBy (s.freeList ++ ps).length s.reserve := filter_wakes_eq _
  rw [record_release_ctx, release_freeList, ← hwakes]
  exact if_congr (by simp) rfl rfl

theorem release_eq (s : State) (ps : List PageId) :
    s.release ps =
      { s with
        freeList := s.freeList ++ ps, contexts := (s.release ps).contexts
        resumeList := s.resumeList ++ s.wokenBy (s.release ps).freeList.length s.reserve } := by
  rw [release_freeList]
  exact release_frame s ps

/-! ### The end of a session -/

/-- What the end of a session leaves, whatever it did with the staged value before (R86, R89, R92, R152, R153). -/
theorem endSession_spec (u : State) (w : WindowId) :
    (∀ i, (u.endSession w).slot i =
        { u.slot i with
          writer := if (u.slot i).writer = some (.win w) then none else (u.slot i).writer
          readers := (u.slot i).readers.filter fun h => h ≠ .win w }) ∧
      (u.endSession w).window w =
        { state := .closed, slot := 0, index := 0, declLength := 0, declSign := .pos, staging := []
          overrun := (u.window w).overrun, pastEnd := (u.window w).pastEnd, lastResult := .ok } ∧
      (∀ v, v ≠ w → (u.endSession w).window v = u.window v) ∧
      (∀ q, ((u.endSession w).queue q).entries = (u.queue q).entries ∧
        ((u.endSession w).queue q).blocked = (u.endSession w).headBlocked q ∧
        ((u.endSession w).queue q).timer = (u.queue q).timerAfter ((u.endSession w).headBlocked q)) ∧
      (u.endSession w).preemptPending = (u.endSession w).preemptDue ∧
      u.endSession w =
        { u with
          slots := (u.endSession w).slots, windows := (u.endSession w).windows
          preemptPending := (u.endSession w).preemptPending
          nq := { u.nq with blocked := (u.endSession w).nq.blocked, timer := (u.endSession w).nq.timer }
          uq := { u.uq with blocked := (u.endSession w).uq.blocked, timer := (u.endSession w).uq.timer } } := by
  obtain ⟨v, hv⟩ : ∃ v, v = (u.releaseLocks (.win w)).setWindow w (u.window w).ended := ⟨_, rfl⟩
  have hend : u.endSession w = v.locksChanged := by rw [hv]; rfl
  have hqueue (q : QueueId) : v.queue q = u.queue q := by rw [hv]; simp
  rw [hend]
  refine ⟨fun i => ?_, ?_, fun x hx => ?_, fun q => ?_, preempt_locksChanged v, ?_⟩
  · rw [locksChanged_slot, hv, setWindow_slot, slot_releaseLocks]
    rfl
  · rw [locksChanged_window, hv, window_setWindow_self]
    rfl
  · rw [locksChanged_window, hv, window_setWindow, if_neg hx, releaseLocks_window]
  · have htested := tested_locksChanged v q
    rwa [hqueue] at htested
  · refine (locksChanged_eq v).trans ?_
    rw [State.eq_iff]
    simp [hv]

theorem closeWindow_of_openRead {s : State} {w : WindowId} (h : (s.window w).state = .openRead) :
    s.closeWindow w = s.endSession w := by
  simp [State.closeWindow, h]

theorem cancelWindow_of_openRead {s : State} {w : WindowId} (h : (s.window w).state = .openRead) :
    s.cancelWindow w = s.endSession w := by
  simp [State.cancelWindow, h]

theorem closeWindow_of_openWrite {s : State} {w : WindowId} (h : (s.window w).state = .openWrite) :
    s.closeWindow w = s.closedWindow w := by
  simp [State.closeWindow, h, State.closedWindow]

theorem cancelWindow_of_openWrite {s : State} {w : WindowId} (h : (s.window w).state = .openWrite) :
    s.cancelWindow w = (s.release (s.window w).staging).endSession w := by
  simp [State.cancelWindow, h]

/-- A release of pages after slots have changed (R13, R119). -/
theorem release_setSlots (s : State) (slots : Vector Slot Config.slotCount) (gone : List PageId) :
    (({ s with slots := slots } : State).release gone) =
        { s with
          slots := slots, freeList := s.freeList ++ gone
          contexts := (({ s with slots := slots } : State).release gone).contexts
          resumeList := s.resumeList ++ s.wokenBy (s.freeList ++ gone).length s.reserve } ∧
      ∀ n, (({ s with slots := slots } : State).release gone).record (.ctx n) =
        if n ∈ s.wokenBy (s.freeList ++ gone).length s.reserve then (s.record (.ctx n)).woken else s.record (.ctx n) := by
  obtain ⟨u, hu⟩ : ∃ u, u = ({ s with slots := slots } : State) := ⟨_, rfl⟩
  have hwoken (free reserve : Nat) : u.wokenBy free reserve = s.wokenBy free reserve := by rw [hu]; rfl
  have heq := release_eq u gone
  have hrecord (n : CtxId) := record_release_wokenBy u gone n
  rw [hwoken, release_freeList] at heq
  simp only [hwoken, release_freeList] at hrecord
  rw [← hu]
  exact ⟨heq.trans (by rw [hu]), fun n => (hrecord n).trans (by rw [hu]; rfl)⟩

/-- A session that ends after a release of pages, with slots changed before it: everything but the slots (R13, R152, R153). -/
theorem endSession_release_spec (s : State) (slots : Vector Slot Config.slotCount) (gone : List PageId) (w : WindowId) {t : State}
    (ht : t = (({ s with slots := slots } : State).release gone).endSession w) :
    t.freeList = s.freeList ++ gone ∧
      t.window w =
        { state := .closed, slot := 0, index := 0, declLength := 0, declSign := .pos, staging := []
          overrun := (s.window w).overrun, pastEnd := (s.window w).pastEnd, lastResult := .ok } ∧
      (∀ v, v ≠ w → t.window v = s.window v) ∧
      (∀ n, t.record (.ctx n) =
        if n ∈ s.wokenBy t.freeList.length s.reserve then (s.record (.ctx n)).woken else s.record (.ctx n)) ∧
      (∀ q, (t.queue q).entries = (s.queue q).entries ∧ (t.queue q).blocked = t.headBlocked q ∧
        (t.queue q).timer = (s.queue q).timerAfter (t.headBlocked q)) ∧
      t.preemptPending = t.preemptDue ∧
      t = { s with slots := t.slots, windows := t.windows, preemptPending := t.preemptPending
                   freeList := t.freeList, contexts := t.contexts
                   resumeList := s.resumeList ++ s.wokenBy t.freeList.length s.reserve
                   nq := { s.nq with blocked := t.nq.blocked, timer := t.nq.timer }
                   uq := { s.uq with blocked := t.uq.blocked, timer := t.uq.timer } } := by
  obtain ⟨hrelease, hrecord⟩ := release_setSlots s slots gone
  obtain ⟨v, hv⟩ : ∃ v, v = ({ s with slots := slots } : State).release gone := ⟨_, rfl⟩
  rw [← hv] at ht hrelease
  simp only [← hv] at hrecord
  have hfree : v.freeList = s.freeList ++ gone := by rw [hrelease]
  have hwindow (x : WindowId) : v.window x = s.window x := window_eq_of (by rw [hrelease]) x
  have hqueue (q : QueueId) : v.queue q = s.queue q := queue_eq_of (by rw [hrelease]) (by rw [hrelease]) q
  obtain ⟨-, hclosed, hothers, htested, hpreempt, hframe⟩ := endSession_spec v w
  simp only [← ht, hwindow, hqueue] at hclosed hothers htested hpreempt hframe
  have htfree : t.freeList = s.freeList ++ gone := by rw [hframe, hfree]
  refine ⟨htfree, hclosed, hothers, fun n => ?_, htested, hpreempt, hframe.trans ?_⟩
  · rw [record_eq_of (s := v) (by rw [hframe]) (by rw [hframe]), hrecord, htfree]
  · have hcontexts : t.contexts = v.contexts := by rw [hframe]
    rw [htfree, hcontexts, hrelease]

theorem limbAt_take {m : Memory} {pages : List PageId} {n k : Nat} (hk : k < 16 * n) :
    limbAt m (pages.take n) k = limbAt m pages k := by
  have hpage : k / Config.pageLimbs < n := by simp only [Config.pageLimbs]; omega
  rw [limbAt, limbAt, limbAddress, limbAddress, List.getElem?_take, if_pos hpage]

/-- An installed value is the magnitude that the page list held (R6). -/
theorem magnitude_take_trimmed (m : Memory) (pages : List PageId) (n : Nat) :
    magnitude m (pages.take (pg (trimmedLength m pages n))) (trimmedLength m pages n) = magnitude m pages n := by
  rw [← magnitude_trimmedLength m pages n]
  exact magnitude_congr fun k hk => limbAt_take (hk.trans_le (le_pageLimbs_mul_pg _))

/-- Settles O30. -/
theorem sessionsEnd : Obligations.SessionsEnd := by
  refine ⟨fun s w hlive h => ?read, fun s w hlive h => ?write⟩
  case read =>
    exact ⟨s.endSession w, (exec_of_live hlive (.close w)).trans (congrArg _ (closeWindow_of_openRead h)),
      (exec_of_live hlive (.cancel w)).trans (congrArg _ (cancelWindow_of_openRead h)), endSession_spec s w⟩
  intro v len unlocked ends
  refine ⟨⟨s.closedWindow w, (exec_of_live hlive (.close w)).trans (congrArg _ (closeWindow_of_openWrite h)), ?_, ?_, fun i hi => ?_,
    ?_⟩, ⟨_, (exec_of_live hlive (.cancel w)).trans (congrArg _ (cancelWindow_of_openWrite h)), ?_, fun i => ?_⟩⟩
  · exact endSession_release_spec s _ ((s.slot v.slot).givenBack s.mem v.staging v.declLength) w rfl
  · exact ((endSession_spec _ w).1 _).trans (by rw [release_slot, slot_setSlot_self]; rfl)
  · exact ((endSession_spec _ w).1 _).trans (by rw [release_slot, slot_setSlot_ne _ _ hi])
  · have hslot : (s.closedWindow w).slot v.slot = unlocked
        { s.slot v.slot with sign := if len = 0 then .pos else v.declSign, length := len, pages := v.staging.take (pg len) } :=
      ((endSession_spec _ w).1 _).trans (by rw [release_slot, slot_setSlot_self]; rfl)
    have hmem : (s.closedWindow w).mem = s.mem := by simp [State.closedWindow]
    rw [hslot, hmem]
    exact magnitude_take_trimmed s.mem v.staging v.declLength
  · exact endSession_release_spec s s.slots v.staging w rfl
  · exact ((endSession_spec _ w).1 _).trans (by rw [release_slot])

end Sys2Proof.Machine
end

section
/-! PROOFS. The requests on contexts: PARK, RESUME, ABORT and ABORT_URGENT by the state they find (R120 to R126). -/

namespace Sys2Proof.Machine

theorem registerWord_ctxreq (s : State) : s.registerWord 0x14 = 0#29 ++ BitVec.ofNat 3 s.ctxreq.code := by
  refine .trans ?_ (BitVec.setWidth_eq (n := 32) _)
  rw [setWidth_append_ofNat, BitVec.setWidth_zero, BitVec.zero_shiftLeft, BitVec.or_zero]
  rfl

theorem onTarget_of_le {s : State} {target : BitVec 3} (h : 4 ≤ target.toNat) (f : CtxId → State) :
    s.onTarget target f = { s with ctxreq := .badTarget } := by
  rw [State.onTarget, contextNumber_eq_none.2 h]

theorem onTarget_of_eq {s : State} {target : BitVec 3} {n : CtxId} (h : target.toNat = n.val) (f : CtxId → State) :
    s.onTarget target f = f n := by
  rw [State.onTarget, contextNumber_eq_some.2 h]

theorem park_of_suspended {s : State} {n : CtxId}
    (h : (s.record (.ctx n)).state = .resumable ∨ (s.record (.ctx n)).state = .spaceWait) :
    s.park n = { s.parkContext n with ctxreq := .ok } := by
  obtain h | h := h <;> simp only [State.park, h]

theorem park_of_refused {s : State} {n : CtxId} (h : (s.record (.ctx n)).state = .parked ∨ (s.record (.ctx n)).state = .free) :
    s.park n = { s with ctxreq := .refusedState } := by
  obtain h | h := h <;> simp only [State.park, h]

theorem resume_of_refused {s : State} {n : CtxId} (h : (s.record (.ctx n)).state ≠ .parked) :
    s.resume n = { s with ctxreq := .refusedState } := by
  unfold State.resume
  split
  next hparked => exact absurd hparked h
  all_goals rfl

theorem abort_of_suspended {s : State} {n : CtxId}
    (h : (s.record (.ctx n)).state = .resumable ∨ (s.record (.ctx n)).state = .parked ∨ (s.record (.ctx n)).state = .spaceWait) :
    s.abort n = { s.abortSuspended n with ctxreq := .ok } := by
  obtain h | h | h := h <;> simp only [State.abort, h]

/-- Settles O25. -/
theorem contextRequests : Obligations.ContextRequests := by
  refine ⟨fun s data hlive => ⟨hostAccess_read_eq_nil (by decide) (by decide) data, ?_⟩, rfl, fun s target hlive => ?_⟩
  · rw [readRegister_of_high hlive, registerWord_ctxreq]
  have hpark := exec_of_live hlive (.park target)
  have hresume := exec_of_live hlive (.resume target)
  have habort := exec_of_live hlive (.abort target)
  have hurgent := exec_of_live hlive (.abortUrgent target)
  refine ⟨fun h => ⟨?_, ?_, ?_⟩, fun h => ?_, fun h => ?_, fun n hn => ?_⟩
  · exact hpark.trans (congrArg _ (onTarget_of_le h _))
  · exact hresume.trans (congrArg _ (onTarget_of_le h _))
  · exact habort.trans (congrArg _ (onTarget_of_le h _))
  · exact hurgent.trans (congrArg _ (if_pos h))
  · exact hurgent.trans (congrArg _ (if_neg h))
  replace hpark := hpark.trans (congrArg _ (onTarget_of_eq hn s.park))
  replace hresume := hresume.trans (congrArg _ (onTarget_of_eq hn s.resume))
  replace habort := habort.trans (congrArg _ (onTarget_of_eq hn s.abort))
  refine ⟨fun h => ?_, fun h => ?_, fun h => ?_, fun h => ?_, fun h => ?_, fun h => ?_, fun h => ?_⟩
  · exact hpark.trans (by simp only [State.park, h])
  · exact hpark.trans (congrArg _ (park_of_suspended h))
  · exact hpark.trans (congrArg _ (park_of_refused h))
  · exact hresume.trans (by simp only [State.resume, h])
  · exact hresume.trans (congrArg _ (resume_of_refused h))
  · exact habort.trans (by simp only [State.abort, h])
  · exact habort.trans (by simp only [State.abort, h])

theorem abortSuspended_of_command {s : State} {n : CtxId} {c : CommandRecord} (h : (s.record (.ctx n)).command = some c) :
    s.abortSuspended n =
      ({ s with resumeList := s.resumeList.filter (· ≠ n) } : State).endUninstalled (.ctx n) c .aborted := by
  rw [State.abortSuspended, h]

/-- Settles O26. -/
theorem abortOfSuspendedContext : Obligations.AbortOfSuspendedContext := by
  intro s target n c hlive htarget hstate hcommand
  have hexec := (exec_of_live hlive (.abort target)).trans (congrArg _ (onTarget_of_eq htarget s.abort))
  rw [abort_of_suspended hstate, abortSuspended_of_command hcommand] at hexec
  have hends := commandEnds_abort s n c
  obtain ⟨u, hu⟩ : ∃ u, u = ({ s with resumeList := s.resumeList.filter (· ≠ n) } : State).endUninstalled (.ctx n) c .aborted :=
    ⟨_, rfl⟩
  have hpreempt : u.preemptPending = u.preemptDue := by rw [hu]; rfl
  have howner : u.owner = s.owner := by rw [hu]; simp [State.endUninstalled]
  have hrunning : u.stepRunning = s.stepRunning := by rw [hu]; simp [State.endUninstalled]
  rw [← hu] at hexec hends
  exact ⟨_, hexec, rfl, howner, hrunning, hpreempt, hends⟩

end Sys2Proof.Machine
end

section
/-! PROOFS. The Bus Interface: a write to any offset is the commands of its rows, the write that spells a command is that command, and
what a read drives (R157, R158, R160, R163). -/

namespace Sys2Proof.Machine

/-! ### Writes -/

theorem busWrite_of_ignored (s : State) {offset : Offset} (data : Word)
    (h : offset.toNat ∈ [0x01, 0x06, 0x0D, 0x0E, 0x0F, 0x10, 0x11, 0x13, 0x16, 0x17, 0x18, 0x19, 0x1A, 0x1B, 0x1D, 0x1E, 0x23,
      0x27] ∨ 0x28 ≤ offset.toNat) : s.busWrite offset data = s := by
  unfold State.busWrite
  split
  case h_23 => rfl
  all_goals (rename_i heq; rw [heq] at h; exact absurd h (by decide))

theorem execAll_cons_of_live {s : State} (hlive : s.resetN = .high) (c : Instr)
    (hpin : ∀ level, c ≠ .hardwareReset level := by nofun) (rest : List Instr) :
    execAll (c :: rest) s = execAll rest (liveEffect c s) := by
  rw [execAll, exec_of_live hlive c hpin]

theorem execAll_single_of_live {s : State} (hlive : s.resetN = .high) (c : Instr)
    (hpin : ∀ level, c ≠ .hardwareReset level := by nofun) : execAll [c] s = .next (liveEffect c s) :=
  execAll_cons_of_live hlive c hpin []

/-- A command that is taken only when a bit is set. -/
theorem execAll_ite_append {s : State} (hlive : s.resetN = .high) (b : Bool) (c : Instr) (rest : List Instr)
    (hpin : ∀ level, c ≠ .hardwareReset level := by nofun) :
    execAll ((if b then [c] else []) ++ rest) s = execAll rest (if b then liveEffect c s else s) := by
  cases b
  · rfl
  · exact execAll_cons_of_live hlive c hpin rest

@[simp] theorem flush_resetN (s : State) (q : QueueId) : (s.flush q).resetN = s.resetN := by rw [flush_frame]

@[simp] theorem clearLatch_resetN (s : State) (q : QueueId) : (s.clearLatch q).resetN = s.resetN := setQueue_resetN ..

/-- A DEVCTL write with bit 0 clear takes its requests in the order of their bits (R160). -/
theorem execAll_devctl {s : State} (hlive : s.resetN = .high) {data : Word} (hbit : wordBit data 0 = false) :
    execAll ((if wordBit data 1 then [.flushN] else []) ++ (if wordBit data 2 then [.flushU] else []) ++
      (if wordBit data 3 then [.clearLatchN] else []) ++ (if wordBit data 4 then [.clearLatchU] else [])) s =
      .next (s.writeDevctl data) := by
  obtain ⟨s1, h1⟩ : ∃ s1, s1 = if wordBit data 1 then s.flush .normal else s := ⟨_, rfl⟩
  obtain ⟨s2, h2⟩ : ∃ s2, s2 = if wordBit data 2 then s1.flush .urgent else s1 := ⟨_, rfl⟩
  obtain ⟨s3, h3⟩ : ∃ s3, s3 = if wordBit data 3 then s2.clearLatch .normal else s2 := ⟨_, rfl⟩
  have hlive1 : s1.resetN = .high := by rw [h1]; split <;> simp [hlive]
  have hlive2 : s2.resetN = .high := by rw [h2]; split <;> simp [hlive1]
  have hlive3 : s3.resetN = .high := by rw [h3]; split <;> simp [hlive2]
  have hwrite : s.writeDevctl data = if wordBit data 4 then s3.clearLatch .urgent else s3 := by
    rw [State.writeDevctl, if_neg (by simp [hbit]), h3, h2, h1]
  calc execAll _ s
    _ = execAll _ s1 := by
      rw [List.append_assoc, List.append_assoc, execAll_ite_append hlive _ .flushN, h1]
      rfl
    _ = execAll _ s2 := by rw [execAll_ite_append hlive1 _ .flushU, h2]; rfl
    _ = execAll _ s3 := by rw [execAll_ite_append hlive2 _ .clearLatchN, h3]; rfl
    _ = .next (s.writeDevctl data) := by
      rw [← List.append_nil (if wordBit data 4 then _ else _), execAll_ite_append hlive3 _ .clearLatchU, hwrite]
      rfl

/-- A write is the commands of its rows, one after another (R158, R160). -/
theorem execAll_commandsOfWrite {s : State} (hlive : s.resetN = .high) (offset : Offset) (data : Word) :
    execAll (commandsOfWrite offset data) s = .next (s.busWrite offset data) := by
  have hsingle (c : Instr) (hpin : ∀ level, c ≠ .hardwareReset level) : execAll [c] s = .next (liveEffect c s) :=
    execAll_single_of_live hlive c hpin
  unfold commandsOfWrite
  simp only
  split
  case h_1 h =>
    rw [State.busWrite, h]
    split
    next hbit => exact (hsingle .softReset nofun).trans (by simp [State.writeDevctl, hbit, liveEffect])
    next hbit => exact execAll_devctl hlive (by simpa using hbit)
  case h_9 h =>
    rw [State.busWrite, h]
    simp only [State.writeCtxreq]
    split
    case h_5 => rfl
    all_goals exact hsingle _ nofun
  case h_10 h =>
    rw [State.busWrite, h]
    simp only [State.writeSlotattr]
    split
    case h_1 => exact hsingle .setProtect nofun
    case h_2 => exact hsingle .clearProtect nofun
    all_goals rfl
  case h_11 h =>
    rw [State.busWrite, h]
    simp only [State.writeWinctl]
    split
    case h_6 => rfl
    all_goals exact hsingle _ nofun
  case h_14 h =>
    rw [State.busWrite, h]
    simp only [State.writeWinctl]
    split
    case h_6 => rfl
    all_goals exact hsingle _ nofun
  case h_17 => exact hsingle _ nofun
  all_goals (rename_i h; rw [State.busWrite, h]; exact hsingle _ nofun)

/-- Settles O23. -/
theorem registerWriteIsItsCommands : Obligations.RegisterWriteIsItsCommands := by
  refine fun s offset data hlive => ⟨fun hoffset => ?_, ?_⟩
  · exact (exec_of_live hlive (.registerWrite offset data)).trans (congrArg _ (busWrite_of_ignored s data hoffset))
  · exact (execAll_commandsOfWrite hlive offset data).trans (exec_of_live hlive (.registerWrite offset data)).symm

/-! ### The write that spells a command -/

theorem commandsOfWrite_of_no_row {offset : Offset} (h : offsetHasOwnRow offset = false) (data : Word) :
    commandsOfWrite offset data = [.registerWrite offset data] := by
  unfold commandsOfWrite
  simp only
  split
  case h_17 => rfl
  all_goals (rename_i heq; rw [offsetHasOwnRow, heq] at h; exact absurd h (by decide))

theorem commandsOfWrite_openWrite {w : WindowId} {data : Word} (h : wordField data 0 3 = 2#3) :
    commandsOfWrite (windowOffset w) data =
      [.openWrite w (wordField data 8 6) (wordField data 16 10) (signOfBit (wordBit data 15))] := by
  match w with
  | 0 => simp [commandsOfWrite, windowOffset, h]
  | 1 => simp [commandsOfWrite, windowOffset, h]

theorem commandsOfWrite_seek {w : WindowId} {data : Word} (h : wordField data 0 3 = 3#3) :
    commandsOfWrite (windowOffset w) data = [.seek w (wordField data 16 10)] := by
  match w with
  | 0 => simp [commandsOfWrite, windowOffset, h]
  | 1 => simp [commandsOfWrite, windowOffset, h]

theorem fields_openWrite (slot : SlotField) (length : BitVec 10) (sign : Sign) :
    let data : Word := 0#6 ++ length ++ (if sign = .neg then 1#1 else 0#1) ++ 0#1 ++ slot ++ 0#5 ++ 2#3
    wordField data 0 3 = 2#3 ∧ wordField data 8 6 = slot ∧ signOfBit (wordBit data 15) = sign ∧ wordField data 16 10 = length := by
  refine ⟨?_, ?_, ?_, ?_⟩
  · rw [wordField, BitVec.extractLsb'_append_eq_of_add_le, BitVec.extractLsb'_eq_self]
    decide
  · rw [wordField, BitVec.extractLsb'_append_eq_of_le, BitVec.extractLsb'_append_eq_of_le,
      BitVec.extractLsb'_append_eq_of_add_le, BitVec.extractLsb'_eq_self] <;> decide
  · rw [wordBit, BitVec.getLsbD_append, BitVec.getLsbD_append, BitVec.getLsbD_append, BitVec.getLsbD_append,
      BitVec.getLsbD_append]
    cases sign <;> rfl
  · rw [wordField, BitVec.extractLsb'_append_eq_of_le, BitVec.extractLsb'_append_eq_of_le,
      BitVec.extractLsb'_append_eq_of_le, BitVec.extractLsb'_append_eq_of_le, BitVec.extractLsb'_append_eq_of_le,
      BitVec.extractLsb'_append_eq_of_add_le, BitVec.extractLsb'_eq_self] <;> decide

theorem fields_seek (index : BitVec 10) :
    let data : Word := 0#6 ++ index ++ 0#13 ++ 3#3
    wordField data 0 3 = 3#3 ∧ wordField data 16 10 = index := by
  refine ⟨?_, ?_⟩
  · rw [wordField, BitVec.extractLsb'_append_eq_of_add_le, BitVec.extractLsb'_eq_self]
    decide
  · rw [wordField, BitVec.extractLsb'_append_eq_of_le, BitVec.extractLsb'_append_eq_of_le,
      BitVec.extractLsb'_append_eq_of_add_le, BitVec.extractLsb'_eq_self] <;> decide

/-- The write of a command has it in every field (R157, R163). -/
theorem commandsOfWrite_hostWrite {c : Instr} {offset : Offset} {data : Word} (hwell : c.wellFormed = true)
    (h : hostWrite c = some (offset, data)) : commandsOfWrite offset data = [c] := by
  cases c <;> simp only [hostWrite, Option.some.injEq, Prod.mk.injEq, reduceCtorEq] at h <;> obtain ⟨rfl, rfl⟩ := h
  case registerWrite offset data => exact commandsOfWrite_of_no_row (by simpa [Instr.wellFormed] using hwell) data
  case park target => revert target; decide
  case resume target => revert target; decide
  case abort target => revert target; decide
  case abortUrgent target => revert target; decide
  case openRead w slot => revert w slot; decide
  case openWrite w slot length sign =>
    obtain ⟨hcode, hslot, hsign, hlength⟩ := fields_openWrite slot length sign
    rw [commandsOfWrite_openWrite hcode, hslot, hsign, hlength]
  case seek w index =>
    obtain ⟨hcode, hindex⟩ := fields_seek index
    rw [commandsOfWrite_seek hcode, hindex]
  case close w => revert w; decide
  case cancel w => revert w; decide
  case windowDataWrite w data => fin_cases w <;> rfl
  case winstatWrite w data => fin_cases w <;> rfl
  all_goals rfl

/-! ### Reads -/

theorem registerWord_windata (s : State) (w : WindowId) : s.registerWord (windowOffset w + 1) = s.windowWord w := by
  match w with
  | 0 => rfl
  | 1 => rfl

theorem windowRead_dataOut (s : State) (w : WindowId) : (s.windowRead w).dataOut = s.windowWord w := by
  simp only [State.windowRead]
  split <;> rfl

/-- Write-only and undefined offsets read 0 (R158). -/
theorem registerWord_of_unread (s : State) {offset : Offset}
    (h : offset.toNat ∈ [0x07, 0x0D, 0x0E, 0x0F, 0x12, 0x19, 0x1A, 0x1B, 0x20, 0x24] ∨ 0x28 ≤ offset.toNat) :
    s.registerWord offset = 0 := by
  unfold State.registerWord
  split
  case h_31 => rfl
  all_goals (rename_i heq; rw [heq] at h; exact absurd h (by decide))

/-- Settles O24. -/
theorem hostWriteSpellsItsCommand : Obligations.HostWriteSpellsItsCommand := by
  refine ⟨fun c offset data hwell h => commandsOfWrite_hostWrite hwell h, fun w data => ?_, fun s offset => rfl, fun s t w ht => ?_,
    fun csN rdN wrN s offset data hread => ⟨?_, fun hwrite => ?_⟩, fun s offset h => ?_⟩
  · match w with
    | 0 => rfl
    | 1 => rfl
  · rw [exec_windowDataRead] at ht
    have hread : accessOf .low .low .high = .read := rfl
    rw [dataLines_eq, if_pos hread, State.readRegister, registerWord_windata]
    split at ht
    next hlow => cases ht; rw [if_pos hlow]
    next hlow => cases ht; rw [if_neg hlow, windowRead_dataOut]
  · rw [dataLines_eq, if_neg (mt accessOf_eq_read.1 hread)]
  · unfold hostAccess
    split
    next h => exact absurd (accessOf_eq_read.1 h) hread
    next h => exact absurd (accessOf_eq_write.1 h) hwrite
    next => rfl
  · exact readRegister_eq_zero (registerWord_of_unread s h)

end Sys2Proof.Machine
end

section
/-! PROOFS. The Arbiter's selection: a start, a resume, or nothing to serve, and what ENGSTAT reads (R97, R99, R101, R102, R111). -/

namespace Sys2Proof.Machine

/-! ### The choice of the next work -/

theorem head_of_entries {s : State} {q : QueueId} {c : CommandRecord} {rest : List CommandRecord}
    (h : (s.queue q).entries = c :: rest) : s.head q = some c := by
  rw [State.head, h, List.head?_cons]

theorem freeContext_eq_some {s : State} {n : CtxId} (hfree : (s.record (.ctx n)).state = .free)
    (hlowest : ∀ m, (s.record (.ctx m)).state = .free → n ≤ m) : s.freeContext = some n := by
  cases h : s.freeContext with
  | none => exact absurd (decide_eq_true hfree) (List.find?_eq_none.1 h n (List.mem_finRange n))
  | some m =>
    have hm : (s.record (.ctx m)).state = .free := by simpa using List.find?_some h
    obtain hn | hlt := (hlowest m hm).eq_or_lt
    · rw [hn]
    · obtain ⟨-, i, hi, hget, hbefore⟩ := List.find?_eq_some_iff_getElem.1 h
      have him : i = m.val := by rw [← hget]; simp
      have := hbefore n.val (by rw [him]; exact hlt)
      simp [hfree] at this

theorem freeContext_eq_none {s : State} : s.freeContext = none ↔ ∀ n, (s.record (.ctx n)).state ≠ .free := by
  simp [State.freeContext, List.find?_eq_none]

theorem selectWork_of_urgent {s : State} {u : CommandRecord} (hhead : s.head .urgent = some u) (hstartable : s.startable u = true) :
    s.selectWork = s.start .urgent .urgent u := by
  simp [State.selectWork, hhead, hstartable]

theorem selectWork_of_no_urgent {s : State} (h : s.headStartable .urgent = false) : s.selectWork = s.selectResume := by
  unfold State.selectWork
  split
  next u hhead =>
    have : s.startable u = false := by simpa [State.headStartable, hhead] using h
    simp [this]
  next => rfl

theorem selectNormal_of_startable {s : State} {c : CommandRecord} {n : CtxId} (hhead : s.head .normal = some c)
    (hfree : s.freeContext = some n) (hstartable : s.startable c = true) : s.selectNormal = s.start .normal (.ctx n) c := by
  simp [State.selectNormal, hhead, hfree, hstartable]

theorem selectNormal_of_waiting {s : State}
    (h : s.headStartable .normal = false ∨ ∀ n, (s.record (.ctx n)).state ≠ .free) : s.selectNormal = s := by
  obtain hstay | ⟨c, n, hhead, hstartable, hfree, -⟩ := selectNormal_cases s
  · exact hstay
  · obtain hnone | hbusy := h
    · simp [State.headStartable, hhead, hstartable] at hnone
    · exact absurd hfree (hbusy n)

theorem select_of_idle {s : State} (h : s.owner = none) : s.select = s.selectWork := by
  rw [State.select, h]

theorem select_of_busy {s : State} (h : s.owner ≠ none) : s.select = { s with preemptPending := s.preemptDue } := by
  unfold State.select
  split
  next hidle => exact absurd hidle h
  next => rfl

/-- The selections of O34: which of the two queues may start its head on which runner. -/
theorem select_eq_start {s : State} {q : QueueId} {r : Runner} {c : CommandRecord} {rest : List CommandRecord}
    (hidle : s.owner = none) (hentries : (s.queue q).entries = c :: rest) (hstartable : s.startable c = true)
    (hwhich : (q = .urgent ∧ r = .urgent) ∨
      (q = .normal ∧ s.headStartable .urgent = false ∧ s.resumeList = [] ∧
        ∃ n, r = .ctx n ∧ (s.record (.ctx n)).state = .free ∧ ∀ m, (s.record (.ctx m)).state = .free → n ≤ m)) :
    s.select = s.start q r c := by
  rw [select_of_idle hidle]
  obtain ⟨rfl, rfl⟩ | ⟨rfl, hurgent, hlist, n, rfl, hfree, hlowest⟩ := hwhich
  · exact selectWork_of_urgent (head_of_entries hentries) hstartable
  · rw [selectWork_of_no_urgent hurgent, State.selectResume, hlist]
    exact selectNormal_of_startable (head_of_entries hentries) (freeContext_eq_some hfree hlowest) hstartable

/-- Settles O34: the selection is the start, whose every part `start_spec` gives. -/
theorem selectionStarts : Obligations.SelectionStarts := by
  intro s q r c rest hlive hidle hentries hstartable hwhich
  obtain ⟨hrecord, hslot, hreaders, hqueue, hcq, hint, hothers, hqueues, hpreempt, hframe⟩ := start_spec s q r c rest hentries
  exact ⟨s.start q r c, (exec_of_live hlive .selection).trans (congrArg _ (select_eq_start hidle hentries hstartable hwhich)),
    start_owner s q r c, start_stepRunning s q r c, hrecord, hslot, hreaders, hqueue, hcq, hint, hothers, hqueues, hpreempt,
    hframe.trans (by rw [start_owner, start_stepRunning])⟩

/-! ### A resume, and ENGSTAT -/

theorem resumeContext_eq {s : State} {n : CtxId} (h : s.headStartable .urgent = false) :
    s.resumeContext n =
      { s.setRecord (.ctx n) { s.record (.ctx n) with state := .active } with
        resumeList := s.resumeList.filter (· ≠ n), owner := some (.ctx n), stepRunning := false, preemptPending := false } := by
  rw [resumeContext_frame, h]
  rfl

theorem headWaitsForContext_eq (s : State) :
    s.headWaitsForContext =
      decide (s.nq.entries ≠ [] ∧ s.nq.blocked = false ∧ ∀ n, (s.record (.ctx n)).state ≠ .free) := by
  rw [Bool.eq_iff_iff, decide_eq_true_iff, ← freeContext_eq_none]
  simp [State.headWaitsForContext, State.head, State.queue, and_assoc, List.isSome_head?]

theorem registerWord_engstat (s : State) :
    s.registerWord 0x01 =
      BitVec.ofNat 16 s.engineStep ++ 0#8 ++
        (if s.nq.entries ≠ [] ∧ s.nq.blocked = false ∧ ∀ n, (s.record (.ctx n)).state ≠ .free then 1#1 else 0#1) ++
        BitVec.ofBool s.nq.blocked ++ BitVec.ofBool s.uq.blocked ++ BitVec.ofBool s.preemptPending ++ 0#1 ++
        BitVec.ofNat 3 (runnerCode s.owner) := by
  rw [← ofNat_ofFlag_decide, ← headWaitsForContext_eq]
  simp only [← ofNat_ofFlag]
  refine .trans ?_ (BitVec.setWidth_eq (n := 32) _)
  simp only [setWidth_append_ofNat, BitVec.shiftLeft_or_distrib, readField_shiftLeft]
  change s.readEngstat = _
  simp [State.readEngstat, readField, BitVec.or_assoc]

/-- Settles O35. -/
theorem selectionResumesOrWaits : Obligations.SelectionResumesOrWaits := by
  refine ⟨fun s data hlive => ⟨hostAccess_read_eq_nil (by decide) (by decide) data, fun howner => ?_, fun n howner => ?_,
    fun howner => ?_⟩, fun s hlive => ⟨fun n rest hidle hurgent hlist => ?_, fun hidle hurgent hlist hwaits => ?_, fun hbusy => ?_⟩⟩
  · rw [readRegister_of_high hlive, registerWord_engstat]
    simp [State.engineStep, howner, runnerCode, holderCode]
  · rw [readRegister_of_high hlive, registerWord_engstat]
    simp [State.engineStep, howner, runnerCode, holderCode]
  · rw [readRegister_of_high hlive, registerWord_engstat]
    simp [State.engineStep, howner, runnerCode, holderCode, State.record]
  · refine (exec_of_live hlive .selection).trans (congrArg _ ?_)
    rw [← hlist, ← resumeContext_eq hurgent]
    change s.select = _
    rw [select_of_idle hidle, selectWork_of_no_urgent hurgent, State.selectResume, hlist]
  · refine (exec_of_live hlive .selection).trans (congrArg _ ?_)
    change s.select = _
    rw [select_of_idle hidle, selectWork_of_no_urgent hurgent, State.selectResume, hlist]
    exact selectNormal_of_waiting hwaits
  · exact (exec_of_live hlive .selection).trans (congrArg _ (select_of_busy hbusy))

end Sys2Proof.Machine
end

section
/-! PROOFS. What a start fixes and what each step asks for: the step totals, the declared pages, the last step and the checks of step 0
(R43, R65, R66, R68, R76). -/

namespace Sys2Proof.Machine

/-! ### The last step -/

theorem lastStep_iff_of_counted (w : Work) {kind : Kind} (hgcd : kind ≠ .gcd) (hinv : kind ≠ .modinv) (i : Nat) :
    w.lastStep kind i = true ↔ i + 1 = w.job.stepTotal := by
  cases kind <;> simp_all [Work.lastStep]

theorem lastStep_gcd_iff (w : Work) (i : Nat) : w.lastStep .gcd i = true ↔ w.mag .wv1 = 0 := decide_eq_true_iff

theorem lastStep_modinv_iff (w : Work) (i : Nat) : w.lastStep .modinv i = true ↔ i ≠ 0 ∧ w.search.y = 0 := by
  simp [Work.lastStep]

/-! ### The checks of step 0 -/

theorem isProtected_iff {s : State} {f : SlotField} :
    s.isProtected f = true ↔ ∃ i : SlotId, f.toNat = i.val ∧ (s.slot i).protect = true := by
  simp only [← slotNumber_eq_some]
  unfold State.isProtected
  cases slotNumber f <;> simp

theorem modulusFault_of_bad {m : Value} (h : m.length = 0 ∨ m.sign = .neg) (e : Option Value) :
    modulusFault m e = some .badModulus := if_pos h

theorem modulusFault_of_long {m : Value} (h : ¬ (m.length = 0 ∨ m.sign = .neg)) (hlong : 256 < m.length) (e : Option Value) :
    modulusFault m e = some .oversize := (if_neg h).trans (if_pos hlong)

theorem modulusFault_of_fitting {m : Value} (h : ¬ (m.length = 0 ∨ m.sign = .neg)) (hfits : m.length ≤ 256) (e : Option Value) :
    modulusFault m e = if e.any (fun v => v.sign = .neg) then some .negExponent else none :=
  (if_neg h).trans (if_neg (Nat.not_lt.2 hfits))

/-- The checks of a command none of whose destinations is protected, by its kind. -/
theorem stepZeroFault_of_open {s : State} {c : CommandRecord} (h : ¬ c.dests.any s.isProtected = true) :
    s.stepZeroFault c =
      match c.kind with
      | .divmod => if (s.value c.b).mag = 0 then some .divZero else none
      | .modmul => modulusFault (s.value c.m) none
      | .modexp => modulusFault (s.value c.m) (some (s.value c.b))
      | .modinv => modulusFault (s.value c.m) none
      | .mul =>
        if 0 < (s.value c.a).length ∧ 0 < (s.value c.b).length ∧ 512 < (s.value c.a).length + (s.value c.b).length - 1
        then some .oversize else none
      | .shl => if 0 < (s.value c.a).length ∧ 512 < (s.value c.a).length + c.imm.toNat / 32 then some .oversize else none
      | .copy | .seti | .add | .sub | .shr | .gcd | .cmp | .bitlen | .free => none := by
  rw [State.stepZeroFault, if_neg h]
  rfl

theorem stepZeroFault_of_modular {s : State} {c : CommandRecord} (h : ¬ c.dests.any s.isProtected = true)
    (hkind : c.kind = .modmul ∨ c.kind = .modexp ∨ c.kind = .modinv) :
    s.stepZeroFault c = modulusFault (s.value c.m) (if c.kind = .modexp then some (s.value c.b) else none) := by
  rw [stepZeroFault_of_open h]
  obtain hkind | hkind | hkind := hkind <;> simp [hkind]

theorem stepTotalOf_spec (s : State) (c : CommandRecord) :
    let la := (s.value c.a).length
    let lb := (s.value c.b).length
    let lm := (s.value c.m).length
    let n := c.imm.toNat
    (c.kind = .copy → s.stepTotalOf c = 1 + pg la) ∧
    (c.kind = .seti ∨ c.kind = .cmp ∨ c.kind = .bitlen ∨ c.kind = .free → s.stepTotalOf c = 1) ∧
    (c.kind = .add ∨ c.kind = .sub → s.stepTotalOf c = 1 + pg (max la lb + 1)) ∧
    (c.kind = .shl → s.stepTotalOf c = if 0 < la then 1 + pg (la + (n + 31) / 32) else 1) ∧
    (c.kind = .shr → s.stepTotalOf c = if n / 32 < la then 1 + pg (la - n / 32) else 1) ∧
    (c.kind = .mul → s.stepTotalOf c = if 0 < la ∧ 0 < lb then 1 + la else 1) ∧
    (c.kind = .divmod → s.stepTotalOf c = if lb ≤ la then 1 + (la - lb + 1) else 1) ∧
    (c.kind = .modmul → s.stepTotalOf c = lm + 4) ∧
    (c.kind = .modexp → s.stepTotalOf c = 2 + bitLength (s.value c.b).mag) ∧
    (c.kind = .gcd ∨ c.kind = .modinv → s.stepTotalOf c = 0) := by
  refine ⟨?copy, ?oneStep, ?sum, ?shl, ?shr, ?mul, ?divmod, ?modmul, ?modexp, ?search⟩
  case oneStep => rintro (h | h | h | h) <;> rw [State.stepTotalOf, h]
  case sum => rintro (h | h) <;> rw [State.stepTotalOf, h]
  case search => rintro (h | h) <;> rw [State.stepTotalOf, h]
  case shr =>
    intro h
    rw [State.stepTotalOf, h]
    change 1 + pg ((s.value c.a).length - c.imm.toNat / 32) = _
    split
    next => rfl
    next hshort => rw [Nat.sub_eq_zero_of_le (Nat.not_lt.1 hshort), pg]
  all_goals
    intro h
    simp only [State.stepTotalOf, h, CommandRecord.shift]

theorem declaredPages_spec (s : State) (c : CommandRecord) (i : Nat) :
    let la := (s.value c.a).length
    let lb := (s.value c.b).length
    let lm := (s.value c.m).length
    (c.kind ∈ [.copy, .add, .sub, .shl, .shr] → s.declaredPages c i = (i, 0, 0)) ∧
    (c.kind = .seti → s.declaredPages c 0 = if c.imm = 0 then (0, 0, 0) else (1, 0, 0)) ∧
    (c.kind = .mul → s.declaredPages c i = if i = 0 then (0, 0, 0) else (pg (lb + i), 0, 0)) ∧
    (c.kind = .divmod →
      s.declaredPages c i = if i = 0 then (if 0 < la then (0, pg (la + 1), 0) else (0, 0, 0)) else (pg i, 0, 0)) ∧
    (c.kind = .modmul ∨ c.kind = .modexp →
      s.declaredPages c i = if i = 0 then (pg lm, pg lm, pg (2 * lm + 1)) else (0, 0, 0)) ∧
    (c.kind = .gcd → s.declaredPages c i =
      if i = 0 then (pg (max la lb + 1), pg (max la lb + 1), pg (max la lb + 1)) else (0, 0, 0)) ∧
    (c.kind = .modinv → s.declaredPages c i = if i = 0 then (pg (lm + 1), pg (lm + 1), pg (lm + 1)) else (0, 0, 0)) ∧
    (c.kind ∈ [.cmp, .bitlen, .free] → s.declaredPages c i = (0, 0, 0)) := by
  refine ⟨?paged, ?seti, ?mul, ?divmod, ?modular, ?gcd, ?modinv, ?oneStep⟩
  case paged =>
    simp only [List.mem_cons, List.not_mem_nil, or_false]
    rintro (h | h | h | h | h) <;> rw [State.declaredPages, h]
  case oneStep =>
    simp only [List.mem_cons, List.not_mem_nil, or_false]
    rintro (h | h | h) <;> rw [State.declaredPages, h]
  case modular => rintro (h | h) <;> rw [State.declaredPages, h]
  case divmod =>
    intro h
    rw [State.declaredPages, h]
    change (if i = 0 then (0, (if 0 < (s.value c.a).length then pg ((s.value c.a).length + 1) else 0), 0) else (pg i, 0, 0)) = _
    split_ifs <;> rfl
  all_goals
    intro h
    rw [State.declaredPages, h]

/-- Settles O37. -/
theorem stepTotalsAndChecks : Obligations.StepTotalsAndChecks := by
  refine ⟨stepTotalOf_spec, declaredPages_spec, fun w kind i => ⟨fun hgcd hinv => lastStep_iff_of_counted w hgcd hinv i, ?_, ?_⟩,
    fun s c => ?_⟩
  · rintro rfl; exact lastStep_gcd_iff w i
  · rintro rfl; exact lastStep_modinv_iff w i
  intro a b m isProtected modular badModulus big
  have hprotected : c.dests.any s.isProtected = true ↔ isProtected := by
    simp only [List.any_eq_true, isProtected_iff, isProtected]
  refine ⟨fun h => if_pos (hprotected.2 h), fun h => ?_⟩
  have hopen : ¬ c.dests.any s.isProtected = true := mt hprotected.1 h
  refine ⟨fun hkind hzero => ?_, fun hmod hbad => ?_, fun hmod hgood hlong => ?_, fun hkind hgood hfits hneg => ?_, fun hbig => ?_,
    fun hdiv hmod hexp hsmall => ?_⟩
  · rw [stepZeroFault_of_open hopen, hkind]
    exact if_pos hzero
  · exact (stepZeroFault_of_modular hopen hmod).trans (modulusFault_of_bad hbad _)
  · exact (stepZeroFault_of_modular hopen hmod).trans (modulusFault_of_long hgood hlong _)
  · rw [stepZeroFault_of_modular hopen (.inr (.inl hkind)), modulusFault_of_fitting hgood hfits, if_pos hkind]
    exact if_pos (decide_eq_true hneg)
  · rw [stepZeroFault_of_open hopen]
    obtain ⟨hkind, hbig⟩ | ⟨hkind, hbig⟩ := hbig <;> rw [hkind] <;> exact if_pos hbig
  · by_cases hm : modular
    · obtain ⟨hgood, hfits⟩ := hmod hm
      rw [stepZeroFault_of_modular hopen hm, modulusFault_of_fitting hgood hfits, if_neg]
      split
      next hkind => simpa using (hexp hkind).trans_ne (by decide : Sign.pos ≠ Sign.neg)
      next => simp
    · rw [stepZeroFault_of_open hopen]
      cases hkind : c.kind
      case divmod => exact if_neg (hdiv hkind)
      case mul => exact if_neg fun hlong => hsmall (.inl ⟨hkind, hlong⟩)
      case shl => exact if_neg fun hlong => hsmall (.inr ⟨hkind, hlong⟩)
      case modmul => exact absurd (.inl hkind) hm
      case modexp => exact absurd (.inr (.inl hkind)) hm
      case modinv => exact absurd (.inr (.inr hkind)) hm
      all_goals rfl

end Sys2Proof.Machine
end

section
/-! PROOFS. The Core between two steps: the acquisition of the next step, granted or refused, and the boundary's abort, park and
preemption (R10 to R12, R65, R67, R69, R102, R103, R105 to R109). -/

namespace Sys2Proof.Machine

/-! ### The state between two steps -/

/-- The state between two steps of the owner r: its record is j, the limb memory m, and no step runs. -/
def State.between (s : State) (r : Runner) (j : Record) (m : Memory) : State := { s.setRecord r j with mem := m, stepRunning := false }

theorem worked_eq_between (s : State) (r : Runner) (c : CommandRecord) :
    s.worked r c = s.between r (s.workedRecord r c) (s.stepWork c (s.record r)).mem := rfl

/-- The owner's record with the checks of step 0 marked as made. -/
def State.checkedRecord (s : State) (r : Runner) : Record :=
  { s.record r with checksMade := if (s.record r).nextStep = 0 then true else (s.record r).checksMade }

theorem checked_eq_between {s : State} (hrunning : s.stepRunning = false) (r : Runner) :
    s.checked r = s.between r (s.checkedRecord r) s.mem := by
  rw [State.eq_iff]
  simp [State.checked, State.between, State.checkedRecord, hrunning]

theorem between_frame (s : State) (r : Runner) (j : Record) (m : Memory) :
    s.between r j m = { s with
      mem := m, stepRunning := false, contexts := (s.between r j m).contexts, urec := (s.between r j m).urec } := by
  rw [State.eq_iff]
  simp [State.between]

theorem between_record (s : State) (r x : Runner) (j : Record) (m : Memory) :
    (s.between r j m).record x = if x = r then j else s.record x :=
  (record_eq_of rfl rfl x).trans (record_setRecord s r x j)

theorem between_record_self (s : State) (r : Runner) (j : Record) (m : Memory) : (s.between r j m).record r = j := by
  rw [between_record, if_pos rfl]

theorem between_record_of_ne (s : State) {r x : Runner} (h : x ≠ r) (j : Record) (m : Memory) :
    (s.between r j m).record x = s.record x := by
  rw [between_record, if_neg h]

@[simp] theorem between_slots (s : State) (r : Runner) (j : Record) (m : Memory) : (s.between r j m).slots = s.slots := by
  rw [between_frame]

@[simp] theorem between_mem (s : State) (r : Runner) (j : Record) (m : Memory) : (s.between r j m).mem = m := rfl

@[simp] theorem between_freeList (s : State) (r : Runner) (j : Record) (m : Memory) : (s.between r j m).freeList = s.freeList := by
  rw [between_frame]

@[simp] theorem between_reserve (s : State) (r : Runner) (j : Record) (m : Memory) : (s.between r j m).reserve = s.reserve := by
  rw [between_frame]

@[simp] theorem between_queue (s : State) (r : Runner) (j : Record) (m : Memory) (q : QueueId) :
    (s.between r j m).queue q = s.queue q := by
  rw [between_frame]
  cases q <;> rfl

/-! ### What a step declares depends on the lengths of the sources -/

theorem length_value_of_slots {s t : State} (h : t.slots = s.slots) (f : SlotField) : (t.value f).length = (s.value f).length := by
  unfold State.value
  cases slotNumber f with
  | none => rfl
  | some i => exact congrArg Slot.length (slot_eq_of h i)

theorem lackingPages_of_slots {s t : State} (h : t.slots = s.slots) (c : CommandRecord) (j : Record) :
    t.lackingPages c j = s.lackingPages c j := by
  have hdeclared : t.declaredPages c j.nextStep = s.declaredPages c j.nextStep := by
    simp only [State.declaredPages, length_value_of_slots h]
  rw [State.lackingPages, State.lackingPages, hdeclared]

theorem demandOf_of_slots {s t : State} (h : t.slots = s.slots) (c : CommandRecord) (j : Record) : t.demandOf c j = s.demandOf c j := by
  rw [State.demandOf, State.demandOf, lackingPages_of_slots h]

/-! ### The acquisition between two steps -/

theorem withPages_nextPages (s : State) (j : Record) (n0 n1 n2 : Nat) :
    j.withPages (n0, n1, n2) (s.nextPages (n0 + n1 + n2)) =
      { j with
        wv0 := { j.wv0 with pages := j.wv0.pages ++ s.freeList.take n0 }
        wv1 := { j.wv1 with pages := j.wv1.pages ++ (s.freeList.drop n0).take n1 }
        wv2 := { j.wv2 with pages := j.wv2.pages ++ (s.freeList.drop (n0 + n1)).take n2 } } := by
  have h0 : (s.freeList.take (n0 + n1 + n2)).take n0 = s.freeList.take n0 := by
    rw [List.take_take, Nat.min_eq_left (by omega)]
  have h1 : ((s.freeList.take (n0 + n1 + n2)).drop n0).take n1 = (s.freeList.drop n0).take n1 := by
    rw [List.drop_take, List.take_take, Nat.min_eq_left (by omega)]
  have h2 : ((s.freeList.take (n0 + n1 + n2)).drop (n0 + n1)).take n2 = (s.freeList.drop (n0 + n1)).take n2 := by
    rw [List.drop_take, List.take_take, Nat.min_eq_left (by omega)]
  simp only [Record.withPages, State.nextPages, h0, h1, h2]

/-- The pool grants the runner r a demand of d pages (R11). -/
def State.Grants (s : State) (r : Runner) (d : Nat) : Prop :=
  d = 0 ∨ (r = .urgent ∧ d ≤ s.freeList.length) ∨ d + s.reserve ≤ s.freeList.length

theorem granted_between_iff {s : State} {r : Runner} {c : CommandRecord} {j : Record} {m : Memory} :
    acquisitionGranted (.run r) ((s.between r j m).demandOf c ((s.between r j m).record r)) (s.between r j m) = true ↔
      s.Grants r (s.demandOf c j) := by
  rw [acquisitionGranted_iff, between_record_self, demandOf_of_slots (between_slots s r j m)]
  simp [State.Grants]

/-- A granted acquisition: the first pages of the free list, zeroed, go to WV0, then WV1, then WV2, and the step runs (R10, R67). -/
theorem acquireStep_between_granted {s : State} {r : Runner} {c : CommandRecord} {j : Record} {m : Memory}
    (hgranted : s.Grants r (s.demandOf c j)) :
    let t := (s.between r j m).acquireStep r c
    let n := s.lackingPages c j
    let d := s.demandOf c j
    t.stepRunning = true ∧ t.freeList = s.freeList.drop d ∧
      (∀ p ∈ s.freeList.take d, ∀ k < 16, t.mem.read (16 * p.val + k) = 0) ∧
      (∀ a, (∀ p ∈ s.freeList.take d, p.val ≠ a / 16) → t.mem.read a = m.read a) ∧
      (∀ x, x ≠ r → t.record x = s.record x) ∧
      t.record r =
        { j with
          wv0 := { j.wv0 with pages := j.wv0.pages ++ s.freeList.take n.1 }
          wv1 := { j.wv1 with pages := j.wv1.pages ++ (s.freeList.drop n.1).take n.2.1 }
          wv2 := { j.wv2 with pages := j.wv2.pages ++ (s.freeList.drop (n.1 + n.2.1)).take n.2.2 } } ∧
      t = { s with stepRunning := true, freeList := t.freeList, mem := t.mem, contexts := t.contexts, urec := t.urec } := by
  intro t n d
  have ht : t = { ((s.between r j m).takePages d).setRecord r (j.withPages n (s.nextPages d)) with stepRunning := true } := by
    have h := acquireStep_of_granted ((granted_between_iff (m := m)).2 hgranted)
    rw [between_record_self, demandOf_of_slots (between_slots s r j m), lackingPages_of_slots (between_slots s r j m)] at h
    rw [show t = _ from h]
    simp [State.nextPages, d, n]
  have hmem : t.mem = ((s.between r j m).takePages d).mem := by rw [ht]; simp
  have hrecord (x : Runner) : t.record x = if x = r then j.withPages n (s.nextPages d) else s.record x := by
    rw [ht]
    refine (record_eq_of rfl rfl x).trans ((record_setRecord _ r x _).trans ?_)
    split
    next => rfl
    next hx => rw [takePages_record, between_record_of_ne s hx]
  obtain ⟨hzero, hkept⟩ := read_takePages (s.between r j m) d
  rw [between_freeList, ← hmem] at hzero hkept
  refine ⟨by rw [ht], ?_, hzero, hkept, fun x hx => ?_, ?_, ?_⟩
  · rw [ht]
    simp [State.takePages]
  · rw [hrecord, if_neg hx]
  · rw [hrecord, if_pos rfl]
    exact withPages_nextPages s j n.1 n.2.1 n.2.2
  · rw [State.eq_iff]
    simp [ht, State.between]

/-- A refused acquisition falls short by the demand of the next step (R12). -/
theorem acquireStep_between_refused {s : State} {r : Runner} {c : CommandRecord} {j : Record} {m : Memory}
    (hrefused : ¬ s.Grants r (s.demandOf c j)) :
    (s.between r j m).acquireStep r c = (s.between r j m).shortfall r c (s.demandOf c j) := by
  have h := acquireStep_of_refused (Bool.eq_false_iff.2 (mt (granted_between_iff (m := m)).1 hrefused))
  rwa [between_record_self, demandOf_of_slots (between_slots s r j m)] at h

/-! ### Suspensions and ends between two steps -/

theorem parkContext_between (s : State) (n : CtxId) (j : Record) (m : Memory) :
    ((s.between (.ctx n) j m).parkContext n).coreFree =
      { s.setRecord (.ctx n) { j with state := .parked, pagesWanted := 0, parkPending := false } with
        mem := m, resumeList := s.resumeList.filter (· ≠ n), intstat := s.intstat ||| IntFlag.park.mask
        owner := none, stepRunning := false, preemptPending := false } := by
  rw [coreFree_eq, parkContext_frame, State.eq_iff]
  simp [State.between, State.parkContext, State.setRecord, State.record, State.raise]

theorem shortfall_between_spaceWait {s : State} {n : CtxId} {c : CommandRecord} {j : Record} {m : Memory} {demand : Nat}
    (habort : j.abortPending = false) (hpark : j.parkPending = false) (hshort : s.freeList.length < demand + s.reserve) :
    (s.between (.ctx n) j m).shortfall (.ctx n) c demand =
      { s.setRecord (.ctx n) { j with state := .spaceWait, pagesWanted := demand } with
        mem := m, intstat := s.intstat ||| IntFlag.space.mask, owner := none, stepRunning := false, preemptPending := false } := by
  rw [shortfall_spaceWait (s := s.between (.ctx n) j m) (by rw [between_record_self, habort])
    (by rw [between_record_self, hpark]) (by rwa [State.freeCount, between_freeList, between_reserve]), coreFree_eq, State.eq_iff]
  simp [State.between, State.setRecord, State.record, State.raise]

theorem shortfall_of_abort {s : State} {r : Runner} (h : (s.record r).abortPending = true) (c : CommandRecord) (demand : Nat) :
    s.shortfall r c demand = s.coreEndUninstalled r c .aborted := if_pos h

theorem shortfall_urgent {s : State} (h : (s.record .urgent).abortPending = false) (c : CommandRecord) (demand : Nat) :
    s.shortfall .urgent c demand = s.coreEndUninstalled .urgent c .noSpace :=
  if_neg (by simp [h])

theorem shortfall_of_park {s : State} {n : CtxId} (habort : (s.record (.ctx n)).abortPending = false)
    (hpark : (s.record (.ctx n)).parkPending = true) (c : CommandRecord) (demand : Nat) :
    s.shortfall (.ctx n) c demand = (s.parkContext n).coreFree :=
  (if_neg (by simp [habort])).trans (if_pos hpark)

/-- An end that installs nothing, on the Core between two steps (R79, R110). -/
theorem coreEndUninstalled_between (s : State) (r : Runner) (c : CommandRecord) {j : Record} (m : Memory) {status : Status}
    (hpages : j.workPages = (s.record r).workPages) (hstatus : status.setsLatch = true) :
    let t := (s.between r j m).coreEndUninstalled r c status
    t.mem = m ∧ t.owner = none ∧ t.stepRunning = false ∧ t.preemptPending = false ∧ t.ctxreq = s.ctxreq ∧
      CommandEnds { s with mem := m } t r c (recordOfEnded status r c j.stepsDone) (s.record r).workPages s.slot := by
  intro t
  have hends : CommandEnds { s with mem := m } t r c (recordOfEnded status r c ((s.between r j m).record r).stepsDone)
      ((s.between r j m).record r).workPages s.slot :=
    commandEnds_coreEndUninstalled (s := { s with mem := m })
      (by rw [State.eq_iff]; simp [State.between]) (fun x hx => between_record_of_ne s hx j m) hstatus
  rw [between_record_self, hpages] at hends
  refine ⟨?_, rfl, rfl, rfl, ?_, hends⟩
  · rw [hends.frame]
  · change ((s.between r j m).endUninstalled r c status).ctxreq = s.ctxreq
    rw [State.endUninstalled, endCommand_ctxreq, between_frame]

end Sys2Proof.Machine
end

section
/-! PROOFS. The beginning and the end of a step, by what the Core meets there (R10 to R12, R42, R65, R67, R69, R103, R105 to R110). -/

namespace Sys2Proof.Machine

/-! ### STEP_BEGIN and STEP_END, of an owner with a command -/

theorem ownedCommand_of_owner {s : State} {r : Runner} {c : CommandRecord} (howner : s.owner = some r)
    (hcommand : (s.record r).command = some c) : s.ownedCommand = some (r, c) := by
  simp [State.ownedCommand, howner, hcommand]

theorem exec_stepBegin {s : State} {r : Runner} {c : CommandRecord} (hlive : s.resetN = .high) (howner : s.owner = some r)
    (hcommand : (s.record r).command = some c) (hrunning : s.stepRunning = false) :
    exec .stepBegin s = .next (s.beginStep r c) := by
  refine (exec_of_live hlive .stepBegin).trans (congrArg _ ?_)
  change s.coreBegin = _
  simp [State.coreBegin, ownedCommand_of_owner howner hcommand, hrunning]

theorem exec_stepEnd {s : State} {r : Runner} {c : CommandRecord} (hlive : s.resetN = .high) (howner : s.owner = some r)
    (hcommand : (s.record r).command = some c) (hrunning : s.stepRunning = true) :
    exec .stepEnd s = .next (s.endStep r c) := by
  refine (exec_of_live hlive .stepEnd).trans (congrArg _ ?_)
  change s.coreEnd = _
  simp [State.coreEnd, ownedCommand_of_owner howner hcommand, hrunning]

theorem beginStep_of_passed {s : State} {r : Runner} {c : CommandRecord}
    (hpassed : (s.record r).nextStep ≠ 0 ∨ (s.record r).checksMade = true ∨ s.stepZeroFault c = none) :
    s.beginStep r c = (s.checked r).acquireStep r c := by
  unfold State.beginStep
  dsimp only
  split
  next hfirst =>
    obtain ⟨hstep, hmade⟩ : (s.record r).nextStep = 0 ∧ (s.record r).checksMade = false := by simpa using hfirst
    have hnone : s.stepZeroFault c = none := by simpa [hstep, hmade] using hpassed
    rw [hnone, checked_eq, if_pos hstep]
  next hfirst =>
    have hmade : (s.record r).nextStep ≠ 0 ∨ (s.record r).checksMade = true := by
      by_contra h
      exact hfirst (by simpa using h)
    rw [checked_eq_self hmade]

theorem beginStep_of_fault {s : State} {r : Runner} {c : CommandRecord} {status : Status} (hstep : (s.record r).nextStep = 0)
    (hmade : (s.record r).checksMade = false) (hfault : s.stepZeroFault c = some status) :
    s.beginStep r c = (s.setRecord r { s.record r with stepsDone := 1 }).coreEndUninstalled r c status := by
  simp [State.beginStep, hstep, hmade, hfault]

theorem endStep_of_boundary {s : State} {r : Runner} {c : CommandRecord}
    (h : (s.stepWork c (s.record r)).lastStep c.kind (s.record r).nextStep = false) :
    s.endStep r c = (s.worked r c).boundary r c :=
  (endStep_eq s r c).trans (if_neg (by rw [State.atLastStep, h]; decide))

theorem endStep_of_last {s : State} {r : Runner} {c : CommandRecord}
    (h : (s.stepWork c (s.record r)).lastStep c.kind (s.record r).nextStep = true) :
    s.endStep r c = (s.worked r c).finish r c { s.stepWork c (s.record r) with job := s.workedRecord r c } :=
  (endStep_eq s r c).trans (if_pos h)

/-! ### Pieces of the records -/

theorem countStep_eq (n : Nat) : countStep n = if n < 65535 then n + 1 else 65535 := by
  unfold countStep
  split <;> simp only [Config.maxStepsDone] <;> omega

theorem countStep_of_lt {n : Nat} (h : n < 65535) : countStep n = n + 1 := (countStep_eq n).trans (if_pos h)

theorem workedRecord_eq_of_lt {s : State} {r : Runner} (c : CommandRecord) (h : (s.record r).stepsDone < 65535) :
    s.workedRecord r c = { (s.stepWork c (s.record r)).job with
      nextStep := (s.record r).nextStep + 1, stepsDone := (s.record r).stepsDone + 1 } := by
  rw [State.workedRecord, countStep_of_lt h]

/-! ### The beginning of a step -/

/-- Settles O36. -/
theorem stepBeginAcquires : Obligations.StepBeginAcquires := by
  intro s r c hlive howner hcommand hrunning hpassed j want n0 n1 n2 d hgranted
  obtain ⟨hrun, hfree, hzero, hkept, hothers, hself, hframe⟩ :=
    acquireStep_between_granted (s := s) (r := r) (c := c) (j := s.checkedRecord r) (m := s.mem) hgranted
  refine ⟨_, (exec_stepBegin hlive howner hcommand hrunning).trans (congrArg _ ?_), hrun, hfree, hzero, hkept, hothers, hself, hframe⟩
  rw [beginStep_of_passed hpassed, checked_eq_between hrunning]

/-- Settles O39. -/
theorem stepBeginRefused : Obligations.StepBeginRefused := by
  intro s r c hlive howner hcommand hrunning hpassed j d hd hurgent hnormal
  have hrefused : ¬ s.Grants r d := by
    rintro (h | ⟨h, hle⟩ | hle)
    · exact hd h
    · exact absurd (hurgent h) (Nat.not_lt.2 hle)
    · by_cases h : r = .urgent
      · exact absurd (hurgent h) (by omega)
      · exact absurd (hnormal h) (Nat.not_lt.2 hle)
  have hexec : exec .stepBegin s = .next ((s.between r (s.checkedRecord r) s.mem).shortfall r c d) := by
    rw [exec_stepBegin hlive howner hcommand hrunning, beginStep_of_passed hpassed, checked_eq_between hrunning,
      acquireStep_between_refused (j := s.checkedRecord r) hrefused]
    rfl
  refine ⟨fun habort => ?_, fun habort => ⟨fun hr => ?_, fun n hr => ⟨fun hpark => ?_, fun hpark => ?_⟩⟩⟩
  · obtain ⟨-, hends⟩ := coreEndUninstalled_between s r c (j := s.checkedRecord r) s.mem (status := .aborted) rfl rfl
    exact ⟨_, hexec.trans (congrArg _ (shortfall_of_abort (by rwa [between_record_self]) c d)), hends⟩
  · subst hr
    obtain ⟨-, hends⟩ := coreEndUninstalled_between s .urgent c (j := s.checkedRecord .urgent) s.mem (status := .noSpace) rfl rfl
    exact ⟨_, hexec.trans (congrArg _ (shortfall_urgent (by rwa [between_record_self]) c d)), hends⟩
  · subst hr
    rw [hexec, shortfall_of_park (by rwa [between_record_self]) (by rwa [between_record_self]), parkContext_between]
    rfl
  · subst hr
    rw [hexec, shortfall_between_spaceWait (j := s.checkedRecord (.ctx n)) habort hpark (hnormal nofun)]
    rfl

/-! ### The boundary at the end of a step -/

/-- The work of a step, of the last one too (R41, R42, R64). -/
theorem stepWork_spec (s : State) (c : CommandRecord) (j : Record) :
    let w := s.stepWork c j
    (∀ a, (∀ p ∈ j.workPages, p.val ≠ a / 16) → w.mem.read a = s.mem.read a) ∧
    w.job =
      { j with
        carry := w.job.carry, wv0 := { j.wv0 with length := w.job.wv0.length }
        wv1 := { j.wv1 with length := w.job.wv1.length }, wv2 := { j.wv2 with length := w.job.wv2.length } } :=
  ⟨(extends_stepWork s c j).reads, (extends_stepWork s c j).job⟩

theorem startable_between (s : State) (r : Runner) (j : Record) (m : Memory) (c : CommandRecord) :
    (s.between r j m).startable c = s.startable c :=
  startable_congr (fun i => by rw [slot_eq_of (between_slots s r j m)]; exact ⟨rfl, rfl⟩) c

theorem headStartable_between (s : State) (r : Runner) (j : Record) (m : Memory) (q : QueueId) :
    (s.between r j m).headStartable q = s.headStartable q := by
  rw [State.headStartable, State.headStartable, State.head, State.head, between_queue]
  exact congrArg (Option.any · _) (funext fun c => startable_between s r j m c)

theorem exec_stepEnd_boundary {s : State} {r : Runner} {c : CommandRecord} (hlive : s.resetN = .high) (howner : s.owner = some r)
    (hcommand : (s.record r).command = some c) (hrunning : s.stepRunning = true)
    (hnotLast : (s.stepWork c (s.record r)).lastStep c.kind (s.record r).nextStep = false) :
    exec .stepEnd s =
      .next ((s.between r (s.workedRecord r c) (s.stepWork c (s.record r)).mem).boundary r c) := by
  rw [exec_stepEnd hlive howner hcommand hrunning, endStep_of_boundary hnotLast, worked_eq_between]

/-- Settles O40. -/
theorem stepEndGoesOn : Obligations.StepEndGoesOn := by
  refine ⟨stepWork_spec, ?_⟩
  intro s r c hlive howner hcommand hrunning habort hpark hhead w hnotLast j want n0 n1 n2 d granted
  have hj : s.workedRecord r c = j := by rw [State.workedRecord, countStep_eq]
  obtain ⟨-, -, -, hparkKept, habortKept⟩ := workedRecord_fields s r c
  rw [hj] at hparkKept habortKept
  have hpages : j.workPages = (s.record r).workPages := by rw [← hj, workedRecord_workPages]
  have hexec : exec .stepEnd s = .next ((s.between r j w.mem).acquireStep r c) := by
    rw [exec_stepEnd_boundary hlive howner hcommand hrunning hnotLast, hj, boundary_eq_acquireStep]
    · rw [between_record_self, habortKept, habort]
    · intro n hr
      rw [between_record_self, hparkKept, hpark n hr]
    · intro n hr
      rw [headStartable_between, hhead n hr]
  refine ⟨fun hgranted => ?_, fun hrefused => ?_⟩
  · obtain ⟨hrun, hfree, hzero, hkept, hothers, hself, hframe⟩ :=
      acquireStep_between_granted (s := s) (r := r) (c := c) (j := j) (m := w.mem) hgranted
    exact ⟨_, hexec, hfree, hzero, hkept, hothers, hself, hframe⟩
  · have hshort : exec .stepEnd s = .next ((s.between r j w.mem).shortfall r c d) := by
      rw [hexec, acquireStep_between_refused hrefused]
      rfl
    have habort' : j.abortPending = false := habortKept.trans habort
    refine ⟨fun hr => ?_, fun n hr => ?_⟩
    · subst hr
      exact ⟨_, hshort.trans (congrArg _ (shortfall_urgent (by rwa [between_record_self]) c d)),
        coreEndUninstalled_between s .urgent c w.mem hpages rfl⟩
    · have hfew : s.freeList.length < d + s.reserve := Nat.lt_of_not_le fun hle => hrefused (.inr (.inr hle))
      have hpark' : j.parkPending = false := hparkKept.trans (hpark n hr)
      subst hr
      rw [hshort, shortfall_between_spaceWait habort' hpark' hfew]

theorem boundary_of_abort {s : State} {r : Runner} (c : CommandRecord) (h : (s.record r).abortPending = true) :
    s.boundary r c = s.coreEndUninstalled r c .aborted := by
  cases r <;> exact if_pos h

theorem boundary_of_park {s : State} {n : CtxId} (c : CommandRecord) (habort : (s.record (.ctx n)).abortPending = false)
    (hpark : (s.record (.ctx n)).parkPending = true) : s.boundary (.ctx n) c = (s.parkContext n).coreFree :=
  (if_neg (by simp [habort])).trans (if_pos hpark)

theorem boundary_of_preempt {s : State} {n : CtxId} {u : CommandRecord} (c : CommandRecord)
    (habort : (s.record (.ctx n)).abortPending = false) (hpark : (s.record (.ctx n)).parkPending = false)
    (hhead : s.head .urgent = some u) (hstartable : s.startable u = true) :
    s.boundary (.ctx n) c = (s.preempted n).start .urgent .urgent u := by
  simp [State.boundary, State.normalBoundary, habort, hpark, hhead, hstartable]

/-- Settles O41. -/
theorem boundaryTakesAbortThenPark : Obligations.BoundaryTakesAbortThenPark := by
  intro s r c hlive howner hcommand hrunning hsteps w hnotLast
  obtain ⟨-, -, -, hparkKept, habortKept⟩ := workedRecord_fields s r c
  have hexec := exec_stepEnd_boundary hlive howner hcommand hrunning hnotLast
  refine ⟨fun habort => ?_, fun n hr habort hpark => ?_⟩
  · obtain hends := coreEndUninstalled_between s r c w.mem (workedRecord_workPages s r c) (status := .aborted) rfl
    rw [workedRecord_eq_of_lt c hsteps] at hends hexec
    exact ⟨_, hexec.trans (congrArg _ (boundary_of_abort c (by
      rwa [between_record_self, ← workedRecord_eq_of_lt c hsteps, habortKept]))), hends⟩
  · subst hr
    rw [hexec, boundary_of_park c (by rwa [between_record_self, habortKept]) (by rwa [between_record_self, hparkKept]),
      parkContext_between, workedRecord_eq_of_lt c hsteps]

/-! ### Preemption at a boundary -/

theorem value_of_slots_mem {s t : State} (hslots : t.slots = s.slots) (hmem : t.mem = s.mem) (f : SlotField) :
    t.value f = s.value f := by
  simp [State.value, State.slotValue, State.slot, hslots, hmem]

/-- The state at a boundary after the context n has given way to the urgent command (R103). -/
def State.givenWay (s : State) (n : CtxId) (j : Record) (m : Memory) : State := (s.between (.ctx n) j m).preempted n

theorem givenWay_frame (s : State) (n : CtxId) (j : Record) (m : Memory) :
    s.givenWay n j m = { s with
      mem := m, stepRunning := false, contexts := (s.givenWay n j m).contexts, resumeList := n :: s.resumeList } := rfl

theorem givenWay_record (s : State) (n : CtxId) (x : Runner) (j : Record) (m : Memory) :
    (s.givenWay n j m).record x = if x = .ctx n then { j with state := .resumable } else s.record x := by
  rw [State.givenWay, record_preempted, between_record]
  split <;> rfl

/-- Settles O42: the start that follows is the one `start_spec` speaks of. -/
theorem boundaryPreempts : Obligations.BoundaryPreempts := by
  intro s n c u rest hlive howner hcommand hrunning habort hpark hsteps hentries hstartable w hnotLast
  obtain ⟨v, hv⟩ : ∃ v, v = s.givenWay n (s.workedRecord (.ctx n) c) w.mem := ⟨_, rfl⟩
  obtain ⟨t, ht⟩ : ∃ t, t = v.start .urgent .urgent u := ⟨_, rfl⟩
  have hvframe : v = { s with mem := w.mem, stepRunning := false, contexts := v.contexts, resumeList := n :: s.resumeList } := by
    rw [hv]; exact givenWay_frame s n _ w.mem
  have hvrecord (x : Runner) : v.record x = if x = .ctx n then { s.workedRecord (.ctx n) c with state := .resumable } else s.record x := by
    rw [hv]; exact givenWay_record s n x _ w.mem
  have hvslot (i : SlotId) : v.slot i = s.slot i := slot_eq_of (by rw [hvframe]) i
  have hvqueue (q : QueueId) : v.queue q = s.queue q := queue_eq_of (by rw [hvframe]) (by rw [hvframe]) q
  have hvuq : v.queue .urgent = s.uq := hvqueue .urgent
  have htotal : v.stepTotalOf u = ({ s with mem := w.mem } : State).stepTotalOf u :=
    stepTotalOf_congr fun f _ => value_of_slots_mem (by rw [hvframe]) (by rw [hvframe]) f
  have hexec : exec .stepEnd s = .next t := by
    obtain ⟨-, -, -, hparkKept, habortKept⟩ := workedRecord_fields s (.ctx n) c
    rw [exec_stepEnd_boundary hlive howner hcommand hrunning hnotLast,
      boundary_of_preempt c (by rwa [between_record_self, habortKept]) (by rwa [between_record_self, hparkKept])
        (by rw [State.head, between_queue]; exact head_of_entries hentries) (by rwa [startable_between]), ht, hv]
    rfl
  obtain ⟨hrecord, hslot, hreaders, hqueue, hcq, hint, hothers, hqueues, hpreempt, hframe⟩ :=
    start_spec v .urgent .urgent u rest (by rw [hvqueue]; exact hentries)
  rw [← ht] at hrecord hslot hreaders hqueue hcq hint hothers hqueues hpreempt hframe
  simp only [hvuq] at hqueue hcq hint
  have howner' : t.owner = some .urgent := by rw [hframe]
  have hcqv : v.cq = s.cq := by rw [hvframe]
  have hintv : v.intstat = s.intstat := by rw [hvframe]
  have hmem : t.mem = w.mem := by rw [hframe, hvframe]
  have hrun : t.stepRunning = false := by rw [hframe]
  have hlist : t.resumeList = n :: s.resumeList := by rw [hframe, hvframe]
  refine ⟨t, hexec, hmem, howner', hrun, ?_, hlist, ?_, fun m hm => ?_, ?_,
    fun i => ?_, fun i h => ?_, fun i => ?_, ?_, ?_, by rw [hcq, hcqv], by rw [hint, hintv], ?_⟩
  · rw [hpreempt, State.preemptDue, howner']
  · rw [hrecord, if_neg nofun, hvrecord, if_pos rfl, workedRecord_eq_of_lt c hsteps]
  · rw [hrecord, if_neg nofun, hvrecord, if_neg (by simpa using hm)]
  · rw [← htotal]
    exact (hrecord .urgent).trans (if_pos rfl)
  · rw [hslot, hvslot]
  · rw [hreaders, hvslot]
  · rw [hslot, hvslot]
  · obtain ⟨hlatch, hlimit, hblocked, htimer⟩ := hqueues .urgent
    rw [hvuq] at hlatch hlimit htimer
    exact IntakeQueue.eq_of_fields hqueue hlatch hblocked (htimer.trans (if_pos rfl)) hlimit
  · obtain ⟨hlatch, hlimit, hblocked, htimer⟩ := hqueues .normal
    have hvnq : v.queue .normal = s.nq := hvqueue .normal
    rw [hvnq] at hlatch hlimit htimer
    exact IntakeQueue.eq_of_fields ((hothers .normal nofun).trans (by rw [hvnq])) hlatch hblocked
      (htimer.trans (if_neg nofun)) hlimit
  · have hfields := (State.eq_iff _ _).1 hvframe
    refine hframe.trans ?_
    rw [State.eq_iff]
    simp at hfields ⊢
    simp [hfields, howner', hmem, hrun, hlist]

/-! ### Ends that install nothing -/

theorem setRecord_eq_between {s : State} (hrunning : s.stepRunning = false) (r : Runner) (j : Record) :
    s.setRecord r j = s.between r j s.mem := by
  rw [State.eq_iff]
  simp [State.between, hrunning]

theorem finish_of_fault {s : State} {w : Work} {c : CommandRecord} {status : Status} (r : Runner)
    (h : w.endFault c.kind = some status) : s.finish r c w = s.coreEndUninstalled r c status := by
  rw [State.finish, h]

theorem endFault_oversize {w : Work} {kind : Kind} (hkind : kind = .add ∨ kind = .sub ∨ kind = .shl ∨ kind = .mul)
    (hlong : 512 < trimmedLength w.mem w.job.wv0.pages w.job.wv0.length) : w.endFault kind = some .oversize := by
  have hchecked : kind.checkedAtCommit = true := by obtain rfl | rfl | rfl | rfl := hkind <;> rfl
  exact if_pos (by rw [hchecked, Bool.true_and]; exact decide_eq_true hlong)

theorem endFault_notInvertible {w : Work} (h : w.mag .wv1 ≠ 1) : w.endFault .modinv = some .notInvertible :=
  (if_neg (by simp [Kind.checkedAtCommit])).trans (if_pos (decide_eq_true h))

theorem exec_stepEnd_fault {s : State} {r : Runner} {c : CommandRecord} {status : Status} (hlive : s.resetN = .high)
    (howner : s.owner = some r) (hcommand : (s.record r).command = some c) (hrunning : s.stepRunning = true)
    (hlast : (s.stepWork c (s.record r)).lastStep c.kind (s.record r).nextStep = true)
    (hfault : (s.stepWork c (s.record r)).endFault c.kind = some status) :
    exec .stepEnd s =
      .next ((s.between r (s.workedRecord r c) (s.stepWork c (s.record r)).mem).coreEndUninstalled r c status) := by
  rw [exec_stepEnd hlive howner hcommand hrunning, endStep_of_last hlast,
    finish_of_fault r ((endFault_workedRecord s r c).trans hfault), worked_eq_between]

/-- Settles O38. -/
theorem faultsInstallNothing : Obligations.FaultsInstallNothing := by
  refine ⟨fun s r c status hlive howner hcommand hrunning hstep hmade hfault => ?_, ?_⟩
  · obtain ⟨-, hends⟩ := coreEndUninstalled_between s r c (j := { s.record r with stepsDone := 1 }) s.mem rfl
      (setsLatch_of_stepZeroFault hfault)
    refine ⟨_, (exec_stepBegin hlive howner hcommand hrunning).trans (congrArg _ ?_), hends⟩
    rw [beginStep_of_fault hstep hmade hfault, setRecord_eq_between hrunning]
  intro s r c hlive howner hcommand hrunning hsteps w hlast
  have hends {status : Status} (hfault : w.endFault c.kind = some status) :=
    coreEndUninstalled_between s r c w.mem (workedRecord_workPages s r c) (setsLatch_of_endFault hfault)
  rw [workedRecord_eq_of_lt c hsteps] at hends
  refine ⟨fun hkind hlong => ?_, fun hkind hdivisor => ?_⟩
  · have hfault : w.endFault c.kind = some .oversize := endFault_oversize hkind hlong
    refine ⟨_, (exec_stepEnd_fault hlive howner hcommand hrunning hlast hfault).trans ?_, hends hfault⟩
    rw [workedRecord_eq_of_lt c hsteps]
  · have hfault : w.endFault c.kind = some .notInvertible := by
      rw [hkind]; exact endFault_notInvertible hdivisor
    refine ⟨_, (exec_stepEnd_fault hlive howner hcommand hrunning hlast hfault).trans ?_, hends hfault⟩
    rw [workedRecord_eq_of_lt c hsteps]

end Sys2Proof.Machine
end

section
/-! PROOFS. The commit at the last step: what each kind installs, what goes back to the pool, and the DONE record (R6, R7, R47 to R58,
R62, R77, R78, R110). -/

namespace Sys2Proof.Machine

/-! ### The state after a commit -/

theorem finish_of_commit {s : State} {w : Work} {c : CommandRecord} (r : Runner) (h : w.endFault c.kind = none) :
    s.finish r c w = s.committed r c w.job := by
  rw [State.finish, h]
  rfl

theorem exec_stepEnd_commit {s : State} {r : Runner} {c : CommandRecord} (hlive : s.resetN = .high)
    (howner : s.owner = some r) (hcommand : (s.record r).command = some c) (hrunning : s.stepRunning = true)
    (hlast : (s.stepWork c (s.record r)).lastStep c.kind (s.record r).nextStep = true)
    (hfault : (s.stepWork c (s.record r)).endFault c.kind = none) :
    exec .stepEnd s =
      .next ((s.between r (s.workedRecord r c) (s.stepWork c (s.record r)).mem).committed r c (s.workedRecord r c)) := by
  rw [exec_stepEnd hlive howner hcommand hrunning, endStep_of_last hlast,
    finish_of_commit r ((endFault_workedRecord s r c).trans hfault), worked_eq_between]

/-- What follows a commit, from what it installs, gives back and reports (R78, R110). -/
theorem committed_between {s : State} {r : Runner} {c : CommandRecord} {j : Record} {m : Memory} {sum : Summary}
    {gone : List PageId} {slots : SlotId → Slot}
    (hslots : ((s.between r j m).commitSlots c j).1.slot = slots) (hgone : ((s.between r j m).commitSlots c j).2 = gone)
    (hsum : (s.between r j m).doneSummary ((s.between r j m).commitSlots c j).1 c = sum) :
    let t := (s.between r j m).committed r c j
    t.mem = m ∧ t.owner = none ∧ t.stepRunning = false ∧ t.preemptPending = false ∧ t.ctxreq = s.ctxreq ∧
      CommandEnds { s with mem := m } t r c (startedRecord c r .done sum j.stepsDone) gone slots := by
  intro t
  obtain ⟨v, hv⟩ : ∃ v, v = ((s.between r j m).commitSlots c j).1 := ⟨_, rfl⟩
  have hframe : v = { s.between r j m with slots := v.slots } := by rw [hv]; exact commitSlots_frame _ c j
  have hctxreq : v.ctxreq = s.ctxreq := by rw [hframe, between_frame]
  have ht : t = (v.endCommand r gone (startedRecord c r .done sum j.stepsDone) c.notify).coreFree := by
    rw [hv, ← hgone, ← hsum]
    rfl
  refine ⟨committed_mem _ r c j, rfl, rfl, rfl, ?_, ?_⟩
  · rw [ht, coreFree_ctxreq, endCommand_ctxreq, hctxreq]
  · have hends := commandEnds_endCommand (s := { s with mem := m }) (s₁ := v) (r := r) (c := c) (gone := gone)
      (rec := startedRecord c r .done sum j.stepsDone) ?_ (fun x hx => ?_) rfl rfl
    · rw [hv, hslots] at hends
      exact hends.of_eq (by rw [ht, hv]; rfl)
    · rw [hframe, State.eq_iff]
      simp [State.between]
    · exact (record_eq_of (by rw [hframe]) (by rw [hframe]) x).trans (between_record_of_ne s hx j m)

/-! ### The pieces of a commit -/

theorem installInto_of_slot (s : State) {f : SlotField} {i : SlotId} (h : f.toNat = i.val) (sign : Sign) (pages : List PageId)
    (n : Nat) :
    s.installInto f sign pages n = (s.setSlot i ((s.slot i).installed s.mem sign pages n), (s.slot i).givenBack s.mem pages n) := by
  rw [State.installInto, slotNumber_eq_some.2 h]

theorem freeSlot_of_slot (s : State) {f : SlotField} {i : SlotId} (h : f.toNat = i.val) :
    s.freeSlot f = (s.setSlot i { s.slot i with sign := .pos, length := 0, pages := [] }, (s.slot i).pages) := by
  rw [State.freeSlot, slotNumber_eq_some.2 h]

theorem destinationSummary_of_slot (s : State) {f : SlotField} {i : SlotId} (h : f.toNat = i.val) :
    s.destinationSummary f =
      { sign := (s.slot i).sign, zero := decide ((s.slot i).length = 0), relation := .none, count := (s.slot i).length } := by
  rw [State.destinationSummary, State.value, slotNumber_eq_some.2 h]
  rfl

theorem doneSummary_of_destination {before after : State} {c : CommandRecord} (h : c.kind ≠ .cmp ∧ c.kind ≠ .bitlen) :
    before.doneSummary after c = after.destinationSummary c.d := by
  unfold State.doneSummary
  split <;> simp_all

theorem sign_value_of_slots {s t : State} (h : t.slots = s.slots) (f : SlotField) : (t.value f).sign = (s.value f).sign := by
  unfold State.value
  cases slotNumber f with
  | none => rfl
  | some i => exact congrArg Slot.sign (slot_eq_of h i)

theorem signOfBit_msb (x : Word) : signOfBit x.msb = if x.toInt < 0 then .neg else .pos := by
  rw [BitVec.msb_eq_toInt, signOfBit]
  simp

/-- The sign of the result of a kind with one destination, before a zero takes POS (R47 to R57). -/
def State.oneSign (s : State) (c : CommandRecord) (carry : Option StepCarry) : Sign :=
  if c.kind = .copy ∨ c.kind = .shl ∨ c.kind = .shr then (s.value c.a).sign
  else if c.kind = .seti then (if c.imm.toInt < 0 then .neg else .pos)
  else if c.kind = .add ∨ c.kind = .sub then (match carry with | some k => k.sign | none => .pos)
  else if c.kind = .mul then (if (s.value c.a).sign = (s.value c.b).sign then .pos else .neg)
  else .pos

theorem resultSign_eq_oneSign {s t : State} {c : CommandRecord} (hslots : t.slots = s.slots) (hkind : c.kind ≠ .divmod)
    (j : Record) : t.resultSign c j = s.oneSign c j.carry := by
  have ha := sign_value_of_slots hslots c.a
  have hb := sign_value_of_slots hslots c.b
  have hcarry : (j.carry.map StepCarry.sign).getD .pos = match j.carry with | some k => k.sign | none => .pos := by
    cases j.carry <;> rfl
  unfold State.resultSign State.oneSign
  cases hk : c.kind
  case divmod => exact absurd hk hkind
  case seti => exact (signOfBit_msb c.imm).trans (by simp)
  case add => simpa using hcarry
  case sub => simpa using hcarry
  all_goals simp [productSign, ha, hb]

theorem commitForm_one {kind : Kind} (h : kind ∉ [.divmod, .free, .cmp, .bitlen]) : kind.commitForm = .one := by
  cases kind <;> simp_all [Kind.commitForm]

theorem commitSlots_one {s : State} {c : CommandRecord} (h : c.kind.commitForm = .one) {i : SlotId} (hd : c.d.toNat = i.val)
    (j : Record) :
    s.commitSlots c j =
      (s.setSlot i ((s.slot i).installed s.mem (s.resultSign c j) j.wv0.pages j.wv0.length),
        (s.slot i).givenBack s.mem j.wv0.pages j.wv0.length ++ j.wv1.pages ++ j.wv2.pages) := by
  simp [State.commitSlots, h, installInto_of_slot s hd]

theorem commitSlots_two {s : State} {c : CommandRecord} (h : c.kind = .divmod) {i k : SlotId} (hd : c.d.toNat = i.val)
    (hd2 : c.d2.toNat = k.val) (hik : i ≠ k) (j : Record) :
    s.commitSlots c j =
      ((s.setSlot i ((s.slot i).installed s.mem (s.resultSign c j) j.wv0.pages j.wv0.length)).setSlot k
          ((s.slot k).installed s.mem (s.value c.a).sign j.wv1.pages j.wv1.length),
        (s.slot i).givenBack s.mem j.wv0.pages j.wv0.length ++ (s.slot k).givenBack s.mem j.wv1.pages j.wv1.length ++
          j.wv2.pages) := by
  have hform : c.kind.commitForm = .two := by rw [h]; rfl
  have hk (v : Slot) : (s.setSlot i v).slot k = s.slot k := by rw [slot_setSlot, if_neg hik.symm]
  simp [State.commitSlots, hform, installInto_of_slot _ hd, installInto_of_slot _ hd2, hk]

theorem commitSlots_freed {s : State} {c : CommandRecord} (h : c.kind = .free) {i : SlotId} (hd : c.d.toNat = i.val) (j : Record) :
    s.commitSlots c j =
      (s.setSlot i { s.slot i with sign := .pos, length := 0, pages := [] }, (s.slot i).pages ++ j.workPages) := by
  have hform : c.kind.commitForm = .freed := by rw [h]; rfl
  simp [State.commitSlots, hform, freeSlot_of_slot s hd]

theorem commitSlots_nothing {s : State} {c : CommandRecord} (h : c.kind = .cmp ∨ c.kind = .bitlen) (j : Record) :
    s.commitSlots c j = (s, j.workPages) := by
  have hform : c.kind.commitForm = .nothing := by obtain h | h := h <;> rw [h] <;> rfl
  simp [State.commitSlots, hform]

theorem endFault_eq_none {w : Work} {kind : Kind}
    (hfits : kind = .add ∨ kind = .sub ∨ kind = .shl ∨ kind = .mul →
      trimmedLength w.mem w.job.wv0.pages w.job.wv0.length ≤ 512)
    (hinverse : kind = .modinv → w.mag .wv1 = 1) : w.endFault kind = none := by
  unfold Work.endFault
  rw [if_neg, if_neg]
  · intro h
    obtain ⟨hkind, hdivisor⟩ := Bool.and_eq_true_iff.1 h
    exact of_decide_eq_true hdivisor (hinverse (of_decide_eq_true hkind))
  · cases kind <;> simp_all [Kind.checkedAtCommit]

theorem workedRecord_pages (s : State) (r : Runner) (c : CommandRecord) :
    (s.workedRecord r c).wv0.pages = (s.record r).wv0.pages ∧ (s.workedRecord r c).wv1.pages = (s.record r).wv1.pages ∧
      (s.workedRecord r c).wv2.pages = (s.record r).wv2.pages := by
  rw [job_stepWork_eq]
  exact ⟨rfl, rfl, rfl⟩

/-! ### The obligations -/

/-- Settles O43. -/
theorem commitInstallsResult : Obligations.CommitInstallsResult := by
  intro s r c i hlive howner hcommand hrunning hsteps hkind hd w len sign hlast hfits hinverse
  obtain ⟨hp0, hp1, hp2⟩ := workedRecord_pages s r c
  obtain ⟨j, hj⟩ : ∃ j, j = s.workedRecord r c := ⟨_, rfl⟩
  rw [← hj] at hp0 hp1 hp2
  obtain ⟨u, hu⟩ : ∃ u, u = s.between r j w.mem := ⟨_, rfl⟩
  have hexec := exec_stepEnd_commit hlive howner hcommand hrunning hlast (endFault_eq_none hfits hinverse)
  have hslots : u.slots = s.slots := by rw [hu, between_slots]
  have hcommit := commitSlots_one (s := u) (commitForm_one hkind) hd j
  have hlen : trimmedLength u.mem j.wv0.pages j.wv0.length = len := by rw [hu, hj]; rfl
  have hsign : normalSign (u.resultSign c j) len = sign := by
    rw [resultSign_eq_oneSign hslots (fun h => hkind (by simp [h])), hj]
    rfl
  have hinstalled : (u.slot i).installed u.mem (u.resultSign c j) j.wv0.pages j.wv0.length =
      { s.slot i with sign := sign, length := len, pages := (s.record r).wv0.pages.take (pg len) } := by
    simp only [Slot.installed, hlen, hsign, slot_eq_of hslots]
    rw [hp0]
  rw [← hj, ← hu] at hexec
  refine ⟨_, hexec, ?_⟩
  have hends := committed_between (s := s) (r := r) (c := c) (j := j) (m := w.mem)
    (slots := fun k => if k = i then { s.slot i with sign := sign, length := len, pages := (s.record r).wv0.pages.take (pg len) }
      else s.slot k)
    (gone := (s.slot i).pages ++ (s.record r).wv0.pages.drop (pg len) ++ (s.record r).wv1.pages ++ (s.record r).wv2.pages)
    (sum := { sign := sign, zero := decide (len = 0), relation := .none, count := len })
    (by rw [← hu, hcommit]; funext k; rw [slot_setSlot, hinstalled, slot_eq_of hslots])
    (by rw [← hu, hcommit]; simp only [Slot.givenBack, hlen, slot_eq_of hslots]; rw [hp0, hp1, hp2])
    (by
      rw [← hu, hcommit, doneSummary_of_destination ⟨fun h => hkind (by simp [h]), fun h => hkind (by simp [h])⟩,
        destinationSummary_of_slot _ hd, slot_setSlot, if_pos rfl, hinstalled])
  rw [← hu, show j.stepsDone = (s.record r).stepsDone + 1 by rw [hj, workedRecord_eq_of_lt c hsteps]] at hends
  exact hends

/-- Settles O44. -/
theorem commitInstallsQuotientAndRemainder : Obligations.CommitInstallsQuotientAndRemainder := by
  intro s r c i k hlive howner hcommand hrunning hsteps hkind hd hd2 hik w j0 qlen rlen qsign rsign hlast
  obtain ⟨hp0, hp1, hp2⟩ := workedRecord_pages s r c
  obtain ⟨j, hj⟩ : ∃ j, j = s.workedRecord r c := ⟨_, rfl⟩
  rw [← hj] at hp0 hp1 hp2
  obtain ⟨u, hu⟩ : ∃ u, u = s.between r j w.mem := ⟨_, rfl⟩
  have hexec := exec_stepEnd_commit hlive howner hcommand hrunning (by rw [hkind]; exact hlast)
    (endFault_eq_none (by simp [hkind]) (by simp [hkind]))
  have hslots : u.slots = s.slots := by rw [hu, between_slots]
  have hcommit := commitSlots_two (s := u) hkind hd hd2 hik j
  have hqlen : trimmedLength u.mem j.wv0.pages j.wv0.length = qlen := by rw [hu, hj]; rfl
  have hrlen : trimmedLength u.mem j.wv1.pages j.wv1.length = rlen := by rw [hu, hj]; rfl
  have hqsign : normalSign (u.resultSign c j) qlen = qsign := by
    simp only [State.resultSign, hkind, productSign, sign_value_of_slots hslots, normalSign, qsign]
    split_ifs <;> simp_all
  have hrsign : normalSign (u.value c.a).sign rlen = rsign := by
    rw [sign_value_of_slots hslots]
    rfl
  have hq : (u.slot i).installed u.mem (u.resultSign c j) j.wv0.pages j.wv0.length =
      { s.slot i with sign := qsign, length := qlen, pages := (s.record r).wv0.pages.take (pg qlen) } := by
    simp only [Slot.installed, hqlen, hqsign, slot_eq_of hslots]
    rw [hp0]
  have hr : (u.slot k).installed u.mem (u.value c.a).sign j.wv1.pages j.wv1.length =
      { s.slot k with sign := rsign, length := rlen, pages := (s.record r).wv1.pages.take (pg rlen) } := by
    simp only [Slot.installed, hrlen, hrsign, slot_eq_of hslots]
    rw [hp1]
  rw [← hj, ← hu] at hexec
  refine ⟨_, hexec, ?_⟩
  have hends := committed_between (s := s) (r := r) (c := c) (j := j) (m := w.mem)
    (slots := fun x =>
      if x = i then { s.slot i with sign := qsign, length := qlen, pages := (s.record r).wv0.pages.take (pg qlen) }
      else if x = k then { s.slot k with sign := rsign, length := rlen, pages := (s.record r).wv1.pages.take (pg rlen) }
      else s.slot x)
    (gone := (s.slot i).pages ++ (s.record r).wv0.pages.drop (pg qlen) ++ (s.slot k).pages ++
      (s.record r).wv1.pages.drop (pg rlen) ++ (s.record r).wv2.pages)
    (sum := { sign := qsign, zero := decide (qlen = 0), relation := .none, count := qlen })
    (by
      rw [← hu, hcommit]
      funext x
      rw [slot_setSlot, slot_setSlot, hq, hr, slot_eq_of hslots]
      by_cases hx : x = i
      · subst hx; rw [if_neg hik, if_pos rfl, if_pos rfl]
      · rw [if_neg hx, if_neg hx])
    (by
      rw [← hu, hcommit]
      simp only [Slot.givenBack, hqlen, hrlen, slot_eq_of hslots, List.append_assoc]
      rw [hp0, hp1, hp2])
    (by
      rw [← hu, hcommit, doneSummary_of_destination (by simp [hkind]), destinationSummary_of_slot _ hd, slot_setSlot,
        if_neg hik, slot_setSlot, if_pos rfl, hq])
  rw [← hu, show j.stepsDone = (s.record r).stepsDone + 1 by rw [hj, workedRecord_eq_of_lt c hsteps]] at hends
  exact hends

/-- Settles O45. -/
theorem freeCmpBitlenEnd : Obligations.FreeCmpBitlenEnd := by
  intro s r c i hlive howner hcommand hrunning hsteps hstep htotal hd done a b hkind
  have hwork : s.stepWork c (s.record r) = { mem := s.mem, job := s.record r } := by
    simp only [List.mem_cons, List.not_mem_nil, or_false] at hkind
    obtain h | h | h := hkind <;> rw [State.stepWork, h]
  have hlast : (s.stepWork c (s.record r)).lastStep c.kind (s.record r).nextStep = true := by
    rw [hwork, hstep, lastStep_iff_of_counted _ (by rintro h; simp [h] at hkind) (by rintro h; simp [h] at hkind), htotal]
  have hfault : (s.stepWork c (s.record r)).endFault c.kind = none :=
    endFault_eq_none (fun h => by obtain h | h | h | h := h <;> simp [h] at hkind) (fun h => by simp [h] at hkind)
  obtain ⟨j, hj⟩ : ∃ j, j = s.workedRecord r c := ⟨_, rfl⟩
  obtain ⟨u, hu⟩ : ∃ u, u = s.between r j s.mem := ⟨_, rfl⟩
  have hexec := exec_stepEnd_commit hlive howner hcommand hrunning hlast hfault
  have hslots : u.slots = s.slots := by rw [hu, between_slots]
  have hpages : j.workPages = (s.record r).workPages := by rw [hj, workedRecord_workPages]
  have hdone : j.stepsDone = 1 := by rw [hj, workedRecord_eq_of_lt c (by omega), hsteps]
  have hvalue (f : SlotField) : u.value f = s.value f := value_of_slots_mem hslots (by rw [hu]; rfl) f
  rw [← hj, hwork, ← hu] at hexec
  have hends {sum gone slots} := committed_between (s := s) (r := r) (c := c) (j := j) (m := s.mem) (sum := sum) (gone := gone)
    (slots := slots)
  rw [← hu, hdone] at hends
  obtain ⟨-, howner', hrunning', hpreempt, hctxreq, -⟩ := hends rfl rfl rfl
  refine ⟨_, hexec, howner', hrunning', hpreempt, hctxreq, fun hfree => ?_, fun hcmp => ?_, fun hbitlen => ?_⟩
  · have hcommit := commitSlots_freed (s := u) hfree (hd hfree) j
    obtain ⟨-, -, -, -, -, hcommand'⟩ := hends
      (slots := fun k => if k = i then { s.slot i with sign := .pos, length := 0, pages := [] } else s.slot k)
      (gone := (s.slot i).pages ++ (s.record r).workPages)
      (sum := { sign := .pos, zero := true, relation := .none, count := 0 })
      (by rw [hcommit]; funext k; rw [slot_setSlot, slot_eq_of hslots, slot_eq_of hslots])
      (by rw [hcommit, hpages, slot_eq_of hslots])
      (by
        rw [hcommit, doneSummary_of_destination (by simp [hfree]), destinationSummary_of_slot _ (hd hfree), slot_setSlot, if_pos rfl]
        rfl)
    exact hcommand'
  · have hcommit := commitSlots_nothing (s := u) (.inl hcmp) j
    obtain ⟨-, -, -, -, -, hcommand'⟩ := hends (slots := s.slot) (gone := (s.record r).workPages)
      (sum := { Summary.none with relation := compareValues (s.value c.a) (s.value c.b) })
      (by rw [hcommit]; funext k; exact slot_eq_of hslots k) (by rw [hcommit, hpages])
      (by rw [State.doneSummary, hcmp]; simp only [hvalue])
    exact hcommand'
  · have hcommit := commitSlots_nothing (s := u) (.inr hbitlen) j
    obtain ⟨-, -, -, -, -, hcommand'⟩ := hends (slots := s.slot) (gone := (s.record r).workPages)
      (sum := { Summary.none with count := bitLength (s.value c.a).mag })
      (by rw [hcommit]; funext k; exact slot_eq_of hslots k) (by rw [hcommit, hpages])
      (by rw [State.doneSummary, hbitlen]; simp only [hvalue])
    exact hcommand'

end Sys2Proof.Machine
end

section
/-! PROOFS. The arithmetic that works page by page: what a fill leaves in a working value, the steps of COPY, SETI, SHL and SHR, and those of
ADD and SUB with their carry (R47 to R50, R64, R73). -/

namespace Sys2Proof.Machine

/-! ### Numbers by limbs -/

theorem value_mag_lt (s : State) (f : SlotField) : (s.value f).mag < 2 ^ (32 * (s.value f).length) := by
  unfold State.value
  split
  · exact magnitude_lt _ _ _
  · exact Nat.two_pow_pos _

theorem limbSlice_lt (x lo n : Nat) : limbSlice x lo n < 2 ^ (32 * n) := Nat.mod_lt _ (Nat.two_pow_pos _)

theorem limbSlice_zero (x lo : Nat) : limbSlice x lo 0 = 0 := Nat.mod_one _

theorem limbSlice_succ (x lo n : Nat) :
    limbSlice x lo (n + 1) = limbSlice x lo n + 2 ^ (32 * n) * (limbOfNat x (lo + n)).toNat := by
  rw [limbOfNat_toNat, limbSlice, limbSlice, Nat.mul_succ, Nat.pow_add, Nat.mod_mul, Nat.div_div_eq_div_mul, ← Nat.pow_add,
    Nat.mul_add]

/-- The low limbs up to hi are those up to lo with the slice between them above. -/
theorem mod_eq_add_limbSlice (x : Nat) {lo hi : Nat} (h : lo ≤ hi) :
    x % 2 ^ (32 * hi) = x % 2 ^ (32 * lo) + 2 ^ (32 * lo) * limbSlice x lo (hi - lo) := by
  obtain ⟨n, rfl⟩ := Nat.exists_eq_add_of_le h
  rw [Nat.add_sub_cancel_left, Nat.mul_add, Nat.pow_add, Nat.mod_mul, limbSlice]

theorem limbSlice_shifted {y n : Nat} (lo : Nat) (h : y < 2 ^ (32 * n)) : limbSlice (y * 2 ^ (32 * lo)) lo n = y := by
  rw [limbSlice, Nat.mul_div_cancel _ (Nat.two_pow_pos _), Nat.mod_eq_of_lt h]

/-! ### What a fill leaves in a working value -/

theorem magnitude_putLimbs_above {m : Memory} {pages : List PageId} (hm : m.wf) (hn : pages.Nodup) (x : Nat) {lo n : Nat}
    (h : lo + n ≤ Config.pageLimbs * pages.length) :
    magnitude (putLimbs m pages x lo n) pages (lo + n) = magnitude m pages lo + 2 ^ (32 * lo) * limbSlice x lo n := by
  have hlimb (k : Nat) := limbAt_putLimbs hm hn (x := x) (j := k) h
  suffices ∀ k ≤ n, magnitude (putLimbs m pages x lo n) pages (lo + k) =
      magnitude m pages lo + 2 ^ (32 * lo) * limbSlice x lo k from this n le_rfl
  intro k hk
  induction k with
  | zero =>
    rw [limbSlice_zero]
    exact magnitude_congr fun j hj => by rw [hlimb, if_neg (by omega)]
  | succ k ih =>
    rw [← Nat.add_assoc, magnitude_succ, ih (by omega), hlimb, if_pos (by omega), limbSlice_succ, Nat.mul_add, Nat.mul_add,
      Nat.pow_add, Nat.mul_assoc, Nat.add_assoc]

@[simp] theorem Work.fill_length (w : Work) (i : Wv) (x lo hi : Nat) : ((w.fill i x lo hi).job.wv i).length = hi := by
  simp [Work.fill]

theorem Work.Separate.mag_fill {w : Work} (h : w.Separate) {i : Wv} (x : Nat) {lo hi : Nat} (hle : lo ≤ hi)
    (hroom : hi ≤ Config.pageLimbs * (w.job.wv i).pages.length) :
    (w.fill i x lo hi).mag i =
      magnitude w.mem (w.job.wv i).pages lo + 2 ^ (32 * lo) * limbSlice x lo (hi - lo) := by
  obtain ⟨n, rfl⟩ := Nat.exists_eq_add_of_le hle
  simp only [Work.mag, Work.fill, Record.wv_setWv_self, Nat.add_sub_cancel_left]
  exact magnitude_putLimbs_above h.memWf (h.nodup i) x hroom

/-- A fill that has no limb to write leaves the limbs and sets the length. -/
theorem Work.mag_fill_of_le (w : Work) (i : Wv) (x : Nat) {lo hi : Nat} (h : hi ≤ lo) :
    (w.fill i x lo hi).mag i = magnitude w.mem (w.job.wv i).pages hi := by
  simp only [Work.mag, Work.fill, Record.wv_setWv_self, Nat.sub_eq_zero_of_le h]
  rfl

/-- A number that fits is what a working value then holds. -/
theorem Work.Separate.mag_self {w : Work} (h : w.Separate) {i : Wv} {x len : Nat} (hroom : pg len ≤ (w.job.wv i).pages.length)
    (hx : x < 2 ^ (32 * len)) : (w.setMag i x len).mag i = x := by
  rw [Work.mag_setMag h.memWf (h.nodup i) ((le_pageLimbs_mul_pg len).trans (Nat.mul_le_mul_left _ hroom)), Nat.mod_eq_of_lt hx]

@[simp] theorem Work.setMag_pages (w : Work) (i k : Wv) (x len : Nat) :
    ((w.setMag i x len).job.wv k).pages = (w.job.wv k).pages :=
  (w.extends_setMag i x len).pages k

/-! ### COPY, SETI, SHL and SHR -/

/-- A page step extends the low limbs of the result by its own page (R73). -/
theorem Work.Separate.fillPage_spec {w : Work} (h : w.Separate) {result len i : Nat} (hi : 1 ≤ i)
    (hroom : i ≤ w.job.wv0.pages.length)
    (hbefore : magnitude w.mem w.job.wv0.pages (min (16 * (i - 1)) len) = result % 2 ^ (32 * min (16 * (i - 1)) len)) :
    (w.fillPage result i len).job.wv0.length = min (16 * i) len ∧
      (w.fillPage result i len).mag .wv0 = result % 2 ^ (32 * min (16 * i) len) := by
  refine ⟨w.fill_length .wv0 _ _ _, ?_⟩
  unfold Work.fillPage
  by_cases hlong : 16 * (i - 1) ≤ len
  · rw [Nat.min_eq_left hlong] at hbefore
    have hle : 16 * (i - 1) ≤ min (16 * i) len := by omega
    have hpages : min (16 * i) len ≤ Config.pageLimbs * (w.job.wv .wv0).pages.length :=
      (Nat.min_le_left _ _).trans (Nat.mul_le_mul_left 16 hroom)
    rw [h.mag_fill result hle hpages, mod_eq_add_limbSlice result hle]
    exact congrArg (· + _) hbefore
  · have hdone : min (16 * i) len = len := by omega
    rw [Nat.min_eq_right (by omega)] at hbefore
    rw [hdone, w.mag_fill_of_le .wv0 result (by omega)]
    exact hbefore

theorem shl_lt {x len : Nat} (n : Nat) (h : x < 2 ^ (32 * len)) : x * 2 ^ n < 2 ^ (32 * (len + (n + 31) / 32)) :=
  calc x * 2 ^ n < 2 ^ (32 * len) * 2 ^ n := Nat.mul_lt_mul_of_pos_right h (Nat.two_pow_pos _)
    _ = 2 ^ (32 * len + n) := (Nat.pow_add _ _ _).symm
    _ ≤ 2 ^ (32 * (len + (n + 31) / 32)) := Nat.pow_le_pow_right (by decide) (by omega)

theorem shr_lt {x len : Nat} (n : Nat) (h : x < 2 ^ (32 * len)) : x / 2 ^ n < 2 ^ (32 * (len - n / 32)) := by
  rw [Nat.div_lt_iff_lt_mul (Nat.two_pow_pos _), ← Nat.pow_add]
  exact h.trans_le (Nat.pow_le_pow_right (by decide) (by omega))

theorem natAbs_toInt_lt (x : Word) : x.toInt.natAbs < 2 ^ (32 * 1) := by
  have hlow := BitVec.le_toInt x
  have hhigh := BitVec.toInt_lt (x := x)
  omega

/-- Settles O46. -/
theorem pageStepsBuildTheResult : Obligations.PageStepsBuildTheResult := by
  intro s c j hmem hnodup a w i n result len
  have hsep : Work.Separate { mem := s.mem, job := j } := Work.separate_of_nodup hmem hnodup
  refine ⟨fun hkind hstep hpage hempty => ?seti, fun hkind => ⟨?bound, fun hi hroom hlength hbefore => ?pages⟩⟩
  case seti =>
    have hw : w = if c.imm = 0 then { mem := s.mem, job := j } else
        Work.setMag { mem := s.mem, job := j } .wv0 c.imm.toInt.natAbs 1 := by
      simp only [w, State.stepWork, hkind]
    by_cases hzero : c.imm = 0
    · rw [if_pos hzero] at hw
      rw [hw, hzero, if_pos rfl]
      exact ⟨by simp [Work.mag, Record.wv, hempty hzero], hempty hzero⟩
    · rw [if_neg hzero] at hw
      rw [hw, if_neg hzero]
      exact ⟨hsep.mag_self (by simp [Record.wv, hpage hzero, pg]) (natAbs_toInt_lt c.imm), rfl⟩
  case bound =>
    have ha : a.mag < 2 ^ (32 * a.length) := value_mag_lt s c.a
    simp only [List.mem_cons, List.not_mem_nil, or_false] at hkind
    obtain h | h | h := hkind <;> simp only [result, len, h, reduceCtorEq, if_true, if_false]
    · exact ha
    · exact shl_lt n ha
    · exact shr_lt n ha
  case pages =>
    have hw : w = Work.fillPage { mem := s.mem, job := j } result i len := by
      have hstep : j.nextStep ≠ 0 := Nat.one_le_iff_ne_zero.1 hi
      simp only [List.mem_cons, List.not_mem_nil, or_false] at hkind
      obtain h | h | h := hkind <;>
        simp only [w, State.stepWork, result, len, h, if_neg hstep, reduceCtorEq, if_true, if_false] <;> rfl
    rw [hw]
    rw [hlength] at hbefore
    exact hsep.fillPage_spec hi hroom hbefore

/-! ### ADD and SUB -/

theorem Sign.flip_eq (g : Sign) : flipSign g = if g = .pos then .neg else .pos := by
  cases g <;> rfl

/-- What the limbs so far, the carry and the operands' limbs so far satisfy (R64, R73). -/
def PartialSum (A B limbs : Nat) (form : AddForm) (carry : Bool) (x : Nat) : Prop :=
  match form with
  | .sum => x + (if carry then 2 ^ (32 * limbs) else 0) = A % 2 ^ (32 * limbs) + B % 2 ^ (32 * limbs)
  | .aLessB => x + B % 2 ^ (32 * limbs) = A % 2 ^ (32 * limbs) + (if carry then 2 ^ (32 * limbs) else 0)
  | .bLessA => x + A % 2 ^ (32 * limbs) = B % 2 ^ (32 * limbs) + (if carry then 2 ^ (32 * limbs) else 0)

theorem borrow_slice {x y cin base : Nat} (hx : x < base) (hy : y < base) (hcin : cin ≤ 1) :
    (x + base - y - cin) % base + y + cin = x + (if x < y + cin then base else 0) := by
  split
  next h => rw [Nat.mod_eq_of_lt (by omega)]; omega
  next h =>
    rw [show x + base - y - cin = x - y - cin + base by omega, Nat.add_mod_right, Nat.mod_eq_of_lt (by omega)]
    omega

theorem carry_slice {x y cin base : Nat} (hx : x < base) (hy : y < base) (hcin : cin ≤ 1) :
    (x + y + cin) % base + (if base ≤ x + y + cin then base else 0) = x + y + cin := by
  split
  next h =>
    rw [show x + y + cin = x + y + cin - base + base by omega, Nat.add_mod_right, Nat.mod_eq_of_lt (by omega)]
  next h => rw [Nat.mod_eq_of_lt (by omega)]; omega

theorem addSlice_lt (k : StepCarry) (x y n : Nat) : (addSlice k x y n).1 < 2 ^ (32 * n) := by
  unfold addSlice
  cases k.form <;> exact Nat.mod_lt _ (Nat.two_pow_pos _)

/-- One page of an ADD or SUB carries the partial sum on (R73). -/
theorem partialSum_addSlice {A B lo hi x : Nat} {k : StepCarry} (hle : lo ≤ hi) (h : PartialSum A B lo k.form k.carry x) :
    let r := addSlice k (limbSlice A lo (hi - lo)) (limbSlice B lo (hi - lo)) (hi - lo)
    PartialSum A B hi k.form r.2 (x + 2 ^ (32 * lo) * r.1) := by
  intro r
  have hA := limbSlice_lt A lo (hi - lo)
  have hB := limbSlice_lt B lo (hi - lo)
  have hcin : (if k.carry then 1 else 0 : Nat) ≤ 1 := by split <;> omega
  have hpow : 2 ^ (32 * hi) = 2 ^ (32 * lo) * 2 ^ (32 * (hi - lo)) := by
    rw [← Nat.pow_add]; congr 1; omega
  have hscaled : (if k.carry then 2 ^ (32 * lo) else 0) = 2 ^ (32 * lo) * (if k.carry then 1 else 0 : Nat) := by
    split <;> simp
  have hout (b : Bool) : (if b then 2 ^ (32 * hi) else 0) = 2 ^ (32 * lo) * (if b then 2 ^ (32 * (hi - lo)) else 0) := by
    rw [hpow]; split <;> simp
  unfold PartialSum at h ⊢
  rw [hscaled] at h
  rw [mod_eq_add_limbSlice A hle, mod_eq_add_limbSlice B hle, hout]
  cases hform : k.form with
  | sum =>
    have hslice := congrArg (2 ^ (32 * lo) * ·) (carry_slice hA hB hcin)
    simp only [hform, Nat.mul_add] at h hslice ⊢
    simp only [r, addSlice, hform, decide_eq_true_eq]
    linarith
  | aLessB =>
    have hslice := congrArg (2 ^ (32 * lo) * ·) (borrow_slice hA hB hcin)
    simp only [hform, Nat.mul_add] at h hslice ⊢
    simp only [r, addSlice, hform, decide_eq_true_eq]
    linarith
  | bLessA =>
    have hslice := congrArg (2 ^ (32 * lo) * ·) (borrow_slice hB hA hcin)
    simp only [hform, Nat.mul_add] at h hslice ⊢
    simp only [r, addSlice, hform, decide_eq_true_eq]
    linarith

theorem Sign.eq_pos_neg_of_ne {g k : Sign} (h : g ≠ k) : (g = .pos ∧ k = .neg) ∨ (g = .neg ∧ k = .pos) := by
  cases g <;> cases k <;> simp_all

/-- The full sum: with all its limbs in place the decided sign and the magnitude are a + b (R48). No carry is left over, since the
sum of the magnitudes fits. -/
theorem toInt_add_of_partialSum {a b : Value} {len x : Nat} {carry : Bool} (ha : a.mag + b.mag < 2 ^ (32 * len))
    (hx : x < 2 ^ (32 * len)) (h : PartialSum a.mag b.mag len (addDecision a b).form carry x) :
    (match (addDecision a b).sign with | .pos => (x : Int) | .neg => -(x : Int)) = a.toInt + b.toInt := by
  have hamod : a.mag % 2 ^ (32 * len) = a.mag := Nat.mod_eq_of_lt (by omega)
  have hbmod : b.mag % 2 ^ (32 * len) = b.mag := Nat.mod_eq_of_lt (by omega)
  unfold PartialSum at h
  rw [hamod, hbmod] at h
  unfold addDecision at h ⊢
  generalize 2 ^ (32 * len) = bound at ha hx h
  unfold Value.toInt
  by_cases hsame : a.sign = b.sign
  · simp only [if_pos hsame] at h ⊢
    have hsum : x = a.mag + b.mag := by split at h <;> omega
    rw [← hsame, hsum]
    cases a.sign <;> push_cast <;> ring
  · simp only [if_neg hsame] at h ⊢
    by_cases hle : b.mag ≤ a.mag
    · simp only [if_pos hle] at h ⊢
      have hdiff : a.mag = x + b.mag := by split at h <;> omega
      obtain ⟨hsa, hsb⟩ | ⟨hsa, hsb⟩ := Sign.eq_pos_neg_of_ne hsame <;> rw [hsa, hsb, hdiff] <;> push_cast <;> ring
    · simp only [if_neg hle] at h ⊢
      have hdiff : b.mag = x + a.mag := by split at h <;> omega
      obtain ⟨hsa, hsb⟩ | ⟨hsa, hsb⟩ := Sign.eq_pos_neg_of_ne hsame <;> rw [hsa, hsb, hdiff] <;> push_cast <;> ring

/-- The value that takes part as the second operand: of a SUB, b with its sign flipped (R48). -/
def State.addend (s : State) (c : CommandRecord) : Value :=
  if c.kind = .add then s.value c.b else { s.value c.b with sign := flipSign (s.value c.b).sign }

theorem addend_mag (s : State) (c : CommandRecord) : (s.addend c).mag = (s.value c.b).mag := by
  unfold State.addend
  split <;> rfl

theorem addend_length (s : State) (c : CommandRecord) : (s.addend c).length = (s.value c.b).length := by
  unfold State.addend
  split <;> rfl

theorem stepWork_add_first {s : State} {c : CommandRecord} {j : Record} (hkind : c.kind = .add ∨ c.kind = .sub)
    (hstep : j.nextStep = 0) :
    s.stepWork c j = { mem := s.mem, job := { j with carry := some (addDecision (s.value c.a) (s.addend c)) } } := by
  obtain h | h := hkind <;> simp [State.stepWork, State.addend, h, hstep]

theorem stepWork_add_later {s : State} {c : CommandRecord} {j : Record} (hkind : c.kind = .add ∨ c.kind = .sub)
    (hstep : 1 ≤ j.nextStep) :
    s.stepWork c j = Work.addStep { mem := s.mem, job := j } (s.value c.a) (s.value c.b) j.nextStep := by
  have hne : j.nextStep ≠ 0 := Nat.one_le_iff_ne_zero.1 hstep
  obtain h | h := hkind <;> simp [State.stepWork, h, hne]

/-- A later step of ADD or SUB writes its page and carries the partial sum on (R73). -/
theorem Work.Separate.addStep_spec {w : Work} (h : w.Separate) {a b : Value} {i : Nat} {k : StepCarry} {form : AddForm} {len : Nat}
    (hlen : len = max a.length b.length + 1) (hroom : i ≤ w.job.wv0.pages.length) (hlong : 16 * (i - 1) < len)
    (hcarry : w.job.carry = some k) (hform : k.form = form)
    (hbefore : PartialSum a.mag b.mag (16 * (i - 1)) form k.carry (magnitude w.mem w.job.wv0.pages (16 * (i - 1)))) :
    ∃ carry, (w.addStep a b i).job.carry = some { k with carry := carry } ∧
      (w.addStep a b i).job.wv0.length = min (16 * i) len ∧
      PartialSum a.mag b.mag (min (16 * i) len) form carry ((w.addStep a b i).mag .wv0) := by
  obtain ⟨lo, hlo⟩ : ∃ lo, lo = 16 * (i - 1) := ⟨_, rfl⟩
  obtain ⟨hi, hhi⟩ : ∃ hi, hi = min (16 * i) len := ⟨_, rfl⟩
  obtain ⟨r, hr⟩ : ∃ r, r = addSlice k (limbSlice a.mag lo (hi - lo)) (limbSlice b.mag lo (hi - lo)) (hi - lo) := ⟨_, rfl⟩
  have hle : lo ≤ hi := by omega
  have hstep : w.addStep a b i =
      { w.fill .wv0 (r.1 * 2 ^ (32 * lo)) lo hi with
        job := { (w.fill .wv0 (r.1 * 2 ^ (32 * lo)) lo hi).job with carry := some { k with carry := r.2 } } } := by
    rw [Work.addStep, hcarry, hr, hlo, hhi, hlen]
  have hmag : (w.addStep a b i).mag .wv0 = magnitude w.mem w.job.wv0.pages lo + 2 ^ (32 * lo) * r.1 := by
    have hpages : hi ≤ Config.pageLimbs * (w.job.wv .wv0).pages.length :=
      hhi ▸ (Nat.min_le_left _ _).trans (Nat.mul_le_mul_left 16 hroom)
    have hfill := h.mag_fill (r.1 * 2 ^ (32 * lo)) hle hpages
    rw [limbSlice_shifted lo (hr ▸ addSlice_lt k _ _ _)] at hfill
    rw [hstep]
    exact hfill
  rw [hmag, ← hhi, ← hform, hr]
  rw [← hform, ← hlo] at hbefore
  exact ⟨r.2, by rw [hstep], by rw [hstep]; exact w.fill_length .wv0 (r.1 * 2 ^ (32 * lo)) lo hi, hr ▸ partialSum_addSlice hle hbefore⟩

/-- Settles O47. -/
theorem addSubStepsCarry : Obligations.AddSubStepsCarry := by
  refine ⟨fun s c j hkind hstep => ?first, ?later⟩
  case first =>
    intro a b bSign decision
    have hsign : bSign = if c.kind = .add then b.sign else flipSign b.sign := by
      rw [Sign.flip_eq]
    have haddend : s.addend c = { b with sign := bSign } := by
      rw [hsign, State.addend]
      split <;> rfl
    have hdecision : addDecision a { b with sign := bSign } = decision := rfl
    exact ⟨by rw [stepWork_add_first hkind hstep, haddend, hdecision], hdecision, hsign⟩
  case later =>
    intro s c j k hmem hnodup hkind hstep hroom a b len lo hi partialSum hlong hcarry hlength hform hsign hbefore w
    have hsep : Work.Separate { mem := s.mem, job := j } := Work.separate_of_nodup hmem hnodup
    have hlo : lo = 16 * (j.nextStep - 1) := Nat.min_eq_left hlong.le
    have hb : b = s.addend c := rfl
    have hlen : len = max a.length (s.value c.b).length + 1 := by
      simp only [len, hb, addend_length]
    rw [hform] at hbefore
    have hbefore' : PartialSum a.mag (s.value c.b).mag (16 * (j.nextStep - 1)) (addDecision a b).form k.carry
        (magnitude s.mem j.wv0.pages (16 * (j.nextStep - 1))) := by
      rw [← hlo, ← addend_mag s c]
      exact hbefore
    obtain ⟨carry, hcarry', hlength', hafter⟩ := hsep.addStep_spec (b := s.value c.b) hlen hroom hlong hcarry hform hbefore'
    rw [← stepWork_add_later hkind hstep] at hcarry' hlength' hafter
    rw [← addend_mag s c] at hafter
    refine ⟨_, hcarry', rfl, rfl, hlength', by rw [hform]; exact hafter, fun hdone => ?_⟩
    change (match k.sign with | .pos => (w.mag .wv0 : Int) | .neg => -(w.mag .wv0 : Int)) = _
    rw [hsign]
    have ha : a.mag < 2 ^ (32 * a.length) := value_mag_lt s c.a
    have hbmag : b.mag < 2 ^ (32 * b.length) := by
      rw [hb, addend_mag, addend_length]; exact value_mag_lt s c.b
    have hx : w.mag .wv0 < 2 ^ (32 * len) := by
      rw [← hdone, ← (show (w.job.wv .wv0).length = hi from hlength')]
      exact magnitude_lt _ _ _
    refine toInt_add_of_partialSum (len := len) (carry := carry) ?_ hx ?_
    · have hgrow : 2 * 2 ^ (32 * max a.length b.length) ≤ 2 ^ (32 * len) := by
        rw [← Nat.pow_succ']
        exact Nat.pow_le_pow_right (by decide) (by omega)
      have ha' := ha.trans_le (Nat.pow_le_pow_right (n := 2) (by decide) (show 32 * a.length ≤ 32 * max a.length b.length by omega))
      have hb' := hbmag.trans_le (Nat.pow_le_pow_right (n := 2) (by decide) (show 32 * b.length ≤ 32 * max a.length b.length by omega))
      omega
    · rw [← hdone]
      exact hafter

end Sys2Proof.Machine
end

section
/-! PROOFS. The arithmetic limb by limb and modulo m: the steps of MUL and DIVMOD, and of MODMUL and MODEXP (R51 to R55, R74, R75). -/

namespace Sys2Proof.Machine

/-! ### MUL -/

theorem stepWork_mul {s : State} {c : CommandRecord} {j : Record} (hkind : c.kind = .mul) (hstep : 1 ≤ j.nextStep) :
    s.stepWork c j = Work.mulStep { mem := s.mem, job := j } (s.value c.a) (s.value c.b) j.nextStep := by
  simp [State.stepWork, hkind, Nat.one_le_iff_ne_zero.1 hstep]

/-- The next limb of a number joins the limbs below it. -/
theorem mod_succ_eq_add_limb (x : Nat) {i : Nat} (h : 1 ≤ i) :
    x % 2 ^ (32 * i) = x % 2 ^ (32 * (i - 1)) + 2 ^ (32 * (i - 1)) * (limbOfNat x (i - 1)).toNat := by
  obtain ⟨n, rfl⟩ : ∃ n, i = n + 1 := ⟨i - 1, by omega⟩
  rw [Nat.add_sub_cancel, limbOfNat_toNat, Nat.mul_succ, Nat.pow_add, Nat.mod_mul]

theorem mul_mod_step (x y : Nat) {i : Nat} (h : 1 ≤ i) :
    y * (x % 2 ^ (32 * (i - 1))) + y * (limbOfNat x (i - 1)).toNat * 2 ^ (32 * (i - 1)) = y * (x % 2 ^ (32 * i)) := by
  rw [mod_succ_eq_add_limb x h]
  ring

theorem mul_mod_lt {y n : Nat} (x i : Nat) (hy : y < 2 ^ (32 * n)) : y * (x % 2 ^ (32 * i)) < 2 ^ (32 * (n + i)) := by
  rw [Nat.mul_add, Nat.pow_add]
  exact Nat.mul_lt_mul'' hy (Nat.mod_lt _ (Nat.two_pow_pos _))

/-- A step of MUL adds the next partial product (R74). -/
theorem Work.Separate.mulStep_spec {w : Work} (h : w.Separate) {a b : Value} {i : Nat} (hi : 1 ≤ i) (hb : b.mag < 2 ^ (32 * b.length))
    (hroom : pg (b.length + i) ≤ w.job.wv0.pages.length)
    (hbefore : w.mag .wv0 = b.mag * (a.mag % 2 ^ (32 * (i - 1)))) :
    (w.mulStep a b i).job.wv0.length = b.length + i ∧ (w.mulStep a b i).mag .wv0 = b.mag * (a.mag % 2 ^ (32 * i)) := by
  refine ⟨rfl, ?_⟩
  rw [Work.mulStep, hbefore, mul_mod_step a.mag b.mag hi]
  exact h.mag_self hroom (mul_mod_lt a.mag i hb)

/-! ### DIVMOD -/

theorem stepWork_divmod_first {s : State} {c : CommandRecord} {j : Record} (hkind : c.kind = .divmod) (hstep : j.nextStep = 0)
    (ha : 0 < (s.value c.a).length) :
    s.stepWork c j = Work.setMag { mem := s.mem, job := j } .wv1 (s.value c.a).mag ((s.value c.a).length + 1) := by
  simp [State.stepWork, hkind, hstep, ha]

theorem stepWork_divmod_later {s : State} {c : CommandRecord} {j : Record} (hkind : c.kind = .divmod) (hstep : 1 ≤ j.nextStep) :
    s.stepWork c j = Work.divStep { mem := s.mem, job := j } (s.value c.a) (s.value c.b) j.nextStep := by
  simp [State.stepWork, hkind, Nat.one_le_iff_ne_zero.1 hstep]

/-- A step of DIVMOD takes the next digit of the quotient from what is left of the dividend (R74). -/
theorem Work.Separate.divStep_spec {w : Work} (h : w.Separate) {a b : Value} {i : Nat} (ha : a.mag < 2 ^ (32 * a.length))
    (hi : 1 ≤ i) (hb : b.mag ≠ 0) (hroom0 : pg i ≤ w.job.wv0.pages.length) (hroom1 : pg (a.length + 1) ≤ w.job.wv1.pages.length)
    (hlength : w.job.wv0.length = i - 1)
    (hrest : w.mag .wv1 < b.mag * (2 ^ (32 * (a.length - b.length + 1 - i)) * 2 ^ 32))
    (hsplit : a.mag = w.mag .wv0 * (b.mag * (2 ^ (32 * (a.length - b.length + 1 - i)) * 2 ^ 32)) + w.mag .wv1) :
    (w.divStep a b i).mag .wv1 < b.mag * 2 ^ (32 * (a.length - b.length + 1 - i)) ∧
      a.mag = (w.divStep a b i).mag .wv0 * (b.mag * 2 ^ (32 * (a.length - b.length + 1 - i))) + (w.divStep a b i).mag .wv1 := by
  obtain ⟨divisor, hdivisor⟩ : ∃ divisor, divisor = b.mag * 2 ^ (32 * (a.length - b.length + 1 - i)) := ⟨_, rfl⟩
  have hpos : 0 < divisor := hdivisor ▸ Nat.mul_pos (Nat.pos_of_ne_zero hb) (Nat.two_pow_pos _)
  rw [← Nat.mul_assoc b.mag, ← hdivisor] at hrest hsplit
  obtain ⟨digit, hdigit⟩ : ∃ digit, digit = w.mag .wv1 / divisor := ⟨_, rfl⟩
  have hsmall : digit < 2 ^ 32 := by
    rw [hdigit, Nat.div_lt_iff_lt_mul hpos, Nat.mul_comm]; exact hrest
  have hleft : w.mag .wv1 - digit * divisor = w.mag .wv1 % divisor := by
    rw [hdigit, Nat.mod_eq_sub_div_mul]
  have hstep : w.divStep a b i =
      (w.setMag .wv1 (w.mag .wv1 % divisor) (a.length + 1)).setMag .wv0 (w.mag .wv0 * 2 ^ 32 + digit) i := by
    rw [← hleft, hdigit, hdivisor]
    rfl
  have hquotient : w.mag .wv0 < 2 ^ (32 * (i - 1)) := by
    rw [← hlength]; exact magnitude_lt _ _ _
  have hfits0 : w.mag .wv0 * 2 ^ 32 + digit < 2 ^ (32 * i) := by
    have hpow : 2 ^ (32 * i) = 2 ^ (32 * (i - 1)) * 2 ^ 32 := by
      rw [← Nat.pow_add]; congr 1; omega
    rw [hpow]
    omega
  have hfits1 : w.mag .wv1 % divisor < 2 ^ (32 * (a.length + 1)) := by
    have hle : w.mag .wv1 % divisor ≤ a.mag := (Nat.mod_le _ _).trans (by omega)
    exact hle.trans_lt (ha.trans_le (Nat.pow_le_pow_right (by decide) (by omega)))
  have hset := h.setMag .wv1 (w.mag .wv1 % divisor) (a.length + 1)
  have hmag0 : (w.divStep a b i).mag .wv0 = w.mag .wv0 * 2 ^ 32 + digit := by
    rw [hstep]
    exact hset.mag_self (by rw [Work.setMag_pages]; exact hroom0) hfits0
  have hmag1 : (w.divStep a b i).mag .wv1 = w.mag .wv1 % divisor := by
    rw [hstep, hset.mag_other (by decide)]
    exact h.mag_self hroom1 hfits1
  rw [hmag0, hmag1, ← hdivisor]
  refine ⟨Nat.mod_lt _ hpos, hsplit.trans ?_⟩
  have hdiv : w.mag .wv1 = divisor * digit + w.mag .wv1 % divisor := by
    rw [hdigit]; exact (Nat.div_add_mod _ _).symm
  calc w.mag .wv0 * (divisor * 2 ^ 32) + w.mag .wv1
      = w.mag .wv0 * (divisor * 2 ^ 32) + (divisor * digit + w.mag .wv1 % divisor) := by rw [← hdiv]
    _ = (w.mag .wv0 * 2 ^ 32 + digit) * divisor + w.mag .wv1 % divisor := by ring

/-- Settles O48. -/
theorem mulAndDivmodSteps : Obligations.MulAndDivmodSteps := by
  refine ⟨fun s c j hmem hnodup hkind => ?mul, fun s c j hmem hnodup hkind => ?divmod⟩
  case mul =>
    intro a b i hi hroom hbefore w
    have hsep : Work.Separate { mem := s.mem, job := j } := Work.separate_of_nodup hmem hnodup
    have hw : w = Work.mulStep { mem := s.mem, job := j } a b i := stepWork_mul hkind hi
    obtain ⟨hlength, hmag⟩ := hsep.mulStep_spec (a := a) hi (value_mag_lt s c.b) hroom hbefore
    rw [← hw] at hlength hmag
    refine ⟨hlength, hmag, fun hlast => ?_⟩
    rw [hmag, hlast, Nat.mod_eq_of_lt (value_mag_lt s c.a)]
  case divmod =>
    intro a b w i
    have hsep : Work.Separate { mem := s.mem, job := j } := Work.separate_of_nodup hmem hnodup
    have ha : a.mag < 2 ^ (32 * a.length) := value_mag_lt s c.a
    refine ⟨fun hi hlength hroom => ?_, fun hi hlong hlast hb hroom0 hroom1 hlength => ?_⟩
    · have hw : w = Work.setMag { mem := s.mem, job := j } .wv1 a.mag (a.length + 1) := stepWork_divmod_first hkind hi hlength
      rw [hw]
      exact ⟨hsep.mag_self hroom (ha.trans_le (Nat.pow_le_pow_right (by decide) (by omega))), rfl, rfl⟩
    · intro q rest place hrest hsplit
      have hw : w = Work.divStep { mem := s.mem, job := j } a b i := stepWork_divmod_later hkind hi
      obtain ⟨hsmall, hvalue⟩ := hsep.divStep_spec ha hi hb hroom0 hroom1 hlength hrest hsplit
      rw [← hw] at hsmall hvalue
      refine ⟨by rw [hw]; rfl, by rw [hw]; rfl, hsmall, hvalue, fun hdone => ?_⟩
      have hplace : 2 ^ (32 * (a.length - b.length + 1 - i)) = 1 := by rw [hdone]; simp
      rw [hplace, Nat.mul_one] at hsmall hvalue
      have hunique := (Nat.div_mod_unique (Nat.pos_of_ne_zero hb)).2
        ⟨(by rw [Nat.mul_comm b.mag, Nat.add_comm]; exact hvalue.symm : w.mag .wv1 + b.mag * w.mag .wv0 = a.mag), hsmall⟩
      exact ⟨hunique.1.symm, hunique.2.symm⟩

/-! ### Residues -/

theorem reduce_cast (x : Int) {m : Nat} (hm : 0 < m) : (reduce x m : Int) = x % m :=
  Int.toNat_of_nonneg (Int.emod_nonneg x (by omega))

theorem reduce_lt (x : Int) {m : Nat} (hm : 0 < m) : reduce x m < m := by
  have h : (reduce x m : Int) < m := by
    rw [reduce_cast x hm]
    exact Int.emod_lt_of_pos x (by omega)
  exact_mod_cast h

/-- A product of two residues, as long as twice the modulus. -/
theorem mul_lt_double {x y m n : Nat} (hx : x < m) (hy : y < 2 ^ (32 * n)) (hm : m < 2 ^ (32 * n)) :
    x * y < 2 ^ (32 * (2 * n + 1)) :=
  calc x * y < 2 ^ (32 * n) * 2 ^ (32 * n) := Nat.mul_lt_mul'' (hx.trans hm) hy
    _ = 2 ^ (32 * (2 * n)) := by rw [← Nat.pow_add]; congr 1; omega
    _ ≤ 2 ^ (32 * (2 * n + 1)) := Nat.pow_le_pow_right (by decide) (by omega)

/-! ### MODMUL -/

theorem stepWork_modmul {s : State} {c : CommandRecord} {j : Record} (hkind : c.kind = .modmul) (hstep : 1 ≤ j.nextStep) :
    s.stepWork c j =
      Work.modmulStep { mem := s.mem, job := j } (s.value c.a) (s.value c.b) (s.value c.m) j.nextStep := by
  simp [State.stepWork, hkind, Nat.one_le_iff_ne_zero.1 hstep]

theorem Work.modmulStep_product (w : Work) (a b m : Value) {i : Nat} (hi : 3 ≤ i) (hlast : i ≤ m.length + 2) :
    w.modmulStep a b m i =
      w.setMag .wv2 (w.mag .wv2 + w.mag .wv0 * (limbOfNat (w.mag .wv1) (i - 3)).toNat * 2 ^ (32 * (i - 3))) (2 * m.length + 1) := by
  rw [Work.modmulStep, if_neg (by omega), if_neg (by omega), if_neg (by omega)]

theorem Work.modmulStep_reduce (w : Work) (a b m : Value) (hm : 0 < m.length) :
    w.modmulStep a b m (m.length + 3) = w.setMag .wv0 (w.mag .wv2 % m.mag) m.length := by
  rw [Work.modmulStep, if_neg (by omega), if_neg (by omega), if_pos rfl]

/-- A product step of MODMUL adds the next partial product into WV2 (R75). -/
theorem Work.Separate.modmulStep_product_spec {w : Work} (h : w.Separate) {a b m : Value} {i : Nat}
    (hm : m.mag < 2 ^ (32 * m.length)) (hroom : pg (2 * m.length + 1) ≤ w.job.wv2.pages.length) (hi : 3 ≤ i)
    (hlast : i ≤ m.length + 2) (hx : w.mag .wv0 < m.mag)
    (hbefore : w.mag .wv2 = w.mag .wv0 * (w.mag .wv1 % 2 ^ (32 * (i - 3)))) :
    (w.modmulStep a b m i).mag .wv2 = w.mag .wv0 * (w.mag .wv1 % 2 ^ (32 * (i - 2))) ∧
      (w.modmulStep a b m i).mag .wv0 = w.mag .wv0 ∧ (w.modmulStep a b m i).mag .wv1 = w.mag .wv1 := by
  have hproduct := mul_mod_step (w.mag .wv1) (w.mag .wv0) (i := i - 2) (by omega)
  rw [show i - 2 - 1 = i - 3 by omega, ← hbefore] at hproduct
  rw [w.modmulStep_product a b m hi hlast, hproduct]
  refine ⟨h.mag_self hroom (mul_lt_double hx ?_ hm), h.mag_other (by decide) _ _, h.mag_other (by decide) _ _⟩
  exact (Nat.mod_lt _ (Nat.two_pow_pos _)).trans_le (Nat.pow_le_pow_right (by decide) (by omega))

/-! ### MODEXP -/

theorem stepWork_modexp {s : State} {c : CommandRecord} {j : Record} (hkind : c.kind = .modexp) (hstep : 1 ≤ j.nextStep) :
    s.stepWork c j =
      Work.modexpStep { mem := s.mem, job := j } (s.value c.a) (s.value c.b) (s.value c.m) j.nextStep := by
  simp [State.stepWork, hkind, Nat.one_le_iff_ne_zero.1 hstep]

/-- The pages that the working values of a modular kind hold from step 0 on (R68). -/
structure Work.ModularRoom (w : Work) (n : Nat) : Prop where
  wv0 : pg n ≤ w.job.wv0.pages.length
  wv1 : pg n ≤ w.job.wv1.pages.length
  wv2 : pg (2 * n + 1) ≤ w.job.wv2.pages.length

theorem Work.ModularRoom.extends {w w' : Work} {n : Nat} (h : w.ModularRoom n) (he : w.Extends w') : w'.ModularRoom n := by
  obtain ⟨h0, h1, h2⟩ := h
  exact ⟨by rw [show w'.job.wv0.pages = w.job.wv0.pages from he.pages .wv0]; exact h0,
    by rw [show w'.job.wv1.pages = w.job.wv1.pages from he.pages .wv1]; exact h1,
    by rw [show w'.job.wv2.pages = w.job.wv2.pages from he.pages .wv2]; exact h2⟩

/-- WV0 times y, reduced (R75). -/
theorem Work.Separate.mulReduce_spec {w : Work} (h : w.Separate) {m : Value} {y : Nat} (hroom : w.ModularRoom m.length)
    (hm : m.mag < 2 ^ (32 * m.length)) (hx : w.mag .wv0 < m.mag) (hy : y < m.mag) :
    (w.mulReduce y m).mag .wv0 = w.mag .wv0 * y % m.mag ∧ (w.mulReduce y m).mag .wv1 = w.mag .wv1 := by
  obtain ⟨hroom0, -, hroom2⟩ := hroom
  have hset := h.setMag .wv2 (w.mag .wv0 * y) (2 * m.length + 1)
  have hproduct : (w.setMag .wv2 (w.mag .wv0 * y) (2 * m.length + 1)).mag .wv2 = w.mag .wv0 * y :=
    h.mag_self hroom2 (mul_lt_double hx (hy.trans hm) hm)
  have hstep : w.mulReduce y m =
      (w.setMag .wv2 (w.mag .wv0 * y) (2 * m.length + 1)).setMag .wv0 (w.mag .wv0 * y % m.mag) m.length := by
    rw [Work.mulReduce, hproduct]
  rw [hstep, hset.mag_other (k := .wv1) (by decide), h.mag_other (k := .wv1) (by decide)]
  refine ⟨hset.mag_self (by rw [Work.setMag_pages]; exact hroom0) ?_, rfl⟩
  exact (Nat.mod_lt _ (Nat.zero_lt_of_lt hx)).trans hm

/-- One more bit of the exponent: the quotient by a power of two doubles and takes the bit. -/
theorem div_two_pow_eq (e n : Nat) : e / 2 ^ n = 2 * (e / 2 ^ (n + 1)) + (if e.testBit n then 1 else 0) := by
  have hbit : (if e.testBit n then 1 else 0) = e / 2 ^ n % 2 := by
    rw [Nat.testBit_eq_decide_div_mod_eq]
    split <;> simp_all
  rw [hbit, Nat.pow_succ, ← Nat.div_div_eq_div_mul]
  omega

/-- An exponent step of MODEXP takes the next bit: it squares and, on a 1, multiplies (R54, R75). -/
theorem Work.Separate.modexpStep_spec {w : Work} (h : w.Separate) {a e m : Value} {i : Nat} (hroom : w.ModularRoom m.length)
    (hm : m.mag < 2 ^ (32 * m.length)) (hi : 2 ≤ i) (hlast : i ≤ 1 + bitLength e.mag) (hy : w.mag .wv1 < m.mag)
    (hbefore : w.mag .wv0 = w.mag .wv1 ^ (e.mag / 2 ^ (bitLength e.mag - (i - 2))) % m.mag) :
    (w.modexpStep a e m i).mag .wv0 = w.mag .wv1 ^ (e.mag / 2 ^ (bitLength e.mag - (i - 1))) % m.mag ∧
      (w.modexpStep a e m i).mag .wv1 = w.mag .wv1 := by
  have hpos : 0 < m.mag := Nat.zero_lt_of_lt hy
  have hx : w.mag .wv0 < m.mag := by rw [hbefore]; exact Nat.mod_lt _ hpos
  obtain ⟨p, hp⟩ : ∃ p, p = e.mag / 2 ^ (bitLength e.mag - (i - 2)) := ⟨_, rfl⟩
  have hexponent : e.mag / 2 ^ (bitLength e.mag - (i - 1)) =
      2 * p + (if e.mag.testBit (bitLength e.mag - (i - 1)) then 1 else 0) := by
    rw [div_two_pow_eq, hp, show bitLength e.mag - (i - 1) + 1 = bitLength e.mag - (i - 2) by omega]
  obtain ⟨hsquare, hkept⟩ := h.mulReduce_spec hroom hm hx hx
  have hsquare' : (w.mulReduce (w.mag .wv0) m).mag .wv0 = w.mag .wv1 ^ (2 * p) % m.mag := by
    rw [hsquare, hbefore, ← hp, ← Nat.mul_mod, ← Nat.pow_add, Nat.two_mul]
  have hsep := h.extends (w.extends_mulReduce (w.mag .wv0) m)
  have hroom' := hroom.extends (w.extends_mulReduce (w.mag .wv0) m)
  rw [Work.modexpStep, if_neg (by omega), hexponent]
  dsimp only
  split
  next =>
    obtain ⟨hproduct, hkept'⟩ := hsep.mulReduce_spec (y := (w.mulReduce (w.mag .wv0) m).mag .wv1) hroom' hm
      (by rw [hsquare]; exact Nat.mod_lt _ hpos) (by rw [hkept]; exact hy)
    refine ⟨?_, hkept'.trans hkept⟩
    rw [hproduct, hkept, hsquare', Nat.pow_succ, Nat.mod_mul_mod]
  next => exact ⟨hsquare', hkept⟩

/-- Settles O49. -/
theorem modularStepsReduce : Obligations.ModularStepsReduce := by
  intro s c j hmem hnodup a b m w i x y p hpos hroom0 hroom1 hroom2
  have hsep : Work.Separate { mem := s.mem, job := j } := Work.separate_of_nodup hmem hnodup
  have hm : m.mag < 2 ^ (32 * m.length) := value_mag_lt s c.m
  refine ⟨fun hkind => ?modmul, fun hkind => ?modexp⟩
  case modmul =>
    have hw (hi : 1 ≤ i) : w = Work.modmulStep { mem := s.mem, job := j } a b m i := stepWork_modmul hkind hi
    refine ⟨fun hi => ?_, fun hi => ?_, fun hi hlast hx hbefore => ?_, fun hi hlength => ?_⟩
    · rw [hw (by omega), hi, ← reduce_cast a.toInt hpos]
      exact congrArg _ (hsep.mag_self hroom0 ((reduce_lt a.toInt hpos).trans hm))
    · rw [hw (by omega), hi, ← reduce_cast b.toInt hpos]
      exact ⟨congrArg _ (hsep.mag_self hroom1 ((reduce_lt b.toInt hpos).trans hm)), hsep.mag_other (by decide) _ _⟩
    · rw [hw (by omega)]
      exact hsep.modmulStep_product_spec hm hroom2 hi hlast hx hbefore
    · rw [hw (by omega), hi, Work.modmulStep_reduce _ a b m hlength]
      exact hsep.mag_self hroom0 ((Nat.mod_lt _ hpos).trans hm)
  case modexp =>
    have hw (hi : 1 ≤ i) : w = Work.modexpStep { mem := s.mem, job := j } a b m i := stepWork_modexp hkind hi
    refine ⟨fun hi => ?_, fun hi hlast hy hbefore => ?_⟩
    · have hset := hsep.setMag .wv1 (reduce a.toInt m.mag) m.length
      have hstep : w = (Work.setMag { mem := s.mem, job := j } .wv1 (reduce a.toInt m.mag) m.length).setMag .wv0 (1 % m.mag)
          m.length := by
        rw [hw (by omega), hi]
        rfl
      rw [hstep, ← reduce_cast a.toInt hpos, hset.mag_other (k := .wv1) (by decide)]
      exact ⟨congrArg _ (hsep.mag_self hroom1 ((reduce_lt a.toInt hpos).trans hm)),
        hset.mag_self (by rw [Work.setMag_pages]; exact hroom0) ((Nat.mod_lt _ hpos).trans hm)⟩
    · rw [hw (by omega)]
      exact hsep.modexpStep_spec ⟨hroom0, hroom1, hroom2⟩ hm hi hlast hy hbefore

end Sys2Proof.Machine
end

section
/-! PROOFS. The searches of GCD and MODINV: each step of Euclid's algorithm in the working values, with MODINV's coefficients (R56, R57,
R76, log entry 8). -/

namespace Sys2Proof.Machine

/-! ### GCD -/

theorem stepWork_gcd {s : State} {c : CommandRecord} {j : Record} (hkind : c.kind = .gcd) :
    s.stepWork c j = Work.gcdStep { mem := s.mem, job := j } (s.value c.a) (s.value c.b) j.nextStep := by
  simp [State.stepWork, hkind]

theorem Work.gcdStep_first (w : Work) (a b : Value) :
    w.gcdStep a b 0 =
      ((w.setMag .wv0 a.mag (max a.length b.length + 1)).setMag .wv1 b.mag (max a.length b.length + 1)).setMag .wv2 0
        (max a.length b.length + 1) := rfl

/-- Step 0 of GCD copies both magnitudes (R76). -/
theorem Work.Separate.gcdStep_first_spec {w : Work} (h : w.Separate) {a b : Value} {len : Nat} (hlen : len = max a.length b.length + 1)
    (ha : a.mag < 2 ^ (32 * len)) (hb : b.mag < 2 ^ (32 * len)) (hroom0 : pg len ≤ w.job.wv0.pages.length)
    (hroom1 : pg len ≤ w.job.wv1.pages.length) :
    (w.gcdStep a b 0).mag .wv0 = a.mag ∧ (w.gcdStep a b 0).mag .wv1 = b.mag := by
  rw [w.gcdStep_first, ← hlen]
  have h0 := h.setMag .wv0 a.mag len
  have h1 := h0.setMag .wv1 b.mag len
  rw [h1.mag_other (k := .wv0) (by decide), h1.mag_other (k := .wv1) (by decide), h0.mag_other (k := .wv0) (by decide)]
  exact ⟨h.mag_self hroom0 ha, h0.mag_self (by rw [Work.setMag_pages]; exact hroom1) hb⟩

/-- A later step of GCD replaces the pair (x, y) by (y, x mod y) (R76). -/
theorem Work.Separate.gcdStep_later_spec {w : Work} (h : w.Separate) {a b : Value} {len i : Nat}
    (hlen : len = max a.length b.length + 1) (hi : 1 ≤ i) (hy : w.mag .wv1 ≠ 0) (hbound : w.mag .wv1 < 2 ^ (32 * len))
    (hroom0 : pg len ≤ w.job.wv0.pages.length) (hroom1 : pg len ≤ w.job.wv1.pages.length)
    (hroom2 : pg len ≤ w.job.wv2.pages.length) :
    (w.gcdStep a b i).mag .wv0 = w.mag .wv1 ∧ (w.gcdStep a b i).mag .wv1 = w.mag .wv0 % w.mag .wv1 := by
  have hrem : w.mag .wv0 % w.mag .wv1 < 2 ^ (32 * len) := (Nat.mod_lt _ (Nat.pos_of_ne_zero hy)).trans hbound
  have hmag2 : (w.setMag .wv2 (w.mag .wv0 % w.mag .wv1) len).mag .wv2 = w.mag .wv0 % w.mag .wv1 := h.mag_self hroom2 hrem
  have hstep : w.gcdStep a b i =
      ((w.setMag .wv2 (w.mag .wv0 % w.mag .wv1) len).setMag .wv0 (w.mag .wv1) len).setMag .wv1 (w.mag .wv0 % w.mag .wv1) len := by
    rw [Work.gcdStep, if_neg (by omega), ← hlen]
    dsimp only
    rw [hmag2]
  have h2 := h.setMag .wv2 (w.mag .wv0 % w.mag .wv1) len
  have h0 := h2.setMag .wv0 (w.mag .wv1) len
  rw [hstep, h0.mag_other (k := .wv0) (by decide)]
  exact ⟨h2.mag_self (by rw [Work.setMag_pages]; exact hroom0) hbound,
    h0.mag_self (by rw [Work.setMag_pages, Work.setMag_pages]; exact hroom1) hrem⟩

/-! ### What is true of MODINV's search -/

/-- The sign of the coefficient of x at the end of a step; that of y's is the other (R76). -/
def stepSign (step : Nat) : Int := if step % 2 = 0 then 1 else -1

theorem stepSign_succ (step : Nat) : stepSign (step + 1) = -stepSign step := by
  unfold stepSign
  split <;> split <;> omega

/-- Each coefficient times a is its number modulo m, the pair and the coefficients weigh m together, and the pair keeps the greatest
common divisor. -/
structure Search.Sound (z : Search) (a : Int) (m step : Nat) : Prop where
  x : (m : Int) ∣ stepSign step * z.cx * a - z.x
  y : (m : Int) ∣ -stepSign step * z.cy * a - z.y
  weight : z.x * z.cy + z.y * z.cx = m
  gcd : Nat.gcd z.x z.y = Nat.gcd m (a % m).toNat

theorem Search.sound_first (a : Int) {m : Nat} (hm : 0 < m) :
    Search.Sound { x := m, y := reduce a m, cx := 0, cy := 1 } a m 1 := by
  refine ⟨?_, ?_, ?_, rfl⟩
  · simp
  · have hdvd : (m : Int) ∣ a - a % m := Int.dvd_self_sub_emod
    rw [reduce_cast a hm]
    simpa [stepSign] using hdvd
  · simp

theorem Search.Sound.next {z : Search} {a : Int} {m step : Nat} (h : z.Sound a m step) : z.next.Sound a m (step + 1) := by
  obtain ⟨hx, hy, hweight, hgcd⟩ := h
  have hdiv : (z.x : Int) = z.y * (z.x / z.y : Nat) + (z.x % z.y : Nat) := by exact_mod_cast (Nat.div_add_mod z.x z.y).symm
  refine ⟨?_, ?_, ?_, ?_⟩
  · rw [stepSign_succ]
    exact hy
  · obtain ⟨k, hk⟩ := hx
    obtain ⟨l, hl⟩ := hy
    rw [stepSign_succ, neg_neg]
    refine ⟨k - (z.x / z.y : Nat) * l, ?_⟩
    simp only [Search.next]
    push_cast at hdiv hk hl ⊢
    linear_combination hk - (z.x / z.y : Int) * hl + hdiv
  · simp only [Search.next]
    calc z.y * (z.cx + z.x / z.y * z.cy) + z.x % z.y * z.cy
        = (z.y * (z.x / z.y) + z.x % z.y) * z.cy + z.y * z.cx := by ring
      _ = z.x * z.cy + z.y * z.cx := by rw [Nat.div_add_mod]
      _ = m := hweight
  · simp only [Search.next]
    rw [← hgcd, Nat.gcd_comm z.y, ← Nat.gcd_rec, Nat.gcd_comm]

/-- At the end of the search with divisor 1, the coefficient of x is an inverse (R57). -/
theorem Search.Sound.inverse {z : Search} {a : Int} {m step : Nat} (h : z.Sound a m step) (hm : 0 < m) (hx : z.x = 1) :
    (reduce (z.coefficient step) m : Int) < m ∧ (m : Int) ∣ (reduce (z.coefficient step) m : Int) * a - 1 := by
  have hcoefficient : z.coefficient step = stepSign step * z.cx := by
    unfold Search.coefficient stepSign
    split <;> simp
  refine ⟨by exact_mod_cast reduce_lt _ hm, ?_⟩
  have hsound := h.x
  rw [hx, ← hcoefficient] at hsound
  have hreduced : (m : Int) ∣ z.coefficient step - reduce (z.coefficient step) m := by
    rw [reduce_cast _ hm]
    exact Int.dvd_self_sub_emod
  have hdiff := dvd_sub hsound (hreduced.mul_right a)
  rwa [show z.coefficient step * a - ((1 : Nat) : Int) - (z.coefficient step - reduce (z.coefficient step) m) * a =
    reduce (z.coefficient step) m * a - 1 by push_cast; ring] at hdiff

/-! ### The room of the search -/

/-- The numbers of a search fit where `setSearch` lays them, for a modulus of n limbs. -/
structure Search.Fits (z : Search) (n : Nat) : Prop where
  cx : z.cx < 2 ^ (32 * n)
  x : z.x < 2 ^ (32 * n)
  y : z.y < 2 ^ (32 * limbCount z.x)
  cy : z.y + z.cy * 2 ^ (32 * limbCount z.x) < 2 ^ (32 * (n + 1))

theorem two_pow_limbCount_le {x : Nat} (h : 0 < x) : 2 ^ (32 * limbCount x) ≤ 2 ^ 32 * x := by
  have hpos : ¬ limbCount x ≤ 0 := by rw [limbCount_le_iff]; omega
  have hlow : ¬ limbCount x ≤ limbCount x - 1 := by omega
  rw [limbCount_le_iff, Nat.not_lt] at hlow
  calc 2 ^ (32 * limbCount x) = 2 ^ 32 * 2 ^ (32 * (limbCount x - 1)) := by rw [← Nat.pow_add]; congr 1; omega
    _ ≤ 2 ^ 32 * x := Nat.mul_le_mul_left _ hlow

/-- The coefficient above y leaves room for y below it: both bounds are multiples of the place where it stands. -/
theorem Search.fits_of_weight {z : Search} {m n : Nat} (hm : m < 2 ^ (32 * n)) (hpos : 0 < z.x)
    (hweight : z.x * z.cy + z.y * z.cx = m) (hy : z.y < 2 ^ (32 * limbCount z.x)) (hx : z.x < 2 ^ (32 * n))
    (hcx : z.cx < 2 ^ (32 * n)) : z.Fits n := by
  refine ⟨hcx, hx, hy, ?_⟩
  obtain ⟨rest, hrest⟩ : ∃ rest, n + 1 = limbCount z.x + rest := by
    have := limbCount_le_iff.2 hx
    exact ⟨n + 1 - limbCount z.x, by omega⟩
  have hcy : z.cy * 2 ^ (32 * limbCount z.x) < 2 ^ (32 * rest) * 2 ^ (32 * limbCount z.x) :=
    calc z.cy * 2 ^ (32 * limbCount z.x) ≤ z.cy * (2 ^ 32 * z.x) := Nat.mul_le_mul_left _ (two_pow_limbCount_le hpos)
      _ = 2 ^ 32 * (z.x * z.cy) := by ring
      _ ≤ 2 ^ 32 * m := Nat.mul_le_mul_left _ (by omega)
      _ < 2 ^ 32 * 2 ^ (32 * n) := Nat.mul_lt_mul_of_pos_left hm (Nat.two_pow_pos _)
      _ = 2 ^ (32 * rest) * 2 ^ (32 * limbCount z.x) := by rw [← Nat.pow_add, ← Nat.pow_add]; congr 1; omega
  have hbelow : z.cy + 1 ≤ 2 ^ (32 * rest) := Nat.lt_of_mul_lt_mul_right hcy
  calc z.y + z.cy * 2 ^ (32 * limbCount z.x) < 2 ^ (32 * limbCount z.x) + z.cy * 2 ^ (32 * limbCount z.x) :=
        Nat.add_lt_add_right hy _
    _ = (z.cy + 1) * 2 ^ (32 * limbCount z.x) := by ring
    _ ≤ 2 ^ (32 * rest) * 2 ^ (32 * limbCount z.x) := Nat.mul_le_mul_right _ hbelow
    _ = 2 ^ (32 * (n + 1)) := by rw [← Nat.pow_add, hrest]; congr 1; omega

theorem Search.fits_first (a : Int) {m n : Nat} (hm : m < 2 ^ (32 * n)) (hpos : 0 < m) :
    Search.Fits { x := m, y := reduce a m, cx := 0, cy := 1 } n :=
  Search.fits_of_weight hm hpos (by simp) ((reduce_lt a hpos).trans (lt_limbCount m)) hm (Nat.two_pow_pos _)

/-- The next pair fits: its larger number is bounded by the modulus or by a number of no more limbs. -/
theorem Search.fits_next {z : Search} {m n : Nat} (hm : m < 2 ^ (32 * n)) (hpos : 0 < m) (hy : z.y < 2 ^ (32 * limbCount z.x))
    (hne : z.y ≠ 0) (hweight : z.x * z.cy + z.y * z.cx = m) (hnext : z.next.x * z.next.cy + z.next.y * z.next.cx = m) :
    z.next.Fits n := by
  have hxpos : 0 < z.x := by
    refine Nat.pos_of_ne_zero fun hzero => hne ?_
    have hcount : limbCount z.x = 0 := Nat.le_zero.1 (limbCount_le_iff.2 (by rw [hzero]; exact Nat.two_pow_pos _))
    rw [hcount] at hy
    omega
  have hcy : z.cy ≤ m := (Nat.le_mul_of_pos_left _ hxpos).trans (by omega)
  have hynext : z.y < 2 ^ (32 * n) := by
    by_cases hcx : z.cx = 0
    · have hcypos : 0 < z.cy := Nat.pos_of_ne_zero fun hzero => by simp [hcx, hzero] at hweight; omega
      have hx : z.x ≤ m := (Nat.le_mul_of_pos_right _ hcypos).trans (by omega)
      exact hy.trans_le (Nat.pow_le_pow_right (by decide) (Nat.mul_le_mul_left 32 (limbCount_le_iff.2 (hx.trans_lt hm))))
    · exact ((Nat.le_mul_of_pos_right _ (Nat.pos_of_ne_zero hcx)).trans (by omega)).trans_lt hm
  exact Search.fits_of_weight hm (Nat.pos_of_ne_zero hne) hnext
    ((Nat.mod_lt _ (Nat.pos_of_ne_zero hne)).trans (lt_limbCount z.y)) hynext (hcy.trans_lt hm)

/-! ### The steps of MODINV -/

theorem stepWork_modinv {s : State} {c : CommandRecord} {j : Record} (hkind : c.kind = .modinv) (hstep : 1 ≤ j.nextStep) :
    s.stepWork c j = Work.modinvStep { mem := s.mem, job := j } (s.value c.a) (s.value c.m) j.nextStep := by
  simp [State.stepWork, hkind, Nat.one_le_iff_ne_zero.1 hstep]

/-- The search at the end of a step of MODINV: the first pair, or the next one of the search before (R76). -/
def Work.searchAfter (w : Work) (a m : Value) (step : Nat) : Search :=
  if step = 1 then { x := m.mag, y := reduce a.toInt m.mag, cx := 0, cy := 1 } else w.search.next

theorem Work.modinvStep_eq (w : Work) (a m : Value) (step : Nat) :
    w.modinvStep a m step = w.recordSearch m (w.searchAfter a m step) step := by
  unfold Work.modinvStep Work.searchAfter
  split <;> rfl

/-- What a step of the search leaves in the working values; at the end of a search with divisor 1 WV0 holds the reduced
coefficient (R76). -/
theorem Work.recordSearch_spec {w : Work} {m : Value} {z : Search} (hm : Memory.wf w.mem) (hn : w.job.workPages.Nodup)
    (hroom0 : pg m.length ≤ w.job.wv0.pages.length) (hroom1 : pg m.length ≤ w.job.wv1.pages.length)
    (hroom2 : pg (m.length + 1) ≤ w.job.wv2.pages.length) (hfits : z.Fits m.length) (hpos : 0 < m.mag)
    (hmag : m.mag < 2 ^ (32 * m.length)) (step : Nat) :
    (w.recordSearch m z step).search =
      { z with cx := if z.y = 0 ∧ z.x = 1 then reduce (z.coefficient step) m.mag else z.cx } := by
  obtain ⟨hcx, hx, hy, hcy⟩ := hfits
  have hlaid : (w.setSearch m z).search = z := Work.search_setSearch hm hn hroom0 hroom1 hroom2 hcx hx hy hcy
  have hsep : (w.setSearch m z).Separate := (Work.separate_of_nodup hm hn).extends (w.extends_setSearch m z)
  unfold Work.recordSearch
  dsimp only
  split
  next =>
    have hpages : (w.setSearch m z).job.wv0.pages = w.job.wv0.pages := (w.extends_setSearch m z).pages .wv0
    have h0 := hsep.mag_self (i := .wv0) (x := reduce (z.coefficient step) m.mag) (len := m.length)
      (by rw [show ((w.setSearch m z).job.wv .wv0).pages = w.job.wv0.pages from hpages]; exact hroom0)
      ((reduce_lt _ hpos).trans hmag)
    have h1 := hsep.mag_other (i := .wv0) (k := .wv1) (by decide) (reduce (z.coefficient step) m.mag) m.length
    have h2 := hsep.mag_other (i := .wv0) (k := .wv2) (by decide) (reduce (z.coefficient step) m.mag) m.length
    unfold Work.search
    dsimp only
    rw [h0, h1, h2]
    exact congrArg (fun k : Search => { k with cx := reduce (z.coefficient step) m.mag }) hlaid
  next => exact hlaid

/-- The search at the end of a step fits and is sound, from what was true of the search before it. -/
theorem Work.searchAfter_spec {w : Work} {a m : Value} {i : Nat} (hmag : m.mag < 2 ^ (32 * m.length)) (hpos : 0 < m.mag) (hi : 1 ≤ i)
    (hbefore : 2 ≤ i → w.search.Sound a.toInt m.mag (i - 1) ∧ w.search.y ≠ 0) :
    (w.searchAfter a m i).Fits m.length ∧ (w.searchAfter a m i).Sound a.toInt m.mag i := by
  unfold Work.searchAfter
  split
  next hfirst =>
    rw [hfirst]
    exact ⟨Search.fits_first a.toInt hmag hpos, Search.sound_first a.toInt hpos⟩
  next hlater =>
    obtain ⟨hsound, hne⟩ := hbefore (by omega)
    have hnext := hsound.next
    rw [Nat.sub_add_cancel hi] at hnext
    exact ⟨Search.fits_next hmag hpos (Nat.mod_lt _ (Nat.two_pow_pos _)) hne hsound.weight hnext.weight, hnext⟩

/-- Settles O50. -/
theorem gcdAndInverseSearch : Obligations.GcdAndInverseSearch := by
  intro s c j hmem hnodup a b m w i x y z len
  have hsep : Work.Separate { mem := s.mem, job := j } := Work.separate_of_nodup hmem hnodup
  refine ⟨fun hkind hroom0 hroom1 hroom2 => ?gcd, fun hkind hpos hroom0 hroom1 hroom2 => ?modinv, fun v n => limbCount_le_iff⟩
  case gcd =>
    have hw : w = Work.gcdStep { mem := s.mem, job := j } a b i := stepWork_gcd hkind
    have hle (n : Nat) (hn : n ≤ max a.length b.length) : 2 ^ (32 * n) ≤ 2 ^ (32 * len) :=
      Nat.pow_le_pow_right (by decide) (by omega)
    refine ⟨fun hi => ?_, fun hi hy _ hybound => ?_, fun hlast => ?_⟩
    · rw [hw, hi]
      exact hsep.gcdStep_first_spec rfl ((value_mag_lt s c.a).trans_le (hle _ (Nat.le_max_left _ _)))
        ((value_mag_lt s c.b).trans_le (hle _ (Nat.le_max_right _ _))) hroom0 hroom1
    · obtain ⟨h0, h1⟩ := hsep.gcdStep_later_spec rfl hi hy hybound hroom0 hroom1 hroom2
      rw [← hw] at h0 h1
      refine ⟨h0, h1, ?_, by rw [h1]; exact Nat.mod_lt _ (Nat.pos_of_ne_zero hy)⟩
      rw [h0, h1]
      exact (Nat.gcd_comm _ _).trans ((Nat.gcd_rec _ _).symm.trans (Nat.gcd_comm _ _))
    · rw [(lastStep_gcd_iff w i).1 hlast, Nat.gcd_zero_right]
  case modinv =>
    intro place place' sound before found
    obtain ⟨w0, hw0⟩ : ∃ w0 : Work, w0 = { mem := s.mem, job := j } := ⟨_, rfl⟩
    have hmag : m.mag < 2 ^ (32 * m.length) := value_mag_lt s c.m
    have hpg : pg m.length ≤ pg (m.length + 1) := Nat.div_le_div_right (by omega)
    have hbefore (h : before) : w0.search.Sound a.toInt m.mag (i - 1) := by
      obtain ⟨h1, h2, h3, h4⟩ := h
      rw [hw0]
      exact ⟨h1, h2, h3, h4⟩
    have hne (h : z % place ≠ 0) : w0.search.y ≠ 0 := by rw [hw0]; exact h
    have hafter (hi : 1 ≤ i) (h : 2 ≤ i → before ∧ z % place ≠ 0) :
        w.search = { w0.searchAfter a m i with
          cx := if (w0.searchAfter a m i).y = 0 ∧ (w0.searchAfter a m i).x = 1
            then reduce ((w0.searchAfter a m i).coefficient i) m.mag else (w0.searchAfter a m i).cx } ∧
          (w0.searchAfter a m i).Sound a.toInt m.mag i := by
      obtain ⟨hfits, hsound⟩ := w0.searchAfter_spec hmag hpos hi fun hi2 => ⟨hbefore (h hi2).1, hne (h hi2).2⟩
      refine ⟨?_, hsound⟩
      have hw : w = w0.modinvStep a m i := by rw [hw0]; exact stepWork_modinv hkind hi
      rw [hw, w0.modinvStep_eq]
      rw [hw0] at hfits ⊢
      exact Work.recordSearch_spec (w := { mem := s.mem, job := j }) hmem hnodup (hpg.trans hroom0) (hpg.trans hroom1) hroom2 hfits hpos hmag i
    have hx : w.mag .wv1 = w.search.x := rfl
    have hy : w.mag .wv2 % place' = w.search.y := rfl
    have hcx : w.mag .wv0 = w.search.cx := rfl
    have hcy : w.mag .wv2 / place' = w.search.cy := rfl
    refine ⟨fun hi => ?_, fun hi => ?_, fun hi hbef hnz => ?_, fun hi h hnot => ?_, fun hi h hfound => ?_⟩
    · have hw : w = { mem := s.mem, job := j } := by simp [w, State.stepWork, hkind, show j.nextStep = 0 from hi]
      rw [hw]
      exact ⟨rfl, rfl⟩
    · obtain ⟨hsearch, -⟩ := hafter (by omega) (by omega)
      rw [hx, hy, hcx, hcy, hsearch, ← reduce_cast a.toInt hpos]
      simp [Work.searchAfter, hi, Search.coefficient, reduce]
    · obtain ⟨hsearch, -⟩ := hafter (by omega) fun _ => ⟨hbef, hnz⟩
      have hlater : w0.searchAfter a m i = w0.search.next := if_neg (by omega)
      rw [hx, hy, hsearch, hlater, hw0]
      exact ⟨rfl, rfl⟩
    · obtain ⟨hsearch, hsound⟩ := hafter hi h
      have hgoes : ¬ ((w0.searchAfter a m i).y = 0 ∧ (w0.searchAfter a m i).x = 1) := fun hend => hnot (by
        change w.search.y = 0 ∧ w.search.x = 1
        rwa [hsearch])
      rw [if_neg hgoes] at hsearch
      rw [hx, hy, hcx, hcy, hsearch]
      obtain ⟨h1, h2, h3, h4⟩ := hsound
      exact ⟨h1, h2, h3, h4⟩
    · obtain ⟨hsearch, hsound⟩ := hafter hi h
      have hends : (w0.searchAfter a m i).y = 0 ∧ (w0.searchAfter a m i).x = 1 := by
        have hend : w.search.y = 0 ∧ w.search.x = 1 := hfound
        rwa [hsearch] at hend
      rw [if_pos hends] at hsearch
      rw [hcx, hsearch]
      exact hsound.inverse hpos hends.2

end Sys2Proof.Machine
end
